-- ==== Sys2Proof/Word.lean ====
section
/-! DEFINITION. The word types of the Ozren package: bytes, 32- and 64-bit words, lane rows,
accumulator rows and predicates (08 R179 to R183, 19 R447). -/

namespace Sys2Proof

/-- A byte of any memory. -/
abbrev Byte := BitVec 8
/-- A scalar register, lane word or register of 32 bits. -/
abbrev Word := BitVec 32
/-- A register pair, device address or 64-bit register. -/
abbrev DWord := BitVec 64
/-- One row of the lane register file and one data-queue entry: lane l at bits 32l (R181, R187). -/
abbrev Row := BitVec 2048
/-- One row of an accumulator: column j at bits 32j (19 R447). -/
abbrev AccRow := BitVec 4096
/-- A predicate: bit 64k + l is row k, lane l (R183). -/
abbrev PBits := BitVec 1024

end Sys2Proof
end

