-- ==== Sys2Proof/Syntax.lean ====
section
/-! DEFINITION. The instructions and events of the Ozren package, one constructor for every row of
the opcode table, with the fields that 15 R336 to R353 give each word.  Register numbers, codes
and immediates keep the width of their field; a field that an instruction does not use has no
operand, or is an operand that WellFormed requires to be zero where several instructions share a
record of fields. -/

namespace Sys2Proof

/-- A firmware image as the boot ROM finds it in the flash (01 R39): whether it could be read, its security version, its
bytes and its signature. -/
structure FlashImage where
  ok      : Bool
  version : Nat
  bytes   : List Byte
  sig     : List Byte
  deriving DecidableEq, Repr

/-- What training and the chiplet tests of a boot find (01 R39, R40): the modules, by site and number, that train with
fewer than 64 lanes, the sites that fail their test, and the cause where training (4) or the scheduler chiplet's
self-test (5) fails. -/
structure BootTest where
  lanes  : List (Nat × Nat × Nat)
  failed : List Nat
  cause  : Nat
  deriving DecidableEq, Repr

/-- Storage in which a soft error is found (09 R223, R225): a 64-byte access of a buffer in HBM, a line of a cluster's L1
(its number is site times 32 plus cluster) or of a site's L2, or storage of the operand SRAM and of the cores that a
job reads. -/
inductive ErrAt
  | hbm (buf access : Nat)
  | l1 (cluster key : Nat)
  | l2 (site key : Nat)
  | job (site core : Nat)
  deriving DecidableEq, Repr

/-- The fields of a C64 word that vary (R339): scope, order, signed byte offset, second source,
base pair and destination or data. -/
structure MemArg where
  scope : BitVec 3
  order : BitVec 4
  imm   : BitVec 24
  aux   : BitVec 6
  base  : BitVec 6
  d     : BitVec 6
  deriving DecidableEq, Repr

/-- How a V64 opcode was written: the 64-bit form with its iteration flag (R346), or the 96-bit
stride form with its strides, level and iteration flag (R348). -/
inductive VExt
  | v64 (iter : BitVec 2)
  | v96 (sd sa sb : BitVec 8) (lvl : BitVec 3) (iter : BitVec 2)
  deriving DecidableEq, Repr

/-- The fields of a V64 word or of a V96 stride form (R346, R348). -/
structure VArg where
  guard : BitVec 4
  ty    : BitVec 4
  vd    : BitVec 12
  va    : BitVec 12
  vb    : BitVec 12
  dix   : BitVec 3
  aix   : BitVec 3
  bix   : BitVec 3
  ext   : VExt
  deriving DecidableEq, Repr

/-- The fields of a V96 immediate form (R348, R349); vb and bix are reserved in all of them. -/
structure VImm where
  guard : BitVec 4
  ty    : BitVec 4
  vd    : BitVec 12
  va    : BitVec 12
  dix   : BitVec 3
  aix   : BitVec 3
  iter  : BitVec 2
  imm   : BitVec 32
  deriving DecidableEq, Repr

/-- Dword 0 of a matrix step (R350). -/
structure MHead where
  scaled : Bool
  round  : BitVec 2
  int    : Bool
  fmtb   : BitVec 6
  fmta   : BitVec 6
  lvlen  : Bool
  lvl    : BitVec 3
  iter   : BitVec 2
  acc    : BitVec 2
  deriving DecidableEq, Repr

/-- An operand dword of a matrix word (R350, dwords 1 and 2). -/
structure MOpd where
  group : BitVec 6
  agen  : BitVec 2
  addr  : BitVec 20
  deriving DecidableEq, Repr

/-- Dword 3 of a matrix step: coded segments and scale sources (R350). -/
structure MScale where
  segnm1 : BitVec 2
  segf   : BitVec 2
  coded  : Bool
  scb    : BitVec 2
  sca    : BitVec 2
  deriving DecidableEq, Repr

/-- The fields of a drain: FMTA and ROUND of dword 0 and dwords 4 and 5 (R350, R351). -/
structure MOut where
  round   : BitVec 2
  fmta    : BitVec 6
  lvlen   : Bool
  lvl     : BitVec 3
  iter    : BitVec 2
  acc     : BitVec 2
  zs      : Bool
  dual    : Bool
  pack    : BitVec 4
  seedsel : BitVec 2
  dropen  : Bool
  resen   : Bool
  resaddr : BitVec 20
  dstsel  : BitVec 3
  dropth  : BitVec 8
  dst     : BitVec 20
  deriving DecidableEq, Repr

/-- The fields of a sort word (R352). -/
structure SArg where
  param : BitVec 9
  addrd : BitVec 18
  addra : BitVec 18
  nm1   : BitVec 7
  vals  : Bool
  desc  : Bool
  kfmt  : BitVec 4
  deriving DecidableEq, Repr

/-- The RV32IMC instructions of a side core (R196, R197); a compressed word is expanded to the
base instruction it stands for.  Branch and jump offsets count 2-byte units, as their encodings
hold them.  `ecall` and `ebreak` have rows of their own. -/
inductive RvOp
  | lui    (rd : BitVec 5) (imm : BitVec 20)
  | auipc  (rd : BitVec 5) (imm : BitVec 20)
  | jal    (rd : BitVec 5) (off : BitVec 20)
  | jalr   (rd rs1 : BitVec 5) (imm : BitVec 12)
  | branch (f3 : BitVec 3) (rs1 rs2 : BitVec 5) (off : BitVec 12)
  | load   (f3 : BitVec 3) (rd rs1 : BitVec 5) (imm : BitVec 12)
  | store  (f3 : BitVec 3) (rs1 rs2 : BitVec 5) (imm : BitVec 12)
  | opImm  (f3 : BitVec 3) (rd rs1 : BitVec 5) (imm : BitVec 12)
  | slli   (rd rs1 sh : BitVec 5)
  | srli   (rd rs1 sh : BitVec 5)
  | srai   (rd rs1 sh : BitVec 5)
  | op     (f3 : BitVec 3) (rd rs1 rs2 : BitVec 5)
  | sub    (rd rs1 rs2 : BitVec 5)
  | sra    (rd rs1 rs2 : BitVec 5)
  | mulDiv (f3 : BitVec 3) (rd rs1 rs2 : BitVec 5)
  | fence
  | fenceI
  deriving DecidableEq, Repr

/-- One row of the opcode table.  A stream instruction acts in the stream that the state's focus names; an
event concerns the numbered thing that the focus names, by the three numbers its row in
`notes/assumptions/12.md` gives, and holds what else the outside or a unit supplies.  The constructors with
operands stand first, in the table's order but for the events. -/
inductive Instr
  | add (d a b : BitVec 6)
  | sub (d a b : BitVec 6)
  | and (d a b : BitVec 6)
  | or (d a b : BitVec 6)
  | xor (d a b : BitVec 6)
  | andn (d a b : BitVec 6)
  | orn (d a b : BitVec 6)
  | sll (d a b : BitVec 6)
  | srl (d a b : BitVec 6)
  | sra (d a b : BitVec 6)
  | ror (d a b : BitVec 6)
  | mul (d a b : BitVec 6)
  | mulh (d a b : BitVec 6)
  | mulhu (d a b : BitVec 6)
  | div (d a b : BitVec 6)
  | divu (d a b : BitVec 6)
  | rem (d a b : BitVec 6)
  | remu (d a b : BitVec 6)
  | min (d a b : BitVec 6)
  | max (d a b : BitVec 6)
  | minu (d a b : BitVec 6)
  | maxu (d a b : BitVec 6)
  | slt (d a b : BitVec 6)
  | sltu (d a b : BitVec 6)
  | clz (d a : BitVec 6)
  | ctz (d a : BitVec 6)
  | popc (d a : BitVec 6)
  | brev (d a : BitVec 6)
  | addi (d a : BitVec 6) (imm : BitVec 12)
  | andi (d a : BitVec 6) (imm : BitVec 12)
  | ori (d a : BitVec 6) (imm : BitVec 12)
  | xori (d a : BitVec 6) (imm : BitVec 12)
  | slli (d a : BitVec 6) (sh : BitVec 5)
  | srli (d a : BitVec 6) (sh : BitVec 5)
  | srai (d a : BitVec 6) (sh : BitVec 5)
  | slti (d a : BitVec 6) (imm : BitVec 12)
  | sltiu (d a : BitVec 6) (imm : BitVec 12)
  | mini (d a : BitVec 6) (imm : BitVec 12)
  | maxi (d a : BitVec 6) (imm : BitVec 12)
  | padd (d a b : BitVec 6)
  | psub (d a b : BitVec 6)
  | paddw (d a b : BitVec 6)
  | pmov (d a : BitVec 6)
  | paddi (d a : BitVec 6) (imm : BitVec 12)
  | li (d : BitVec 6) (imm : BitVec 32)
  | ldB (m : MemArg)
  | ldBu (m : MemArg)
  | ldH (m : MemArg)
  | ldHu (m : MemArg)
  | ldW (m : MemArg)
  | ldD (m : MemArg)
  | stB (m : MemArg)
  | stH (m : MemArg)
  | stW (m : MemArg)
  | stD (m : MemArg)
  | amoadd (wide : Bool) (m : MemArg)
  | amoand (wide : Bool) (m : MemArg)
  | amoor (wide : Bool) (m : MemArg)
  | amoxor (wide : Bool) (m : MemArg)
  | amomin (wide : Bool) (m : MemArg)
  | amomax (wide : Bool) (m : MemArg)
  | amominu (wide : Bool) (m : MemArg)
  | amomaxu (wide : Bool) (m : MemArg)
  | amoswp (wide : Bool) (m : MemArg)
  | cas (m : MemArg)
  | casp (m : MemArg)
  | acq (m : MemArg)
  | rel (m : MemArg)
  | fence (m : MemArg)
  | beq (a b : BitVec 6) (off : BitVec 12)
  | bne (a b : BitVec 6) (off : BitVec 12)
  | blt (a b : BitVec 6) (off : BitVec 12)
  | bge (a b : BitVec 6) (off : BitVec 12)
  | bltu (a b : BitVec 6) (off : BitVec 12)
  | bgeu (a b : BitVec 6) (off : BitVec 12)
  | jmp (off : BitVec 12)
  | jal (a : BitVec 6) (off : BitVec 12)
  | jr (a : BitVec 6)
  | loop (a : BitVec 6) (bodyw : BitVec 14) (stg : BitVec 3) (id : BitVec 8) (max : BitVec 32)
  | loopw (a : BitVec 6) (bodyw : BitVec 14) (stg : BitVec 3) (id : BitVec 8) (max : BitVec 32)
  | rend (num : BitVec 4) (fin : Bool)
  | setf (flag : BitVec 5)
  | clrf (flag : BitVec 5)
  | waitf (flag : BitVec 5) (clear : Bool)
  | tkpost (tok : BitVec 4) (a : BitVec 6)
  | tkwait (tok : BitVec 4) (a : BitVec 6)
  | yield (num : BitVec 4)
  | nestw (idx : BitVec 5) (tbl : BitVec 2) (a : BitVec 6)
  | nestgo (tbl : BitVec 2)
  | launch (d a : BitVec 6)
  | launchContinuation (d a : BitVec 6)
  | capgive (d a : BitVec 6) (k : BitVec 5)
  | capdrop (d : BitVec 6) (k : BitVec 5)
  | capqry (d : BitVec 6) (k : BitVec 5) (part : Bool)
  | stg (a : BitVec 6)
  | stgdec (a : BitVec 6)
  | trap (code : BitVec 8)
  | rdsys (d : BitVec 6) (n : BitVec 12)
  | wrsys (a : BitVec 6) (n : BitVec 12)
  | rdtime (d : BitVec 6)
  | brk (code : BitVec 8)
  | vshape (v : BitVec 14)
  | vfmt (n : BitVec 6)
  | pand (pd pa pb : BitVec 4)
  | por (pd pa pb : BitVec 4)
  | pxor (pd pa pb : BitVec 4)
  | pandn (pd pa pb : BitVec 4)
  | pnot (pd pa : BitVec 4)
  | pmovPredicate (pd pa : BitVec 4)
  | pset (pd : BitVec 4)
  | pclr (pd : BitVec 4)
  | pcnt (ix : BitVec 3) (pa : BitVec 4)
  | vseq (nm1 : BitVec 6) (tbl : BitVec 1)
  | vSetf (flag : BitVec 5)
  | vClrf (flag : BitVec 5)
  | vWaitf (flag : BitVec 5) (clear : Bool)
  | vTkpost (tok : BitVec 4) (n : BitVec 16)
  | vTkwait (tok : BitVec 4) (n : BitVec 16)
  | vRend (num : BitVec 4) (fin : Bool)
  | vadd (v : VArg)
  | vsub (v : VArg)
  | vmul (v : VArg)
  | vmad (v : VArg)
  | vmin (v : VArg)
  | vmax (v : VArg)
  | vabs (v : VArg)
  | vneg (v : VArg)
  | vand (v : VArg)
  | vor (v : VArg)
  | vxor (v : VArg)
  | vshl (v : VArg)
  | vshr (v : VArg)
  | vsra (v : VArg)
  | vrcp (v : VArg)
  | vrsq (v : VArg)
  | vexp2 (v : VArg)
  | vlog2 (v : VArg)
  | vtanh (v : VArg)
  | vcmp (v : VArg)
  | vredsum (v : VArg)
  | vredmax (v : VArg)
  | vredmin (v : VArg)
  | vperm (v : VArg)
  | vxpose (v : VArg)
  | vbcast (v : VArg)
  | vmovs (v : VArg)
  | vpart (v : VArg)
  | vcompact (v : VArg)
  | vgath (v : VArg)
  | vscat (v : VArg)
  | vpop (v : VArg)
  | vpush (v : VArg)
  | vcvt (v : VArg)
  | vqnt (v : VArg)
  | vdqnt (v : VArg)
  | unpk3 (v : VArg)
  | vdot4 (v : VArg)
  | vpack (v : VArg)
  | vunpk (v : VArg)
  | vlds (v : VImm)
  | vsts (v : VImm)
  | vfill (v : VImm)
  | vrng (v : VImm)
  | vpatx (v : VImm)
  | mseq (tbl : BitVec 1)
  | mstep (h : MHead) (a b : MOpd) (t : MScale)
  | mspz (h : MHead) (a b : MOpd) (t : MScale)
  | mbsp (h : MHead) (a b : MOpd) (t : MScale)
  | mzero (acc : BitVec 2) (lvlen : Bool) (lvl : BitVec 3) (iter : BitVec 2)
  | mscl (acc : BitVec 2) (a : MOpd)
  | mdtab (addr : BitVec 20) (tslot : BitVec 3)
  | mdrain (o : MOut)
  | mSetf (flag : BitVec 5)
  | mClrf (flag : BitVec 5)
  | mWaitf (flag : BitVec 5) (clear : Bool)
  | mTkpost (tok : BitVec 4) (n : BitVec 16)
  | mTkwait (tok : BitVec 4) (n : BitVec 16)
  | mRend (num : BitVec 4) (fin : Bool)
  | ksort (k : SArg)
  | kmerge (k : SArg)
  | ktopk (k : SArg)
  | khist (k : SArg)
  | kroute (k : SArg)
  | kSetf (flag : BitVec 5)
  | kClrf (flag : BitVec 5)
  | kWaitf (flag : BitVec 5) (clear : Bool)
  | kTkpost (tok : BitVec 4) (n : BitVec 16)
  | kTkwait (tok : BitVec 4) (n : BitVec 16)
  | kRend (num : BitVec 4) (fin : Bool)
  | aqPush (rs1 : BitVec 5)
  | aqStat (rd rs1 : BitVec 5)
  | tkPost (tok : BitVec 4) (rs1 : BitVec 5)
  | tkWait (tok : BitVec 4) (rs1 : BitVec 5)
  | cycRd (rd : BitVec 5) (hi : Bool)
  | lqCfg (q : BitVec 2) (rs1 : BitVec 5)
  | stgIssue (rs1 : BitVec 5)
  | stgDec (rs1 : BitVec 5)
  | ebreak (compressed : Bool)
  | illegalEncoding (sub : BitVec 8)
  | rv32imcBaseInstruction (compressed : Bool) (op : RvOp)
  | coldReset (straps : Nat)
  | warmReset (straps : Nat)
  | packageReset (value : Nat)
  | bootReady (images : List FlashImage) (key : List Byte) (found : BootTest)
  | peerStageAccess (buf off len : Nat) (data : Option (List Byte))
  | peerRemoteAtomic (buf off n op arg expect : Nat)
  | peerGrantRequest (part slot rights size attr : Nat) (big : Bool)
  | peerGrantResponse (ok : Bool)
  | coolantConditionChange (rate : Nat)
  | hostLinkTraining (up cxl : Bool) (width rate : Nat)
  | hostIsoWrite (v : Nat)
  | vfBindWrite (v : Nat)
  | queueEnable (cfg : Nat)
  | queueNotify (v : Nat)
  | queueResume (v : Nat)
  | extAdd (cmd : Nat)
  | extRelease (cmd : Nat)
  | hostReadShared (addr : Nat)
  | hostReadOwnership (addr : Nat)
  | hostWriteback (addr : Nat) (data : List Byte) (keep : Bool)
  | hostMemWrite (addr : Nat) (data : List Byte)
  | bisnpResponse (data : List Byte)
  | gSlicedWrite (v : Nat)
  | pGroupWrite (v : Nat)
  | gSitesWrite (v : Nat)
  | pPluginWrite (v : Nat)
  | fdescWrite (v : Nat)
  | attemptFailure (att cause tcause eng : Nat)
  | patrolScrub (found : List (ErrAt × Nat))
  | firmwareRetest (kind : Nat) (recurs : Bool)
  | cselWrite (v : Nat)
  | profCtlWrite (v : Nat)
  | ringConfigWrite (ring off v : Nat)
  | debugAttachWrite (v : Nat)
  | registerWrite (space fn off size v : Nat)
  | ucieRetrainComplete (lanes rate : Nat)
  | ucieRetrainTimeout (lost : Nat)
  | peerLinkTraining (lanes : Nat)
  | scalarLoadArrival
  | stageLoad
  | stageStore
  | stageQnt
  | stageHash
  | stageScl
  | stageDecode
  | pDbgenWrite (v : Nat)
  | bar
  | halt
  | nop
  | vHalt
  | vNop
  | mend
  | mHalt
  | mnop
  | kHalt
  | ecall
  | pfFunctionLevelReset
  | configRequestRetry
  | clusterRetire
  | chipletSharedLogicFailure
  | memChipletFailure
  | allUcieModulesDown
  | schFailure
  | ucieLaneFailure
  | ucieRetrain
  | peerLinkLoss
  | hostLinkDown
  | vfEnableSet
  | vfEnableClear
  | functionLevelReset
  | linkFunctionReset
  | flrCompletion
  | migTrackStart
  | migTrackStop
  | migQuiesce
  | queueQuiesced
  | migExport
  | migImport
  | migResume
  | migHarvest
  | queueDisable
  | writeIndexWordRead
  | nopPacket
  | graphLaunch
  | nodeLaunch
  | bufCreate
  | bufRelease
  | capGrant
  | signal
  | waitPacket
  | waitTest
  | measureOpen
  | receipt
  | receiptSnapshot
  | receiptWritten
  | receiptTokenRefill
  | energySet
  | reservedPacketType
  | packetCompletion
  | extAddComplete
  | extReleaseComplete
  | recallTimeout
  | graphAdmission
  | dispatchDecision
  | pluginTimeout
  | pluginFault
  | coreReadyReport
  | streamStart
  | slipFault
  | stretchLevelApply
  | energyRefillTick
  | sliceExpiry
  | graceExpiry
  | tenantSwitchSaveComplete
  | attemptRetirement
  | launchedDescriptorCheck
  | deadlineFault
  | tahrTakeTrap
  | trapResolved
  | loaderDescriptorIssue
  | lqRowArrival
  | storerDescriptorIssue
  | sideCoreHeldRelease
  | stageTransferComplete
  | cdataRead
  | profCtlClr
  | pcSample
  | counterFlush
  | reuseRegisterExpiry
  | debugHalt
  | debugResume
  | debugStep
  | debugRead
  | debugWrite
  | watchpointImpreciseStop
  | flitCrcError
  deriving DecidableEq, Repr

end Sys2Proof
end

