-- ==== Sys2Proof/WellFormed.lean ====
section
/-! DEFINITION. Which instructions are words the encoding admits (15 R337 to R353).  The three
checks are the three subcodes of R337 that concern operand values: a reserved operand that is not
zero (SUB 2), a reserved value in a defined field (SUB 3), and an odd register in a pair field or a
register group that is not a multiple of 4 (SUB 4). -/

namespace Sys2Proof

/-- What an operand field of a V64 or V96 word names (R347, R402). -/
inductive VRole
  | tile | row | none | pred | lane | queue
  deriving DecidableEq, Repr

/-- An opcode of the V64 map: its number, the types it allows and its three operand fields (R347). -/
structure VSpec where
  op    : Nat
  types : List Nat
  d     : VRole
  a     : VRole
  b     : VRole
  deriving DecidableEq, Repr

/-- Type codes 0 to 5 (R346). -/
def allTypes : List Nat := [0, 1, 2, 3, 4, 5]

/-- The V64 opcode map (R347). -/
def Instr.vspec : Instr → Option (VSpec × VArg)
  | .vadd v => some (⟨0x01, allTypes, .tile, .tile, .tile⟩, v)
  | .vsub v => some (⟨0x02, allTypes, .tile, .tile, .tile⟩, v)
  | .vmul v => some (⟨0x03, allTypes, .tile, .tile, .tile⟩, v)
  | .vmad v => some (⟨0x04, allTypes, .tile, .tile, .tile⟩, v)
  | .vmin v => some (⟨0x05, allTypes, .tile, .tile, .tile⟩, v)
  | .vmax v => some (⟨0x06, allTypes, .tile, .tile, .tile⟩, v)
  | .vabs v => some (⟨0x07, [0, 2, 3, 4, 5], .tile, .tile, .none⟩, v)
  | .vneg v => some (⟨0x08, [0, 2, 3, 4, 5], .tile, .tile, .none⟩, v)
  | .vand v => some (⟨0x09, [0, 1], .tile, .tile, .tile⟩, v)
  | .vor v => some (⟨0x0A, [0, 1], .tile, .tile, .tile⟩, v)
  | .vxor v => some (⟨0x0B, [0, 1], .tile, .tile, .tile⟩, v)
  | .vshl v => some (⟨0x0C, [0, 1, 5], .tile, .tile, .tile⟩, v)
  | .vshr v => some (⟨0x0D, [0, 1, 5], .tile, .tile, .tile⟩, v)
  | .vsra v => some (⟨0x0E, [0, 1, 5], .tile, .tile, .tile⟩, v)
  | .vrcp v => some (⟨0x0F, [2, 3, 4], .tile, .tile, .none⟩, v)
  | .vrsq v => some (⟨0x10, [2, 3, 4], .tile, .tile, .none⟩, v)
  | .vexp2 v => some (⟨0x11, [2, 3, 4], .tile, .tile, .none⟩, v)
  | .vlog2 v => some (⟨0x12, [2, 3, 4], .tile, .tile, .none⟩, v)
  | .vtanh v => some (⟨0x13, [2, 3, 4], .tile, .tile, .none⟩, v)
  | .vcmp v => some (⟨0x14, allTypes, .pred, .tile, .tile⟩, v)
  | .vredsum v => some (⟨0x15, allTypes, .row, .tile, .none⟩, v)
  | .vredmax v => some (⟨0x16, allTypes, .row, .tile, .none⟩, v)
  | .vredmin v => some (⟨0x17, allTypes, .row, .tile, .none⟩, v)
  | .vperm v => some (⟨0x18, [0, 1, 2], .tile, .tile, .tile⟩, v)
  | .vxpose v => some (⟨0x19, [0, 1, 2], .tile, .tile, .none⟩, v)
  | .vbcast v => some (⟨0x1A, [0, 1, 2], .tile, .row, .lane⟩, v)
  | .vmovs v => some (⟨0x1B, [0, 1], .tile, .tile, .none⟩, v)
  | .vpart v => some (⟨0x1C, [0, 1], .tile, .tile, .none⟩, v)
  | .vcompact v => some (⟨0x1D, [0, 1], .tile, .tile, .none⟩, v)
  | .vgath v => some (⟨0x1E, allTypes, .tile, .tile, .tile⟩, v)
  | .vscat v => some (⟨0x1F, allTypes, .tile, .tile, .tile⟩, v)
  | .vpop v => some (⟨0x20, [0], .tile, .queue, .none⟩, v)
  | .vpush v => some (⟨0x21, [0], .queue, .tile, .none⟩, v)
  | .vcvt v => some (⟨0x22, allTypes, .tile, .tile, .none⟩, v)
  | .vqnt v => some (⟨0x23, [2], .tile, .tile, .tile⟩, v)
  | .vdqnt v => some (⟨0x24, [2], .tile, .tile, .tile⟩, v)
  | .unpk3 v => some (⟨0x25, [0], .tile, .tile, .none⟩, v)
  | .vdot4 v => some (⟨0x26, [0, 1], .tile, .tile, .tile⟩, v)
  | .vpack v => some (⟨0x27, [0, 1], .tile, .tile, .none⟩, v)
  | .vunpk v => some (⟨0x28, [0, 1], .tile, .tile, .none⟩, v)
  | _ => none

/-- An immediate form of the V96 map (R349): opcode, whether va is used, and its fields. -/
def Instr.vimm : Instr → Option (Nat × Bool × VImm)
  | .vlds v => some (0x30, true, v)
  | .vsts v => some (0x31, false, v)
  | .vfill v => some (0x32, false, v)
  | .vrng v => some (0x33, true, v)
  | .vpatx v => some (0x34, true, v)
  | _ => none

/-- The reserved bits of an operand field with its index field and its stride (R347, R402). -/
def VRole.reservedZero (r : VRole) (x : BitVec 12) (ix : BitVec 3) (s : BitVec 8) : Bool :=
  match r with
  | .tile  => true
  | .row   => s == 0
  | .none  => x == 0 && ix == 0 && s == 0
  | .pred  => x.toNat / 128 == 0 && ix == 0 && s == 0
  | .lane  => x.toNat / 64 == 0 && ix == 0 && s == 0
  | .queue => x.toNat / 4 == 0 && ix == 0 && s == 0

/-- The strides of a word; a V64 word has none (R181). -/
def VExt.strides : VExt → BitVec 8 × BitVec 8 × BitVec 8
  | .v64 _ => (0, 0, 0)
  | .v96 sd sa sb _ _ => (sd, sa, sb)

/-- The iteration flag and level of a V64 or V96 word are legal (R195, R348). -/
def VExt.valuesOk : VExt → Bool
  | .v64 it => it != 3
  | .v96 _ _ _ lvl it => it != 3 && lvl.toNat ≤ 5

def VArg.reservedZero (sp : VSpec) (v : VArg) : Bool :=
  sp.d.reservedZero v.vd v.dix v.ext.strides.1 &&
  sp.a.reservedZero v.va v.aix v.ext.strides.2.1 &&
  sp.b.reservedZero v.vb v.bix v.ext.strides.2.2

/-- Guard, type, iteration flag and level, and for a predicate destination its condition and
number (R337, R411). -/
def VArg.valuesOk (sp : VSpec) (v : VArg) : Bool :=
  v.guard.toNat ≤ 12 && sp.types.contains v.ty.toNat && v.ext.valuesOk &&
  (sp.d != .pred || (v.vd.toNat / 16 % 8 != 7 && decide (v.vd.toNat % 16 < 12)))

/-- A predicate destination is even (R411). -/
def VArg.regsOk (sp : VSpec) (v : VArg) : Bool :=
  sp.d != .pred || v.vd.toNat % 2 == 0

def VImm.reservedZero (op : Nat) (usesA : Bool) (v : VImm) : Bool :=
  (usesA || (v.va == 0 && v.aix == 0)) &&
  ((op != 0x30 && op != 0x31) || v.imm.toNat % 256 == 0)

def VImm.valuesOk (v : VImm) : Bool :=
  v.guard.toNat ≤ 12 && [0, 1, 2].contains v.ty.toNat && v.iter != 3

/-- Even register (R179). -/
def evenReg (r : BitVec 6) : Bool := r.toNat % 2 == 0

/-- Scope 0 to 5 and failure order 0 (R227, R228). -/
def MemArg.scopeOk (m : MemArg) : Bool := m.scope.toNat ≤ 5

/-- The orders of a load: relaxed or acquire (R228). -/
def MemArg.loadOk (m : MemArg) : Bool := m.scopeOk && (m.order == 0 || m.order == 1)

/-- The orders of a store: relaxed or release (R228). -/
def MemArg.storeOk (m : MemArg) : Bool := m.scopeOk && (m.order == 0 || m.order == 2)

/-- The orders of an atomic: any, with no failure order (R228). -/
def MemArg.amoOk (m : MemArg) : Bool := m.scopeOk && m.order.toNat ≤ 3

/-- The orders of a compare-and-swap: any, with failure order 0 or 1 (R228). -/
def MemArg.casOk (m : MemArg) : Bool := m.scopeOk && m.order.toNat ≤ 7

/-- Base pair even, and d and aux even where the access is of a pair (R343). -/
def MemArg.regsOk (pairD pairAux : Bool) (m : MemArg) : Bool :=
  evenReg m.base && (!pairD || evenReg m.d) && (!pairAux || evenReg m.aux)

/-- The level and iteration flag of a matrix word (R350). -/
def mIterOk (lvl : BitVec 3) (iter : BitVec 2) : Bool := lvl.toNat ≤ 5 && iter != 3

/-- What an integer step, and an unscaled step, reserve (R447, R449). -/
def mStepReserved (h : MHead) (t : MScale) : Bool :=
  (!h.int || (h.round == 0 && !h.scaled)) && (h.scaled || (t.sca == 0 && t.scb == 0))

/-- The values of a step's fields (R350). -/
def mStepValues (h : MHead) (a b : MOpd) (t : MScale) : Bool :=
  h.round != 3 && mIterOk h.lvl h.iter && a.agen.toNat ≤ 1 && b.agen.toNat ≤ 1 &&
  t.sca != 3 && t.scb != 3 && (!t.coded || t.segf.toNat + t.segnm1.toNat + 1 ≤ 4)

/-- Operands that the instruction reserves are zero (R337, SUB 2).  An instruction without an arm
has no operand that its encoding reserves. -/
def Instr.reservedZero (i : Instr) : Bool :=
  match i with
  | .ldB m | .ldBu m | .ldH m | .ldHu m | .ldW m | .ldD m
  | .stB m | .stH m | .stW m | .stD m => m.aux == 0
  | .acq m => m.order == 0
  | .rel m => m.aux == 0 && m.order == 0
  | .fence m => m.aux == 0 && m.order == 0 && m.base == 0 && m.d == 0 && m.imm == 0
  | .mstep h _ _ t | .mbsp h _ _ t => mStepReserved h t
  | .mspz h _ _ t => mStepReserved h t && !t.coded
  | .ksort k => k.param == 0
  | .kmerge k => k.param.toNat / 128 == 0
  | .ktopk k => k.param.toNat / 256 == 0 || k.param.toNat / 64 % 4 == 0
  | .khist k | .kroute k => !k.desc
  | i =>
    match i.vspec, i.vimm with
    | some (sp, v), _ => v.reservedZero sp
    | none, some (op, ua, v) => v.reservedZero op ua
    | none, none => true

/-- Defined fields hold no reserved value (R337, SUB 3). -/
def Instr.valuesOk (i : Instr) : Bool :=
  match i with
  | .ldB m | .ldBu m | .ldH m | .ldHu m | .ldW m | .ldD m => m.loadOk
  | .stB m | .stH m | .stW m | .stD m => m.storeOk
  | .amoadd _ m | .amoand _ m | .amoor _ m | .amoxor _ m | .amomin _ m | .amomax _ m
  | .amominu _ m | .amomaxu _ m | .amoswp _ m => m.amoOk
  | .cas m | .casp m => m.casOk
  | .acq m | .rel m | .fence m => m.scopeOk
  | .loop _ bodyw _ _ _ | .loopw _ bodyw _ _ _ => bodyw != 0
  | .pand pd pa pb | .por pd pa pb | .pxor pd pa pb | .pandn pd pa pb =>
      pd.toNat ≤ 11 && pa.toNat ≤ 11 && pb.toNat ≤ 11
  | .pnot pd pa | .pmovPredicate pd pa => pd.toNat ≤ 11 && pa.toNat ≤ 11
  | .pset pd | .pclr pd => pd.toNat ≤ 11
  | .pcnt _ pa => pa.toNat ≤ 11
  | .mstep h a b t | .mspz h a b t | .mbsp h a b t => mStepValues h a b t
  | .mzero _ _ lvl iter => mIterOk lvl iter
  | .mscl _ a => a.agen.toNat ≤ 1
  | .mdrain o => o.round != 3 && mIterOk o.lvl o.iter && o.pack.toNat ≤ 3 &&
      (o.dstsel == 0 || 4 ≤ o.dstsel.toNat)
  | .ksort k | .kmerge k | .ktopk k | .khist k => k.kfmt.toNat ≤ 3
  | .kroute k => k.kfmt == 1
  | i =>
    match i.vspec, i.vimm with
    | some (sp, v), _ => v.valuesOk sp
    | none, some (_, _, v) => v.valuesOk
    | none, none => true

/-- Pair fields name even registers and register groups multiples of 4 (R337, SUB 4). -/
def Instr.regsOk (i : Instr) : Bool :=
  match i with
  | .padd d a b | .psub d a b => evenReg d && evenReg a && evenReg b
  | .paddw d a _ | .pmov d a | .paddi d a _ => evenReg d && evenReg a
  | .ldB m | .ldBu m | .ldH m | .ldHu m | .ldW m => m.regsOk false false
  | .stB m | .stH m | .stW m => m.regsOk false false
  | .ldD m | .stD m | .acq m | .rel m => m.regsOk true false
  | .amoadd w m | .amoand w m | .amoor w m | .amoxor w m | .amomin w m | .amomax w m
  | .amominu w m | .amomaxu w m | .amoswp w m => m.regsOk w w
  | .cas m => m.regsOk false false
  | .casp m => m.regsOk true true
  | .launch _ a | .launchContinuation _ a => evenReg a
  | .capqry d _ _ | .rdtime d => evenReg d
  | .stg a | .stgdec a => a.toNat % 4 == 0
  | i =>
    match i.vspec with
    | some (sp, v) => v.regsOk sp
    | none => true

/-- A RISC-V operation whose fields name an RV32IM encoding (R196). -/
def RvOp.ok : RvOp → Bool
  | .branch f3 _ _ _ => f3 != 2 && f3 != 3
  | .load f3 _ _ _ => [0, 1, 2, 4, 5].contains f3.toNat
  | .store f3 _ _ _ => f3.toNat ≤ 2
  | .opImm f3 _ _ _ => f3 != 1 && f3 != 5
  | _ => true

/-- The instruction is one that some word of its stream encodes: no subcode of R337 applies, and
it is not the trap an illegal word stands for. -/
def Instr.WellFormed (i : Instr) : Bool :=
  match i with
  | .illegalEncoding _ => false
  | .rv32imcBaseInstruction _ op => op.ok
  | i => i.reservedZero && i.valuesOk && i.regsOk

end Sys2Proof
end

