-- ==== Sys2Proof/Decode.lean ====
section
/-! DEFINITION. Decoding of the five word families (15 R336 to R353, 08 R196, R197) from the bytes of
a stream's section, total on any bytes: a word that the encoding does not define decodes to
`illegalEncoding` with the subcode of R337.  The encoder follows, from the same tables. -/

namespace Sys2Proof

/-- Bits [lo + n - 1 : lo] of a word. -/
def fld (w lo n : Nat) : Nat := w / 2 ^ lo % 2 ^ n

/-- A field as a bit vector. -/
def bf (w lo n : Nat) : BitVec n := BitVec.ofNat n (w / 2 ^ lo)

/-- A one-bit field. -/
def bit (w lo : Nat) : Bool := w / 2 ^ lo % 2 == 1

/-- Bytes as one number, the first byte least significant (R336). -/
def leNat : List Byte → Nat
  | [] => 0
  | b :: bs => b.toNat + 256 * leNat bs

/-- The first n bytes of a number, least significant first. -/
def leBytes : Nat → Nat → List Byte
  | 0, _ => []
  | n + 1, w => BitVec.ofNat 8 w :: leBytes n (w / 256)

/-- R337: the verdict on a word whose opcode names c (none: a reserved opcode, SUB 1) and whose
remaining reserved bits hold a one or not. -/
def judge (c : Option Instr) (res : Bool) : Instr :=
  match c with
  | none => .illegalEncoding 1
  | some i =>
    if res || !i.reservedZero then .illegalEncoding 2
    else if !i.valuesOk then .illegalEncoding 3
    else if !i.regsOk then .illegalEncoding 4
    else i

/-- An opcode's instruction with the reserved bits of its word. -/
abbrev Cand := Option (Instr × Nat)

/-- R337 on a candidate: the second component collects the reserved bits. -/
def judgeCand (c : Cand) : Instr :=
  match c with
  | none => .illegalEncoding 1
  | some (i, res) => judge (some i) (res != 0)

/-- What a fetch at a program counter gives (R336): the section ends first, or a word of so many
bytes. -/
inductive Fetched
  | overrun
  | word (i : Instr) (len : Nat)
  deriving DecidableEq, Repr

/-! Control stream -/

/-- The ALU family (R342). -/
def aluInstr (fn : Nat) (d a b : BitVec 6) : Cand :=
  match fn with
  | 0x00 => some (.add d a b, 0)
  | 0x01 => some (.sub d a b, 0)
  | 0x02 => some (.and d a b, 0)
  | 0x03 => some (.or d a b, 0)
  | 0x04 => some (.xor d a b, 0)
  | 0x05 => some (.andn d a b, 0)
  | 0x06 => some (.orn d a b, 0)
  | 0x07 => some (.sll d a b, 0)
  | 0x08 => some (.srl d a b, 0)
  | 0x09 => some (.sra d a b, 0)
  | 0x0A => some (.ror d a b, 0)
  | 0x0B => some (.mul d a b, 0)
  | 0x0C => some (.mulh d a b, 0)
  | 0x0D => some (.mulhu d a b, 0)
  | 0x0E => some (.div d a b, 0)
  | 0x0F => some (.divu d a b, 0)
  | 0x10 => some (.rem d a b, 0)
  | 0x11 => some (.remu d a b, 0)
  | 0x12 => some (.min d a b, 0)
  | 0x13 => some (.max d a b, 0)
  | 0x14 => some (.minu d a b, 0)
  | 0x15 => some (.maxu d a b, 0)
  | 0x16 => some (.slt d a b, 0)
  | 0x17 => some (.sltu d a b, 0)
  | 0x18 => some (.clz d a, b.toNat)
  | 0x19 => some (.ctz d a, b.toNat)
  | 0x1A => some (.popc d a, b.toNat)
  | 0x1B => some (.brev d a, b.toNat)
  | _ => none

/-- A 32-bit control word (R338, R341). -/
def c32Instr (w : Nat) : Cand :=
  let d := bf w 8 6
  let a := bf w 14 6
  let b := bf w 20 6
  let fn := fld w 26 6
  let imm := bf w 20 12
  match fld w 2 6 with
  | 0x01 => aluInstr fn d a b
  | 0x02 => some (.addi d a imm, 0)
  | 0x03 => some (.andi d a imm, 0)
  | 0x04 => some (.ori d a imm, 0)
  | 0x05 => some (.xori d a imm, 0)
  | 0x06 => some (.slli d a (bf w 20 5), fld w 25 7)
  | 0x07 => some (.srli d a (bf w 20 5), fld w 25 7)
  | 0x08 => some (.srai d a (bf w 20 5), fld w 25 7)
  | 0x09 => some (.slti d a imm, 0)
  | 0x0A => some (.sltiu d a imm, 0)
  | 0x0B => some (.mini d a imm, 0)
  | 0x0C => some (.maxi d a imm, 0)
  | 0x0D =>
    match fn with
    | 0 => some (.padd d a b, 0)
    | 1 => some (.psub d a b, 0)
    | 2 => some (.paddw d a b, 0)
    | 3 => some (.pmov d a, b.toNat)
    | _ => none
  | 0x0E => some (.paddi d a imm, 0)
  | 0x10 => some (.beq d a imm, 0)
  | 0x11 => some (.bne d a imm, 0)
  | 0x12 => some (.blt d a imm, 0)
  | 0x13 => some (.bge d a imm, 0)
  | 0x14 => some (.bltu d a imm, 0)
  | 0x15 => some (.bgeu d a imm, 0)
  | 0x16 => some (.jmp imm, fld w 8 12)
  | 0x17 => some (.jal d imm, a.toNat)
  | 0x18 => some (.jr a, d.toNat + fld w 20 12)
  | 0x19 => some (.bar, fld w 8 24)
  | 0x1A => some (.rend (bf w 20 4) (bit w 24), fld w 8 12 + fld w 25 7)
  | 0x1B => some (if bit w 25 then .setf (bf w 20 5) else .clrf (bf w 20 5), fld w 8 12 + fld w 26 6)
  | 0x1C => some (.waitf (bf w 20 5) (bit w 25), fld w 8 12 + fld w 26 6)
  | 0x1D => some (.tkpost (bf w 20 4) a, d.toNat + fld w 24 8)
  | 0x1E => some (.tkwait (bf w 20 4) a, d.toNat + fld w 24 8)
  | 0x1F => some (.yield (bf w 20 4), fld w 8 12 + fld w 24 8)
  | 0x20 => some (.halt, fld w 8 24)
  | 0x21 => some (.nestw (bf w 20 5) (bf w 25 2) a, d.toNat + fld w 27 5)
  | 0x22 => some (.nestgo (bf w 20 2), fld w 8 12 + fld w 22 10)
  | 0x23 =>
    match fn with
    | 0 => some (.launch d a, b.toNat)
    | 1 => some (.launchContinuation d a, b.toNat)
    | _ => none
  | 0x24 => some (.capgive d a (bf w 20 5), fld w 25 7)
  | 0x25 => some (.capdrop d (bf w 20 5), a.toNat + fld w 25 7)
  | 0x26 => some (.capqry d (bf w 20 5) (bit w 25), a.toNat + fld w 26 6)
  | 0x27 =>
    match fn with
    | 0 => some (.stg a, d.toNat + b.toNat)
    | 1 => some (.stgdec a, d.toNat + b.toNat)
    | _ => none
  | 0x28 => some (.trap (bf w 20 8), fld w 8 12 + fld w 28 4)
  | 0x29 => some (.rdsys d imm, a.toNat)
  | 0x2A => some (.wrsys a imm, d.toNat)
  | 0x2B => some (.rdtime d, fld w 14 18)
  | 0x2C => some (.brk (bf w 20 8), fld w 8 12 + fld w 28 4)
  | 0x2D => some (.nop, fld w 8 24)
  | _ => none

/-- The fields of a C64 word (R339). -/
def memArgOf (w : Nat) : MemArg :=
  { scope := bf w 60 3, order := bf w 56 4, imm := bf w 32 24, aux := bf w 26 6,
    base := bf w 14 6, d := bf w 8 6 }

/-- The atomic of size/fn bits [3:0] (R343). -/
def amoInstr (fn : Nat) (wide : Bool) (m : MemArg) : Option Instr :=
  match fn with
  | 0 => some (.amoadd wide m)
  | 1 => some (.amoand wide m)
  | 2 => some (.amoor wide m)
  | 3 => some (.amoxor wide m)
  | 4 => some (.amomin wide m)
  | 5 => some (.amomax wide m)
  | 6 => some (.amominu wide m)
  | 7 => some (.amomaxu wide m)
  | 8 => some (.amoswp wide m)
  | _ => none

/-- A 64-bit control word (R339, R343): bit 63 is reserved. -/
def c64Instr (w : Nat) : Cand :=
  let m := memArgOf w
  let sz := fld w 20 6
  match fld w 2 6 with
  | 0x01 =>
    match sz with
    | 0 => some (.ldB m, fld w 63 1)
    | 1 => some (.ldBu m, fld w 63 1)
    | 2 => some (.ldH m, fld w 63 1)
    | 3 => some (.ldHu m, fld w 63 1)
    | 4 => some (.ldW m, fld w 63 1)
    | 5 => some (.ldD m, fld w 63 1)
    | _ => none
  | 0x02 =>
    match sz with
    | 0 => some (.stB m, fld w 63 1)
    | 1 => some (.stH m, fld w 63 1)
    | 2 => some (.stW m, fld w 63 1)
    | 3 => some (.stD m, fld w 63 1)
    | _ => none
  | 0x03 => (amoInstr (sz % 16) (bit w 24) m).map fun i => (i, fld w 25 1 + fld w 63 1)
  | 0x04 =>
    match sz with
    | 0 => some (.cas m, fld w 63 1)
    | 1 => some (.casp m, fld w 63 1)
    | _ => none
  | 0x05 => some (.acq m, sz + fld w 63 1)
  | 0x06 => some (.rel m, sz + fld w 63 1)
  | 0x07 => some (.fence m, sz + fld w 63 1)
  | _ => none

/-- A 96-bit control word (R340, R344). -/
def c96Instr (w : Nat) : Cand :=
  let d := bf w 8 6
  let a := bf w 14 6
  match fld w 2 6 with
  | 0x01 => some (.li d (bf w 64 32), fld w 14 18 + fld w 32 32)
  | 0x02 => some (.loop a (bf w 32 14) (bf w 48 3) (bf w 56 8) (bf w 64 32),
      fld w 8 6 + fld w 20 12 + fld w 46 2 + fld w 51 5)
  | 0x03 => some (.loopw a (bf w 32 14) (bf w 48 3) (bf w 56 8) (bf w 64 32),
      fld w 8 6 + fld w 20 12 + fld w 46 2 + fld w 51 5)
  | _ => none

/-- A word of a stream with the length-prefixed encoding (R336): the length code is in bits [1:0]
of the first parcel, and code 3 has SUB 1. -/
def decodeParcels (f32 f64 f96 : Nat → Cand) (bs : List Byte) : Fetched :=
  if bs.length < 4 then .overrun
  else
    match leNat (bs.take 1) % 4 with
    | 0 => .word (judgeCand (f32 (leNat (bs.take 4)))) 4
    | 1 => if bs.length < 8 then .overrun else .word (judgeCand (f64 (leNat (bs.take 8)))) 8
    | 2 => if bs.length < 12 then .overrun else .word (judgeCand (f96 (leNat (bs.take 12)))) 12
    | _ => .word (.illegalEncoding 1) 4

/-- The control-stream word at the start of bs. -/
def decodeControl (bs : List Byte) : Fetched := decodeParcels c32Instr c64Instr c96Instr bs

/-! Vector stream -/

/-- Predicate logic, V32 op 0x03 (R345, R412). -/
def predInstr (w : Nat) : Cand :=
  let pd := bf w 12 4
  let pa := bf w 16 4
  let pb := bf w 20 4
  match fld w 24 3 with
  | 0 => some (.pand pd pa pb, fld w 27 5)
  | 1 => some (.por pd pa pb, fld w 27 5)
  | 2 => some (.pxor pd pa pb, fld w 27 5)
  | 3 => some (.pandn pd pa pb, fld w 27 5)
  | 4 => some (.pnot pd pa, fld w 20 4 + fld w 27 5)
  | 5 => some (.pmovPredicate pd pa, fld w 20 4 + fld w 27 5)
  | 6 => some (.pset pd, fld w 16 8 + fld w 27 5)
  | _ => some (.pclr pd, fld w 16 8 + fld w 27 5)

/-- A V32 word without its guard check (R345). -/
def v32Op (w : Nat) : Cand :=
  match fld w 2 6 with
  | 0x01 => some (.vshape (bf w 12 14), fld w 26 6)
  | 0x02 => some (.vfmt (bf w 12 6), fld w 18 14)
  | 0x03 => predInstr w
  | 0x04 => some (.pcnt (bf w 12 3) (bf w 16 4), fld w 15 1 + fld w 20 12)
  | 0x05 => some (.vseq (bf w 12 6) (bf w 18 1), fld w 19 13)
  | 0x06 => some (if bit w 17 then .vSetf (bf w 12 5) else .vClrf (bf w 12 5), fld w 18 14)
  | 0x07 => some (.vWaitf (bf w 12 5) (bit w 17), fld w 18 14)
  | 0x08 => some (.vTkpost (bf w 12 4) (bf w 16 16), 0)
  | 0x09 => some (.vTkwait (bf w 12 4) (bf w 16 16), 0)
  | 0x0A => some (.vRend (bf w 12 4) (bit w 16), fld w 17 15)
  | 0x0B => some (.vHalt, fld w 12 20)
  | 0x0C => some (.vNop, fld w 12 20)
  | _ => none

/-- R337 on a V32 word: any guard other than 12 has SUB 3. -/
def judgeV32 (w : Nat) : Instr :=
  match v32Op w with
  | none => .illegalEncoding 1
  | some (i, res) =>
    if res == 0 && i.reservedZero && fld w 8 4 != 12 then .illegalEncoding 3
    else judge (some i) (res != 0)

/-- The fields of a V64 word, or of the low 64 bits of a V96 stride form (R346, R348). -/
def vArgOf (w : Nat) (ext : VExt) : VArg :=
  { guard := bf w 8 4, ty := bf w 12 4, vd := bf w 16 12, va := bf w 28 12, vb := bf w 40 12,
    dix := bf w 52 3, aix := bf w 55 3, bix := bf w 58 3, ext := ext }

/-- The V64 opcode map (R347). -/
def vOp (op : Nat) (v : VArg) : Option Instr :=
  match op with
  | 0x01 => some (.vadd v)
  | 0x02 => some (.vsub v)
  | 0x03 => some (.vmul v)
  | 0x04 => some (.vmad v)
  | 0x05 => some (.vmin v)
  | 0x06 => some (.vmax v)
  | 0x07 => some (.vabs v)
  | 0x08 => some (.vneg v)
  | 0x09 => some (.vand v)
  | 0x0A => some (.vor v)
  | 0x0B => some (.vxor v)
  | 0x0C => some (.vshl v)
  | 0x0D => some (.vshr v)
  | 0x0E => some (.vsra v)
  | 0x0F => some (.vrcp v)
  | 0x10 => some (.vrsq v)
  | 0x11 => some (.vexp2 v)
  | 0x12 => some (.vlog2 v)
  | 0x13 => some (.vtanh v)
  | 0x14 => some (.vcmp v)
  | 0x15 => some (.vredsum v)
  | 0x16 => some (.vredmax v)
  | 0x17 => some (.vredmin v)
  | 0x18 => some (.vperm v)
  | 0x19 => some (.vxpose v)
  | 0x1A => some (.vbcast v)
  | 0x1B => some (.vmovs v)
  | 0x1C => some (.vpart v)
  | 0x1D => some (.vcompact v)
  | 0x1E => some (.vgath v)
  | 0x1F => some (.vscat v)
  | 0x20 => some (.vpop v)
  | 0x21 => some (.vpush v)
  | 0x22 => some (.vcvt v)
  | 0x23 => some (.vqnt v)
  | 0x24 => some (.vdqnt v)
  | 0x25 => some (.unpk3 v)
  | 0x26 => some (.vdot4 v)
  | 0x27 => some (.vpack v)
  | 0x28 => some (.vunpk v)
  | _ => none

/-- A V64 word (R346): bit 63 is reserved. -/
def v64Instr (w : Nat) : Cand :=
  (vOp (fld w 2 6) (vArgOf w (.v64 (bf w 61 2)))).map fun i => (i, fld w 63 1)

/-- An immediate form (R349). -/
def vImmOp (op : Nat) (v : VImm) : Option Instr :=
  match op with
  | 0x30 => some (.vlds v)
  | 0x31 => some (.vsts v)
  | 0x32 => some (.vfill v)
  | 0x33 => some (.vrng v)
  | 0x34 => some (.vpatx v)
  | _ => none

/-- The fields of an immediate form (R348). -/
def vImmOf (w : Nat) : VImm :=
  { guard := bf w 8 4, ty := bf w 12 4, vd := bf w 16 12, va := bf w 28 12, dix := bf w 52 3,
    aix := bf w 55 3, iter := bf w 61 2, imm := bf w 64 32 }

/-- A V96 word (R348, R349): the stride form of a V64 opcode, or an immediate form, in which vb and
bix are reserved. -/
def v96Instr (w : Nat) : Cand :=
  match vOp (fld w 2 6) (vArgOf w (.v96 (bf w 64 8) (bf w 72 8) (bf w 80 8) (bf w 88 3) (bf w 91 2))) with
  | some i => some (i, fld w 61 3 + fld w 93 3)
  | none => (vImmOp (fld w 2 6) (vImmOf w)).map fun i => (i, fld w 40 12 + fld w 58 3 + fld w 63 1)

/-- The vector-stream word at the start of bs. -/
def decodeVector (bs : List Byte) : Fetched :=
  if 4 ≤ bs.length && leNat (bs.take 1) % 4 == 0 then .word (judgeV32 (leNat (bs.take 4))) 4
  else decodeParcels (fun _ => none) v64Instr v96Instr bs

/-! Matrix stream -/

/-- Dword 0 of a step (R350). -/
def mHeadOf (w : Nat) : MHead :=
  { scaled := bit w 29, round := bf w 27 2, int := bit w 26, fmtb := bf w 20 6, fmta := bf w 14 6,
    lvlen := bit w 13, lvl := bf w 10 3, iter := bf w 8 2, acc := bf w 6 2 }

/-- The operand dword that starts at bit lo (R350). -/
def mOpdOf (w lo : Nat) : MOpd :=
  { group := bf w (lo + 22) 6, agen := bf w (lo + 20) 2, addr := bf w lo 20 }

/-- Dword 3 of a step (R350). -/
def mScaleOf (w : Nat) : MScale :=
  { segnm1 := bf w 106 2, segf := bf w 104 2, coded := bit w 100, scb := bf w 98 2, sca := bf w 96 2 }

/-- The fields of a drain (R350). -/
def mOutOf (w : Nat) : MOut :=
  { round := bf w 27 2, fmta := bf w 14 6, lvlen := bit w 13, lvl := bf w 10 3, iter := bf w 8 2,
    acc := bf w 6 2, zs := bit w 157, dual := bit w 156, pack := bf w 152 4, seedsel := bf w 150 2,
    dropen := bit w 149, resen := bit w 148, resaddr := bf w 128 20, dstsel := bf w 188 3,
    dropth := bf w 180 8, dst := bf w 160 20 }

/-- The reserved bits of a step: dword 0 [31:30], dwords 1 and 2 [31:28], dword 3 but for its
fields, dwords 4 and 5 (R350, R351). -/
def mStepRes (w : Nat) : Nat :=
  fld w 30 2 + fld w 60 4 + fld w 92 4 + fld w 101 3 + fld w 108 20 + fld w 128 64

/-- The synchronisation forms of `msync` (R351, R467), by KIND; x is dword 1. -/
def mSyncInstr (x : Nat) : Cand :=
  let hi := fld x 9 7
  match fld x 6 3 with
  | 0 => some (.mSetf (bf x 0 5), fld x 5 1 + hi + fld x 16 16)
  | 1 => some (.mClrf (bf x 0 5), fld x 5 1 + hi + fld x 16 16)
  | 2 => some (.mWaitf (bf x 0 5) false, fld x 5 1 + hi + fld x 16 16)
  | 3 => some (.mWaitf (bf x 0 5) true, fld x 5 1 + hi + fld x 16 16)
  | 4 => some (.mTkpost (bf x 0 4) (bf x 16 16), fld x 4 2 + hi)
  | 5 => some (.mTkwait (bf x 0 4) (bf x 16 16), fld x 4 2 + hi)
  | 6 => some (.mRend (bf x 0 4) (bit x 5), fld x 4 1 + hi + fld x 16 16)
  | _ => some (.mHalt, fld x 0 6 + hi + fld x 16 16)

/-- A matrix word of 192 bits (R350, R351). -/
def mInstr (w : Nat) : Cand :=
  match fld w 0 6 with
  | 0x01 => some (.mseq (bf w 32 1), fld w 6 26 + fld w 33 159)
  | 0x02 => some (.mstep (mHeadOf w) (mOpdOf w 32) (mOpdOf w 64) (mScaleOf w), mStepRes w)
  | 0x03 => some (.mspz (mHeadOf w) (mOpdOf w 32) (mOpdOf w 64) (mScaleOf w), mStepRes w)
  | 0x04 => some (.mbsp (mHeadOf w) (mOpdOf w 32) (mOpdOf w 64) (mScaleOf w), mStepRes w)
  | 0x05 => some (.mzero (bf w 6 2) (bit w 13) (bf w 10 3) (bf w 8 2), fld w 14 178)
  | 0x06 => some (.mscl (bf w 6 2) (mOpdOf w 32), fld w 8 24 + fld w 60 132)
  | 0x07 => some (.mdtab (bf w 32 20) (bf w 108 3), fld w 6 26 + fld w 52 56 + fld w 111 81)
  | 0x08 => some (.mdrain (mOutOf w),
      fld w 20 7 + fld w 29 3 + fld w 32 96 + fld w 158 2 + fld w 191 1)
  | 0x09 => (mSyncInstr (fld w 32 32)).map fun c => (c.1, c.2 + fld w 6 26 + fld w 64 128)
  | 0x0A => some (.mend, fld w 6 186)
  | 0x0B => some (.mnop, fld w 6 186)
  | _ => none

/-- The matrix word at the start of bs (R336). -/
def decodeMatrix (bs : List Byte) : Fetched :=
  if bs.length < 24 then .overrun else .word (judgeCand (mInstr (leNat (bs.take 24)))) 24

/-! Sort stream -/

/-- The fields of a sort word (R352). -/
def sArgOf (w : Nat) : SArg :=
  { param := bf w 55 9, addrd := bf w 37 18, addra := bf w 19 18, nm1 := bf w 12 7,
    vals := bit w 11, desc := bit w 10, kfmt := bf w 6 4 }

/-- `kend` (R352, R477): KIND, number and final are in PARAM, the count in ADDRA [15:0]. -/
def kEndInstr (w : Nat) : Cand :=
  let hi := fld w 6 13 + fld w 35 20
  let cnt := fld w 19 16
  match fld w 55 3 with
  | 0 => some (.kSetf (bf w 58 5), fld w 63 1 + hi + cnt)
  | 1 => some (.kClrf (bf w 58 5), fld w 63 1 + hi + cnt)
  | 2 => some (.kWaitf (bf w 58 5) false, fld w 63 1 + hi + cnt)
  | 3 => some (.kWaitf (bf w 58 5) true, fld w 63 1 + hi + cnt)
  | 4 => some (.kTkpost (bf w 58 4) (bf w 19 16), fld w 62 2 + hi)
  | 5 => some (.kTkwait (bf w 58 4) (bf w 19 16), fld w 62 2 + hi)
  | 6 => some (.kRend (bf w 58 4) (bit w 63), fld w 62 1 + hi + cnt)
  | _ => some (.kHalt, fld w 58 6 + hi + cnt)

/-- A sort word (R352). -/
def kInstr (w : Nat) : Cand :=
  match fld w 0 6 with
  | 0x01 => some (.ksort (sArgOf w), 0)
  | 0x02 => some (.kmerge (sArgOf w), 0)
  | 0x03 => some (.ktopk (sArgOf w), 0)
  | 0x04 => some (.khist (sArgOf w), 0)
  | 0x05 => some (.kroute (sArgOf w), 0)
  | 0x06 => kEndInstr w
  | _ => none

/-- The sort word at the start of bs (R336). -/
def decodeSort (bs : List Byte) : Fetched :=
  if bs.length < 8 then .overrun else .word (judgeCand (kInstr (leNat (bs.take 8)))) 8

/-! Side cores: RV32IMC and the extension (R196, R197, R353) -/

/-- The extension instructions (R353).  funct7, and rd and rs2 where the table gives them no
operand, are reserved. -/
def sideExt (w : Nat) : Cand :=
  let rd := bf w 7 5
  let rs1 := bf w 15 5
  let f7 := fld w 25 7
  match fld w 0 7, fld w 12 3 with
  | 0x0B, 0 => some (.aqPush rs1, f7 + fld w 20 5 + rd.toNat)
  | 0x0B, 1 => some (.aqStat rd rs1, f7 + fld w 20 5)
  | 0x0B, 2 => some (.tkPost (bf w 20 4) rs1, f7 + fld w 24 1 + rd.toNat)
  | 0x0B, 3 => some (.tkWait (bf w 20 4) rs1, f7 + fld w 24 1 + rd.toNat)
  | 0x0B, 4 => some (if fld w 20 5 ≤ 1 then .cycRd rd (bit w 20) else .illegalEncoding 3,
      f7 + rs1.toNat)
  | 0x0B, 5 => some (.lqCfg (bf w 20 2) rs1, f7 + fld w 22 3 + rd.toNat)
  | 0x2B, 0 => some (.stgIssue rs1, f7 + fld w 20 5 + rd.toNat)
  | 0x2B, 1 => some (.stgDec rs1, f7 + fld w 20 5 + rd.toNat)
  | _, _ => none

/-- A base RV32IM word; none is an encoding outside RV32IM (R197: reserved opcode or function). -/
def rvBase (w : Nat) : Option RvOp :=
  let rd := bf w 7 5
  let f3 : BitVec 3 := bf w 12 3
  let rs1 := bf w 15 5
  let rs2 := bf w 20 5
  let imm := bf w 20 12
  let f7 := fld w 25 7
  match fld w 0 7 with
  | 0x37 => some (.lui rd (bf w 12 20))
  | 0x17 => some (.auipc rd (bf w 12 20))
  | 0x6F => some (.jal rd (BitVec.ofNat 20
      (fld w 21 10 + 2 ^ 10 * fld w 20 1 + 2 ^ 11 * fld w 12 8 + 2 ^ 19 * fld w 31 1)))
  | 0x67 => if f3 == 0 then some (.jalr rd rs1 imm) else none
  | 0x63 => some (.branch f3 rs1 rs2 (BitVec.ofNat 12
      (fld w 8 4 + 2 ^ 4 * fld w 25 6 + 2 ^ 10 * fld w 7 1 + 2 ^ 11 * fld w 31 1)))
  | 0x03 => some (.load f3 rd rs1 imm)
  | 0x23 => some (.store f3 rs1 rs2 (BitVec.ofNat 12 (fld w 7 5 + 2 ^ 5 * f7)))
  | 0x13 =>
    match f3.toNat with
    | 1 => if f7 == 0 then some (.slli rd rs1 rs2) else none
    | 5 => if f7 == 0 then some (.srli rd rs1 rs2) else if f7 == 0x20 then some (.srai rd rs1 rs2) else none
    | _ => some (.opImm f3 rd rs1 imm)
  | 0x33 =>
    match f7 with
    | 0x00 => some (.op f3 rd rs1 rs2)
    | 0x01 => some (.mulDiv f3 rd rs1 rs2)
    | 0x20 => if f3 == 0 then some (.sub rd rs1 rs2) else if f3 == 5 then some (.sra rd rs1 rs2) else none
    | _ => none
  | 0x0F => if f3 == 0 then some .fence else if f3 == 1 then some .fenceI else none
  | _ => none

/-- A 32-bit side-core word. -/
def side32 (w : Nat) : Instr :=
  if fld w 0 7 == 0x0B || fld w 0 7 == 0x2B then judgeCand (sideExt w)
  else if w == 0x73 then .ecall
  else if w == 0x100073 then .ebreak false
  else
    match rvBase w with
    | some op => if op.ok then .rv32imcBaseInstruction false op else .illegalEncoding 1
    | none => .illegalEncoding 1

/-- The register x8 to x15 of a compressed field. -/
def rvc (w lo : Nat) : BitVec 5 := BitVec.ofNat 5 (8 + fld w lo 3)

/-- The 6-bit immediate of the CI format, sign-extended to 12 bits. -/
def ciImm (w : Nat) : BitVec 12 := BitVec.signExtend 12 (BitVec.ofNat 6 (fld w 2 5 + 32 * fld w 12 1))

/-- The offset of c.j and c.jal in 2-byte units, sign-extended to 20 bits. -/
def cjOff (w : Nat) : BitVec 20 :=
  BitVec.signExtend 20 (BitVec.ofNat 11 (fld w 3 3 + 8 * fld w 11 1 + 16 * fld w 2 1 + 32 * fld w 7 1
    + 64 * fld w 6 1 + 128 * fld w 9 2 + 512 * fld w 8 1 + 1024 * fld w 12 1))

/-- The offset of c.beqz and c.bnez in 2-byte units, sign-extended to 12 bits. -/
def cbOff (w : Nat) : BitVec 12 :=
  BitVec.signExtend 12 (BitVec.ofNat 8 (fld w 3 2 + 4 * fld w 10 2 + 16 * fld w 2 1 + 32 * fld w 5 2
    + 128 * fld w 12 1))

/-- The RV32C instructions without floating point; none is a reserved encoding (R197). -/
def rvCompressed (w : Nat) : Option RvOp :=
  let rd := bf w 7 5
  let rs2 := bf w 2 5
  let sh := bf w 2 5
  let lwImm := BitVec.ofNat 12 (64 * fld w 5 1 + 8 * fld w 10 3 + 4 * fld w 6 1)
  match fld w 0 2, fld w 13 3 with
  | 0, 0 =>
    let imm := 4 * fld w 6 1 + 8 * fld w 5 1 + 16 * fld w 11 2 + 64 * fld w 7 4
    if imm == 0 then none else some (.opImm 0 (rvc w 2) 2 (BitVec.ofNat 12 imm))
  | 0, 2 => some (.load 2 (rvc w 2) (rvc w 7) lwImm)
  | 0, 6 => some (.store 2 (rvc w 7) (rvc w 2) lwImm)
  | 1, 0 => some (.opImm 0 rd rd (ciImm w))
  | 1, 1 => some (.jal 1 (cjOff w))
  | 1, 2 => some (.opImm 0 rd 0 (ciImm w))
  | 1, 3 =>
    if rd == 2 then
      let imm := 16 * fld w 6 1 + 32 * fld w 2 1 + 64 * fld w 5 1 + 128 * fld w 3 2 + 512 * fld w 12 1
      if imm == 0 then none
      else some (.opImm 0 2 2 (BitVec.signExtend 12 (BitVec.ofNat 10 imm)))
    else
      if fld w 2 5 + 32 * fld w 12 1 == 0 then none
      else some (.lui rd (BitVec.signExtend 20 (BitVec.ofNat 6 (fld w 2 5 + 32 * fld w 12 1))))
  | 1, 4 =>
    match fld w 10 2 with
    | 0 => if bit w 12 then none else some (.srli (rvc w 7) (rvc w 7) sh)
    | 1 => if bit w 12 then none else some (.srai (rvc w 7) (rvc w 7) sh)
    | 2 => some (.opImm 7 (rvc w 7) (rvc w 7) (ciImm w))
    | _ =>
      if bit w 12 then none
      else
        match fld w 5 2 with
        | 0 => some (.sub (rvc w 7) (rvc w 7) (rvc w 2))
        | 1 => some (.op 4 (rvc w 7) (rvc w 7) (rvc w 2))
        | 2 => some (.op 6 (rvc w 7) (rvc w 7) (rvc w 2))
        | _ => some (.op 7 (rvc w 7) (rvc w 7) (rvc w 2))
  | 1, 5 => some (.jal 0 (cjOff w))
  | 1, 6 => some (.branch 0 (rvc w 7) 0 (cbOff w))
  | 1, 7 => some (.branch 1 (rvc w 7) 0 (cbOff w))
  | 2, 0 => if bit w 12 then none else some (.slli rd rd sh)
  | 2, 2 =>
    if rd == 0 then none
    else some (.load 2 rd 2 (BitVec.ofNat 12 (4 * fld w 4 3 + 32 * fld w 12 1 + 64 * fld w 2 2)))
  | 2, 4 =>
    if !bit w 12 then
      if rs2 == 0 then (if rd == 0 then none else some (.jalr 0 rd 0)) else some (.op 0 rd 0 rs2)
    else
      if rs2 == 0 then some (.jalr 1 rd 0) else some (.op 0 rd rd rs2)
  | 2, 6 => some (.store 2 2 rs2 (BitVec.ofNat 12 (4 * fld w 9 4 + 64 * fld w 7 2)))
  | _, _ => none

/-- The side-core instruction at the start of bs: 2 bytes when its bits [1:0] are not 3. -/
def decodeSide (bs : List Byte) : Fetched :=
  if bs.length < 2 then .overrun
  else if leNat (bs.take 1) % 4 == 3 then
    if bs.length < 4 then .overrun else .word (side32 (leNat (bs.take 4))) 4
  else if leNat (bs.take 2) == 0x9002 then .word (.ebreak true) 2
  else
    match rvCompressed (leNat (bs.take 2)) with
    | some op => .word (.rv32imcBaseInstruction true op) 2
    | none => .word (.illegalEncoding 1) 2

/-- The storer core's reading: a `lq.cfg` there is illegal with SUB 1 whatever its reserved bits hold, the lowest
subcode of those that apply (R337, R481). -/
def decodeStorer (bs : List Byte) : Fetched :=
  match decodeSide bs with
  | .word (.illegalEncoding sub) 4 =>
    let w := leNat (bs.take 4)
    .word (.illegalEncoding (if w % 128 = 0x0B ∧ fld w 12 3 = 5 then 1 else sub)) 4
  | f => f

/-- The instruction at the start of bs, read as engine eng reads its section (R6, R174). -/
def decodeFor (eng : Nat) (bs : List Byte) : Fetched :=
  match eng with
  | 0 => decodeControl bs
  | 1 => decodeVector bs
  | 2 => decodeMatrix bs
  | 5 => decodeStorer bs
  | 7 => decodeSort bs
  | _ => decodeSide bs

/-! The encoder -/

/-- A C32R word (R338). -/
def encC32R (op : Nat) (d a b : BitVec 6) (fn : Nat) : List Byte :=
  leBytes 4 (op * 2 ^ 2 + d.toNat * 2 ^ 8 + a.toNat * 2 ^ 14 + b.toNat * 2 ^ 20 + fn * 2 ^ 26)

/-- A C32I or C32B word (R338): imm is the field [31:20]. -/
def encC32I (op : Nat) (d a : BitVec 6) (imm : Nat) : List Byte :=
  leBytes 4 (op * 2 ^ 2 + d.toNat * 2 ^ 8 + a.toNat * 2 ^ 14 + imm * 2 ^ 20)

/-- A C64 word (R339). -/
def encC64 (op sz : Nat) (m : MemArg) : List Byte :=
  leBytes 8 (1 + op * 2 ^ 2 + m.d.toNat * 2 ^ 8 + m.base.toNat * 2 ^ 14 + sz * 2 ^ 20
    + m.aux.toNat * 2 ^ 26 + m.imm.toNat * 2 ^ 32 + m.order.toNat * 2 ^ 56 + m.scope.toNat * 2 ^ 60)

/-- A `loop` or `loopw` word (R344). -/
def encLoop (op : Nat) (a : BitVec 6) (bodyw : BitVec 14) (stg : BitVec 3) (id : BitVec 8)
    (max : BitVec 32) : List Byte :=
  leBytes 12 (2 + op * 2 ^ 2 + a.toNat * 2 ^ 14 + bodyw.toNat * 2 ^ 32 + stg.toNat * 2 ^ 48
    + id.toNat * 2 ^ 56 + max.toNat * 2 ^ 64)

/-- A V32 word with guard 12 (R345): x is the field [31:12]. -/
def encV32 (op x : Nat) : List Byte := leBytes 4 (op * 2 ^ 2 + 12 * 2 ^ 8 + x * 2 ^ 12)

/-- A predicate logic word (R412). -/
def encPred (fn : Nat) (pd pa pb : BitVec 4) : List Byte :=
  encV32 0x03 (pd.toNat + pa.toNat * 2 ^ 4 + pb.toNat * 2 ^ 8 + fn * 2 ^ 12)

/-- The fields of a V64 word above its length code (R346). -/
def vArgWord (op : Nat) (v : VArg) : Nat :=
  op * 2 ^ 2 + v.guard.toNat * 2 ^ 8 + v.ty.toNat * 2 ^ 12 + v.vd.toNat * 2 ^ 16
    + v.va.toNat * 2 ^ 28 + v.vb.toNat * 2 ^ 40 + v.dix.toNat * 2 ^ 52 + v.aix.toNat * 2 ^ 55
    + v.bix.toNat * 2 ^ 58

/-- A V64 word or a V96 stride form (R346, R348). -/
def encV (op : Nat) (v : VArg) : List Byte :=
  match v.ext with
  | .v64 it => leBytes 8 (1 + vArgWord op v + it.toNat * 2 ^ 61)
  | .v96 sd sa sb lvl it =>
    leBytes 12 (2 + vArgWord op v + sd.toNat * 2 ^ 64 + sa.toNat * 2 ^ 72 + sb.toNat * 2 ^ 80
      + lvl.toNat * 2 ^ 88 + it.toNat * 2 ^ 91)

/-- A V96 immediate form (R348, R349). -/
def encVImm (op : Nat) (v : VImm) : List Byte :=
  leBytes 12 (2 + op * 2 ^ 2 + v.guard.toNat * 2 ^ 8 + v.ty.toNat * 2 ^ 12 + v.vd.toNat * 2 ^ 16
    + v.va.toNat * 2 ^ 28 + v.dix.toNat * 2 ^ 52 + v.aix.toNat * 2 ^ 55 + v.iter.toNat * 2 ^ 61
    + v.imm.toNat * 2 ^ 64)

/-- Dword 0 of a step (R350). -/
def mHeadWord (op : Nat) (h : MHead) : Nat :=
  op + h.acc.toNat * 2 ^ 6 + h.iter.toNat * 2 ^ 8 + h.lvl.toNat * 2 ^ 10 + h.lvlen.toNat * 2 ^ 13
    + h.fmta.toNat * 2 ^ 14 + h.fmtb.toNat * 2 ^ 20 + h.int.toNat * 2 ^ 26 + h.round.toNat * 2 ^ 27
    + h.scaled.toNat * 2 ^ 29

/-- An operand dword (R350). -/
def mOpdWord (a : MOpd) : Nat := a.addr.toNat + a.agen.toNat * 2 ^ 20 + a.group.toNat * 2 ^ 22

/-- Dword 3 of a step (R350). -/
def mScaleWord (t : MScale) : Nat :=
  t.sca.toNat + t.scb.toNat * 2 ^ 2 + t.coded.toNat * 2 ^ 4 + t.segf.toNat * 2 ^ 8
    + t.segnm1.toNat * 2 ^ 10

/-- A step word (R350). -/
def encStep (op : Nat) (h : MHead) (a b : MOpd) (t : MScale) : List Byte :=
  leBytes 24 (mHeadWord op h + mOpdWord a * 2 ^ 32 + mOpdWord b * 2 ^ 64 + mScaleWord t * 2 ^ 96)

/-- A drain word (R350). -/
def encDrain (o : MOut) : List Byte :=
  leBytes 24 (8 + o.acc.toNat * 2 ^ 6 + o.iter.toNat * 2 ^ 8 + o.lvl.toNat * 2 ^ 10
    + o.lvlen.toNat * 2 ^ 13 + o.fmta.toNat * 2 ^ 14 + o.round.toNat * 2 ^ 27
    + o.resaddr.toNat * 2 ^ 128 + o.resen.toNat * 2 ^ 148 + o.dropen.toNat * 2 ^ 149
    + o.seedsel.toNat * 2 ^ 150 + o.pack.toNat * 2 ^ 152 + o.dual.toNat * 2 ^ 156
    + o.zs.toNat * 2 ^ 157 + o.dst.toNat * 2 ^ 160 + o.dropth.toNat * 2 ^ 180
    + o.dstsel.toNat * 2 ^ 188)

/-- An `msync` word: KIND, number, final and count in dword 1 (R351, R467). -/
def encMsync (kind num fin cnt : Nat) : List Byte :=
  leBytes 24 (9 + (num + fin * 2 ^ 5 + kind * 2 ^ 6 + cnt * 2 ^ 16) * 2 ^ 32)

/-- A sort word (R352). -/
def encSort (op : Nat) (k : SArg) : List Byte :=
  leBytes 8 (op + k.kfmt.toNat * 2 ^ 6 + k.desc.toNat * 2 ^ 10 + k.vals.toNat * 2 ^ 11
    + k.nm1.toNat * 2 ^ 12 + k.addra.toNat * 2 ^ 19 + k.addrd.toNat * 2 ^ 37 + k.param.toNat * 2 ^ 55)

/-- A `kend` word (R352). -/
def encKend (kind num fin cnt : Nat) : List Byte :=
  leBytes 8 (6 + cnt * 2 ^ 19 + kind * 2 ^ 55 + num * 2 ^ 58 + fin * 2 ^ 63)

/-- An R-type side-core word (R353). -/
def encR (op f3 rd rs1 rs2 f7 : Nat) : List Byte :=
  leBytes 4 (op + rd * 2 ^ 7 + f3 * 2 ^ 12 + rs1 * 2 ^ 15 + rs2 * 2 ^ 20 + f7 * 2 ^ 25)

/-- An I-type side-core word. -/
def encI (op f3 rd rs1 imm : Nat) : List Byte :=
  leBytes 4 (op + rd * 2 ^ 7 + f3 * 2 ^ 12 + rs1 * 2 ^ 15 + imm * 2 ^ 20)

/-- The 32-bit word of a base instruction (RV32IM). -/
def encRv (op : RvOp) : List Byte :=
  match op with
  | .lui rd imm => leBytes 4 (0x37 + rd.toNat * 2 ^ 7 + imm.toNat * 2 ^ 12)
  | .auipc rd imm => leBytes 4 (0x17 + rd.toNat * 2 ^ 7 + imm.toNat * 2 ^ 12)
  | .jal rd off =>
    let o := off.toNat
    leBytes 4 (0x6F + rd.toNat * 2 ^ 7 + fld o 11 8 * 2 ^ 12 + fld o 10 1 * 2 ^ 20
      + fld o 0 10 * 2 ^ 21 + fld o 19 1 * 2 ^ 31)
  | .jalr rd rs1 imm => encI 0x67 0 rd.toNat rs1.toNat imm.toNat
  | .branch f3 rs1 rs2 off =>
    let o := off.toNat
    leBytes 4 (0x63 + fld o 10 1 * 2 ^ 7 + fld o 0 4 * 2 ^ 8 + f3.toNat * 2 ^ 12 + rs1.toNat * 2 ^ 15
      + rs2.toNat * 2 ^ 20 + fld o 4 6 * 2 ^ 25 + fld o 11 1 * 2 ^ 31)
  | .load f3 rd rs1 imm => encI 0x03 f3.toNat rd.toNat rs1.toNat imm.toNat
  | .store f3 rs1 rs2 imm =>
    encR 0x23 f3.toNat (fld imm.toNat 0 5) rs1.toNat rs2.toNat (fld imm.toNat 5 7)
  | .opImm f3 rd rs1 imm => encI 0x13 f3.toNat rd.toNat rs1.toNat imm.toNat
  | .slli rd rs1 sh => encR 0x13 1 rd.toNat rs1.toNat sh.toNat 0
  | .srli rd rs1 sh => encR 0x13 5 rd.toNat rs1.toNat sh.toNat 0
  | .srai rd rs1 sh => encR 0x13 5 rd.toNat rs1.toNat sh.toNat 0x20
  | .op f3 rd rs1 rs2 => encR 0x33 f3.toNat rd.toNat rs1.toNat rs2.toNat 0
  | .sub rd rs1 rs2 => encR 0x33 0 rd.toNat rs1.toNat rs2.toNat 0x20
  | .sra rd rs1 rs2 => encR 0x33 5 rd.toNat rs1.toNat rs2.toNat 0x20
  | .mulDiv f3 rd rs1 rs2 => encR 0x33 f3.toNat rd.toNat rs1.toNat rs2.toNat 1
  | .fence => encI 0x0F 0 0 0 0
  | .fenceI => encI 0x0F 1 0 0 0

/-- The engine whose stream the encoder writes an instruction for (R6): 0 control, 1 vector,
2 matrix, 7 sort, 4 the side cores; none for the package's events, which no stream encodes. -/
def Instr.family (i : Instr) : Option Nat :=
  match i with
  | .add _ _ _ | .sub _ _ _ | .and _ _ _ | .or _ _ _ | .xor _ _ _ | .andn _ _ _
  | .orn _ _ _ | .sll _ _ _ | .srl _ _ _ | .sra _ _ _ | .ror _ _ _ | .mul _ _ _
  | .mulh _ _ _ | .mulhu _ _ _ | .div _ _ _ | .divu _ _ _ | .rem _ _ _ | .remu _ _ _
  | .min _ _ _ | .max _ _ _ | .minu _ _ _ | .maxu _ _ _ | .slt _ _ _ | .sltu _ _ _
  | .clz _ _ | .ctz _ _ | .popc _ _ | .brev _ _ | .addi _ _ _ | .andi _ _ _
  | .ori _ _ _ | .xori _ _ _ | .slli _ _ _ | .srli _ _ _ | .srai _ _ _ | .slti _ _ _
  | .sltiu _ _ _ | .mini _ _ _ | .maxi _ _ _ | .padd _ _ _ | .psub _ _ _ | .paddw _ _ _
  | .pmov _ _ | .paddi _ _ _ | .li _ _ | .ldB _ | .ldBu _ | .ldH _
  | .ldHu _ | .ldW _ | .ldD _ | .stB _ | .stH _ | .stW _
  | .stD _ | .amoadd _ _ | .amoand _ _ | .amoor _ _ | .amoxor _ _ | .amomin _ _
  | .amomax _ _ | .amominu _ _ | .amomaxu _ _ | .amoswp _ _ | .cas _ | .casp _
  | .acq _ | .rel _ | .fence _ | .beq _ _ _ | .bne _ _ _ | .blt _ _ _
  | .bge _ _ _ | .bltu _ _ _ | .bgeu _ _ _ | .jmp _ | .jal _ _ | .jr _
  | .loop _ _ _ _ _ | .loopw _ _ _ _ _ | .bar | .rend _ _ | .setf _ | .clrf _
  | .waitf _ _ | .tkpost _ _ | .tkwait _ _ | .yield _ | .halt | .nestw _ _ _
  | .nestgo _ | .launch _ _ | .launchContinuation _ _ | .capgive _ _ _ | .capdrop _ _ | .capqry _ _ _
  | .stg _ | .stgdec _ | .trap _ | .rdsys _ _ | .wrsys _ _ | .rdtime _
  | .brk _ | .nop => some 0
  | .vshape _ | .vfmt _ | .pand _ _ _ | .por _ _ _ | .pxor _ _ _ | .pandn _ _ _
  | .pnot _ _ | .pmovPredicate _ _ | .pset _ | .pclr _ | .pcnt _ _ | .vseq _ _
  | .vSetf _ | .vClrf _ | .vWaitf _ _ | .vTkpost _ _ | .vTkwait _ _ | .vRend _ _
  | .vHalt | .vNop | .vadd _ | .vsub _ | .vmul _ | .vmad _
  | .vmin _ | .vmax _ | .vabs _ | .vneg _ | .vand _ | .vor _
  | .vxor _ | .vshl _ | .vshr _ | .vsra _ | .vrcp _ | .vrsq _
  | .vexp2 _ | .vlog2 _ | .vtanh _ | .vcmp _ | .vredsum _ | .vredmax _
  | .vredmin _ | .vperm _ | .vxpose _ | .vbcast _ | .vmovs _ | .vpart _
  | .vcompact _ | .vgath _ | .vscat _ | .vpop _ | .vpush _ | .vcvt _
  | .vqnt _ | .vdqnt _ | .unpk3 _ | .vdot4 _ | .vpack _ | .vunpk _
  | .vlds _ | .vsts _ | .vfill _ | .vrng _ | .vpatx _ => some 1
  | .mseq _ | .mend | .mstep _ _ _ _ | .mspz _ _ _ _ | .mbsp _ _ _ _ | .mzero _ _ _ _
  | .mscl _ _ | .mdtab _ _ | .mdrain _ | .mSetf _ | .mClrf _ | .mWaitf _ _
  | .mTkpost _ _ | .mTkwait _ _ | .mRend _ _ | .mHalt | .mnop => some 2
  | .ksort _ | .kmerge _ | .ktopk _ | .khist _ | .kroute _ | .kSetf _
  | .kClrf _ | .kWaitf _ _ | .kTkpost _ _ | .kTkwait _ _ | .kRend _ _ | .kHalt => some 7
  | .aqPush _ | .aqStat _ _ | .tkPost _ _ | .tkWait _ _ | .cycRd _ _ | .lqCfg _ _
  | .stgIssue _ | .stgDec _ | .ecall | .ebreak _ | .rv32imcBaseInstruction _ _ => some 4
  | _ => none

/-- The bytes of a well-formed instruction in its stream; the empty list for what no word encodes.
A side-core instruction is written in its 32-bit form. -/
def encode (i : Instr) : List Byte :=
  match i with
  | .add d a b => encC32R 0x01 d a b 0x00
  | .sub d a b => encC32R 0x01 d a b 0x01
  | .and d a b => encC32R 0x01 d a b 0x02
  | .or d a b => encC32R 0x01 d a b 0x03
  | .xor d a b => encC32R 0x01 d a b 0x04
  | .andn d a b => encC32R 0x01 d a b 0x05
  | .orn d a b => encC32R 0x01 d a b 0x06
  | .sll d a b => encC32R 0x01 d a b 0x07
  | .srl d a b => encC32R 0x01 d a b 0x08
  | .sra d a b => encC32R 0x01 d a b 0x09
  | .ror d a b => encC32R 0x01 d a b 0x0A
  | .mul d a b => encC32R 0x01 d a b 0x0B
  | .mulh d a b => encC32R 0x01 d a b 0x0C
  | .mulhu d a b => encC32R 0x01 d a b 0x0D
  | .div d a b => encC32R 0x01 d a b 0x0E
  | .divu d a b => encC32R 0x01 d a b 0x0F
  | .rem d a b => encC32R 0x01 d a b 0x10
  | .remu d a b => encC32R 0x01 d a b 0x11
  | .min d a b => encC32R 0x01 d a b 0x12
  | .max d a b => encC32R 0x01 d a b 0x13
  | .minu d a b => encC32R 0x01 d a b 0x14
  | .maxu d a b => encC32R 0x01 d a b 0x15
  | .slt d a b => encC32R 0x01 d a b 0x16
  | .sltu d a b => encC32R 0x01 d a b 0x17
  | .clz d a => encC32R 0x01 d a 0 0x18
  | .ctz d a => encC32R 0x01 d a 0 0x19
  | .popc d a => encC32R 0x01 d a 0 0x1A
  | .brev d a => encC32R 0x01 d a 0 0x1B
  | .addi d a imm => encC32I 0x02 d a imm.toNat
  | .andi d a imm => encC32I 0x03 d a imm.toNat
  | .ori d a imm => encC32I 0x04 d a imm.toNat
  | .xori d a imm => encC32I 0x05 d a imm.toNat
  | .slli d a sh => encC32I 0x06 d a sh.toNat
  | .srli d a sh => encC32I 0x07 d a sh.toNat
  | .srai d a sh => encC32I 0x08 d a sh.toNat
  | .slti d a imm => encC32I 0x09 d a imm.toNat
  | .sltiu d a imm => encC32I 0x0A d a imm.toNat
  | .mini d a imm => encC32I 0x0B d a imm.toNat
  | .maxi d a imm => encC32I 0x0C d a imm.toNat
  | .padd d a b => encC32R 0x0D d a b 0
  | .psub d a b => encC32R 0x0D d a b 1
  | .paddw d a b => encC32R 0x0D d a b 2
  | .pmov d a => encC32R 0x0D d a 0 3
  | .paddi d a imm => encC32I 0x0E d a imm.toNat
  | .li d imm => leBytes 12 (2 + 0x01 * 2 ^ 2 + d.toNat * 2 ^ 8 + imm.toNat * 2 ^ 64)
  | .ldB m => encC64 0x01 0 m
  | .ldBu m => encC64 0x01 1 m
  | .ldH m => encC64 0x01 2 m
  | .ldHu m => encC64 0x01 3 m
  | .ldW m => encC64 0x01 4 m
  | .ldD m => encC64 0x01 5 m
  | .stB m => encC64 0x02 0 m
  | .stH m => encC64 0x02 1 m
  | .stW m => encC64 0x02 2 m
  | .stD m => encC64 0x02 3 m
  | .amoadd wide m => encC64 0x03 (0 + 16 * wide.toNat) m
  | .amoand wide m => encC64 0x03 (1 + 16 * wide.toNat) m
  | .amoor wide m => encC64 0x03 (2 + 16 * wide.toNat) m
  | .amoxor wide m => encC64 0x03 (3 + 16 * wide.toNat) m
  | .amomin wide m => encC64 0x03 (4 + 16 * wide.toNat) m
  | .amomax wide m => encC64 0x03 (5 + 16 * wide.toNat) m
  | .amominu wide m => encC64 0x03 (6 + 16 * wide.toNat) m
  | .amomaxu wide m => encC64 0x03 (7 + 16 * wide.toNat) m
  | .amoswp wide m => encC64 0x03 (8 + 16 * wide.toNat) m
  | .cas m => encC64 0x04 0 m
  | .casp m => encC64 0x04 1 m
  | .acq m => encC64 0x05 0 m
  | .rel m => encC64 0x06 0 m
  | .fence m => encC64 0x07 0 m
  | .beq a b off => encC32I 0x10 a b off.toNat
  | .bne a b off => encC32I 0x11 a b off.toNat
  | .blt a b off => encC32I 0x12 a b off.toNat
  | .bge a b off => encC32I 0x13 a b off.toNat
  | .bltu a b off => encC32I 0x14 a b off.toNat
  | .bgeu a b off => encC32I 0x15 a b off.toNat
  | .jmp off => encC32I 0x16 0 0 off.toNat
  | .jal a off => encC32I 0x17 a 0 off.toNat
  | .jr a => encC32R 0x18 0 a 0 0
  | .loop a bodyw stg id max => encLoop 0x02 a bodyw stg id max
  | .loopw a bodyw stg id max => encLoop 0x03 a bodyw stg id max
  | .bar => encC32R 0x19 0 0 0 0
  | .rend num fin => encC32I 0x1A 0 0 (num.toNat + 16 * fin.toNat)
  | .setf flag => encC32I 0x1B 0 0 (flag.toNat + 32)
  | .clrf flag => encC32I 0x1B 0 0 flag.toNat
  | .waitf flag clear => encC32I 0x1C 0 0 (flag.toNat + 32 * clear.toNat)
  | .tkpost tok a => encC32I 0x1D 0 a tok.toNat
  | .tkwait tok a => encC32I 0x1E 0 a tok.toNat
  | .yield num => encC32I 0x1F 0 0 num.toNat
  | .halt => encC32R 0x20 0 0 0 0
  | .nestw idx tbl a => encC32I 0x21 0 a (idx.toNat + 32 * tbl.toNat)
  | .nestgo tbl => encC32I 0x22 0 0 tbl.toNat
  | .launch d a => encC32R 0x23 d a 0 0
  | .launchContinuation d a => encC32R 0x23 d a 0 1
  | .capgive d a k => encC32I 0x24 d a k.toNat
  | .capdrop d k => encC32I 0x25 d 0 k.toNat
  | .capqry d k part => encC32I 0x26 d 0 (k.toNat + 32 * part.toNat)
  | .stg a => encC32R 0x27 0 a 0 0
  | .stgdec a => encC32R 0x27 0 a 0 1
  | .trap code => encC32I 0x28 0 0 code.toNat
  | .rdsys d n => encC32I 0x29 d 0 n.toNat
  | .wrsys a n => encC32I 0x2A 0 a n.toNat
  | .rdtime d => encC32R 0x2B d 0 0 0
  | .brk code => encC32I 0x2C 0 0 code.toNat
  | .nop => encC32R 0x2D 0 0 0 0
  | .vshape v => encV32 0x01 v.toNat
  | .vfmt n => encV32 0x02 n.toNat
  | .pand pd pa pb => encPred 0 pd pa pb
  | .por pd pa pb => encPred 1 pd pa pb
  | .pxor pd pa pb => encPred 2 pd pa pb
  | .pandn pd pa pb => encPred 3 pd pa pb
  | .pnot pd pa => encPred 4 pd pa 0
  | .pmovPredicate pd pa => encPred 5 pd pa 0
  | .pset pd => encPred 6 pd 0 0
  | .pclr pd => encPred 7 pd 0 0
  | .pcnt ix pa => encV32 0x04 (ix.toNat + pa.toNat * 2 ^ 4)
  | .vseq nm1 tbl => encV32 0x05 (nm1.toNat + tbl.toNat * 2 ^ 6)
  | .vSetf flag => encV32 0x06 (flag.toNat + 2 ^ 5)
  | .vClrf flag => encV32 0x06 flag.toNat
  | .vWaitf flag clear => encV32 0x07 (flag.toNat + clear.toNat * 2 ^ 5)
  | .vTkpost tok n => encV32 0x08 (tok.toNat + n.toNat * 2 ^ 4)
  | .vTkwait tok n => encV32 0x09 (tok.toNat + n.toNat * 2 ^ 4)
  | .vRend num fin => encV32 0x0A (num.toNat + fin.toNat * 2 ^ 4)
  | .vHalt => encV32 0x0B 0
  | .vNop => encV32 0x0C 0
  | .vadd v => encV 0x01 v
  | .vsub v => encV 0x02 v
  | .vmul v => encV 0x03 v
  | .vmad v => encV 0x04 v
  | .vmin v => encV 0x05 v
  | .vmax v => encV 0x06 v
  | .vabs v => encV 0x07 v
  | .vneg v => encV 0x08 v
  | .vand v => encV 0x09 v
  | .vor v => encV 0x0A v
  | .vxor v => encV 0x0B v
  | .vshl v => encV 0x0C v
  | .vshr v => encV 0x0D v
  | .vsra v => encV 0x0E v
  | .vrcp v => encV 0x0F v
  | .vrsq v => encV 0x10 v
  | .vexp2 v => encV 0x11 v
  | .vlog2 v => encV 0x12 v
  | .vtanh v => encV 0x13 v
  | .vcmp v => encV 0x14 v
  | .vredsum v => encV 0x15 v
  | .vredmax v => encV 0x16 v
  | .vredmin v => encV 0x17 v
  | .vperm v => encV 0x18 v
  | .vxpose v => encV 0x19 v
  | .vbcast v => encV 0x1A v
  | .vmovs v => encV 0x1B v
  | .vpart v => encV 0x1C v
  | .vcompact v => encV 0x1D v
  | .vgath v => encV 0x1E v
  | .vscat v => encV 0x1F v
  | .vpop v => encV 0x20 v
  | .vpush v => encV 0x21 v
  | .vcvt v => encV 0x22 v
  | .vqnt v => encV 0x23 v
  | .vdqnt v => encV 0x24 v
  | .unpk3 v => encV 0x25 v
  | .vdot4 v => encV 0x26 v
  | .vpack v => encV 0x27 v
  | .vunpk v => encV 0x28 v
  | .vlds v => encVImm 0x30 v
  | .vsts v => encVImm 0x31 v
  | .vfill v => encVImm 0x32 v
  | .vrng v => encVImm 0x33 v
  | .vpatx v => encVImm 0x34 v
  | .mseq tbl => leBytes 24 (0x01 + tbl.toNat * 2 ^ 32)
  | .mend => leBytes 24 0x0A
  | .mstep h a b t => encStep 0x02 h a b t
  | .mspz h a b t => encStep 0x03 h a b t
  | .mbsp h a b t => encStep 0x04 h a b t
  | .mzero acc lvlen lvl iter => leBytes 24 (0x05 + acc.toNat * 2 ^ 6 + iter.toNat * 2 ^ 8
      + lvl.toNat * 2 ^ 10 + lvlen.toNat * 2 ^ 13)
  | .mscl acc a => leBytes 24 (0x06 + acc.toNat * 2 ^ 6 + mOpdWord a * 2 ^ 32)
  | .mdtab addr tslot => leBytes 24 (0x07 + addr.toNat * 2 ^ 32 + tslot.toNat * 2 ^ 108)
  | .mdrain o => encDrain o
  | .mSetf flag => encMsync 0 flag.toNat 0 0
  | .mClrf flag => encMsync 1 flag.toNat 0 0
  | .mWaitf flag clear => encMsync (2 + clear.toNat) flag.toNat 0 0
  | .mTkpost tok n => encMsync 4 tok.toNat 0 n.toNat
  | .mTkwait tok n => encMsync 5 tok.toNat 0 n.toNat
  | .mRend num fin => encMsync 6 num.toNat fin.toNat 0
  | .mHalt => encMsync 7 0 0 0
  | .mnop => leBytes 24 0x0B
  | .ksort k => encSort 1 k
  | .kmerge k => encSort 2 k
  | .ktopk k => encSort 3 k
  | .khist k => encSort 4 k
  | .kroute k => encSort 5 k
  | .kSetf flag => encKend 0 flag.toNat 0 0
  | .kClrf flag => encKend 1 flag.toNat 0 0
  | .kWaitf flag clear => encKend (2 + clear.toNat) flag.toNat 0 0
  | .kTkpost tok n => encKend 4 tok.toNat 0 n.toNat
  | .kTkwait tok n => encKend 5 tok.toNat 0 n.toNat
  | .kRend num fin => encKend 6 num.toNat fin.toNat 0
  | .kHalt => encKend 7 0 0 0
  | .aqPush rs1 => encR 0x0B 0 0 rs1.toNat 0 0
  | .aqStat rd rs1 => encR 0x0B 1 rd.toNat rs1.toNat 0 0
  | .tkPost tok rs1 => encR 0x0B 2 0 rs1.toNat tok.toNat 0
  | .tkWait tok rs1 => encR 0x0B 3 0 rs1.toNat tok.toNat 0
  | .cycRd rd hi => encR 0x0B 4 rd.toNat 0 hi.toNat 0
  | .lqCfg q rs1 => encR 0x0B 5 0 rs1.toNat q.toNat 0
  | .stgIssue rs1 => encR 0x2B 0 0 rs1.toNat 0 0
  | .stgDec rs1 => encR 0x2B 1 0 rs1.toNat 0 0
  | .ecall => leBytes 4 0x73
  | .ebreak _ => leBytes 4 0x100073
  | .rv32imcBaseInstruction _ op => encRv op
  | _ => []

/-- An instruction as its encoding spells it: a side-core instruction in its 32-bit form. -/
def Instr.spelled (i : Instr) : Instr :=
  match i with
  | .ebreak _ => .ebreak false
  | .rv32imcBaseInstruction _ op => .rv32imcBaseInstruction false op
  | i => i

/-- The engine whose encoding a table word is read in.  Control and vector words share their length
codes and several opcode numbers; a word whose bits [1:0] are 3 is a side-core word, one with
guard 12 that the vector stream defines is a vector word, and any other is a control word.  A word of 192
bits is a matrix word. -/
def tableEngine (nbits w : Nat) : Nat :=
  if nbits == 192 then 2
  else if w % 4 == 3 then 4
  else if w % 4 == 0 && fld w 8 4 == 12 then
    match judgeV32 w with
    | .illegalEncoding _ => 0
    | _ => 1
  else 0

/-- The instruction this decoder reads from a word of the opcode table (bit 0 least significant,
the bits above nbits zero); none where it refuses the word. -/
def decodeTableWord (nbits w : Nat) : Option Instr :=
  match decodeFor (tableEngine nbits w) (leBytes 24 (w % 2 ^ nbits)) with
  | .overrun => none
  | .word (.illegalEncoding _) _ => none
  | .word i _ => some i

end Sys2Proof
end

