-- ==== Sys2Proof/Config.lean ====
section
/-! DEFINITION. What an implementation of the package fixes and the manual leaves open: values
without a body, of which no proof can learn anything (log entries 1, 7, 8, 10). -/

namespace Sys2Proof.Config

/-- The value a special function returns where R272 gives only an error bound: 0 frcp, 1 frsq,
2 fexp2, 3 flog2, 4 ftanh, on an FP32 pattern (log 7). -/
opaque special : Nat → BitVec 32 → BitVec 32

/-- Which of the agents that no rule orders acts next, and how long an event without an
architected latency takes: a fresh choice for every value of the counter (log 1). -/
opaque pick : Nat → Nat

/-- The metered energy of the n-th act of a job, in nanojoules (06 R141, log 8). -/
opaque meter : Nat → Nat

/-- The length in bytes of the certificate that CSEL names (07 R170, log 10). -/
opaque certLen : Nat → Nat

/-- Four bytes at an offset of the certificate that CSEL names (07 R170, log 10). -/
opaque certificate : Nat → Nat → BitVec 32

/-- A number that the manual leaves open, fresh for every value of the counter (log 1). -/
opaque freeWord : Nat → BitVec 32

/-- The directory set of a line (04 R88): the manual gives no function from lines to sets (log 1). -/
opaque dirSet : Nat → Nat

/-- The L1 set of a line, by its package physical address (09 R207): the manual gives no function (log 6). -/
opaque l1Set : Nat → Nat

/-- The set within its L2 slice of a line, by its package physical address (09 R215; log 6). -/
opaque l2Set : Nat → Nat

/-- The TLB set of a partition, buffer and chunk (09 R219; log 6). -/
opaque tlbSet : Nat → Nat → Nat → Nat

/-- The SHA-512 digest of the Farxus firmware key that is fused in the package (01 R39). -/
opaque fuseKey : BitVec 512

/-- The fused minimum security version of an image slot (01 R39). -/
opaque fuseMin : Nat → Nat

/-- How many corrected errors of a site pass the firmware's threshold (01 R19, 09 R224; log 70). -/
opaque eccLimit : Nat

/-- The free bits of the two primes of the attestation key in the secure store (01 R41, 07 R168, log 10). -/
opaque attPrime : Nat → BitVec 2045

/-- The 64-byte salt of the n-th signature (07 R168, log 10). -/
opaque salt : Nat → BitVec 512

end Sys2Proof.Config
end

