-- ==== Sys2Proof/Machine/NumFmt.lean ====
section
/-! DEFINITION. Number formats, rounding and exact arithmetic (11 R247 to R259, R269 to R273).
Values are exact: a sign, a natural magnitude and a power of two; every helper rounds once. -/

namespace Sys2Proof.Machine

/-- (-1)^neg times m times 2^e; a zero keeps its sign. -/
structure Num where
  neg : Bool
  m   : Nat
  e   : Int
  deriving DecidableEq, Repr

/-- The exact value of a code (R273, widen). -/
inductive Val
  | nan
  | inf (neg : Bool)
  | fin (n : Num)
  deriving DecidableEq, Repr

/-- An integer as an exact value; 0 is +0. -/
def Val.ofInt (i : Int) : Val := .fin ⟨decide (i < 0), i.natAbs, 0⟩

/-- The three rounding modes (R258). -/
inductive Rnd
  | rne | rtz | sr
  deriving DecidableEq, Repr

/-- The mode of a 2-bit field: 0 RNE, 1 RTZ, 2 SR (R260, R350). -/
def Rnd.ofCode : Nat → Rnd
  | 0 => .rne
  | 1 => .rtz
  | _ => .sr

/-! Exact arithmetic -/

/-- The signed mantissa of a value at exponent e, for e at most its own exponent. -/
def Num.intAt (n : Num) (e : Int) : Int :=
  let x : Int := (n.m * 2 ^ (n.e - e).toNat : Nat)
  if n.neg then -x else x

/-- The exact sum; an exactly zero sum is -0 only when both addends are -0 (R401). -/
def Num.add (a b : Num) : Num :=
  let e := if a.e ≤ b.e then a.e else b.e
  let x := a.intAt e + b.intAt e
  if x == 0 then ⟨a.m == 0 && b.m == 0 && a.neg && b.neg, 0, 0⟩
  else ⟨decide (x < 0), x.natAbs, e⟩

/-- The exact product; a zero product takes the XOR of the signs (R401). -/
def Num.mul (a b : Num) : Num := ⟨a.neg != b.neg, a.m * b.m, a.e + b.e⟩

def Val.add : Val → Val → Val
  | .nan, _ => .nan
  | _, .nan => .nan
  | .inf a, .inf b => if a == b then .inf a else .nan
  | .inf a, .fin _ => .inf a
  | .fin _, .inf b => .inf b
  | .fin a, .fin b => .fin (a.add b)

def Val.mul : Val → Val → Val
  | .nan, _ => .nan
  | _, .nan => .nan
  | .inf a, .inf b => .inf (a != b)
  | .inf a, .fin b => if b.m == 0 then .nan else .inf (a != b.neg)
  | .fin a, .inf b => if a.m == 0 then .nan else .inf (a.neg != b)
  | .fin a, .fin b => .fin (a.mul b)

def Val.neg : Val → Val
  | .nan => .nan
  | .inf a => .inf (!a)
  | .fin a => .fin { a with neg := !a.neg }

def Val.abs : Val → Val
  | .nan => .nan
  | .inf _ => .inf false
  | .fin a => .fin { a with neg := false }

def Val.isNan : Val → Bool
  | .nan => true
  | _ => false

/-- NaN or an infinity. -/
def Val.special : Val → Bool
  | .fin _ => false
  | _ => true

def Val.isNeg : Val → Bool
  | .nan => false
  | .inf n => n
  | .fin n => n.neg

def Val.isZero : Val → Bool
  | .fin n => n.m == 0
  | _ => false

/-- a < b of exact numbers, with -0 = +0. -/
def Num.lt (a b : Num) : Bool :=
  let e := if a.e ≤ b.e then a.e else b.e
  decide (a.intAt e < b.intAt e)

/-- a < b; false when either is NaN. -/
def Val.lt : Val → Val → Bool
  | .nan, _ => false
  | _, .nan => false
  | .inf a, .inf b => a && !b
  | .inf a, .fin _ => a
  | .fin _, .inf b => !b
  | .fin a, .fin b => a.lt b

/-- a = b with -0 = +0; false when either is NaN. -/
def Val.eqv (a b : Val) : Bool := !a.isNan && !b.isNan && !a.lt b && !b.lt a

/-! Formats -/

/-- A binary format with sign, exponent and fraction (R252, R255 to R257): mbits fraction bits, the
exponent qmin of the smallest subnormal step, the largest finite magnitude code, the position of
the sign bit (none for an unsigned format), the NaN code and, for IEEE formats, the infinity. -/
structure FloatFmt where
  mbits   : Nat
  qmin    : Int
  maxCode : Nat
  signPos : Option Nat
  nanCode : Option Nat
  infCode : Option Nat
  deriving DecidableEq, Repr

/-- An element format: a floating format, or integers from lo to hi in so many bits. -/
inductive Fmt
  | flt (f : FloatFmt)
  | int (width : Nat) (lo hi : Int)
  deriving DecidableEq, Repr

def fp32F : FloatFmt := ⟨23, -149, 0x7F7FFFFF, some 31, some 0x7FC00000, some 0x7F800000⟩
def fp16F : FloatFmt := ⟨10, -24, 0x7BFF, some 15, some 0x7E00, some 0x7C00⟩
def bf16F : FloatFmt := ⟨7, -133, 0x7F7F, some 15, some 0x7FC0, some 0x7F80⟩
/-- BS20 (R257): a NaN code and no infinity. -/
def bs20F : FloatFmt := ⟨11, -137, 0x7FFFE, some 19, some 0x7FFFF, none⟩
/-- E5M3 (R256). -/
def e5m3F : FloatFmt := ⟨3, -17, 0xFE, none, some 0xFF, none⟩

/-- The NF format of S, E, M, BIAS and NANF (R255). -/
def nfF (s : Bool) (e m : Nat) (bias : Int) (nanf : Bool) : FloatFmt :=
  { mbits := m
    qmin := if e = 0 then -bias else 1 - bias - m
    maxCode := if nanf then 2 ^ (e + m) - 2 else 2 ^ (e + m) - 1
    signPos := if s then some (e + m) else none
    nanCode := if nanf then some (2 ^ (e + m) - 1) else none
    infCode := none }

/-! Format descriptors (R247, R248) -/

/-- The fixed descriptors 0 to 15 (R247). -/
def fixedDesc (i : Nat) : Word :=
  match i with
  | 1 => 1 | 2 => 2 | 3 => 3 | 4 => 4 | 5 => 5 | 6 => 6 | 7 => 7 | 8 => 8 | 9 => 9 | 10 => 10
  | 11 => BitVec.ofNat 32 (2 ^ 24 + 7 * 2 ^ 16 + 3 * 2 ^ 12 + 4 * 2 ^ 9 + 2 ^ 8 + 11)
  | 12 => BitVec.ofNat 32 (2 ^ 24 + 15 * 2 ^ 16 + 2 * 2 ^ 12 + 5 * 2 ^ 9 + 2 ^ 8 + 11)
  | 13 => BitVec.ofNat 32 (1 * 2 ^ 16 + 1 * 2 ^ 12 + 2 * 2 ^ 9 + 2 ^ 8 + 11)
  | 14 => BitVec.ofNat 32 (7 * 2 ^ 16 + 7 * 2 ^ 12 + 2 ^ 8 + 11)
  | _ => 0

def descKind (w : Word) : Nat := w.toNat % 16
def descS (w : Word) : Bool := w.toNat / 2 ^ 8 % 2 == 1
def descE (w : Word) : Nat := w.toNat / 2 ^ 9 % 8
def descM (w : Word) : Nat := w.toNat / 2 ^ 12 % 16
def descBias (w : Word) : Int := (BitVec.ofNat 8 (w.toNat / 2 ^ 16)).toInt
def descNanf (w : Word) : Bool := w.toNat / 2 ^ 24 % 2 == 1
/-- S + E + M of an NF descriptor (R255). -/
def descWidth (w : Word) : Nat := (if descS w then 1 else 0) + descE w + descM w

/-- The format a descriptor names; none when it is invalid (R250).  A packed ternary element is an
integer of -1 to 1. -/
def descFmt (w : Word) : Option Fmt :=
  match descKind w with
  | 1 => some (.flt fp32F)
  | 2 => some (.flt fp16F)
  | 3 => some (.flt bf16F)
  | 4 => some (.int 32 (-2147483648) 2147483647)
  | 5 => some (.int 8 (-128) 127)
  | 6 => some (.int 8 0 255)
  | 7 => some (.int 4 (-8) 7)
  | 8 => some (.int 2 (-1) 1)
  | 9 => some (.flt e5m3F)
  | 10 => some (.flt bs20F)
  | 11 => some (.flt (nfF (descS w) (descE w) (descM w) (descBias w) (descNanf w)))
  | _ => none

/-- Bits of an element's slot in memory: 0 for packed ternary, whose bytes hold five (R247, R251). -/
def descSlot (w : Word) : Nat :=
  match descKind w with
  | 1 | 4 | 10 => 32
  | 2 | 3 => 16
  | 5 | 6 | 9 => 8
  | 7 => 4
  | 11 => if descWidth w ≤ 4 then 4 else 8
  | _ => 0

/-! Widening -/

/-- The magnitude of a floating code without its sign bit. -/
def FloatFmt.magVal (f : FloatFmt) (neg : Bool) (c : Nat) : Val :=
  if f.nanCode == some c then .nan
  else if f.infCode == some c then .inf neg
  else if f.infCode.isSome && c > f.maxCode then .nan
  else if c < 2 ^ f.mbits then .fin ⟨neg, c, f.qmin⟩
  else .fin ⟨neg, 2 ^ f.mbits + c % 2 ^ f.mbits, f.qmin + ((c / 2 ^ f.mbits : Nat) : Int) - 1⟩

/-- The exact value of a code (R252 to R257); bits above the format's width are ignored. -/
def FloatFmt.widen (f : FloatFmt) (code : Nat) : Val :=
  match f.signPos with
  | some p => f.magVal (code / 2 ^ p % 2 == 1) (code % 2 ^ p)
  | none => f.magVal false (code % 256)

/-- The exact value of a code in a format (R273). -/
def Fmt.widen (f : Fmt) (code : Nat) : Val :=
  match f with
  | .flt f => f.widen code
  | .int w lo _ => if lo < 0 then .ofInt (BitVec.ofNat w code).toInt else .ofInt (code % 2 ^ w : Nat)

/-! Rounding -/

/-- floor(log2 (p / q)) for positive p and q. -/
def log2Frac (p q : Nat) : Int :=
  let l : Int := (Nat.log2 p : Int) - (Nat.log2 q : Int)
  if 0 ≤ l then (if q * 2 ^ l.toNat ≤ p then l else l - 1)
  else (if q ≤ p * 2 ^ (-l).toNat then l else l - 1)

/-- Round p / q to an integer in a mode, ties to the neighbour whose code is even, given whether
the lower neighbour's code is odd; rand is rand24 (R258). -/
def roundFrac (mode : Rnd) (rand : Nat) (loOdd : Nat → Bool) (p q : Nat) : Nat :=
  let n := p / q
  let r := p % q
  if r == 0 then n
  else
    match mode with
    | .rtz => n
    | .rne => if 2 * r < q then n else if 2 * r > q then n + 1 else if loOdd n then n + 1 else n
    | .sr => if rand < r * 2 ^ 24 / q then n + 1 else n

/-- What narrowing gives: the code, and the sticky bits it sets (R259). -/
structure Narrowed where
  code : Nat
  sat  : Bool
  nan  : Bool
  deriving DecidableEq, Repr

/-- p / q scaled by 2^-e as a fraction. -/
def scaleFrac (p q : Nat) (e : Int) : Nat × Nat :=
  if 0 ≤ e then (p, q * 2 ^ e.toNat) else (p * 2 ^ (-e).toNat, q)

/-- The magnitude code of p / q > 0 in a format whose exponent range has no upper end, and whether
the value lay strictly between two codes and took the upper one (R258, R259). -/
def FloatFmt.roundMag (f : FloatFmt) (mode : Rnd) (rand p q : Nat) : Nat × Bool :=
  let e := log2Frac p q
  let qe := if e - f.mbits ≤ f.qmin then f.qmin else e - f.mbits
  let t := (qe - f.qmin).toNat
  let x := scaleFrac p q qe
  let n := roundFrac mode rand (fun n => (n + t * 2 ^ f.mbits) % 2 == 1) x.1 x.2
  (n + t * 2 ^ f.mbits, n * x.2 > x.1)

/-- A magnitude code with its sign. -/
def FloatFmt.signed (f : FloatFmt) (neg : Bool) (c : Nat) : Nat :=
  match f.signPos with
  | some p => if neg then c + 2 ^ p else c
  | none => c

/-- Narrow (-1)^neg times p / q, a nonzero magnitude, into a floating format (R258, R259). -/
def FloatFmt.narrowFrac (f : FloatFmt) (mode : Rnd) (rand : Nat) (neg : Bool) (p q : Nat) : Narrowed :=
  let r := f.roundMag mode rand p q
  if neg && f.signPos.isNone then ⟨0, r.1 != 0, false⟩
  else if r.1 ≤ f.maxCode then ⟨f.signed neg r.1, false, false⟩
  else
    match f.infCode with
    | none => ⟨f.signed neg f.maxCode, true, false⟩
    | some i =>
      match mode with
      | .rne => ⟨f.signed neg i, false, false⟩
      | .rtz => ⟨f.signed neg f.maxCode, false, false⟩
      | .sr => ⟨f.signed neg (if r.2 then i else f.maxCode), false, false⟩

/-- Narrow (-1)^neg times p / q into integers from lo to hi (R259). -/
def narrowIntFrac (w : Nat) (lo hi : Int) (mode : Rnd) (rand : Nat) (neg : Bool) (p q : Nat) : Narrowed :=
  let n := roundFrac mode rand (fun n => n % 2 == 1) p q
  let x : Int := if neg then -(n : Int) else n
  if x < lo then ⟨(BitVec.ofInt w lo).toNat, true, false⟩
  else if hi < x then ⟨(BitVec.ofInt w hi).toNat, true, false⟩
  else ⟨(BitVec.ofInt w x).toNat, false, false⟩

/-- Narrow a rational of either kind of format; p may be 0. -/
def Fmt.narrowFrac (f : Fmt) (mode : Rnd) (rand : Nat) (neg : Bool) (p q : Nat) : Narrowed :=
  match f with
  | .int w lo hi => narrowIntFrac w lo hi mode rand neg p q
  | .flt f => if p == 0 then ⟨f.signed neg 0, false, false⟩ else f.narrowFrac mode rand neg p q

/-- The code of 0: digit 1 is the ternary zero, which its integer code 0 stands for here. -/
def Fmt.zeroCode (_ : Fmt) : Nat := 0

/-- narrow(x, fmt, mode) (R258, R259, R273). -/
def Fmt.narrow (f : Fmt) (mode : Rnd) (rand : Nat) (x : Val) : Narrowed :=
  match x, f with
  | .nan, .int _ _ _ => ⟨0, false, true⟩
  | .nan, .flt g =>
    match g.nanCode with
    | some c => ⟨c, false, false⟩
    | none => ⟨0, false, true⟩
  | .inf neg, .int w lo hi => ⟨(BitVec.ofInt w (if neg then lo else hi)).toNat, true, false⟩
  | .inf neg, .flt g =>
    match g.infCode with
    | some i => ⟨g.signed neg i, false, false⟩
    | none =>
      if g == bs20F then ⟨0x7FFFF, false, false⟩
      else if neg && g.signPos.isNone then ⟨0, true, false⟩
      else ⟨g.signed neg g.maxCode, true, false⟩
  | .fin n, f =>
    if 0 ≤ n.e then f.narrowFrac mode rand n.neg (n.m * 2 ^ n.e.toNat) 1
    else f.narrowFrac mode rand n.neg n.m (2 ^ (-n.e).toNat)

/-- round_fp32 (R273). -/
def roundFp32 (mode : Rnd) (rand : Nat) (x : Val) : Word :=
  BitVec.ofNat 32 ((Fmt.flt fp32F).narrow mode rand x).code

/-- The exact value of an FP32 pattern. -/
def ofFp32 (w : Word) : Val := fp32F.widen w.toNat

/-- bs20(v), with the saturation of a product that overflows (R257, R259). -/
def bs20Of (x : Val) : Narrowed := (Fmt.flt bs20F).narrow .rne 0 x

/-- The code of bs20(v). -/
def bs20 (x : Val) : Nat := (bs20Of x).code

/-! Packed ternary (R254) -/

/-- Trit i of a byte: -1, 0 or +1; an illegal byte holds five zeros. -/
def trit (b : Nat) (i : Nat) : Int :=
  if b < 243 then ((b / 3 ^ i % 3 : Nat) : Int) - 1 else 0

/-! Philox (R269) -/

def mask32 (n : Nat) : Nat := n % 2 ^ 32

structure Quad where
  c0 : Nat
  c1 : Nat
  c2 : Nat
  c3 : Nat
  deriving DecidableEq, Repr

/-- One round of the generator, on 32-bit numbers. -/
def philoxRound (c : Quad) (k0 k1 : Nat) : Quad :=
  let a := 0xD2511F53 * c.c0
  let b := 0xCD9E8D57 * c.c2
  ⟨((b / 2 ^ 32) ^^^ c.c1) ^^^ k0, mask32 b, ((a / 2 ^ 32) ^^^ c.c3) ^^^ k1, mask32 a⟩

/-- n rounds, the key stepped between rounds. -/
def philoxLoop : Nat → Quad → Nat → Nat → Quad
  | 0, c, _, _ => c
  | n + 1, c, k0, k1 =>
    philoxLoop n (philoxRound c k0 k1) (mask32 (k0 + 0x9E3779B9)) (mask32 (k1 + 0xBB67AE85))

/-- Philox4x32-10 with a counter of four words and a key of two. -/
def philox (c0 c1 c2 c3 k0 k1 : Nat) : Quad :=
  philoxLoop 10 ⟨mask32 c0, mask32 c1, mask32 c2, mask32 c3⟩ (mask32 k0) (mask32 k1)

/-- Word i of the generator's result. -/
def Quad.word (q : Quad) : Nat → Nat
  | 0 => q.c0
  | 1 => q.c1
  | 2 => q.c2
  | _ => q.c3

/-- rand24 at coordinates (row, column, layer): bits [31:8] of word 0 with key (0, NODE_KEY)
(R271, R400). -/
def rand24 (key row col layer : Nat) : Nat := (philox row col layer 0 0 key).c0 / 256

/-- PAT(seed, r, g): the two kept positions of a group of eight (18 R437). -/
def pat (key seed r g : Nat) : Nat × Nat :=
  let w := (philox r g 0 0 seed key).c2
  let p0 := w % 8
  let p1 := (p0 + 1 + w / 8 % 8 % 7) % 8
  if p0 ≤ p1 then (p0, p1) else (p1, p0)

/-! Special functions (R272) -/

def fpNan : Word := 0x7FC00000
def fpInf (neg : Bool) : Word := if neg then 0xFF800000 else 0x7F800000

/-- The free value of special function k at w where it is acceptable, else the given fallback. -/
def specialOr (k : Nat) (w : Word) (ok : Word → Bool) (fallback : Word) : Word :=
  if ok (Config.special k w) then Config.special k w else fallback

/-- |y - p / q| is at most one unit in the last place of y, for finite FP32 y of sign neg. -/
def within1Ulp (neg : Bool) (p q : Nat) (y : Word) : Bool :=
  match ofFp32 y with
  | .fin n =>
    let s := if 0 ≤ n.e then (2 ^ n.e.toNat, 1) else (1, 2 ^ (-n.e).toNat)
    n.neg == neg && decide (n.m * s.1 * q ≤ p * s.2 + s.1 * q) && decide (p * s.2 ≤ n.m * s.1 * q + s.1 * q)
  | _ => false

/-- frcp: 1 / x within 1 ulp (R272). -/
def frcp (w : Word) : Word :=
  match ofFp32 w with
  | .nan => fpNan
  | .inf neg => if neg then 0x80000000 else 0
  | .fin n =>
    if n.m == 0 then fpInf n.neg
    else
      let f := if 0 ≤ n.e then (1, n.m * 2 ^ n.e.toNat) else (2 ^ (-n.e).toNat, n.m)
      let r := BitVec.ofNat 32 (fp32F.narrowFrac .rne 0 n.neg f.1 f.2).code
      if r == fpInf n.neg then r
      else specialOr 0 w (within1Ulp n.neg f.1 f.2) r

/-! Fixed-point enclosures of the exact functions, at a scale of 2^320: each is off by less than 2^100 units, so
that a comparison with that slack keeps the bounds of R272 and cuts nothing from them. -/

/-- The scale of the enclosures. -/
def fixOne : Nat := 2 ^ 320

/-- atanh z for 0 ≤ z ≤ 1/3, from n terms of its series: pw is the current odd power, k its exponent. -/
def atanhFix (z : Nat) : Nat → Nat → Nat → Nat
  | 0, _, _ => 0
  | n + 1, pw, k => pw / k + atanhFix z n (pw * z / fixOne * z / fixOne) (k + 2)

/-- ln 2. -/
def ln2Fix : Nat := 2 * atanhFix (fixOne / 3) 120 (fixOne / 3) 1

/-- exp t from n terms of its series: term is the current one, k its number. -/
def expFix (t : Nat) : Nat → Nat → Nat → Nat
  | 0, _, _ => 0
  | n + 1, term, k => term + expFix t n (term * t / fixOne / (k + 1)) (k + 1)

/-- The integer square root of n by its bits, from r on. -/
def isqrtFix (n : Nat) : Nat → Nat → Nat
  | 0, r => r
  | k + 1, r => if (r + 2 ^ k) * (r + 2 ^ k) ≤ n then isqrtFix n k (r + 2 ^ k) else isqrtFix n k r

/-- A magnitude m 2^e at the scale; e is at least -320 for every FP32 value. -/
def magFix (m : Nat) (e : Int) : Nat := m * 2 ^ (e + 320).toNat

/-- 2^x for -151 < x < 128, x given at the scale. -/
def exp2Fix (x : Int) : Nat :=
  let f := expFix ((x % fixOne).toNat * ln2Fix / fixOne) 90 fixOne 0
  let i := x / fixOne
  if 0 ≤ i then f * 2 ^ i.toNat else f / 2 ^ (-i).toNat

/-- log2 of m 2^e for m > 0. -/
def log2Fix (m : Nat) (e : Int) : Int :=
  let b := Nat.log2 m
  let z := (m - 2 ^ b) * fixOne / (m + 2 ^ b)
  (b + e) * fixOne + (2 * atanhFix z 120 z 1) * fixOne / ln2Fix

/-- tanh x for 0 ≤ x < 9, x given at the scale. -/
def tanhFix (x : Nat) : Nat :=
  let y := expFix (2 * x) 190 fixOne 0
  (y - fixOne) * fixOne / (y + fixOne)

/-- Whether finite FP32 y lies within ulps units in its last place of v, or within tol where that is more. -/
def nearFix (ulps tol : Nat) (v : Int) (y : Word) : Bool :=
  match ofFp32 y with
  | .fin n =>
    let a : Int := magFix n.m n.e
    let d := (if n.neg then -a else a) - v
    decide (d.natAbs ≤ ulps * magFix 1 n.e + 2 ^ 100) || decide (d.natAbs ≤ tol)
  | _ => false

/-- The free value of special function k at w where it keeps the bound of R272 about v, else v rounded. -/
def specialNear (k : Nat) (w : Word) (ulps tol : Nat) (neg : Bool) (v : Nat) : Word :=
  specialOr k w (fun y => nearFix ulps tol (if neg then -(v : Int) else v) y && (y.getLsbD 31 == neg || tol != 0))
    (BitVec.ofNat 32 (fp32F.narrowFrac .rne 0 neg v fixOne).code)

/-- Finite FP32 y ≥ 0 is at most one unit in its last place off 1 / sqrt (m 2^e): its neighbours enclose the root. -/
def rootWithin (m : Nat) (e : Int) (y : Word) : Bool :=
  match ofFp32 y with
  | .fin n =>
    let s := m * 2 ^ (2 * n.e + e + 447).toNat
    !n.neg && decide ((n.m - 1) * (n.m - 1) * s ≤ 2 ^ 447) && decide (2 ^ 447 ≤ (n.m + 1) * (n.m + 1) * s)
  | _ => false

/-- frsq: 1 / sqrt x within 1 ulp (R272). -/
def frsq (w : Word) : Word :=
  match ofFp32 w with
  | .nan => fpNan
  | .inf neg => if neg then fpNan else 0
  | .fin n =>
    if n.m == 0 then fpInf n.neg
    else if n.neg then fpNan
    else specialOr 1 w (rootWithin n.m n.e)
      (BitVec.ofNat 32 (fp32F.narrowFrac .rne 0 false (isqrtFix (fixOne ^ 3 / magFix n.m n.e) 420 0) fixOne).code)

/-- The integer an exact value is, when it is one. -/
def Num.asInt (n : Num) : Option Int :=
  if 0 ≤ n.e then some (n.intAt 0)
  else if n.m % 2 ^ (-n.e).toNat == 0 then
    let x : Int := (n.m / 2 ^ (-n.e).toNat : Nat)
    some (if n.neg then -x else x)
  else none

/-- fexp2: exact at integers, otherwise within 2 ulp (R272). -/
def fexp2 (w : Word) : Word :=
  match ofFp32 w with
  | .nan => fpNan
  | .inf neg => if neg then 0 else fpInf false
  | .fin n =>
    if !(n.lt ⟨false, 128, 0⟩) then fpInf false
    else if n.lt ⟨true, 150, 0⟩ then 0
    else
      match n.asInt with
      | some i => roundFp32 .rne 0 (.fin ⟨false, 1, i⟩)
      | none => specialNear 2 w 2 0 false (exp2Fix (if n.neg then -(magFix n.m n.e : Int) else magFix n.m n.e))

/-- m is a power of two. -/
def isPow2 (m : Nat) : Bool := m == 2 ^ Nat.log2 m

/-- flog2: exact at powers of two, otherwise within 2 ulp, or within 2^-22 inside [0.5, 2] (R272). -/
def flog2 (w : Word) : Word :=
  match ofFp32 w with
  | .nan => fpNan
  | .inf neg => if neg then fpNan else fpInf false
  | .fin n =>
    if n.m == 0 then fpInf true
    else if n.neg then fpNan
    else if isPow2 n.m then roundFp32 .rne 0 (.ofInt ((Nat.log2 n.m : Int) + n.e))
    else
      let v := log2Fix n.m n.e
      let near := !(n.lt ⟨false, 1, -1⟩) && !((⟨false, 2, 0⟩ : Num).lt n)
      specialNear 3 w (if near then 0 else 2) (if near then 2 ^ 298 + 2 ^ 100 else 0) (decide (v < 0)) v.natAbs

/-- ftanh: within 1 ulp below 2^-6 and 2 ulp above (R272). -/
def ftanh (w : Word) : Word :=
  match ofFp32 w with
  | .nan => fpNan
  | .inf neg => if neg then 0xBF800000 else 0x3F800000
  | .fin n =>
    if n.m == 0 then w
    else if !((⟨false, n.m, n.e⟩ : Num).lt ⟨false, 9, 0⟩) then (if n.neg then 0xBF800000 else 0x3F800000)
    else
      let small := (⟨false, n.m, n.e⟩ : Num).lt ⟨false, 1, -6⟩
      specialNear 4 w (if small then 1 else 2) 0 n.neg (tanhFix (magFix n.m n.e))

/-! Two-level quantisation (R262 to R264) -/

/-- Whether a descriptor is a target of Q2L (R262). -/
def q2lTarget (w : Word) : Bool := [5, 6, 7, 8, 9, 11].contains (descKind w)

/-- QMAX of a target (R262). -/
def q2lMax (w : Word) : Num :=
  match descFmt w with
  | some (.int _ _ hi) => ⟨false, hi.toNat, 0⟩
  | some (.flt f) =>
    match f.magVal false f.maxCode with
    | .fin n => n
    | _ => ⟨false, 0, 0⟩
  | none => ⟨false, 0, 0⟩

/-- The quotient of two positive exact values as a fraction. -/
def Num.frac (a b : Num) : Nat × Nat :=
  let e := a.e - b.e
  if 0 ≤ e then (a.m * 2 ^ e.toNat, b.m) else (a.m, b.m * 2 ^ (-e).toNat)

/-- The larger of two magnitudes. -/
def Num.maxMag (a b : Num) : Num :=
  let x : Num := { a with neg := false }
  let y : Num := { b with neg := false }
  if x.lt y then y else x

/-- The largest magnitude of a list of values; specials do not occur here. -/
def maxMag (xs : List Val) : Num :=
  xs.foldl (fun m x => match x with | .fin n => m.maxMag n | _ => m) ⟨false, 0, 0⟩

/-- A Val's exact number; 0 for a special. -/
def Val.num : Val → Num
  | .fin n => n
  | _ => ⟨false, 0, 0⟩

/-- The row scale of R263, as a BF16 code. -/
def q2lRowScale (qmax m : Num) : Nat :=
  if m.m == 0 then 0
  else
    let f := m.frac qmax
    let sr := (bf16F.narrowFrac .rne 0 false f.1 f.2).code
    if sr == 0x7F80 then 0x7F7F else if sr == 0 then 1 else sr

/-- The smallest E5M3 code whose value is at least x (R263). -/
def e5m3Up (x : Nat × Nat) : Nat :=
  ((List.range 255).find? fun c =>
    let n := (e5m3F.widen c).num
    let f : Nat × Nat := if 0 ≤ n.e then (n.m * 2 ^ n.e.toNat, 1) else (n.m, 2 ^ (-n.e).toNat)
    decide (x.1 * f.2 ≤ f.1 * x.2)).getD 0xFE

/-- The sub-scale of a block with largest magnitude mb (R263). -/
def q2lSubScale (qmax : Num) (sr : Nat) (mb : Num) : Nat :=
  if sr == 0 || mb.m == 0 then 0
  else e5m3Up (mb.frac ((bf16F.widen sr).num.mul qmax))

/-- S = bs20(sr x ss) of two codes (R263), with its saturation. -/
def q2lSOf (sr ss : Nat) : Narrowed := bs20Of ((bf16F.widen sr).mul (e5m3F.widen ss))

/-- The code of S. -/
def q2lS (sr ss : Nat) : Nat := (q2lSOf sr ss).code

/-- One code: narrow(x / S), clamped to QMAX (R263); the ternary code is its trit as an integer. -/
def q2lCode (w : Word) (s : Nat) (x : Val) : Narrowed :=
  match descFmt w with
  | none => ⟨0, false, false⟩
  | some f =>
    let sv := (bs20F.widen s).num
    if sv.m == 0 then ⟨0, false, false⟩
    else
      let n := x.num
      let fr := ({ n with neg := false } : Num).frac sv
      let r := f.narrowFrac .rne 0 n.neg fr.1 fr.2
      match f with
      | .int wd _ hi =>
        if r.code == (BitVec.ofInt wd (-hi - 1)).toNat && descKind w != 6 then
          ⟨(BitVec.ofInt wd (-hi)).toNat, true, r.nan⟩
        else r
      | .flt _ => r

/-- The code of the value 0 in a target as Q2L writes it: digit 1 for packed ternary (R264). -/
def q2lZero (w : Word) : Nat := if descKind w == 8 then 1 else 0

/-- A code as Q2L writes it: a ternary code is the digit trit + 1 (R432). -/
def q2lWrite (w : Word) (code : Nat) : Nat :=
  if descKind w == 8 then ((BitVec.ofNat 2 code).toInt + 1).toNat else code

/-- A quantised row: its BF16 scale, the E5M3 sub-scale of each block of 64, the codes as written, which elements
saturated, and the sticky bits (R263, R264). -/
structure Q2L where
  sr    : Nat
  ss    : List Nat
  codes : List Nat
  sats  : List Bool
  sat   : Bool
  nan   : Bool
  deriving DecidableEq, Repr

/-- Blocks of 64 elements, the last one shorter (R262), for at most fuel blocks. -/
def blocks64 : Nat → List α → List (List α)
  | 0, _ => []
  | fuel + 1, xs => if xs.isEmpty then [] else xs.take 64 :: blocks64 fuel (xs.drop 64)

/-- q2l(row, target) (R263, R264). -/
def q2l (w : Word) (xs : List Val) : Q2L :=
  let bl := blocks64 xs.length xs
  if xs.any Val.special then
    ⟨0x7FC0, bl.map fun _ => 0xFF, xs.map fun _ => q2lZero w, xs.map fun _ => false, false, true⟩
  else
    let qmax := q2lMax w
    let sr := q2lRowScale qmax (maxMag xs)
    let parts := bl.map fun b =>
      let ss := q2lSubScale qmax sr (maxMag b)
      let s := q2lSOf sr ss
      (ss, b.map fun x => let c := q2lCode w s.code x; { c with sat := c.sat || s.sat })
    ⟨sr, parts.map (·.1), (parts.flatMap (·.2)).map (fun r => q2lWrite w r.code), (parts.flatMap (·.2)).map (·.sat),
      parts.any (fun p => p.2.any (·.sat)), parts.any (fun p => p.2.any (·.nan))⟩

/-- A scale word of `vqnt`: BF16 scale in [15:0], E5M3 sub-scale in [23:16] (18 R432). -/
def q2lScaleWord (q : Q2L) : Nat := q.sr + q.ss.headD 0 * 2 ^ 16

end Sys2Proof.Machine
end

