-- ==== Sys2Proof/Machine/Tab.lean ====
section
/-! DEFINITION. Sparse tables: a list of keys, strictly rising, each with its value; a key that is
not listed holds a default that the reader names.  Register files, queues by number and the
package's tables are held in this form. -/

namespace Sys2Proof.Machine

/-- A table from numbers to values. -/
abbrev Tab (α : Type) := List (Nat × α)

/-- The value listed under a key. -/
def Tab.find : Tab α → Nat → Option α
  | [], _ => none
  | (k', v) :: t, k => if k = k' then some v else Tab.find t k

/-- The value of a key, with the default d where it is not listed. -/
def Tab.get (d : α) (t : Tab α) (k : Nat) : α := (Tab.find t k).getD d

/-- The table with one key's value replaced. -/
def Tab.set : Tab α → Nat → α → Tab α
  | [], k, v => [(k, v)]
  | (k', v') :: t, k, v =>
    if k = k' then (k, v) :: t
    else if k < k' then (k, v) :: (k', v') :: t
    else (k', v') :: Tab.set t k v

/-- The table without a key. -/
def Tab.erase (t : Tab α) (k : Nat) : Tab α := t.filter fun e => e.1 != k

/-- The listed keys, rising. -/
def Tab.keys (t : Tab α) : List Nat := t.map (·.1)

/-- The listed values. -/
def Tab.vals (t : Tab α) : List α := t.map (·.2)

/-- Change one key's value, reading the default where it is not listed. -/
def Tab.upd (d : α) (t : Tab α) (k : Nat) (f : α → α) : Tab α := Tab.set t k (f (Tab.get d t k))

end Sys2Proof.Machine
end

