-- ==== Sys2Proof/Machine/Mem.lean ====
section
/-! DEFINITION. Byte memories: a list of addresses and bytes, strictly rising, that lists no zero
byte; an address that is not listed reads zero (05 R106, 09 R212, R217; host memory: log 5). -/

namespace Sys2Proof.Machine

/-- A byte memory in canonical form. -/
abbrev Memory := List Host.Cell

/-- The byte at an address. -/
def Memory.byte : Memory → Nat → Byte
  | [], _ => 0
  | (a', b) :: m, a => if a = a' then b else Memory.byte m a

/-- The memory with one byte replaced; a zero byte is not listed. -/
def Memory.put : Memory → Nat → Byte → Memory
  | [], a, b => if b = 0 then [] else [(a, b)]
  | (a', b') :: m, a, b =>
    if a = a' then (if b = 0 then m else (a, b) :: m)
    else if a < a' then (if b = 0 then (a', b') :: m else (a, b) :: (a', b') :: m)
    else (a', b') :: Memory.put m a b

/-- Every key of the memory is above a. -/
def Memory.above (a : Nat) (m : Memory) : Prop :=
  match m with
  | [] => True
  | (k, _) :: _ => a < k

/-- The canonical form: keys strictly rise and no byte is zero. -/
def Memory.wf : Memory → Bool
  | [] => true
  | [(_, b)] => b != 0
  | (a, b) :: (a', b') :: m => b != 0 && decide (a < a') && Memory.wf ((a', b') :: m)

/-- n bytes from an address. -/
def Memory.bytes (m : Memory) : Nat → Nat → List Byte
  | _, 0 => []
  | a, n + 1 => m.byte a :: Memory.bytes m (a + 1) n

/-- n bytes from an address as a little-endian number. -/
def Memory.nat (m : Memory) : Nat → Nat → Nat
  | _, 0 => 0
  | a, n + 1 => (m.byte a).toNat + 256 * Memory.nat m (a + 1) n

/-- Write bytes from an address on. -/
def Memory.putBytes (m : Memory) (a : Nat) : List Byte → Memory
  | [] => m
  | b :: bs => Memory.putBytes (Memory.put m a b) (a + 1) bs

/-- Write the low n bytes of a number, little-endian, at an address. -/
def Memory.putNat (m : Memory) (a : Nat) : Nat → Nat → Memory
  | 0, _ => m
  | n + 1, w => Memory.putNat (Memory.put m a (BitVec.ofNat 8 w)) (a + 1) n (w / 256)

/-- Write the bytes of a list of cells, in order. -/
def Memory.putCells (m : Memory) : List (Nat × Byte) → Memory
  | [] => m
  | c :: cs => Memory.putCells (Memory.put m c.1 c.2) cs

/-- n zero bytes from an address on. -/
def Memory.clear (m : Memory) (a n : Nat) : Memory :=
  m.filter fun c => !(decide (a ≤ c.1) && decide (c.1 < a + n))

end Sys2Proof.Machine
end

