-- ==== Sys2Proof/Machine/CoreState.lean ====
section
/-! DEFINITION. The state of one core (08 R173 to R201, 13 R298, 19 R448 to R452): registers, queues,
tokens, flags, nest tables, streams, loops, side cores and the operations in flight. -/

namespace Sys2Proof.Machine

/-- An architected queue (R187, R188): the entries that stood at the start of the cycle and were not
yet popped, the entries pushed in this cycle, and how many were popped in it. -/
structure Fifo (α : Type) where
  items  : List α
  inc    : List α
  popped : Nat
  deriving DecidableEq, Repr

/-- An active hardware loop (16 R382 to R384, 13 R308).  A `loopw` has trips 0 and stages 1. -/
structure LoopRec where
  cond   : Bool
  id     : Nat
  stages : Nat
  iter   : Nat
  limit  : Nat
  start  : Nat
  stop   : Nat
  trips  : Nat
  reg    : Nat
  deriving DecidableEq, Repr

/-- A replay of a vector or matrix body (R194): its table, the offsets of the first body word and of
the word after the body, and the iteration counters j0 to j5. -/
structure Replay where
  tab   : Nat
  first : Nat
  after : Nat
  j     : List Nat
  deriving DecidableEq, Repr

/-- Where a stream stands at a rendezvous (R176): not there, arrived by the instruction at pc with a
number, a final flag and whether it was a `yield`, a side core whose arrival is held back (R244), or
released to continue at a core clock. -/
inductive Meet
  | away
  | withheld
  | arrived (pc num : Nat) (fin yld : Bool)
  | leaving (at_ : Nat) (fin stop : Bool)
  deriving DecidableEq, Repr

/-- One stream or side core of a job (R174, R176, R184). -/
structure Stream where
  present : Bool
  started : Bool
  ended   : Bool
  start   : Nat
  pc      : Nat
  free    : Nat
  latch   : Option Nat
  meet    : Meet
  ncmd    : Nat
  replay  : Option Replay
  turn    : Bool
  stall   : BitVec 10
  deriving DecidableEq, Repr

/-- What a row of a vector instruction read: its a, b and d rows and its guard bits. -/
structure VIn where
  a : Row
  b : Row
  d : Row
  g : BitVec 64
  deriving DecidableEq, Repr

/-- A vector instruction in flight: everything it fixed in its issue cycle (R399, R420). -/
structure VOp where
  i      : Instr
  pc     : Nat
  layer  : Nat
  t      : Nat
  rows   : Nat
  lanes  : Nat
  ew     : Nat
  rm     : Nat
  t3     : Bool
  fmt    : Word
  guard  : Nat
  ty     : Nat
  vd     : Nat
  va     : Nat
  vb     : Nat
  sd     : Nat
  sa     : Nat
  sb     : Nat
  row0   : Row
  ents   : List Row
  got    : List VIn
  replay : Option Replay
  deriving DecidableEq, Repr

/-- A matrix step, or one entry of an `mbsp`, in flight: what it fixed at its first cycle and the operand
bytes and scales read so far (R444, R448, R449), the replay it issued in, the scale-queue entries and bank halves that it
took, which a stop at its boundary gives back (R297), and the length check and generation numbers of a zero-suppressed A as
they stood at its issue (10 R246). -/
structure MOp where
  kind  : Nat
  h     : MHead
  sc    : MScale
  pc    : Nat
  cmd   : Nat
  layer : Nat
  t     : Nat
  entry : Nat
  fa    : Word
  fb    : List Word
  fai   : Nat
  a     : Nat
  za    : Nat
  slab  : Option Nat
  b     : List Nat
  zb    : Nat
  mask  : Nat
  seed  : Nat
  abuf  : List Byte
  bbuf  : List Byte
  sa    : AccRow
  sb    : AccRow
  replay : Option Replay
  popped : List AccRow
  banks  : List (Nat × AccRow)
  marks  : List Nat
  deriving DecidableEq, Repr

/-- An `mbsp` between two entries (R454, R455): the command, the next entry's number, its bytes or the
first of them outside the window, and the KB before it. -/
structure MBsp where
  h     : MHead
  sc    : MScale
  pc    : Nat
  cmd   : Nat
  layer : Nat
  abase : Nat
  lbase : Nat
  entry : Nat
  bytes : List Byte
  bad   : Option Nat
  prev  : Option Nat
  replay : Option Replay
  deriving DecidableEq, Repr

/-- An `mscl` or `mdtab` in flight: where it reads and what it has read (R451, R457). -/
structure MLoad where
  table : Bool
  slot  : Nat
  pc    : Nat
  cmd   : Nat
  t     : Nat
  a     : Nat
  buf   : List Byte
  replay : Option Replay
  deriving DecidableEq, Repr

/-- A drain in flight (R458 to R462): its word, the destination and residual addresses, the output and
residual formats, the dropout seed, GEN, the kind row 0 was read under, and the waits for queue room
that the core had seen at its issue. -/
structure DOp where
  o     : MOut
  pc    : Nat
  cmd   : Nat
  layer : Nat
  t     : Nat
  lag   : Nat
  fa    : Word
  fr    : Word
  dst   : Nat
  res   : Nat
  seed  : Nat
  gen   : Nat
  kind0 : Bool
  replay : Option Replay
  deriving DecidableEq, Repr

/-- What a write of window bytes does to the tags of their blocks (R213, R462): clears VALID, sets the tag
of every block, or only of the blocks whose first byte it writes. -/
inductive TagAct
  | clear
  | every (v : BitVec 16)
  | first (v : BitVec 16)
  deriving DecidableEq, Repr

/-- A sort command in flight: the key and value rows read so far (R478). -/
structure KOp where
  i    : Instr
  t    : Nat
  keys : List Row
  vals : List Row
  deriving DecidableEq, Repr

/-- An effect that a core holds until a later core cycle (R185). -/
inductive PAct
  /-- a scalar register -/
  | sreg (r : Nat) (v : Word)
  /-- an index register -/
  | ireg (x : Nat) (v : BitVec 12)
  /-- the bits of a predicate that mask selects -/
  | preg (p : Nat) (mask val : PBits)
  /-- the bits of a lane row that mask selects -/
  | vreg (r : Nat) (mask val : Row)
  /-- VCTL as the vector stream sees it (R261) -/
  | vctl (v : Word)
  /-- sticky bits of VSTAT -/
  | vstat (bits : Word)
  /-- the elements of an accumulator row that mask selects -/
  | accRow (acc row : Nat) (mask val : AccRow)
  /-- an accumulator's kind: true is integer (R448) -/
  | accKind (acc : Nat) (int : Bool)
  /-- every element of an accumulator reads +0 (R456) -/
  | accZero (acc : Nat)
  /-- an ACCFLAGS bit -/
  | accFlag (acc : Nat)
  /-- one half of a scale bank (R449): key 2 bank + half -/
  | scale (half : Nat) (v : AccRow)
  /-- window bytes, and what becomes of the tags of their blocks -/
  | sram (cells : List (Nat × Byte)) (tag : TagAct)
  /-- a nest table's go bit (R192) -/
  | go (tab : Nat)
  /-- a Chital table slot becomes usable -/
  | table (slot : Nat) (freqs : List Nat)
  /-- an entry enters sq (R424) -/
  | push (q : Nat) (r : Row)
  /-- the next row of a vector instruction is read -/
  | vrow (op : VOp)
  /-- the next share of a matrix step's operands is read -/
  | mread (op : MOp)
  /-- a matrix step reads its accumulator -/
  | mfin (op : MOp)
  /-- a coded step's decode is over (R289): the decoded bytes and MARKIDX -/
  | decoded (cells : List (Nat × Byte)) (mark : Word)
  /-- the next entry of an `mbsp` begins -/
  | mbsp (op : MBsp)
  /-- `mscl` and `mdtab` read their next bytes -/
  | mload (op : MLoad)
  /-- row k of a drain's accumulator is read -/
  | drain (op : DOp) (k : Nat)
  /-- row k of a drain, read with this kind, takes its residual -/
  | resid (op : DOp) (k : Nat) (row : AccRow) (kind : Bool)
  /-- a drain produces entries for sq -/
  | qpush (q : Nat) (rows : List Row)
  /-- the next row of a sort command is read -/
  | kread (op : KOp)
  /-- the status of a `launch` is written: the descriptor of the node it posted may be read (16 R389) -/
  | shown (node : Nat)
  deriving DecidableEq, Repr

/-- A held effect and the core cycle at whose start it applies. -/
structure Pend where
  at_ : Nat
  act : PAct
  deriving DecidableEq, Repr

/-- A trap record (13 R301), with the chunk that a translation fault has to map. -/
structure TrapRec where
  cause  : Nat
  sub    : Nat
  engine : Nat
  prec   : Bool
  cmdb   : Bool
  qhead  : Bool
  site   : Nat
  core   : Nat
  pc     : Nat
  cmdidx : Nat
  word   : List Byte
  status : Word
  addr   : Nat
  replay : Option Replay
  loops  : List LoopRec
  gclk   : Nat
  cclk   : Nat
  time   : Nat
  chunk  : Option (Nat × Nat)
  deriving DecidableEq, Repr

/-- The operation an atomic performs at its word (16 R376, R377); a load or `acq` has none. -/
inductive AmoOp
  | read
  | add
  | and_
  | or_
  | xor_
  | min
  | max
  | minu
  | maxu
  | swap
  | cas
  deriving DecidableEq, Repr

/-- Where a scalar load or atomic performs: a buffer, or the argument block. -/
inductive LoadAt
  | buf (b off : Nat)
  | args (off : Nat)
  deriving DecidableEq, Repr

/-- An outstanding scalar load, atomic or `acq` (R186): destination, place, bytes, whether the value is
sign-extended, the operation with its operand and its expected value, its scope, order and failure order, the
mask of an `acq` (10 R227, R228, R237), whether a request to a peer package waits for its answer, and the data
once it arrived. -/
structure LoadRec where
  d       : Nat
  wide    : Bool
  at_     : LoadAt
  n       : Nat
  sx      : Bool
  op      : AmoOp
  arg     : Nat
  expect  : Nat
  scope   : Nat
  order   : Nat
  mask    : Option Word
  asked   : Bool
  v       : DWord
  arrived : Bool
  deriving DecidableEq, Repr

/-- A watchpoint report that is due at an instruction boundary of the control stream (14 R334): the engine
that hit, the watchpoint, the watched byte's address, and the index of the stream's next instruction at
the hit. -/
structure WatchHit where
  eng : Nat
  num : Nat
  addr : Nat
  ncmd : Nat
  deriving DecidableEq, Repr

/-- A token post made in this cycle (R189), with where its trap would stop if it overflows, and the replay there. -/
structure Post where
  eng : Nat
  pc  : Nat
  cmd : Nat
  tok : Nat
  n   : Nat
  replay : Option Replay
  deriving DecidableEq, Repr

/-- What a side core holds back until its earlier descriptors have performed (R244, R480): a post, an
arrival or a stage command; a post and a stage command with the address of their instruction. -/
inductive HeldAct
  | post (tok n pc : Nat)
  | arrive (num : Nat) (fin : Bool)
  | stage (cmd : List Byte) (dec : Bool) (pc : Nat)
  deriving DecidableEq, Repr

/-- A held item: its engine, how many of that engine's descriptors have to be done first, and what. -/
structure Held where
  eng   : Nat
  after : Nat
  act   : HeldAct
  deriving DecidableEq, Repr

/-- A descriptor in an address queue (R482), with LQCFG.FMT as it stood at the push (R481). -/
structure Desc where
  w   : BitVec 128
  fmt : Nat
  deriving DecidableEq, Repr

/-- A row or scale entry on its way to a queue of the core (R198); last ends its descriptor. -/
structure Inflight where
  scale : Bool
  q     : Nat
  row   : AccRow
  last  : Bool
  deriving DecidableEq, Repr

/-- A command in the stage command queue: its 16 bytes, whether it is a decode command, the engine
that pushed it, and for a decode command the parameter block read at the push (R486, R494). -/
structure StgCmd where
  w   : BitVec 128
  dec : Bool
  eng : Nat
  blk : List Byte
  deriving DecidableEq, Repr

/-- The job a core runs: the attempt, the instance's rank and the core's gang rank (R132 to R135). -/
structure Job where
  att   : Nat
  inst  : Nat
  grank : Nat
  deriving DecidableEq, Repr

/-- What the matrix stream owned as the last row of a drain was read whose length is known only once its residual is: the
drain's number, the accumulators and their kinds and flags, the scale banks, the table slots, the decoded-B buffer with
MARKIDX, the stream, and the scale entries popped since (19 R461, 13 R297). -/
structure MatMark where
  cmd      : Nat
  acc      : Tab AccRow
  accKind  : Tab Bool
  accflags : Word
  scale    : Tab AccRow
  ctab     : Tab (List Nat)
  decB     : Memory
  markidx  : Word
  stream   : Stream
  popped   : List AccRow
  deriving DecidableEq, Repr

/-- One core. -/
structure Core where
  job      : Option Job
  clk      : Nat
  frozen   : Bool
  halted   : Bool
  step     : Bool
  skipDbg  : List Nat
  hits     : List WatchHit
  done     : Bool
  budget   : Nat
  s        : Tab Word
  ix       : Tab (BitVec 12)
  p        : Tab PBits
  v        : Tab Row
  vshape   : Word
  vfmt     : Word
  vctl     : Word
  vctlV    : Word
  vstat    : Word
  vsFresh  : Word
  accflags : Word
  accFresh : Word
  markidx  : Word
  acc      : Tab AccRow
  accKind  : Tab Bool
  scale    : Tab AccRow
  decB     : Memory
  ctab     : Tab (List Nat)
  lq       : Tab (Fifo Row)
  sq       : Tab (Fifo Row)
  scaleQ   : Fifo AccRow
  scaleOut : Nat
  scaleNew : Nat
  laq      : Fifo Desc
  saq      : Fifo Desc
  stgq     : Fifo StgCmd
  lqcfg    : Tab Word
  tk       : Tab Nat
  posts    : List Post
  ef       : BitVec 32
  efSet    : BitVec 32
  efClr    : BitVec 32
  efClaim  : BitVec 32
  go       : BitVec 4
  goPend   : BitVec 4
  nest     : Tab Word
  streams  : Tab Stream
  loops    : List LoopRec
  x        : Tab Word
  dstore   : Tab Memory
  cycHi    : Tab Word
  pend     : List Pend
  load     : Option LoadRec
  held     : List Held
  pushedN  : Tab Nat
  doneN    : Tab Nat
  lflight  : List Inflight
  sqWait   : List (Nat × Row)
  sqHold   : Tab Nat
  mark     : Option MatMark
  lag      : Nat
  blocked  : Option Nat
  dvals    : List (AccRow × Bool)
  dbytes   : List Byte
  traps    : List TrapRec
  counters : Tab Nat
  bars     : Nat
  samp     : List (List Byte)
  deriving DecidableEq, Repr

/-- An empty queue. -/
def Fifo.empty : Fifo α := ⟨[], [], 0⟩

/-- A stream that no section gives. -/
def Stream.absent : Stream :=
  { present := false, started := false, ended := false, start := 0, pc := 0, free := 0, latch := none,
    meet := .away, ncmd := 0, replay := none, turn := false, stall := 0x3F0 }

/-- A core that runs no job, at the start values of R175. -/
def Core.idle : Core :=
  { job := none, clk := 0, frozen := false, halted := false, step := false, skipDbg := [], hits := [], done := false, budget := 0,
    s := [], ix := [], p := [], v := [], vshape := 0x3F0, vfmt := 0, vctl := 0, vctlV := 0, vstat := 0,
    vsFresh := 0, accflags := 0, accFresh := 0, markidx := 0, acc := [], accKind := [], scale := [],
    decB := [], ctab := [], lq := [], sq := [], scaleQ := .empty, scaleOut := 0, scaleNew := 0, laq := .empty,
    saq := .empty, stgq := .empty, lqcfg := [], tk := [], posts := [], ef := 0, efSet := 0, efClr := 0,
    efClaim := 0, go := 0, goPend := 0, nest := [], streams := [], loops := [], x := [], dstore := [],
    cycHi := [], pend := [], load := none, held := [], pushedN := [], doneN := [], lflight := [],
    sqWait := [], sqHold := [], mark := none, lag := 0, blocked := none, dvals := [], dbytes := [], traps := [], counters := [], bars := 0, samp := [] }

end Sys2Proof.Machine
end

