-- ==== Sys2Proof/Machine/State.lean ====
section
/-! DEFINITION. The state of the package. -/

namespace Sys2Proof.Machine

/-- Why the machine stops. -/
inductive Fault
  /-- raised by step once a scheduler-chiplet failure has stopped the package (01 R20): safe, nothing
  runs after it until the package is reset from outside. -/
  | packageStopped
  deriving DecidableEq, Repr

/-- Why a meaning is refused. -/
inductive Refusal
  /-- raised by an arm of exec that has no meaning yet: safe. -/
  | notModelled (mnemonic : String)
  deriving DecidableEq, Repr

/-- The stream a stream instruction acts in: site, core and engine identifier (08 R173). -/
structure Actor where
  site : Nat
  core : Nat
  eng  : Nat
  deriving DecidableEq, Repr

/-- What is left to do of a timebase cycle: a core begins its cycle, a stream of it issues, its cycle
ends. -/
inductive Turn
  | core (id : Nat)
  | stream (id eng : Nat)
  | fin (id : Nat)
  deriving DecidableEq, Repr

/-- The measurement record of a buffer (07 R162): its root until the first write after it, and the
partition and context that measured it. -/
structure MRec where
  part    : Nat
  ctx     : Nat
  root    : Option (List Byte)
  deriving DecidableEq, Repr

/-- A buffer (05 R106, R107, 09 R216, R217, R225): size, ATTR, chunk size, references, whether it is revoked,
the port of the peer package that is its home, the package physical addresses of its mapped chunks, its
bytes, the 64-byte accesses that hold an uncorrectable error, its measurement record, and the extent it
is made of. -/
structure Buffer where
  size    : Nat
  attr    : BitVec 13
  big     : Bool
  refs    : Nat
  revoked : Bool
  peer    : Option Nat
  chunks  : Tab Nat
  mem     : Memory
  bad     : List Nat
  mrec    : Option MRec
  ext     : Option Nat
  deriving DecidableEq, Repr

/-- A slot of a capability table (05 R108); an empty slot is not listed. -/
inductive CapSlot
  | cap (buf : Nat) (r w : Bool)
  | reserved
  deriving DecidableEq, Repr

/-- A binding of a running attempt (05 R101, R112). -/
structure Bind where
  kind  : Nat
  r     : Bool
  w     : Bool
  exp   : Bool
  buf   : Nat
  empty : Bool
  given : Bool
  give  : Option Nat
  slot  : Option Nat
  deriving DecidableEq, Repr

/-- An instance of an attempt: its site, clusters and cores, its clocks and its operand SRAM window
(06 R132 to R140, 09 R210 to R213). -/
structure Inst where
  site     : Nat
  clusters : List Nat
  t0       : Option Nat
  ready    : Tab Nat
  gclk     : Nat
  level    : Nat
  change   : Option (Nat × Nat)
  sram     : Memory
  tags     : Tab (BitVec 16)
  bars     : Tab (Nat × Nat)
  deriving DecidableEq, Repr

/-- A watchpoint as an attempt holds it from its dispatch (14 R332): its number, the buffer and offset it
resolved to, the watched bytes, and the kinds of access. -/
structure Watch where
  num  : Nat
  buf  : Nat
  off  : Nat
  mask : Nat
  r    : Bool
  w    : Bool
  deriving DecidableEq, Repr

/-- What a measured attempt fixed at its dispatch (07 R156): the context, the length and digest of its code
object, and the digest of its argument block. -/
structure Measure where
  ctx     : Nat
  codeLen : Nat
  codeDig : List Byte
  argDig  : List Byte
  deriving DecidableEq, Repr

/-- An attempt of a node (05 R116, 06 R132, 13 R308). -/
structure Attempt where
  node    : Nat
  part    : Nat
  cls     : Nat
  codeCls : Nat
  gang    : Nat
  restart : Bool
  budget  : Nat
  limit   : Nat
  ymask   : BitVec 64
  code    : Tab (List Byte)
  data    : Tab (List Byte)
  starts  : Tab Nat
  binds   : List Bind
  args    : List Byte
  fdesc   : Tab Word
  key     : Word
  preempt : Bool
  hold    : Nat
  metered : Nat
  debited : Nat
  posted  : Nat
  cont    : Bool
  ckpts   : Tab (List Byte)
  insts   : List Inst
  codeAt  : Nat
  watches : List Watch
  nobudget : Bool
  meas    : Option Measure
  reuse   : Bool
  hist    : Tab Nat
  parked  : Bool
  deriving DecidableEq, Repr

/-- A trap or queue-head fault waiting for a cluster's Tahr (13 R299, R304). -/
structure TahrItem where
  core  : Nat
  rec_  : TrapRec
  taken : Bool
  deriving DecidableEq, Repr

/-- A stage transfer that was admitted (20 R488): the command, the attempt, instance and core that
issued it, how many bytes have performed, what it holds back, the peer port and
address of a request that waits for its answer, and what peers have answered for its current act, by device address, plus 2^64 for
a write (01 R33). -/
structure Xfer where
  att   : Nat
  inst  : Nat
  core  : Nat
  cmd   : StgCmd
  doneB : Nat
  wait  : Bool
  buf   : List Byte
  sat   : Bool
  nan   : Bool
  asked : Option (Nat × Nat)
  got   : Tab (List Byte)
  deriving DecidableEq, Repr

/-- An event on its way to a partition's ring (14 R316 to R319): partition, engine, code, site, core, time,
arguments and the payload of its further slots. -/
structure EvRec where
  part    : Nat
  engine  : Nat
  code    : Nat
  site    : Nat
  core    : Nat
  time    : Nat
  arg0    : Nat
  arg1    : Nat
  key     : Word
  payload : List Byte
  deriving DecidableEq, Repr

/-- A 256-byte line of a cluster's L1 or of an L2 slice (09 R207, R215): its set and way, its filled 128-byte
sectors, its dirty bytes, its bytes, and the virtual function whose request allocated it (14 R322). -/
structure CLine where
  set   : Nat
  way   : Nat
  sect  : Nat
  dirty : BitVec 256
  data  : Row
  vf    : Nat
  deriving DecidableEq, Repr

/-- An entry of a TLB (09 R219). -/
structure TlbEnt where
  part  : Nat
  buf   : Nat
  chunk : Nat
  set   : Nat
  way   : Nat
  deriving DecidableEq, Repr

/-- A walk of a compute chiplet (09 R219): the translation it fetches, the TLBs it serves, the virtual function whose
request started it, and whether it has ended with the finding that the chunk is unmapped (R221). -/
structure Walk where
  part  : Nat
  buf   : Nat
  chunk : Nat
  units : List Nat
  vf    : Nat
  found : Bool
  deriving DecidableEq, Repr

/-- A UCIe module (01 R29 to R31); since is when its retraining began. -/
structure UcieModule where
  state   : Nat
  lanes   : Nat
  spare   : Nat
  rate    : Nat
  crc     : Word
  retrain : Word
  fail    : Word
  since   : Nat
  deriving DecidableEq, Repr

/-- A sample tag register (14 R324): the attempt, the line's tag and the lookups counted. -/
structure TagReg where
  att  : Nat
  line : Nat
  d    : Nat
  deriving DecidableEq, Repr

/-- A site (01 R16, R19): the class it reports, its usable clusters, its health, the errors corrected in it (09 R224) and
its modules, and its 256 sample tag registers. -/
structure Site where
  cls    : Nat
  clmask : Nat
  retcl  : Nat
  fixed  : Nat
  ecchi  : Bool
  d2ddeg : Bool
  st     : Nat
  mods   : Tab UcieModule
  tags   : Tab TagReg
  deriving DecidableEq, Repr

/-- A peer port (01 R34). -/
structure PeerPort where
  state   : Nat
  lanes   : Nat
  corr    : Word
  retrain : Word
  fail    : Word
  deriving DecidableEq, Repr

/-- A host link (02 R43 to R46, 04 R80). -/
structure HostLink where
  trained   : Bool
  cxl       : Bool
  width     : Nat
  rate      : Nat
  memEnable : Bool
  base      : Nat
  vgen      : Word
  vfEnable  : Bool
  deriving DecidableEq, Repr

/-- An MSI-X table entry (02 R52, R53; log 4). -/
structure MsixEntry where
  addr : Nat
  data : Word
  mask : Bool
  deriving DecidableEq, Repr

/-- A function's MSI-X state (02 R53; log 4). -/
structure Msix where
  enable  : Bool
  fmask   : Bool
  table   : Tab MsixEntry
  pending : Nat
  deriving DecidableEq, Repr

/-- A packet that has started and has not completed (03 R72, R73): its number in its queue, its tag, IRQ,
its completion record, whether it is done at the next refill tick (R69: an ENERGY_SET), and, once it is done, the
STATUS that record takes. -/
structure Packet where
  num  : Nat
  seq  : Nat
  irq  : Bool
  done : Nat
  dloc : Bool
  rate : Bool
  fin  : Option Nat
  deriving DecidableEq, Repr

/-- A packet as it was fetched (03 R68): its type, slots, flags, tag, SPEC and bytes. -/
structure Pkt where
  typ   : Nat
  slots : Nat
  irq   : Bool
  fence : Bool
  seq   : Nat
  spec  : Nat
  hdr   : Nat
  bytes : List Byte
  deriving DecidableEq, Repr

/-- A submission queue (03 R62 to R77).  head is the packet at READ_IDX once it has passed its checks and waits
for its fence or for dependence table entries; since is READ_IDX's advance since the status block was last
written; tested, for a WAIT at the head, is when it was last tested; turn is the place of a launch that
waits for dependence table entries. -/
structure Queue where
  base      : Nat
  log2      : Nat
  vec       : Nat
  prio      : Nat
  widxOn    : Bool
  loc       : Bool
  weight    : Nat
  widxAddr  : Nat
  statAddr  : Nat
  sloc      : Bool
  readIdx   : Nat
  widx      : Nat
  lastSeq   : Nat
  st        : Nat
  err       : Nat
  completed : Nat
  since     : Nat
  packets   : List Packet
  nextNum   : Nat
  tested    : Nat
  reread    : Bool
  turn      : Option Nat
  head      : Option Pkt
  deriving DecidableEq, Repr

/-- A migration state (02 R57 to R59). -/
structure Mig where
  ctl    : Nat
  busy   : Bool
  result : Nat
  ovf    : Bool
  log    : Nat
  logsz  : Nat
  logidx : Nat
  xfer   : Nat
  logrd  : Nat
  track  : Bool
  filter : List Nat
  deriving DecidableEq, Repr

/-- A virtual function (02 R48 to R61); waysOld is the way mask before the last write to it, at waysAt (R54). -/
structure Vf where
  valid    : Bool
  link     : Nat
  part     : Nat
  binderr  : Bool
  flrbusy  : Bool
  quiesced : Bool
  enabled  : Bool
  ways     : Nat
  waysOld  : Nat
  waysAt   : Nat
  mig      : Mig
  msix     : Msix
  queues   : Tab Queue
  deriving DecidableEq, Repr

/-- A ring of a partition (14 R315); pend counts slots whose writes WIDX does not show yet (R316), gen the times that
BASE or LOG2SLOTS was written. -/
structure Ring where
  base : Nat
  loc  : Bool
  log2 : Nat
  pend : Nat
  widx : Word
  ridx : Word
  drop : Word
  gen  : Nat
  deriving DecidableEq, Repr

/-- A watchpoint's registers (14 R332). -/
structure WatchReg where
  addr : Nat
  mask : Nat
  r    : Bool
  w    : Bool
  deriving DecidableEq, Repr

/-- A log record of a measured context (07 R167). -/
structure LogRec where
  rsn  : Nat
  gid  : Nat
  node : Nat
  kind : Nat
  bind : Nat
  cls  : Nat
  len  : Nat
  dig  : List Byte
  deriving DecidableEq, Repr

/-- A measured context (07 R153, R165, R167). -/
structure Ctx where
  isOpen   : Bool
  chain    : List Byte
  extcount : Nat
  ridx     : Nat
  rsnlast  : Nat
  recs     : List LogRec
  lost     : Bool
  deriving DecidableEq, Repr

/-- A partition's own state (06 R125, R142, 07 R153, 11 R247, 14 R311 to R332); slow says that its reserve was negative
at the last tick (06 R143). -/
structure Partition where
  ceilMw   : Nat
  ceilUj   : Nat
  weight   : Nat
  group    : Nat
  plugin   : Nat
  plugOff  : Bool
  plugLate : Bool
  rate     : Nat
  reserve  : Int
  slow     : Bool
  metered  : Nat
  reqMw    : Option Nat
  reqUj    : Option Nat
  lim      : Nat
  fdesc    : Tab Word
  dbgen    : Bool
  prof     : Word
  owner    : Option Nat
  evmask   : Word
  sring    : Ring
  ering    : Ring
  counters : Tab DWord
  attach   : Bool
  nobudget : Bool
  dbgcmd   : DWord
  dbgdata  : DWord
  dbgres   : Nat
  nstop    : Word
  watch    : Tab WatchReg
  ctxs     : Tab Ctx
  deriving DecidableEq, Repr

/-- A switch of tenants under way in a group (06 R147, R148): when it began, the partitions that leave, the
one that enters, and whether the outgoing state is being saved. -/
structure Switch where
  at_    : Nat
  out    : List Nat
  next   : Nat
  saving : Bool
  deriving DecidableEq, Repr

/-- A resource group (06 R125, R146). -/
structure Group where
  sites    : Nat
  sliced   : Bool
  slice    : Nat
  grace    : Nat
  resident : Option Nat
  began    : Nat
  switch   : Option Switch
  deriving DecidableEq, Repr

/-- A binding of a node descriptor (05 R101). -/
structure BindSpec where
  kind   : Nat
  rights : Nat
  ref    : Nat
  pbind  : Nat
  exp    : Bool
  big    : Bool
  attr   : Nat
  size   : Nat
  deriving DecidableEq, Repr

/-- Where a node stands (05 R105, R118, R123, 06 R150): it waits for predecessors, or for its descriptor's
check after a `launch`; it is in the run list; an attempt of it runs or is suspended; or it retired and
its effects wait for its parent's retirement. -/
inductive NodePhase
  | posted
  | waiting
  | ready
  | running (att : Nat)
  | suspended (att : Nat)
  | retired (rsn : Nat)
  deriving DecidableEq, Repr

/-- What a retired group node still has to bring about at its parent's retirement (05 R123, 07 R159): its
exports and gives, and its extension group. -/
structure Deferred where
  fills : List (Nat × Nat × Bool × Bool)
  recs  : List LogRec
  roots : List (Nat × List Byte)
  deriving DecidableEq, Repr

/-- A node of a graph or of a launch group (05 R99 to R105, R121 to R124). -/
structure Node where
  graph   : Nat
  idx     : Nat
  num     : Nat
  parent  : Option (Nat × Nat)
  vf      : Nat
  q       : Nat
  prio    : Nat
  desc    : Nat
  classes : List Nat
  width   : Nat
  code    : List Nat
  gangs   : List Nat
  arg     : Nat
  arglen  : Nat
  inl     : Option (List Byte)
  binds   : List BindSpec
  preds   : List Nat
  phase   : NodePhase
  cls     : Option Nat
  avoid   : List Nat
  refs    : Tab Nat
  outs    : Tab Nat
  isErr   : Bool
  cont    : Bool
  pool    : Nat
  late    : Option Deferred
  deriving DecidableEq, Repr

/-- How a graph failed (05 R118, R119). -/
structure GraphFail where
  node   : Nat
  status : Nat
  cause  : Nat
  tcause : Nat
  eng    : Nat
  deriving DecidableEq, Repr

/-- A graph in flight (05 R97 to R119): its packet, its retry budget and what it used, the context it is
measured in, its result record, its error node, how it failed, and the full trap records of its failed attempts,
by node (13 R305). -/
structure Graph where
  part   : Nat
  vf     : Nat
  q      : Nat
  pkt    : Nat
  gid    : Nat
  retry  : Nat
  used   : Nat
  meas   : Option Nat
  result : Nat
  single : Bool
  err    : Option Nat
  errOn  : Bool
  rsn    : Nat
  fail   : Option GraphFail
  recs   : List (Nat × TrapRec)
  deriving DecidableEq, Repr

/-- A receipt request at Markhor (07 R164 to R167): the packet it belongs to, what it asks for and, once it
has its token, the 512 bytes to sign, the log and the STATUS; none where nothing is to be written. -/
structure Receipt where
  part  : Nat
  vf    : Nat
  q     : Nat
  pkt   : Nat
  ctx   : Nat
  close : Bool
  dest  : Nat
  gid   : Nat
  slots : List Nat
  names : List (List Byte)
  taken : Bool
  body  : List Byte
  log   : List Byte
  status : Option Nat
  deriving DecidableEq, Repr

/-- An entry of Markhor's code table (07 R157): the buffer and offset, the digest, the time of its last use. -/
structure CodeEnt where
  buf  : Nat
  off  : Nat
  dig  : List Byte
  used : Nat
  deriving DecidableEq, Repr

/-- A grant to a peer package that the peer has not answered, or that it refused while the partition was not resident
(05 R109, 06 R149). -/
structure PeerGrant where
  vf      : Nat
  q       : Nat
  pkt     : Nat
  idx     : Nat
  port    : Nat
  buf     : Nat
  refused : Bool
  deriving DecidableEq, Repr

/-- An extent (04 R84): STATE, owner, slot and links as ADD wrote them, its buffer, the notify address that
ADD took, and whether an ADD gave it an owner since the last reset (R91). -/
structure Extent where
  st     : Nat
  owner  : Nat
  slot   : Nat
  links  : Nat
  buf    : Nat
  notify : Nat
  owned  : Bool
  deriving DecidableEq, Repr

/-- A directory entry of a 256-byte line (04 R88): the links that hold it, whether one holds it exclusive,
and when it was allocated. -/
structure DirLine where
  mask : Nat
  excl : Bool
  born : Nat
  deriving DecidableEq, Repr

/-- A back-invalidate recall on its way (04 R88, R90): the line, the link, BISnpInv or BISnpData, when it was
sent. -/
structure Recall where
  line : Nat
  link : Nat
  inv  : Bool
  at_  : Nat
  deriving DecidableEq, Repr

/-- What follows device writes that still wait at their homes: a VF's or the PF's MSI-X message (02 R53), a write to
host memory for a VF, a packet that is done (03 R73), and slots of a partition's event or sample ring that its WIDX
then shows (14 R316). -/
inductive After
  | vfIrq (v vec : Nat)
  | pfIrq (vec : Nat)
  | host (v a : Nat) (bs : List Byte)
  | finish (v q num status : Nat)
  | widx (part : Nat) (samp : Bool) (gen k : Nat)
  deriving DecidableEq, Repr

/-- What waits at the homes (04 R88): a host's read, for sharing or ownership, and a host's write of bytes; a device
access that the agent named by who makes once its turn at the lines of its spans (buffer, offset, bytes) has come; a
device write of a buffer's bytes, with release order or without it, and the attempt it belongs to (none for the
package's own); the atomic addition of 1 that notifies an owner (R91); a core's `fence` at system scope (10
R237, 16 R379); and what follows the device writes before it. -/
inductive HomeReq
  | hostRead (link dpa : Nat) (own : Bool)
  | hostWrite (link dpa : Nat) (bs : List Byte)
  | devWait (who : Actor) (spans : List (Nat × Nat × Nat)) (wr : Bool)
  | devWrite (buf off : Nat) (bs : List Byte) (rel : Bool) (att : Option Nat)
  | devAdd (buf off : Nat)
  | devFence (core : Nat)
  | after (x : After)
  deriving DecidableEq, Repr

/-- What the package has sent to the outside: an MSI-X message, an answer to a host's CXL or configuration
request, a recall, a link report, a message to a peer, a word that a register read returned. -/
inductive Sent
  | msix (addr data : Nat)
  | configRetry (link : Nat)
  | data (link dpa : Nat) (bs : List Byte) (poison : Bool)
  | done (link dpa : Nat)
  | unsupported (link dpa : Nat)
  | recall (link line : Nat) (inv : Bool)
  | linkDown (link : Nat)
  | peerGrant (port buf part slot rights size attr : Nat)
  | peerAnswer (port slot : Nat) (ok : Bool)
  | peerData (port buf off : Nat) (bs : List Byte)
  | peerRead (port buf off n : Nat)
  | peerWrite (port buf off : Nat) (bs : List Byte)
  | peerAtomic (port buf off n : Nat) (op : AmoOp) (arg expect : Nat)
  | word (w : Word)
  deriving DecidableEq, Repr

/-- A level of the weighted round robin (06 R128): the partition at the pointer, its credit, and the
same per partition for its queues. -/
structure Robin where
  at_    : Nat
  credit : Nat
  queues : Tab (Nat × Nat)
  deriving DecidableEq, Repr

/-- The package registers outside any site, function or partition (01 R15, R38, R40, 02 R44, 04 R82, R83,
06 R125, 07 R169, R170); keyed says that the secure store holds the attestation key (01 R41), extAt when
the extent command that runs began (04 R85). -/
structure Pkg where
  sku     : Nat
  form    : Nat
  straps     : Nat
  gen     : Word
  phase   : Nat
  image   : Nat
  cause   : Nat
  meas    : List Byte
  psel    : Nat
  gsel    : Nat
  fsel    : Nat
  cap     : Nat
  rate    : Nat
  guard   : Bool
  thermal : Bool
  metered : Nat
  spent   : List Nat
  csel    : Nat
  coff    : Nat
  extCmd  : DWord
  extBusy : Bool
  extRes  : Nat
  notify  : DWord
  reltime : DWord
  iso     : Nat
  llogB   : Nat
  llogI   : Word
  llogR   : Word
  llogO   : Word
  recalls : Word
  evicts  : Word
  rsn     : Nat
  counter : Nat
  block   : Nat
  tokens  : Nat
  hostcfg : Nat
  keyed   : Bool
  extAt   : Nat
  deriving DecidableEq, Repr

/-- The configuration space of a function (02 R43): whether it is in D3hot, maximum payload and maximum read
request size in bytes, the enables of 10-bit and 14-bit tags, and the AER status and mask words. -/
structure FnCfg where
  d3    : Bool
  mps   : Nat
  mrrs  : Nat
  tag10 : Bool
  tag14 : Bool
  uncSt : Word
  uncMk : Word
  uncSv : Word
  corSt : Word
  corMk : Word
  deriving DecidableEq, Repr

/-- A peer package's answer to a request of a core's control stream, or of a stage transfer for a device address (plus
2^64 for a write), and when it comes (01 R33): the bytes, or none for a refusal. -/
structure PeerAnswer where
  at_  : Nat
  site : Nat
  core : Nat
  addr : Option Nat
  data : Option (List Byte)
  deriving DecidableEq, Repr

/-- The machine.  l1 and l2 hold the caches' lines by cluster and by site (09 R207, R215), tlb the translations by
cluster and, for a site's stage engine, under its cluster number 31, walks the outstanding walks by site (R219);
ras holds the CXL RAS words that are not at their defaults (04 R82), fcfg the functions' configuration by number,
a link's function under 384 plus the link; scrubLog lists the uncorrectable errors that were found in HBM: when, the
buffer and its 64-byte access (09 R225).  cur, turns, due, inputs, freeIdx and sent are the model's own: the stream in focus, what is
left of a timebase cycle, internal events due now, what the outside will do and when, the counter of the
free values, and what the package has sent; replies, what peer packages will answer and when.  hostBad lists the ranges of host memory, address and length, whose
accesses by the device fail at the host (03 R70, R74; log 5). -/
structure State where
  time     : Nat
  stopped  : Bool
  cur      : Actor
  turns    : List Turn
  due      : List (Actor × Instr)
  inputs   : List (Nat × Actor × Instr)
  replies  : List PeerAnswer
  freeIdx  : Nat
  sent     : List Sent
  pkg      : Pkg
  pfMsix   : Msix
  sites    : Tab Site
  ports    : Tab PeerPort
  links    : Tab HostLink
  vfs      : Tab Vf
  parts    : Tab Partition
  groups   : Tab Group
  host     : Memory
  hostBad  : List (Nat × Nat)
  bufs     : Tab Buffer
  caps     : Tab CapSlot
  graphs   : Tab Graph
  nodes    : Tab Node
  atts     : Tab Attempt
  runq     : List Nat
  held     : Tab Nat
  robin    : Tab Robin
  nextDisp : Nat
  cores    : Tab Core
  tahr     : Tab (List TahrItem)
  stage    : Tab (List Xfer)
  evq      : List EvRec
  receipts : List Receipt
  codes    : List CodeEnt
  grants   : List PeerGrant
  exts     : Tab Extent
  lines    : Tab DirLine
  recalls  : List Recall
  homeq    : List HomeReq
  scrubLog : List (Nat × Nat × Nat)
  l1       : Tab (Tab CLine)
  l2       : Tab (Tab CLine)
  tlb      : Tab (List TlbEnt)
  walks    : Tab (List Walk)
  ras      : Tab Word
  fcfg     : Tab FnCfg
  nextBuf  : Nat
  nextMem  : Nat
  nextGraph : Nat
  nextNode : Nat
  nextAtt  : Nat
  nextTurn : Nat
  deriving DecidableEq, Repr

/-- A UCIe module at reset (01 R29). -/
def UcieModule.reset : UcieModule := ⟨1, 0, 4, 0, 0, 0, 0, 0⟩

/-- The class each SKU fits at a site (01 R12). -/
def fittedClass (sku site : Nat) : Nat :=
  if site = 0 then 6
  else if site ≤ 6 then 5
  else if site ≤ 8 then (if sku = 3 then 0 else 5)
  else if site ≤ 12 then 1
  else if site ≤ 16 then (if sku = 3 then 2 else 1)
  else if site ≤ 18 then (if sku = 1 then 2 else 3)
  else if site ≤ 20 then (if sku = 3 then 4 else 3)
  else if site = 21 then (if sku = 3 then 0 else 4)
  else 0

/-- The clusters of a class (01 R16, 08 R173). -/
def classClusters (cls : Nat) : Nat :=
  match cls with
  | 1 | 2 => 8
  | 3 => 24
  | 4 => 6
  | _ => 0

/-- The UCIe modules of a class (01 R13). -/
def classModules (cls : Nat) : Nat :=
  match cls with
  | 0 => 0
  | 5 => 26
  | 6 => 4
  | _ => 12

/-- A site at reset. -/
def Site.reset (cls : Nat) : Site :=
  { cls := cls, clmask := 2 ^ classClusters cls - 1, retcl := 0, fixed := 0, ecchi := false, d2ddeg := false, st := 0,
    mods := (List.range (classModules cls)).map fun m => (m, UcieModule.reset), tags := [] }

/-- A site that the table does not list. -/
def Site.empty : Site := Site.reset 0

/-- A peer port at reset: down, with no lanes and no errors counted (no rule gives the value of PEER_STAT, log 3). -/
def PeerPort.reset : PeerPort := ⟨0, 0, 0, 0, 0⟩

/-- A host link at reset. -/
def HostLink.reset : HostLink := ⟨false, false, 0, 0, false, 0, 0, false⟩

/-- A function's MSI-X state at reset (log 4). -/
def Msix.reset : Msix := ⟨true, false, [], 0⟩

/-- A masked MSI-X entry (log 4). -/
def MsixEntry.reset : MsixEntry := ⟨0, 0, true⟩

/-- A queue at reset (03 R62). -/
def Queue.reset : Queue :=
  { base := 0, log2 := 4, vec := 0, prio := 0, widxOn := false, loc := false, weight := 1, widxAddr := 0,
    statAddr := 0, sloc := false, readIdx := 0, widx := 0, lastSeq := 0, st := 0, err := 0, completed := 0,
    since := 0, packets := [], nextNum := 0, tested := 0, reread := false, turn := none, head := none }

/-- A migration state at reset. -/
def Mig.reset : Mig := ⟨0, false, 0, false, 0, 0, 0, 0, 0, false, []⟩

/-- A virtual function at reset (02 R48, R50, R54). -/
def Vf.reset : Vf :=
  { valid := false, link := 0, part := 0, binderr := false, flrbusy := false, quiesced := false,
    enabled := false, ways := 0xFFFF, waysOld := 0xFFFF, waysAt := 0, mig := Mig.reset, msix := Msix.reset, queues := [] }

/-- A ring at reset (14 R315). -/
def Ring.reset : Ring := ⟨0, false, 12, 0, 0, 0, 0, 0⟩

/-- A watchpoint at reset (14 R332). -/
def WatchReg.reset : WatchReg := ⟨0, 0, false, false⟩

/-- A closed context (07 R153). -/
def Ctx.closed : Ctx := ⟨false, [], 0, 0, 0, [], false⟩

/-- A partition at reset (06 R125, 14 R312, R328). -/
def Partition.reset : Partition :=
  { ceilMw := 34375, ceilUj := 1000000, weight := 1, group := 0, plugin := 0, plugOff := false, plugLate := false, rate := 0,
    reserve := 0, slow := false, metered := 0, reqMw := none, reqUj := none, lim := 1000000, fdesc := [], dbgen := false, prof := 0x1F600000,
    owner := none, evmask := 0, sring := Ring.reset, ering := Ring.reset, counters := [], attach := false,
    nobudget := false, dbgcmd := 0, dbgdata := 0, dbgres := 0, nstop := 0, watch := [], ctxs := [] }

/-- A group at reset (06 R125). -/
def Group.reset (g : Nat) : Group :=
  { sites := if g = 0 then 0xFFFFFF else 0, sliced := false, slice := 10000, grace := 1000, resident := none,
    began := 0, switch := none }

/-- A level of the round robin at reset (log 3). -/
def Robin.reset : Robin := ⟨0, 0, []⟩

/-- A function's configuration at reset; the values of its AER masks and severities are those of PCI Express (log 69). -/
def FnCfg.reset : FnCfg := ⟨false, 128, 512, false, false, 0, 0, 0x462030, 0, 0x2000⟩

/-- An extent in the pool (04 R84). -/
def Extent.pool : Extent := ⟨0, 0, 0, 0, 0, 0, false⟩

/-- The package registers at reset (log 2 for the part, the straps and the secure store). -/
def Pkg.reset (sku form straps block : Nat) (keyed : Bool) : Pkg :=
  { sku := sku, form := form, straps := straps, gen := 0, phase := 0, image := 0, cause := 0,
    meas := List.replicate 64 0, psel := 0, gsel := 0, fsel := 0, cap := 2200000, rate := 2200000,
    guard := false, thermal := false, metered := 0, spent := [], csel := 0, coff := 0, extCmd := 0,
    extBusy := false, extRes := 0, notify := 0, reltime := 0, iso := 0, llogB := 0, llogI := 0, llogR := 0,
    llogO := 0, recalls := 0, evicts := 0, rsn := 0, counter := block * 4096, block := block,
    tokens := 16, hostcfg := 0, keyed := keyed, extAt := 0 }

/-- The sites of a SKU at reset, all modules training. -/
def siteTable (sku : Nat) : Tab Site := (List.range 24).map fun k => (k, Site.reset (fittedClass sku k))

/-- Everything a reset of any kind sets, given what it keeps (01 R38). -/
def State.fresh (sku form straps block : Nat) (keyed : Bool) (links : Tab HostLink) (host : Memory) : State :=
  { time := 0, stopped := false, cur := ⟨0, 0, 0⟩, turns := [], due := [], inputs := [], replies := [], freeIdx := 0,
    sent := [], pkg := Pkg.reset sku form straps block keyed, pfMsix := Msix.reset, sites := siteTable sku, ports := [],
    links := links, vfs := [], parts := [], groups := [], host := host, hostBad := [], bufs := [], caps := [], graphs := [],
    nodes := [], atts := [], runq := [], held := [], robin := [], nextDisp := 0, cores := [], tahr := [],
    stage := [], evq := [], receipts := [], codes := [], grants := [], exts := [], lines := [], recalls := [],
    homeq := [], scrubLog := [], l1 := [], l2 := [], tlb := [], walks := [], ras := [], fcfg := [], nextBuf := 0, nextMem := 1, nextGraph := 0, nextNode := 0, nextAtt := 0, nextTurn := 0 }

/-- The machine right after a cold reset: TIMEBASE 0, BOOT_STAT.PHASE 0, nothing running, memory with
nothing listed (01 R36, R38, R40; logs 2, 3, 5). -/
def State.reset : State := State.fresh 1 0 0 0 false [] []

end Sys2Proof.Machine
end

