-- ==== Sys2Proof/Machine/Ops.lean ====
section
/-! DEFINITION. The named operations that the meanings share: which core and stream is in focus,
reading and writing registers, moving a stream on, results in flight, taking a trap, device memory,
operand SRAM, queues, tokens, flags and rendezvous. -/

namespace Sys2Proof.Machine

/-! Focus -/

/-- The number a core is kept under: site times 128 plus core (19 R463). -/
def Actor.id (a : Actor) : Nat := a.site * 128 + a.core

/-- The core in focus. -/
def State.core (s : State) : Core := Tab.get Core.idle s.cores s.cur.id

/-- Replace the core in focus. -/
def State.setCore (s : State) (c : Core) : State := { s with cores := Tab.set s.cores s.cur.id c }

/-- The stream in focus. -/
def State.stm (s : State) : Stream := Tab.get Stream.absent s.core.streams s.cur.eng

/-- Replace the stream in focus. -/
def State.setStm (s : State) (t : Stream) : State :=
  let c := s.core
  s.setCore { c with streams := Tab.set c.streams s.cur.eng t }

/-- An attempt that names nothing: what a core without a job sees. -/
def Attempt.empty : Attempt :=
  { node := 0, part := 0, cls := 0, codeCls := 0, gang := 0, restart := false, budget := 0, limit := 0,
    ymask := 0, code := [], data := [], starts := [], binds := [], args := [], fdesc := [], key := 0,
    preempt := false, hold := 0, metered := 0, debited := 0, posted := 0, cont := false, ckpts := [],
    insts := [], codeAt := 0, watches := [], nobudget := false, meas := none, reuse := false,
    hist := [], parked := false }

/-- An instance that names nothing. -/
def Inst.empty : Inst :=
  { site := 0, clusters := [], t0 := none, ready := [], gclk := 0, level := 0, change := none, sram := [],
    tags := [], bars := [] }

/-- The job of the core in focus. -/
def State.job (s : State) : Job := s.core.job.getD ⟨0, 0, 0⟩

/-- The attempt of the core in focus. -/
def State.att (s : State) : Attempt := Tab.get Attempt.empty s.atts s.job.att

/-- Replace the attempt of the core in focus. -/
def State.setAtt (s : State) (a : Attempt) : State := { s with atts := Tab.set s.atts s.job.att a }

/-- The instance of the core in focus. -/
def State.inst (s : State) : Inst := s.att.insts.getD s.job.inst Inst.empty

/-- Replace the instance of the core in focus. -/
def State.setInst (s : State) (i : Inst) : State :=
  let a := s.att
  s.setAtt { a with insts := a.insts.set s.job.inst i }

/-! Registers (R179, R180) -/

/-- A scalar register; `s0` reads zero. -/
def State.sreg (s : State) (r : BitVec 6) : Word :=
  if r = 0 then 0 else Tab.get 0 s.core.s r.toNat

/-- The 64-bit value of the pair whose even register is r. -/
def State.pair (s : State) (r : BitVec 6) : DWord := s.sreg (r + 1) ++ s.sreg r

/-- An index register; `i0` reads zero. -/
def State.ireg (s : State) (x : BitVec 3) : Nat := if x = 0 then 0 else (Tab.get 0 s.core.ix x.toNat).toNat

/-- A predicate. -/
def State.preg (s : State) (p : Nat) : PBits := Tab.get 0 s.core.p p

/-- A row of the lane register file, taken modulo 4,096 (R181). -/
def Core.vrow (c : Core) (r : Nat) : Row := Tab.get 0 c.v (r % 4096)

/-! Results in flight (R185) -/

/-- An effect that applies at the start of core cycle n. -/
def State.atCycle (s : State) (n : Nat) (a : PAct) : State :=
  let c := s.core
  s.setCore { c with pend := c.pend ++ [⟨n, a⟩] }

/-- An effect of the instruction issuing now, with a latency. -/
def State.later (s : State) (lat : Nat) (a : PAct) : State := s.atCycle (s.core.clk + lat) a

/-- Several effects. -/
def State.laterAll (s : State) (l : List Pend) : State :=
  let c := s.core
  s.setCore { c with pend := c.pend ++ l }

/-- Write a scalar register with a latency; a write to `s0` is discarded (R367). -/
def State.wr (s : State) (lat : Nat) (d : BitVec 6) (v : Word) : State :=
  if d = 0 then s else s.later lat (.sreg d.toNat v)

/-- Write a register pair: `s0:s1` writes only `s1` (R179). -/
def State.wrPair (s : State) (lat : Nat) (d : BitVec 6) (v : DWord) : State :=
  (s.wr lat d (v.extractLsb' 0 32)).wr lat (d + 1) (v.extractLsb' 32 32)

/-! Moving a stream on (R184, R194, 16 R382 to R384) -/

/-- Continue at npc, the issue slot free again after occ cycles. -/
def State.goto (s : State) (npc occ : Nat) : State :=
  let t := s.stm
  s.setStm { t with pc := npc, free := s.core.clk + occ, latch := none, ncmd := t.ncmd + 1, stall := 0 }

/-- The turn of the loops, innermost first, when the word before npc has issued (R382): the loops left,
where to go on, and whether a `loopw` has its test still to make (R384).  A loop whose last word
ends an enclosing body turns that one as it ends. -/
def loopTurn : List LoopRec → Nat → List LoopRec × Nat × Bool
  | [], npc => ([], npc, false)
  | l :: ls, npc =>
    if npc ≠ l.stop + 4 then (l :: ls, npc, false)
    else if l.cond then (l :: ls, npc, true)
    else if l.iter + 1 < l.trips then ({ l with iter := l.iter + 1 } :: ls, l.start, false)
    else loopTurn ls npc

/-- A control instruction of len bytes that neither jumps nor waits: the loops turn and the stream goes
on. -/
def State.nextCtl (s : State) (len : Nat) : State :=
  let r := loopTurn s.core.loops (s.stm.pc + len)
  let c := s.core
  let s1 := (s.setCore { c with loops := r.1 }).goto r.2.1 1
  s1.setStm { s1.stm with turn := r.2.2 }

/-- The word of a nest table: copy 0 shadow, 1 staged, 2 active (R192, R193). -/
def Core.nestWord (c : Core) (tab copy idx : Nat) : Word := Tab.get 0 c.nest ((tab * 3 + copy) * 32 + idx)

/-- Trips of a level of a table's active copy: a level at or above LEVELS counts one (R193). -/
def Core.trips (c : Core) (tab l : Nat) : Nat :=
  if l < (c.nestWord tab 2 0).toNat % 8 then (c.nestWord tab 2 (1 + 4 * l)).toNat % 65536 + 1 else 1

/-- The stride of a slot at a level: signed, 12 bits in the vector tables, 20 in the matrix tables; a
level at or above LEVELS has stride 0 (R193). -/
def Core.stride (c : Core) (tab l slot : Nat) : Int :=
  if l < (c.nestWord tab 2 0).toNat % 8 then
    let w := (c.nestWord tab 2 (2 + 4 * l + slot)).toNat
    if tab < 2 then (BitVec.ofNat 12 w).toInt else (BitVec.ofNat 20 w).toInt
  else 0

/-- The next iteration counters, level 0 innermost; none after the last iteration (R194). -/
def stepIter (c : Core) (tab : Nat) : Nat → List Nat → Option (List Nat)
  | _, [] => none
  | l, j :: js => if j + 1 < c.trips tab l then some ((j + 1) :: js) else (stepIter c tab (l + 1) js).map (0 :: ·)

/-- A word of a vector or matrix stream, len bytes long, has been passed: the replay steps at the end
of its body.  A vector stream goes on after the body; a matrix stream stands at its `mend` with no
counters left (R194, R417, R446). -/
def State.passWord (s : State) (len : Nat) : State :=
  let t := s.stm
  let npc := t.pc + len
  match t.replay with
  | none => s.setStm { t with pc := npc }
  | some r =>
    if npc ≠ r.after then s.setStm { t with pc := npc }
    else
      match stepIter s.core r.tab 0 r.j with
      | some j => s.setStm { t with pc := r.first, replay := some { r with j := j } }
      | none =>
        if s.cur.eng = 1 then s.setStm { t with pc := npc, replay := none }
        else s.setStm { t with pc := npc, replay := some { r with j := [] } }

/-- A vector, matrix or sort word of len bytes has issued and holds the slot for occ cycles. -/
def State.nextWord (s : State) (len occ : Nat) : State :=
  let s1 := s.passWord len
  let t := s1.stm
  s1.setStm { t with free := s.core.clk + occ, latch := none, ncmd := t.ncmd + 1, stall := 0 }

/-- A side-core instruction of len bytes has executed. -/
def State.nextSide (s : State) (len : Nat) : State := s.goto (s.stm.pc + len) 1

/-- The stream waits: it issues nothing in this cycle, with a stall class and object (R201). -/
def State.stalled (s : State) (cls obj : Nat) : State :=
  s.setStm { s.stm with stall := BitVec.ofNat 10 (cls * 256 + obj) }

/-- The flat iteration index F of the replay in focus (17 R400); 0 outside one. -/
def State.flat (s : State) : Nat :=
  match s.stm.replay with
  | none => 0
  | some r =>
    (r.j.zipIdx.foldr (fun x acc => x.1 + s.core.trips r.tab x.2 * acc) 0)

/-- PC + 65,536 x (F mod 65,536) (R400, R447). -/
def State.layer (s : State) : Nat := s.stm.pc + 65536 * (s.flat % 65536)

/-- The nest offset of a slot in the replay in focus (R194); 0 outside one. -/
def State.nestOff (s : State) (slot : Nat) : Int :=
  match s.stm.replay with
  | none => 0
  | some r => r.j.zipIdx.foldl (fun acc x => acc + x.1 * s.core.stride r.tab x.2 slot) 0

/-- R195: whether a word with an iteration flag issues in the current iteration, at one level or over
all of them. -/
def State.issues (s : State) (flag : BitVec 2) (lvl : Option Nat) : Bool :=
  match s.stm.replay with
  | none => true
  | some r =>
    let ok (first : Bool) (x : Nat × Nat) : Bool :=
      if first then x.1 == 0 else x.1 + 1 == s.core.trips r.tab x.2
    let levels := match lvl with
      | none => r.j.zipIdx
      | some l => r.j.zipIdx.filter (·.2 == l)
    match flag.toNat with
    | 1 => levels.all (ok true)
    | 2 => levels.all (ok false)
    | _ => true

/-! Taking a trap (13 R295 to R304) -/

/-- What an engine reports of a trap, with the replay that its instruction issued in. -/
structure TrapReq where
  cause  : Nat
  sub    : Nat
  engine : Nat
  pc     : Nat
  cmdidx : Nat
  status : Word
  addr   : Nat
  chunk  : Option (Nat × Nat)
  replay : Option Replay
  deriving DecidableEq, Repr

/-- The stream whose word an engine's trap names: Chital's is the matrix stream's (R295). -/
def streamOf (eng : Nat) : Nat := if eng = 3 then 2 else eng

/-- The byte offset in its section of an instruction's PC: a side core counts from 0x8000_0000 (R196). -/
def sectOff (eng pc : Nat) : Nat := if eng = 4 ∨ eng = 5 then pc - 0x80000000 else pc

/-- The section of a stream of the attempt in focus. -/
def State.section_ (s : State) (eng : Nat) : List Byte := Tab.get [] s.att.code eng

/-- The whole word of an engine's stream at a pc (R301): empty where the section ends first. -/
def State.wordAt (s : State) (eng pc : Nat) : List Byte :=
  let bs := (s.section_ (streamOf eng)).drop (sectOff eng pc)
  match decodeFor (streamOf eng) bs with
  | .overrun => []
  | .word _ len => bs.take len

/-- KIND of a matrix stop's status word: the kind of the accumulator that the word's ACC field names (19 R469). -/
def Core.kindBit (c : Core) (eng : Nat) (word : List Byte) : Word :=
  if eng = 2 ∧ Tab.get false c.accKind ((word.getD 0 0).toNat / 64) = true then 16 else 0

/-- The record that the Tahr forms (R301).  DEDUCED (log 83): an illegal word of the sort stream is precise (15 R337) and at
a command boundary (R295, 20 R479) in one. -/
def State.trapRec (s : State) (q : TrapReq) (qhead : Bool) (word : List Byte) : TrapRec :=
  let eng := q.engine
  let cmdb := eng = 2 ∨ eng = 3 ∨ eng = 7
  let illegal := eng = 7 ∧ q.cause = 0x01
  { cause := q.cause, sub := q.sub, engine := eng, prec := !qhead && (!decide cmdb || decide illegal), cmdb := decide cmdb,
    qhead := qhead, site := s.cur.site, core := s.cur.core, pc := q.pc,
    cmdidx := if cmdb then q.cmdidx else 0, word := word, status := q.status ||| s.core.kindBit eng word, addr := q.addr,
    replay := q.replay, loops := s.core.loops,
    gclk := s.inst.gclk, cclk := s.core.clk, time := s.time, chunk := q.chunk }

/-- The number a cluster's Tahr is kept under. -/
def Actor.cluster (a : Actor) : Nat := a.site * 32 + a.core / 4

/-- A fault that is detected before another of the same cycle's order: ascending core, then ascending engine (R299). -/
def TahrItem.before (a b : TahrItem) : Bool :=
  decide (a.rec_.time = b.rec_.time) && !b.taken &&
    (decide (a.core < b.core) || (decide (a.core = b.core) && decide (a.rec_.engine < b.rec_.engine)))

/-- A fault enters the order of its cluster's Tahr: after every one detected earlier. -/
def tahrInsert (x : TahrItem) : List TahrItem → List TahrItem
  | [] => [x]
  | y :: ys => if x.before y then x :: y :: ys else y :: tahrInsert x ys

/-- Enter a record in the order of the cluster's Tahr (R299). -/
def State.toTahr (s : State) (r : TrapRec) : State :=
  { s with tahr := Tab.upd [] s.tahr s.cur.cluster (tahrInsert ⟨s.cur.id, r, false⟩) }

/-- Take a trap (R298): the core freezes from this cycle on, the record is formed and given to the
cluster's Tahr, and the instruction has no effect. -/
def State.takeTrap (s : State) (q : TrapReq) : State :=
  let r := s.trapRec q false (s.wordAt q.engine q.pc)
  let c := s.core
  (s.setCore { c with frozen := true, traps := c.traps ++ [r] }).toTahr r

/-- An engine that runs the stream in focus has taken a trap in this cycle. -/
def State.trapped (s : State) : Bool := s.core.traps.any fun r => streamOf r.engine == s.cur.eng

/-- A trap of the stream in focus, precise or at its command boundary (R295 to R297). -/
def State.trap (s : State) (cause sub : Nat) (addr : Nat := 0) (status : Word := 0)
    (chunk : Option (Nat × Nat) := none) : State :=
  s.takeTrap ⟨cause, sub, s.cur.eng, s.stm.pc, s.stm.ncmd, status, addr, chunk, s.stm.replay⟩

/-- A fault at the head of a queue or transfer freezes nothing (R304). -/
def State.headFault (s : State) (cause sub eng : Nat) (word : List Byte) (addr : Nat)
    (chunk : Option (Nat × Nat)) : State :=
  s.toTahr (s.trapRec ⟨cause, sub, eng, 0, 0, 0, addr, chunk, none⟩ true word)

/-- An event of the core in focus enters the way to its partition's ring (14 R318). -/
def State.coreEvent (s : State) (engine code arg0 arg1 : Nat) : State :=
  { s with evq := s.evq ++ [⟨s.att.part, engine, code, s.cur.site, s.cur.core, s.time, arg0, arg1, s.att.key, []⟩] }

/-- The number under which a core notes that the next instruction of an engine passes its debug event once. -/
def Core.skipKey (c : Core) (eng : Nat) : Nat := eng + 16 * (Tab.get Stream.absent c.streams eng).ncmd

/-- The instruction in focus passes its debug event: it caused the stop that was resumed (14 R329). -/
def State.skipsDebug (s : State) : Bool := s.core.skipDbg.contains (s.core.skipKey s.cur.eng)

/-! Device addresses (09 R202 to R205) -/

/-- SLOT of a device address. -/
def slotOf (a : Nat) : Nat := a / 2 ^ 48 % 65536

/-- OFFSET of a device address. -/
def offOf (a : Nat) : Nat := a % 2 ^ 48

/-- C of a buffer (05 R106). -/
def Buffer.chunkSize (b : Buffer) : Nat := if b.big then 2 ^ 21 else 2 ^ 16

/-- A buffer that names nothing. -/
def Buffer.none : Buffer :=
  { size := 0, attr := 0, big := false, refs := 0, revoked := false, peer := .none, chunks := [], mem := [],
    bad := [], mrec := .none, ext := .none }

def State.buf (s : State) (b : Nat) : Buffer := Tab.get Buffer.none s.bufs b

/-- ATTR [0], read-only (03 R71). -/
def Buffer.readOnly (b : Buffer) : Bool := b.attr.toNat % 2 == 1

/-- What the checks of R205 decide: a place in a buffer, a place in the argument block, or a trap with
the chunk that would have to be mapped. -/
inductive Access
  | buf (b off : Nat)
  | args (off : Nat)
  | trap (cause sub : Nat) (chunk : Option (Nat × Nat))
  deriving DecidableEq, Repr

/-- The first unmapped chunk that bytes off to off + n - 1 of a buffer touch (R218). -/
def Buffer.unmapped (b : Buffer) (off n : Nat) : Option Nat :=
  if n = 0 then .none
  else
    let lo := off / b.chunkSize
    let hi := (off + n - 1) / b.chunkSize
    (List.range (hi + 1 - lo)).map (lo + ·) |>.find? fun k => (Tab.find b.chunks k).isNone

/-- The checks of R205 in their order for n bytes at a device address. -/
def Attempt.access (s : State) (t : Attempt) (a n align : Nat) (rd wr lcl : Bool) : Access :=
  let slot := slotOf a
  let off := offOf a
  if align ≠ 0 ∧ off % align ≠ 0 then .trap 0x03 0 .none
  else if slot = 0xFFFF then
    if wr then .trap 0x04 4 .none
    else if t.args.length < off + n then .trap 0x04 5 .none
    else .args off
  else if slot < 0xFFE0 then .trap 0x04 1 .none
  else
    match t.binds[slot - 0xFFE0]? with
    | .none => .trap 0x04 1 .none
    | some b =>
      let u := s.buf b.buf
      if b.empty then .trap 0x04 2 .none
      else if u.revoked then .trap 0x04 3 .none
      else if (rd && !b.r) || (wr && !b.w) then .trap 0x04 4 .none
      else if wr && u.readOnly then .trap 0x04 6 .none
      else if u.size < off + n then .trap 0x04 5 .none
      else if lcl && u.peer.isSome then .trap 0x05 0 .none
      else if u.peer.isSome then .buf b.buf off
      else
        match u.unmapped off n with
        | some k => .trap 0x06 1 (some (b.buf, k))
        | .none => .buf b.buf off

/-- The checks of R205 for the attempt in focus. -/
def State.access (s : State) (a n align : Nat) (rd wr lcl : Bool) : Access :=
  Attempt.access s s.att a n align rd wr lcl

/-- n bytes of an argument block snapshot from an offset, zero beyond its end (07 R156). -/
def argNat (args : List Byte) (off n : Nat) : Nat := leNat ((args.drop off).take n)

/-- n bytes of an accessed place as a number. -/
def State.readAt (s : State) (x : Access) (n : Nat) : Nat :=
  match x with
  | .buf b off => (s.buf b).mem.nat off n
  | .args off => argNat s.att.args off n
  | .trap _ _ _ => 0

/-- n bytes of an accessed place. -/
def State.bytesAt (s : State) (x : Access) (n : Nat) : List Byte :=
  match x with
  | .buf b off => (s.buf b).mem.bytes off n
  | .args off => (List.range n).map fun i => s.att.args.getD (off + i) 0
  | .trap _ _ _ => []

/-- The first write to a buffer after its root was recorded discards the root (07 R162). -/
def Buffer.written (b : Buffer) : Buffer :=
  { b with mrec := b.mrec.map fun m => { m with root := .none } }

/-- The 64-byte accesses that lie wholly in a write hold no uncorrectable error after it (R225). -/
def healed (bad : List Nat) (off n unit : Nat) : List Nat :=
  bad.filter fun u => !(decide (off ≤ u * unit) && decide (u * unit + unit ≤ off + n))

/-- Write bytes into a buffer at their home (R206): the caches are `State.writeL1` and `State.writeL2`. -/
def State.writeBuf (s : State) (b off : Nat) (bs : List Byte) : State :=
  let u := s.buf b
  if bs.isEmpty then s
  else
    let u' : Buffer := { u.written with mem := Memory.putBytes u.mem off bs, bad := healed u.bad off bs.length 64 }
    { s with bufs := Tab.set s.bufs b u' }

/-- A read of these bytes would deliver an uncorrectable error (R225). -/
def Buffer.badAt (b : Buffer) (off n : Nat) : Bool :=
  b.bad.any fun u => decide (u * 64 < off + n) && decide (off < u * 64 + 64)

/-! Operand SRAM (09 R210 to R214) -/

/-- The tag of a block after a write of these window bytes (R213, R462). -/
def TagAct.on (g : TagAct) (cells : List (Nat × Byte)) (b : Nat) (old : BitVec 16) : BitVec 16 :=
  match g with
  | .clear => old &&& 0x7FFF
  | .every v => v
  | .first v => if cells.any fun c => c.1 == 4096 * b then v else old

/-- Write window bytes and change the tags of the 4 KiB blocks they lie in (R213). -/
def Inst.write (i : Inst) (cells : List (Nat × Byte)) (g : TagAct) : Inst :=
  { i with
    sram := Memory.putCells i.sram cells
    tags := (cells.map fun c => c.1 / 4096).foldl (fun t b => Tab.set t b (g.on cells b (Tab.get 0 t b))) i.tags }

/-- The tag of the block a window byte lies in. -/
def Inst.tag (i : Inst) (a : Nat) : BitVec 16 := Tab.get 0 i.tags (a / 4096)

/-- The first byte of n bytes at a that is at or above the window limit (R211). -/
def firstBeyond (limit a n : Nat) : Option Nat :=
  if a + n ≤ limit then none else if a < limit then some limit else some a

/-- Bytes with their window addresses. -/
def cellsAt (a : Nat) (bs : List Byte) : List (Nat × Byte) := bs.zipIdx.map fun x => (a + x.2, x.1)

/-! Queues (R187, R188) -/

/-- The entries a pop of n takes; none while fewer stood at the start of the cycle. -/
def Fifo.pop (q : Fifo α) (n : Nat) : Option (List α × Fifo α) :=
  if n ≤ q.items.length then some (q.items.take n, { q with items := q.items.drop n, popped := q.popped + n })
  else none

/-- Entries that count against the depth in this cycle: those that stood at its start and those pushed
since. -/
def Fifo.taken (q : Fifo α) : Nat := q.items.length + q.popped + q.inc.length

/-- Push entries in this cycle. -/
def Fifo.push (q : Fifo α) (xs : List α) : Fifo α := { q with inc := q.inc ++ xs }

/-- Entries that count against the depth of an sq: those in it, those the vector stream has room for and
has not yet pushed, and none of those still waiting in a drain (R186, R188). -/
def Core.sqTaken (c : Core) (q : Nat) : Nat := (Tab.get Fifo.empty c.sq q).taken + Tab.get 0 c.sqHold q

/-- Keep room in an sq for n entries. -/
def Core.sqReserve (c : Core) (q n : Nat) : Core := { c with sqHold := Tab.upd 0 c.sqHold q (· + n) }

/-- The queue at the end of a cycle. -/
def Fifo.settle (q : Fifo α) : Fifo α := ⟨q.items ++ q.inc, [], 0⟩

/-- Entries in the queue, those just pushed among them. -/
def Fifo.size (q : Fifo α) : Nat := q.items.length + q.inc.length

/-! Tokens and flags (R189, R190) -/

/-- Post n to a token in this cycle; a count of 0 does nothing. -/
def State.post (s : State) (tok n : Nat) : State :=
  if n = 0 then s
  else
    let c := s.core
    s.setCore { c with posts := c.posts ++ [⟨s.cur.eng, s.stm.pc, s.stm.ncmd, tok, n, s.stm.replay⟩] }

/-- A wait for n on a token: the state after it, or none while it cannot proceed. -/
def State.takeToken (s : State) (tok n : Nat) : Option State :=
  let c := s.core
  let have_ := Tab.get 0 c.tk tok
  if n ≤ have_ then some (if n = 0 then s else s.setCore { c with tk := Tab.set c.tk tok (have_ - n) }) else none

/-- One bit of a word. -/
def bit32 (n : Nat) : BitVec 32 := BitVec.ofNat 32 (2 ^ n)

/-- Set a flag at the end of the cycle. -/
def State.setFlag (s : State) (f : Nat) : State :=
  let c := s.core
  s.setCore { c with efSet := c.efSet ||| bit32 f }

/-- Clear a flag at the end of the cycle. -/
def State.clrFlag (s : State) (f : Nat) : State :=
  let c := s.core
  s.setCore { c with efClr := c.efClr ||| bit32 f }

/-- A wait on a flag: the state after it, or none while it cannot proceed.  Of several clearing waits
of a cycle only the first, which has the lowest engine identifier, proceeds. -/
def State.takeFlag (s : State) (f : Nat) (clear : Bool) : Option State :=
  let c := s.core
  if !c.ef.getLsbD f then none
  else if !clear then some s
  else if c.efClaim.getLsbD f then none
  else some (s.setCore { c with efClaim := c.efClaim ||| bit32 f, efClr := c.efClr ||| bit32 f })

/-! Rendezvous (R176, R177) -/

/-- The stream in focus arrives, standing at its next instruction. -/
def State.arrive (s : State) (npc num : Nat) (fin yld : Bool) : State :=
  let t := s.stm
  s.setStm { t with pc := npc, latch := none, ncmd := t.ncmd + 1, meet := .arrived t.pc num fin yld, stall := 0 }

/-- The stream in focus ends. -/
def State.endStream (s : State) : State :=
  let t := s.stm
  s.setStm { t with ended := true, latch := none, ncmd := t.ncmd + 1, stall := 0 }

/-- The streams of a core that are present and have not ended. -/
def Core.live (c : Core) : List (Nat × Stream) := c.streams.filter fun x => x.2.present && !x.2.ended

/-! Format descriptors (11 R247, R250) -/

/-- The descriptor an index names in the snapshot of the attempt in focus. -/
def State.desc (s : State) (n : Nat) : Word := if n < 16 then fixedDesc n else Tab.get 0 s.att.fdesc n

/-- Bits of one element of a descriptor's code (R247, R248). -/
def descBits (w : Word) : Nat :=
  match descKind w with
  | 1 | 4 => 32
  | 2 | 3 => 16
  | 5 | 6 | 9 => 8
  | 7 => 4
  | 8 => 2
  | 10 => 20
  | 11 => descWidth w
  | _ => 0

/-- The exact value of the code in the low bits of a number, in a descriptor's format; the bits above
the element are ignored (R251). -/
def descWiden (w : Word) (code : Nat) : Val :=
  match descFmt w with
  | some f => f.widen (code % 2 ^ descBits w)
  | none => .nan

end Sys2Proof.Machine
end

