-- ==== Sys2Proof/Machine/ControlAlu.lean ====
section
/-! DEFINITION. The control stream's arithmetic: the ALU family, the immediate forms, the pair forms and
`li` (16 R367 to R372). -/

namespace Sys2Proof.Machine

open Host (Outcome)

/-- A register form: d receives f of the two sources, read in the issue cycle, after lat cycles. -/
def State.alu (s : State) (d a b : BitVec 6) (lat : Nat) (f : Word → Word → Word) : State :=
  (s.wr lat d (f (s.sreg a) (s.sreg b))).nextCtl 4

/-- An immediate form. -/
def State.aluImm (s : State) (d a : BitVec 6) (x : Word) (f : Word → Word → Word) : State :=
  (s.wr 1 d (f (s.sreg a) x)).nextCtl 4

/-- A pair form. -/
def State.pairOp (s : State) (d : BitVec 6) (v : DWord) : State := (s.wrPair 1 d v).nextCtl 4

/-- sext12 of an immediate as a word. -/
def simm (imm : BitVec 12) : Word := imm.signExtend 32

/-- Division rounds towards zero; by zero it gives all ones; the one overflow wraps (R369). -/
def divS (a b : Word) : Word := if b = 0 then 0xFFFFFFFF else a.sdiv b
def divU (a b : Word) : Word := if b = 0 then 0xFFFFFFFF else a / b
/-- The remainder has the sign of the dividend; by zero it is the dividend (R369). -/
def remS (a b : Word) : Word := if b = 0 then a else a.srem b
def remU (a b : Word) : Word := if b = 0 then a else a % b

/-- Bits [63:32] of a product of integers. -/
def mulHi (x y : Int) : Word := BitVec.ofInt 32 (x * y / 2 ^ 32)

def minS (a b : Word) : Word := if a.slt b then a else b
def maxS (a b : Word) : Word := if a.slt b then b else a
def minU (a b : Word) : Word := if a.ult b then a else b
def maxU (a b : Word) : Word := if a.ult b then b else a

def boolWord (b : Bool) : Word := if b then 1 else 0

/-- Leading zero bits; 32 for 0. -/
def clzW (a : Word) : Word := if a = 0 then 32 else BitVec.ofNat 32 (31 - Nat.log2 a.toNat)
/-- Trailing zero bits; 32 for 0. -/
def ctzW (a : Word) : Word :=
  BitVec.ofNat 32 (((List.range 32).find? fun n => a.getLsbD n).getD 32)
/-- Set bits of a number below 2^n. -/
def popNat (n x : Nat) : Nat := ((List.range n).filter fun k => x / 2 ^ k % 2 == 1).length
def popW (a : Word) : Word := BitVec.ofNat 32 (popNat 32 a.toNat)
/-- Bit n moves to bit 31 - n. -/
def brevW (a : Word) : Word :=
  BitVec.ofNat 32 ((List.range 32).foldl (fun x n => if a.getLsbD n then x + 2 ^ (31 - n) else x) 0)
def sllW (a b : Word) : Word := a <<< (b.toNat % 32)
def srlW (a b : Word) : Word := a >>> (b.toNat % 32)
def sraW (a b : Word) : Word := a.sshiftRight (b.toNat % 32)
def rorW (a b : Word) : Word := a.rotateRight (b.toNat % 32)

/-- `add`: A + B (R369). -/
def execAdd (d a b : BitVec 6) (s : State) : Outcome State Fault Refusal :=
  .next (s.alu d a b 1 (fun A B => A + B))

/-- `sub`: A - B (R369). -/
def execSub (d a b : BitVec 6) (s : State) : Outcome State Fault Refusal :=
  .next (s.alu d a b 1 (fun A B => A - B))

/-- `and`: A and B (R369). -/
def execAnd (d a b : BitVec 6) (s : State) : Outcome State Fault Refusal :=
  .next (s.alu d a b 1 (fun A B => A &&& B))

/-- `or`: A or B (R369). -/
def execOr (d a b : BitVec 6) (s : State) : Outcome State Fault Refusal :=
  .next (s.alu d a b 1 (fun A B => A ||| B))

/-- `xor`: A xor B (R369). -/
def execXor (d a b : BitVec 6) (s : State) : Outcome State Fault Refusal :=
  .next (s.alu d a b 1 (fun A B => A ^^^ B))

/-- `andn`: A and not B (R369). -/
def execAndn (d a b : BitVec 6) (s : State) : Outcome State Fault Refusal :=
  .next (s.alu d a b 1 (fun A B => A &&& ~~~B))

/-- `orn`: A or not B (R369). -/
def execOrn (d a b : BitVec 6) (s : State) : Outcome State Fault Refusal :=
  .next (s.alu d a b 1 (fun A B => A ||| ~~~B))

/-- `sll`: A shifted left by B[4:0] (R369). -/
def execSll (d a b : BitVec 6) (s : State) : Outcome State Fault Refusal :=
  .next (s.alu d a b 1 sllW)

/-- `srl`: A shifted right by B[4:0], zeros in (R369). -/
def execSrl (d a b : BitVec 6) (s : State) : Outcome State Fault Refusal :=
  .next (s.alu d a b 1 srlW)

/-- `sra`: A shifted right by B[4:0], sign in (R369). -/
def execSra (d a b : BitVec 6) (s : State) : Outcome State Fault Refusal :=
  .next (s.alu d a b 1 sraW)

/-- `ror`: A rotated right by B[4:0] (R369). -/
def execRor (d a b : BitVec 6) (s : State) : Outcome State Fault Refusal :=
  .next (s.alu d a b 1 rorW)

/-- `mul`: the low word of the product, latency 3 (R369). -/
def execMul (d a b : BitVec 6) (s : State) : Outcome State Fault Refusal :=
  .next (s.alu d a b 3 (fun A B => A * B))

/-- `mulh`: the high word of the signed product, latency 3 (R369). -/
def execMulh (d a b : BitVec 6) (s : State) : Outcome State Fault Refusal :=
  .next (s.alu d a b 3 (fun A B => mulHi A.toInt B.toInt))

/-- `mulhu`: the high word of the unsigned product, latency 3 (R369). -/
def execMulhu (d a b : BitVec 6) (s : State) : Outcome State Fault Refusal :=
  .next (s.alu d a b 3 (fun A B => mulHi A.toNat B.toNat))

/-- `div`: signed quotient, latency 18 (R369). -/
def execDiv (d a b : BitVec 6) (s : State) : Outcome State Fault Refusal :=
  .next (s.alu d a b 18 divS)

/-- `divu`: unsigned quotient, latency 18 (R369). -/
def execDivu (d a b : BitVec 6) (s : State) : Outcome State Fault Refusal :=
  .next (s.alu d a b 18 divU)

/-- `rem`: signed remainder, latency 18 (R369). -/
def execRem (d a b : BitVec 6) (s : State) : Outcome State Fault Refusal :=
  .next (s.alu d a b 18 remS)

/-- `remu`: unsigned remainder, latency 18 (R369). -/
def execRemu (d a b : BitVec 6) (s : State) : Outcome State Fault Refusal :=
  .next (s.alu d a b 18 remU)

/-- `min`: the smaller, signed (R369). -/
def execMin (d a b : BitVec 6) (s : State) : Outcome State Fault Refusal :=
  .next (s.alu d a b 1 minS)

/-- `max`: the larger, signed (R369). -/
def execMax (d a b : BitVec 6) (s : State) : Outcome State Fault Refusal :=
  .next (s.alu d a b 1 maxS)

/-- `minu`: the smaller, unsigned (R369). -/
def execMinu (d a b : BitVec 6) (s : State) : Outcome State Fault Refusal :=
  .next (s.alu d a b 1 minU)

/-- `maxu`: the larger, unsigned (R369). -/
def execMaxu (d a b : BitVec 6) (s : State) : Outcome State Fault Refusal :=
  .next (s.alu d a b 1 maxU)

/-- `slt`: 1 if A < B, signed (R369). -/
def execSlt (d a b : BitVec 6) (s : State) : Outcome State Fault Refusal :=
  .next (s.alu d a b 1 (fun A B => boolWord (A.slt B)))

/-- `sltu`: 1 if A < B, unsigned (R369). -/
def execSltu (d a b : BitVec 6) (s : State) : Outcome State Fault Refusal :=
  .next (s.alu d a b 1 (fun A B => boolWord (A.ult B)))

/-- `clz`: leading zero bits of A (R369). -/
def execClz (d a : BitVec 6) (s : State) : Outcome State Fault Refusal :=
  .next (s.alu d a 0 1 (fun A _ => clzW A))

/-- `ctz`: trailing zero bits of A (R369). -/
def execCtz (d a : BitVec 6) (s : State) : Outcome State Fault Refusal :=
  .next (s.alu d a 0 1 (fun A _ => ctzW A))

/-- `popc`: set bits of A (R369). -/
def execPopc (d a : BitVec 6) (s : State) : Outcome State Fault Refusal :=
  .next (s.alu d a 0 1 (fun A _ => popW A))

/-- `brev`: the bits reversed of A (R369). -/
def execBrev (d a : BitVec 6) (s : State) : Outcome State Fault Refusal :=
  .next (s.alu d a 0 1 (fun A _ => brevW A))

/-- `addi`: `add` with B = sext12(imm12) (R370). -/
def execAddi (d a : BitVec 6) (imm : BitVec 12) (s : State) : Outcome State Fault Refusal :=
  .next (s.aluImm d a (simm imm) (fun A B => A + B))

/-- `andi`: `and` with B = sext12(imm12) (R370). -/
def execAndi (d a : BitVec 6) (imm : BitVec 12) (s : State) : Outcome State Fault Refusal :=
  .next (s.aluImm d a (simm imm) (fun A B => A &&& B))

/-- `ori`: `or` with B = sext12(imm12) (R370). -/
def execOri (d a : BitVec 6) (imm : BitVec 12) (s : State) : Outcome State Fault Refusal :=
  .next (s.aluImm d a (simm imm) (fun A B => A ||| B))

/-- `xori`: `xor` with B = sext12(imm12) (R370). -/
def execXori (d a : BitVec 6) (imm : BitVec 12) (s : State) : Outcome State Fault Refusal :=
  .next (s.aluImm d a (simm imm) (fun A B => A ^^^ B))

/-- `slli`: `sll` by the amount imm12[4:0] (R370). -/
def execSlli (d a : BitVec 6) (sh : BitVec 5) (s : State) : Outcome State Fault Refusal :=
  .next (s.aluImm d a (sh.zeroExtend 32) sllW)

/-- `srli`: `srl` by the amount imm12[4:0] (R370). -/
def execSrli (d a : BitVec 6) (sh : BitVec 5) (s : State) : Outcome State Fault Refusal :=
  .next (s.aluImm d a (sh.zeroExtend 32) srlW)

/-- `srai`: `sra` by the amount imm12[4:0] (R370). -/
def execSrai (d a : BitVec 6) (sh : BitVec 5) (s : State) : Outcome State Fault Refusal :=
  .next (s.aluImm d a (sh.zeroExtend 32) sraW)

/-- `slti`: `slt` with B = sext12(imm12) (R370). -/
def execSlti (d a : BitVec 6) (imm : BitVec 12) (s : State) : Outcome State Fault Refusal :=
  .next (s.aluImm d a (simm imm) (fun A B => boolWord (A.slt B)))

/-- `sltiu`: `sltu` with B = sext12(imm12) (R370). -/
def execSltiu (d a : BitVec 6) (imm : BitVec 12) (s : State) : Outcome State Fault Refusal :=
  .next (s.aluImm d a (simm imm) (fun A B => boolWord (A.ult B)))

/-- `mini`: `min` with B = sext12(imm12) (R370). -/
def execMini (d a : BitVec 6) (imm : BitVec 12) (s : State) : Outcome State Fault Refusal :=
  .next (s.aluImm d a (simm imm) minS)

/-- `maxi`: `max` with B = sext12(imm12) (R370). -/
def execMaxi (d a : BitVec 6) (imm : BitVec 12) (s : State) : Outcome State Fault Refusal :=
  .next (s.aluImm d a (simm imm) maxS)

/-- `padd`: S(d) ← S(a) + S(b) (R371). -/
def execPadd (d a b : BitVec 6) (s : State) : Outcome State Fault Refusal :=
  .next (s.pairOp d (s.pair a + s.pair b))

/-- `psub`: S(d) ← S(a) - S(b) (R371). -/
def execPsub (d a b : BitVec 6) (s : State) : Outcome State Fault Refusal :=
  .next (s.pairOp d (s.pair a - s.pair b))

/-- `paddw`: S(d) ← S(a) + sext32(s[b]) (R371). -/
def execPaddw (d a b : BitVec 6) (s : State) : Outcome State Fault Refusal :=
  .next (s.pairOp d (s.pair a + (s.sreg b).signExtend 64))

/-- `pmov`: S(d) ← S(a) (R371). -/
def execPmov (d a : BitVec 6) (s : State) : Outcome State Fault Refusal :=
  .next (s.pairOp d (s.pair a))

/-- `paddi`: S(d) ← S(a) + sext12(imm12) (R371). -/
def execPaddi (d a : BitVec 6) (imm : BitVec 12) (s : State) : Outcome State Fault Refusal :=
  .next (s.pairOp d (s.pair a + imm.signExtend 64))

/-- `li`: s[d] ← imm32, a word of 12 bytes (R372). -/
def execLi (d : BitVec 6) (imm : BitVec 32) (s : State) : Outcome State Fault Refusal :=
  .next ((s.wr 1 d imm).nextCtl 12)

end Sys2Proof.Machine
end

