-- ==== Sys2Proof/Machine/ControlFlow.lean ====
section
/-! DEFINITION. The control stream's branches, jumps and hardware loops (16 R380 to R386, R396). -/

namespace Sys2Proof.Machine

open Host (Outcome)

/-- The bodies of the loop words of a control section (R385): offset of the loop word, first and last
body offset.  Words are walked from the section's start; fuel bounds them by the section's length. -/
def loopMap : Nat → Nat → List Byte → List (Nat × Nat × Nat)
  | 0, _, _ => []
  | fuel + 1, pc, bs =>
    if bs.length < 4 then []
    else
      let w := leNat (bs.take 8)
      let len := match w % 4 with | 1 => 8 | 2 => 12 | _ => 4
      let rest := loopMap fuel (pc + len) (bs.drop len)
      let bodyw := fld w 32 14
      if w % 4 = 2 ∧ 12 ≤ bs.length ∧ (fld w 2 6 = 2 ∨ fld w 2 6 = 3) ∧ bodyw ≠ 0 then
        (pc, pc + 12, pc + 12 + 4 * bodyw - 4) :: rest
      else rest

/-- A byte offset lies in a loop's body. -/
def LoopRec.holds (l : LoopRec) (pc : Nat) : Bool := decide (l.start ≤ pc) && decide (pc ≤ l.stop)

/-- Innermost first, the loops that remain when every loop that does not contain pc is popped together
with every loop inside it (R385 steps 1 and 3). -/
def popOutside (loops : List LoopRec) (pc : Nat) : List LoopRec :=
  (loops.reverse.takeWhile fun l => l.holds pc).reverse

/-- The loops that remain after a taken branch from pc to target (R385 steps 1 to 3). -/
def branchLoops (loops : List LoopRec) (pc target : Nat) : List LoopRec :=
  let l1 := popOutside loops pc
  let l2 := match l1 with
    | [] => []
    | l :: ls => if l.stop = pc then ls else l :: ls
  popOutside l2 target

/-- A taken branch or jump (R380, R381, R385): the target's section check, the loop map check, then
the pops, a link where there is one, and two cycles of occupancy. -/
def State.jump (s : State) (target : Int) (link : Option (BitVec 6)) : State :=
  let code := s.section_ 0
  if target < 0 ∨ (code.length : Int) ≤ target then s.trap 0x12 0
  else
    let tgt := target.toNat
    let pc := s.stm.pc
    let loops := branchLoops s.core.loops pc tgt
    let map := loopMap code.length 0 code
    if map.any fun m => decide (m.2.1 ≤ tgt) && decide (tgt ≤ m.2.2) && !(loops.any fun l => l.start == m.2.1) then
      s.trap 0x10 0
    else
      let c := s.core
      let s1 := s.setCore { c with loops := loops }
      let s2 := match link with
        | none => s1
        | some a => s1.wr 1 a (BitVec.ofNat 32 (pc + 4))
      s2.goto tgt 2

/-- PC + 4 x sext12(offset) (R338, R380). -/
def State.target (s : State) (off : BitVec 12) : Int := (s.stm.pc : Int) + 4 * off.toInt

/-- A conditional branch (R380). -/
def State.branch (s : State) (a b : BitVec 6) (off : BitVec 12) (c : Word → Word → Bool) : State :=
  if c (s.sreg a) (s.sreg b) then s.jump (s.target off) none else s.nextCtl 4

/-- `beq`: taken when s[a] = s[b]. -/
def execBeq (a b : BitVec 6) (off : BitVec 12) (s : State) : Outcome State Fault Refusal :=
  .next (s.branch a b off fun x y => x == y)

/-- `bne`: taken when s[a] ≠ s[b]. -/
def execBne (a b : BitVec 6) (off : BitVec 12) (s : State) : Outcome State Fault Refusal :=
  .next (s.branch a b off fun x y => x != y)

/-- `blt`: taken when s[a] < s[b], signed. -/
def execBlt (a b : BitVec 6) (off : BitVec 12) (s : State) : Outcome State Fault Refusal :=
  .next (s.branch a b off fun x y => x.slt y)

/-- `bge`: taken when s[a] ≥ s[b], signed. -/
def execBge (a b : BitVec 6) (off : BitVec 12) (s : State) : Outcome State Fault Refusal :=
  .next (s.branch a b off fun x y => !x.slt y)

/-- `bltu`: taken when s[a] < s[b], unsigned. -/
def execBltu (a b : BitVec 6) (off : BitVec 12) (s : State) : Outcome State Fault Refusal :=
  .next (s.branch a b off fun x y => x.ult y)

/-- `bgeu`: taken when s[a] ≥ s[b], unsigned. -/
def execBgeu (a b : BitVec 6) (off : BitVec 12) (s : State) : Outcome State Fault Refusal :=
  .next (s.branch a b off fun x y => !x.ult y)

/-- `jmp` (R380). -/
def execJmp (off : BitVec 12) (s : State) : Outcome State Fault Refusal :=
  .next (s.jump (s.target off) none)

/-- `jal`: s[a] ← PC + 4 with latency 1, always taken (R380). -/
def execJal (a : BitVec 6) (off : BitVec 12) (s : State) : Outcome State Fault Refusal :=
  .next (s.jump (s.target off) (some a))

/-- `jr`: to s[a] with bits [1:0] cleared (R380). -/
def execJr (a : BitVec 6) (s : State) : Outcome State Fault Refusal :=
  .next (s.jump ((s.sreg a).toNat / 4 * 4 : Nat) none)

/-- The loop record that a loop word at the pc in focus pushes. -/
def State.loopRec (s : State) (cond : Bool) (bodyw : BitVec 14) (stages trips : Nat) (id : BitVec 8)
    (max : Word) (reg : BitVec 6) : LoopRec :=
  { cond := cond, id := id.toNat, stages := stages, iter := 0, limit := max.toNat, start := s.stm.pc + 12,
    stop := s.stm.pc + 12 + 4 * bodyw.toNat - 4, trips := trips, reg := reg.toNat }

/-- The checks that a loop word makes at every issue, in order (R386): the subcode of the
illegal-operand trap, if any. -/
def State.loopCheck (s : State) (l : LoopRec) : Option Nat :=
  if 4 ≤ s.core.loops.length then some 0x10
  else
    match s.core.loops with
    | [] => none
    | o :: _ => if o.stop < l.stop then some 0x11 else none

/-- Push a loop and go on at its body's first word. -/
def State.enterLoop (s : State) (l : LoopRec) : State :=
  let c := s.core
  (s.setCore { c with loops := l :: c.loops }).goto l.start 1

/-- Skip a body: go on after its last word, where an enclosing loop may turn (R382, R386). -/
def State.skipLoop (s : State) (l : LoopRec) : State := s.nextCtl (l.stop + 4 - s.stm.pc)

/-- `loop` (R382, R386). -/
def execLoop (a : BitVec 6) (bodyw : BitVec 14) (stg : BitVec 3) (id : BitVec 8) (max : Word) (s : State) :
    Outcome State Fault Refusal :=
  let n := (s.sreg a).toNat
  let l := s.loopRec false bodyw (stg.toNat + 1) (n + stg.toNat) id max a
  match s.loopCheck l with
  | some sub => .next (s.trap 0x02 sub)
  | none =>
    if n = 0 then .next (s.skipLoop l)
    else if max.toNat < n then .next (s.trap 0x11 id.toNat)
    else .next (s.enterLoop l)

/-- `loopw` (R384, R386). -/
def execLoopw (a : BitVec 6) (bodyw : BitVec 14) (stg : BitVec 3) (id : BitVec 8) (max : Word) (s : State) :
    Outcome State Fault Refusal :=
  let l := s.loopRec true bodyw 1 0 id max a
  match s.loopCheck l with
  | some sub => .next (s.trap 0x02 sub)
  | none =>
    if stg ≠ 0 then .next (s.trap 0x02 0x12)
    else if s.sreg a = 0 then .next (s.skipLoop l)
    else .next (s.enterLoop l)

/-- The turn of the innermost loop, a `loopw` (R384): its condition register is read, and the loop
pops, repeats or takes the loop-limit trap, whose record names the `loopw` word. -/
def State.loopwTurn (s : State) : State :=
  match s.core.loops with
  | [] => s.setStm { s.stm with turn := false }
  | l :: ls =>
    let c := s.core
    let t := s.stm
    if s.sreg (BitVec.ofNat 6 l.reg) = 0 then
      let r := loopTurn ls (l.stop + 4)
      (s.setCore { c with loops := r.1 }).setStm { t with pc := r.2.1, turn := r.2.2 }
    else if l.limit ≤ l.iter + 1 then
      let s1 := s.setCore { c with loops := { l with iter := l.iter + 1 } :: ls }
      s1.takeTrap ⟨0x11, l.id, 0, l.start - 12, t.ncmd, 0, 0, none, none⟩
    else
      (s.setCore { c with loops := { l with iter := l.iter + 1 } :: ls }).setStm { t with pc := l.start, turn := false }

/-- `nop` (R396). -/
def execNop (s : State) : Outcome State Fault Refusal := .next (s.nextCtl 4)

end Sys2Proof.Machine
end

