-- ==== Sys2Proof/Machine/Operands.lean ====
section
/-! DEFINITION. The operand forms: the address of a C64 access and its checks (09 R202 to R205), the register
group of a stage command (16 R392), tile and row operands of the vector streams with their index registers,
nest offsets and strides (08 R181, R194, 15 R348), and the elements of a lane (17 R398). -/

namespace Sys2Proof.Machine

/-! Control-stream operands -/

/-- The sum of R203 before its range check: base offset plus the signed immediate. -/
def State.eaOff (s : State) (m : MemArg) : Int := ((s.pair m.base).toNat % 2 ^ 48 : Nat) + m.imm.toInt

/-- The device address of a C64 word (R203); none when the offset leaves its 48 bits. -/
def State.ea (s : State) (m : MemArg) : Option Nat :=
  let off := s.eaOff m
  if off < 0 ∨ 2 ^ 48 ≤ off then none
  else some ((s.pair m.base).toNat / 2 ^ 48 * 2 ^ 48 + off.toNat)

/-- The address a record gives for an access (R301): the formed address, wrapped within its slot when
the offset left its 48 bits. -/
def State.eaWrapped (s : State) (m : MemArg) : Nat :=
  (s.pair m.base).toNat / 2 ^ 48 * 2 ^ 48 + (s.eaOff m % 2 ^ 48).toNat

/-- Address formation and the checks of R203 and R205 for a C64 access of n bytes, aligned to align
bytes. -/
def State.memAccess (s : State) (m : MemArg) (n align : Nat) (rd wr lcl : Bool) : Access :=
  match s.ea m with
  | none => .trap 0x04 5 none
  | some a => s.access a n align rd wr lcl

/-- The operand of an atomic: s[aux], or S(aux) when 64-bit. -/
def State.amoVal (s : State) (wide : Bool) (m : MemArg) : Nat :=
  if wide then (s.pair m.aux).toNat else (s.sreg m.aux).toNat

/-- The 16 bytes of a stage command held in a register group (R392). -/
def State.quad (s : State) (a : BitVec 6) : BitVec 128 :=
  s.sreg (a + 3) ++ s.sreg (a + 2) ++ s.sreg (a + 1) ++ s.sreg a

/-! Vector operands -/

/-- Row k of an operand (R181). -/
def tileRow (base stride k : Nat) : Nat := (base + k * stride) % 4096

/-- The base row of a tile operand: N, its index register and its nest offset (R181, R194). -/
def State.tileBase (s : State) (n : BitVec 12) (ix : BitVec 3) (slot : Nat) : Nat :=
  (((s.ireg ix + n.toNat : Nat) : Int) + s.nestOff slot).emod 4096 |>.toNat

/-- An operand's base: a row for a tile or a row, the field itself otherwise (R402). -/
def State.operandBase (s : State) (r : VRole) (n : BitVec 12) (ix : BitVec 3) (slot : Nat) : Nat :=
  match r with
  | .tile | .row => s.tileBase n ix slot
  | _ => n.toNat

/-- The strides of a form (R181, R348). -/
def rowStrides : VExt → Nat × Nat × Nat
  | .v64 _ => (1, 1, 1)
  | .v96 sd sa sb _ _ => (sd.toNat, sa.toNat, sb.toNat)

/-- Bytes of a form. -/
def vextLen : VExt → Nat
  | .v64 _ => 8
  | .v96 _ _ _ _ _ => 12

/-! Elements (R398) -/

/-- Bits of an element. -/
def eltW (ty : Nat) : Nat := if ty < 3 then 32 else 16

/-- Elements of a lane. -/
def halves (ty : Nat) : Nat := if ty < 3 then 1 else 2

/-- Element h of a lane word. -/
def elt (ty w h : Nat) : Nat := if ty < 3 then w else w / 2 ^ (16 * h) % 65536

/-- A lane word from its elements. -/
def laneOf (ty : Nat) (f : Nat → Nat) : Nat := if ty < 3 then f 0 else f 0 + f 1 * 65536

/-- A floating type. -/
def isFlt (ty : Nat) : Bool := decide (2 ≤ ty) && decide (ty ≤ 4)

/-- The format of a floating type. -/
def fltOf (ty : Nat) : FloatFmt := if ty = 3 then bf16F else if ty = 4 then fp16F else fp32F

/-- An element as an integer: type 1 is unsigned. -/
def eltInt (ty x : Nat) : Int := if ty = 1 then (x : Int) else (BitVec.ofNat (eltW ty) x).toInt

/-- An integer wrapped into the element. -/
def ofEltInt (ty : Nat) (i : Int) : Nat := (BitVec.ofInt (eltW ty) i).toNat

/-- An element of a floating type as an exact value. -/
def eltVal (ty x : Nat) : Val := (fltOf ty).widen x

/-- An exact value rounded once into a floating type (R401). -/
def ofEltVal (ty : Nat) (rm : Rnd) (rand : Nat) (v : Val) : Nat :=
  ((Fmt.flt (fltOf ty)).narrow rm rand v).code

end Sys2Proof.Machine
end

