-- ==== Sys2Proof/Machine/Sync.lean ====
section
/-! DEFINITION. Flags, tokens, rendezvous and the gang barrier, for the control, vector, matrix and sort
streams (08 R176 to R191, 16 R387, 17 R418, 19 R467, 20 R477). -/

namespace Sys2Proof.Machine

open Host (Outcome)

/-- How a stream of the focus engine moves on past a word of len bytes that took one cycle. -/
def State.onward (s : State) (len : Nat) : State :=
  if s.cur.eng = 0 then s.nextCtl len else s.nextWord len 1

/-- A wait for a flag: proceeds, or stalls with the flag's object (R190). -/
def State.waitFlag (s : State) (f : Nat) (clear : Bool) (len : Nat) : State :=
  match s.takeFlag f clear with
  | some s' => s'.onward len
  | none => s.stalled 1 f

/-- A wait for n on a token; the count is kept while the stream waits (R189, R387). -/
def State.waitToken (s : State) (tok n len : Nat) : State :=
  let n := s.stm.latch.getD n
  match s.takeToken tok n with
  | some s' => s'.onward len
  | none =>
    let s1 := s.stalled 1 (0x20 + tok)
    s1.setStm { s1.stm with latch := some n }

/-- An arrival at a rendezvous by a word of len bytes: the stream stands at its next instruction, with
the loops turned and a replay stepped (R176, R307). -/
def State.meetAt (s : State) (len num : Nat) (fin yld : Bool) : State :=
  let s1 := s.onward len
  s1.setStm { s1.stm with meet := .arrived s.stm.pc num fin yld, stall := 0 }

/-- The latch of a control stream that waits at its barrier number k: above every count that a token wait latches. -/
def barLatch (k : Nat) : Nat := 0x10000 + k

/-- `bar` (R178): this core's control stream has executed one more barrier; it waits until every core of
the gang has, and 12 gang cycles after the latest arrival. -/
def execBar (s : State) : Outcome State Fault Refusal :=
  let c := s.core
  let i := s.inst
  let k := c.bars + 1
  let seen := Tab.get (0, 0) i.bars k
  let s1 := s.setInst { i with bars := Tab.set i.bars k (seen.1 + 1, i.gclk) }
  let s2 := s1.setCore { c with bars := k }
  let s3 := s2.nextCtl 4
  .next (s3.setStm { s3.stm with latch := some (barLatch k), stall := 0 })

/-- Whether the barrier numbered k lets the streams go on (R178). -/
def State.barOpen (s : State) (k : Nat) : Bool :=
  let i := s.inst
  let seen := Tab.get (0, 0) i.bars k
  decide (s.att.gang ≤ seen.1) && decide (seen.2 + 12 ≤ i.gclk)

/-- `rend` (R176, R177). -/
def execRend (num : BitVec 4) (fin : Bool) (s : State) : Outcome State Fault Refusal :=
  .next (s.meetAt 4 num.toNat fin false)

/-- `setf`: the flag is set at the end of the issue cycle (R190, R387). -/
def execSetf (flag : BitVec 5) (s : State) : Outcome State Fault Refusal :=
  .next ((s.setFlag flag.toNat).onward 4)

/-- `clrf`: the flag is cleared at the end of the issue cycle (R190, R387). -/
def execClrf (flag : BitVec 5) (s : State) : Outcome State Fault Refusal :=
  .next ((s.clrFlag flag.toNat).onward 4)

/-- `waitf` (R190, R387). -/
def execWaitf (flag : BitVec 5) (clear : Bool) (s : State) : Outcome State Fault Refusal :=
  .next (s.waitFlag flag.toNat clear 4)

/-- `tkpost`: posts s[a][15:0] (R189, R387). -/
def execTkpost (tok : BitVec 4) (a : BitVec 6) (s : State) : Outcome State Fault Refusal :=
  .next ((s.post tok.toNat ((s.sreg a).toNat % 65536)).onward 4)

/-- `tkwait`: waits for s[a][15:0], read when the instruction first issues (R189, R387). -/
def execTkwait (tok : BitVec 4) (a : BitVec 6) (s : State) : Outcome State Fault Refusal :=
  .next (s.waitToken tok.toNat ((s.sreg a).toNat % 65536) 4)

/-- `yield`: the control stream's non-final arrival, at which the job may stop (R307, R387). -/
def execYield (num : BitVec 4) (s : State) : Outcome State Fault Refusal :=
  .next (s.meetAt 4 num.toNat false true)

/-- `halt`: the stream ends (R177). -/
def execHalt (s : State) : Outcome State Fault Refusal := .next s.endStream

/-- `setf` of the vector stream (R418). -/
def execVSetf (flag : BitVec 5) (s : State) : Outcome State Fault Refusal :=
  .next ((s.setFlag flag.toNat).onward 4)

/-- `clrf` of the vector stream (R418). -/
def execVClrf (flag : BitVec 5) (s : State) : Outcome State Fault Refusal :=
  .next ((s.clrFlag flag.toNat).onward 4)

/-- `waitf` of the vector stream (R418). -/
def execVWaitf (flag : BitVec 5) (clear : Bool) (s : State) : Outcome State Fault Refusal :=
  .next (s.waitFlag flag.toNat clear 4)

/-- `tkpost` of the vector stream, with an immediate count (R418). -/
def execVTkpost (tok : BitVec 4) (n : BitVec 16) (s : State) : Outcome State Fault Refusal :=
  .next ((s.post tok.toNat n.toNat).onward 4)

/-- `tkwait` of the vector stream, with an immediate count (R418). -/
def execVTkwait (tok : BitVec 4) (n : BitVec 16) (s : State) : Outcome State Fault Refusal :=
  .next (s.waitToken tok.toNat n.toNat 4)

/-- `rend` of the vector stream (R418). -/
def execVRend (num : BitVec 4) (fin : Bool) (s : State) : Outcome State Fault Refusal :=
  .next (s.meetAt 4 num.toNat fin false)

/-- `halt` of the vector stream (R418). -/
def execVHalt (s : State) : Outcome State Fault Refusal := .next s.endStream

/-- `nop` of the vector stream (R418). -/
def execVNop (s : State) : Outcome State Fault Refusal := .next (s.onward 4)

/-- `setf` of the matrix stream (R467). -/
def execMSetf (flag : BitVec 5) (s : State) : Outcome State Fault Refusal :=
  .next ((s.setFlag flag.toNat).onward 24)

/-- `clrf` of the matrix stream (R467). -/
def execMClrf (flag : BitVec 5) (s : State) : Outcome State Fault Refusal :=
  .next ((s.clrFlag flag.toNat).onward 24)

/-- `waitf` of the matrix stream (R467). -/
def execMWaitf (flag : BitVec 5) (clear : Bool) (s : State) : Outcome State Fault Refusal :=
  .next (s.waitFlag flag.toNat clear 24)

/-- `tkpost` of the matrix stream (R467). -/
def execMTkpost (tok : BitVec 4) (n : BitVec 16) (s : State) : Outcome State Fault Refusal :=
  .next ((s.post tok.toNat n.toNat).onward 24)

/-- `tkwait` of the matrix stream (R467). -/
def execMTkwait (tok : BitVec 4) (n : BitVec 16) (s : State) : Outcome State Fault Refusal :=
  .next (s.waitToken tok.toNat n.toNat 24)

/-- `rend` of the matrix stream (R467). -/
def execMRend (num : BitVec 4) (fin : Bool) (s : State) : Outcome State Fault Refusal :=
  .next (s.meetAt 24 num.toNat fin false)

/-- `halt` of the matrix stream (R467). -/
def execMHalt (s : State) : Outcome State Fault Refusal := .next s.endStream

/-- `mnop` does nothing for one cycle (R467). -/
def execMnop (s : State) : Outcome State Fault Refusal := .next (s.onward 24)

/-- `setf` of the sort stream (R477). -/
def execKSetf (flag : BitVec 5) (s : State) : Outcome State Fault Refusal :=
  .next ((s.setFlag flag.toNat).onward 8)

/-- `clrf` of the sort stream (R477). -/
def execKClrf (flag : BitVec 5) (s : State) : Outcome State Fault Refusal :=
  .next ((s.clrFlag flag.toNat).onward 8)

/-- `waitf` of the sort stream (R477). -/
def execKWaitf (flag : BitVec 5) (clear : Bool) (s : State) : Outcome State Fault Refusal :=
  .next (s.waitFlag flag.toNat clear 8)

/-- `tkpost` of the sort stream (R477). -/
def execKTkpost (tok : BitVec 4) (n : BitVec 16) (s : State) : Outcome State Fault Refusal :=
  .next ((s.post tok.toNat n.toNat).onward 8)

/-- `tkwait` of the sort stream (R477). -/
def execKTkwait (tok : BitVec 4) (n : BitVec 16) (s : State) : Outcome State Fault Refusal :=
  .next (s.waitToken tok.toNat n.toNat 8)

/-- `rend` of the sort stream (R477). -/
def execKRend (num : BitVec 4) (fin : Bool) (s : State) : Outcome State Fault Refusal :=
  .next (s.meetAt 8 num.toNat fin false)

/-- `halt` of the sort stream (R477). -/
def execKHalt (s : State) : Outcome State Fault Refusal := .next s.endStream

end Sys2Proof.Machine
end

