-- ==== Sys2Proof/Machine/Device.lean ====
section
/-! DEFINITION. What the package does to the outside and to memory on its own behalf: messages, MSI-X, writes
to host memory and through capabilities with their dirty log, chunk mapping, the directory of lent extents,
and the rings of a partition (02 R49 to R59, 03 R513, 04 R88 to R94, 09 R216, R217, 14 R315 to R319). -/

namespace Sys2Proof.Machine

open Host (Outcome)

/-! Places -/

/-- An internal event that is due now, at its place. -/
def State.raise (s : State) (a : Actor) (i : Instr) : State := { s with due := s.due ++ [(a, i)] }

/-- Do something at another place and come back. -/
def State.at_ (s : State) (a : Actor) (f : State → State) : State := { f { s with cur := a } with cur := s.cur }

/-- A fresh choice that the manual leaves open, below n (log 1). -/
def State.choose (s : State) (n : Nat) : Nat × State :=
  (Config.pick s.freeIdx % n, { s with freeIdx := s.freeIdx + 1 })

/-- A message to the outside. -/
def State.send (s : State) (m : Sent) : State := { s with sent := s.sent ++ [m] }

def State.vf (s : State) (v : Nat) : Vf := Tab.get Vf.reset s.vfs v
def State.setVf (s : State) (v : Nat) (x : Vf) : State := { s with vfs := Tab.set s.vfs v x }
def State.partn (s : State) (p : Nat) : Partition := Tab.get Partition.reset s.parts p
def State.setPart (s : State) (p : Nat) (x : Partition) : State := { s with parts := Tab.set s.parts p x }
def State.queue (s : State) (v q : Nat) : Queue := Tab.get Queue.reset (s.vf v).queues q
def State.setQueue (s : State) (v q : Nat) (x : Queue) : State :=
  let f := s.vf v
  s.setVf v { f with queues := Tab.set f.queues q x }
def State.site (s : State) (k : Nat) : Site := Tab.get Site.empty s.sites k
def State.setSite (s : State) (k : Nat) (x : Site) : State := { s with sites := Tab.set s.sites k x }
def State.link (s : State) (l : Nat) : HostLink := Tab.get HostLink.reset s.links l
def State.setLink (s : State) (l : Nat) (x : HostLink) : State := { s with links := Tab.set s.links l x }
def State.port (s : State) (p : Nat) : PeerPort := Tab.get PeerPort.reset s.ports p
def State.setPort (s : State) (p : Nat) (x : PeerPort) : State := { s with ports := Tab.set s.ports p x }
def State.group (s : State) (g : Nat) : Group := Tab.get (Group.reset g) s.groups g
def State.setGroup (s : State) (g : Nat) (x : Group) : State := { s with groups := Tab.set s.groups g x }
def State.setBuf (s : State) (b : Nat) (x : Buffer) : State := { s with bufs := Tab.set s.bufs b x }
def State.ext (s : State) (e : Nat) : Extent := Tab.get Extent.pool s.exts e
def State.setExt (s : State) (e : Nat) (x : Extent) : State := { s with exts := Tab.set s.exts e x }
def State.setPkg (s : State) (p : Pkg) : State := { s with pkg := p }
def State.ctx (s : State) (p c : Nat) : Ctx := Tab.get Ctx.closed (s.partn p).ctxs c
def State.setCtx (s : State) (p c : Nat) (x : Ctx) : State :=
  let t := s.partn p
  s.setPart p { t with ctxs := Tab.set t.ctxs c x }

def State.fn (s : State) (f : Nat) : FnCfg := Tab.get FnCfg.reset s.fcfg f
def State.setFn (s : State) (f : Nat) (x : FnCfg) : State := { s with fcfg := Tab.set s.fcfg f x }

/-- The PF takes accesses to its BARs: link 0 has trained (02 R45), the boot has ended well (01 R40), and it is in D0 (02
R43; log 69). -/
def State.pfTakes (s : State) : Bool := (s.link 0).trained && s.pkg.phase == 3 && !(s.fn 384).d3

/-- A VF takes accesses to its BAR: it exists on a link that is up, is not being reset, and is in D0 (02 R43, R48, R56). -/
def State.vfTakes (s : State) (v : Nat) : Bool :=
  (s.vf v).enabled && (s.link (s.vf v).link).trained && !(s.vf v).flrbusy && !(s.fn v).d3

/-- A partition is bound (02 R48). -/
def State.bound (s : State) (p : Nat) : Bool := s.vfs.any fun x => x.2.valid && x.2.part == p

/-- The virtual functions bound to a partition. -/
def State.vfsOf (s : State) (p : Nat) : List Nat := (s.vfs.filter fun x => x.2.valid && x.2.part == p).map (·.1)

/-- A configuration write to a function of a link: refused with the retry status until PHASE 3 (01 R41); there is none on
a link that has not trained. -/
def State.config (s : State) (l : Nat) (r : Outcome State Fault Refusal) : Outcome State Fault Refusal :=
  if !(s.link l).trained then .next s else if s.pkg.phase = 3 then r else .next (s.send (.configRetry l))

/-- A write to a BAR of the PF, which it takes or not (01 R40, 02 R45). -/
def State.pfBar (s : State) (r : Outcome State Fault Refusal) : Outcome State Fault Refusal :=
  if s.pfTakes then r else .next s

/-- A write to the BAR of a VF, which it takes or not (02 R48, R56). -/
def State.vfBar (s : State) (v : Nat) (r : Outcome State Fault Refusal) : Outcome State Fault Refusal :=
  if s.vfTakes v then r else .next s

/-- A site is in service (01 R19). -/
def Site.inService (x : Site) : Bool := decide (x.st ≤ 1) && decide (x.cls ≠ 0)

/-- Add to a saturating 32-bit counter (01 R30). -/
def satAdd (w : Word) (n : Nat) : Word := BitVec.ofNat 32 (min (w.toNat + n) 0xFFFFFFFF)

/-! MSI-X (02 R52, R53; log 4) -/

/-- An event on a vector: a message, or its pending bit while it is masked. -/
def Msix.fire (m : Msix) (vec : Nat) : Msix × Option Sent :=
  let e := Tab.get MsixEntry.reset m.table vec
  if !m.enable || m.fmask || e.mask then ({ m with pending := m.pending ||| 2 ^ vec }, none)
  else (m, some (.msix e.addr e.data.toNat))

/-- A PF vector fires. -/
def State.pfIrq (s : State) (vec : Nat) : State :=
  let r := s.pfMsix.fire vec
  let s1 := { s with pfMsix := r.1 }
  match r.2 with
  | some m => s1.send m
  | none => s1

/-- A VF vector fires; a function that is disabled or being reset sends nothing (02 R48, R55). -/
def State.vfIrq (s : State) (v vec : Nat) : State :=
  let f := s.vf v
  if !f.enabled || f.flrbusy then s
  else
    let r := f.msix.fire vec
    let s1 := s.setVf v { f with msix := r.1 }
    match r.2 with
    | some m => s1.send m
    | none => s1

/-- Vector 31 of every VF: the table's GEN changed (02 R52). -/
def State.allVfIrq (s : State) (vec : Nat) : State := (Tab.keys s.vfs).foldl (fun s v => s.vfIrq v vec) s

/-! Host memory (03 R70, R71, R74) -/

/-- Two ranges of bytes share one. -/
def overlaps (a n b m : Nat) : Bool := decide (a < b + m) && decide (b < a + n)

/-- An access of n bytes of host memory ends in a completion error (log 5). -/
def State.hostFails (s : State) (a n : Nat) : Bool := s.hostBad.any fun r => overlaps a n r.1 r.2

/-- Bytes that the device writes to host memory: lost where the host fails the write (R74). -/
def State.hostPut (s : State) (a : Nat) (bs : List Byte) : State :=
  if s.hostFails a bs.length then s else { s with host := Memory.putBytes s.host a bs }

/-! The dirty log (02 R59) -/

/-- Log a page, given as its record, for a VF: nothing while tracking is off, or while the page is in a filter
that is not full; LOGOVF and a stop when the log is full; vector 4 at half full. -/
def State.dirtyPage (s : State) (v rec_ : Nat) : State :=
  let f := s.vf v
  let m := f.mig
  if !m.track || (m.filter.contains rec_ && decide (m.filter.length < 1024)) then s
  else
    let used := (m.logidx + 2 ^ 32 - m.logrd) % 2 ^ 32
    if m.logsz ≤ used then s.setVf v { f with mig := { m with ovf := true, track := false } }
    else
      let m1 : Mig :=
        { m with
          logidx := (m.logidx + 1) % 2 ^ 32
          filter := if m.filter.length < 1024 then m.filter ++ [rec_] else m.filter }
      let a := m.log + m.logidx % m.logsz * 8
      let s1 := (s.hostPut a (leBytes 8 rec_)).setVf v { f with mig := m1 }
      if used + 1 = m.logsz / 2 then s1.pfIrq 4 else s1

/-- Log every page that n bytes from an address touch; dev marks a capability address. -/
def State.dirty (s : State) (v a n : Nat) (dev : Bool) : State :=
  if n = 0 then s
  else
    let lo := a / 4096
    (List.range ((a + n - 1) / 4096 + 1 - lo)).foldl
      (fun s i => s.dirtyPage v ((lo + i) * 4096 + if dev then 1 else 0)) s

/-- Bytes written to host memory for a VF (02 R49, R59); a VF being reset writes nothing more (R55). -/
def State.hostWrite (s : State) (v a : Nat) (bs : List Byte) : State :=
  if (s.vf v).flrbusy then s else (s.hostPut a bs).dirty v a bs.length false

/-! Chunks (09 R216, R217, R221) -/

/-- The MEM site an extent lies in and its base within it (04 R81). -/
def extSite (e : Nat) : Nat := 1 + e / 384
def extBase (e : Nat) : Nat := e % 384 * 2 ^ 28

/-- Bytes of HBM of a MEM site (01 R16). -/
def hbmBytes : Nat := 98304 * 2 ^ 20

/-- The package physical ranges of a site that are taken: mapped chunks, and extents that are not in the pool. -/
def State.taken (s : State) (site : Nat) : List (Nat × Nat) :=
  (s.bufs.flatMap fun b =>
      if b.2.ext.isSome then []
      else (b.2.chunks.filter fun c => c.2 / 2 ^ 40 == site).map fun c => (c.2 % 2 ^ 40, b.2.chunkSize))
    ++ (s.exts.filter fun e => e.2.st ≠ 0 && extSite e.1 == site).map fun e => (extBase e.1, 2 ^ 28)

/-- The first free frame of a size at or after a frame, among total frames. -/
def freeFrame (used : List (Nat × Nat)) (size total : Nat) : Nat → Nat → Option Nat
  | 0, _ => none
  | fuel + 1, f =>
    let a := f % total * size
    if used.any fun r => overlaps a size r.1 r.2 then freeFrame used size total fuel (f + 1) else some a

/-- A free place for a chunk in a site; which one is left open (log 1). -/
def State.place (s : State) (site size start : Nat) : Option Nat :=
  let used := s.taken site
  let total := hbmBytes / size
  freeFrame used size total total start

/-- The next MEM site in service with room, in ascending order from one on, wrapping round (R216). -/
def State.nextSite (s : State) (size start : Nat) : Nat → Nat → Option (Nat × Nat)
  | 0, _ => none
  | fuel + 1, m =>
    let site := 1 + (m - 1) % 8
    let x := s.site site
    let go (_ : Unit) := State.nextSite s size start fuel (m + 1)
    if x.inService && x.cls == 5 then
      match s.place site size start with
      | some a => some (site, a)
      | none => go ()
    else go ()

/-- A chunk of a buffer is mapped: that walks found it unmapped is forgotten (R221). -/
def State.chunkMapped (s : State) (b k : Nat) : State :=
  { s with walks := s.walks.map fun x => (x.1, x.2.filter fun w => !(w.found && w.buf == b && w.chunk == k)) }

/-- Map a chunk: a chunk that is mapped already stays; the next site in order takes it and it reads zero
(R216, R217, R221); none when no site has room. -/
def State.mapChunk (s : State) (b k : Nat) : Option State :=
  let u := s.buf b
  if (Tab.find u.chunks k).isSome then some s
  else
    match u.ext with
    | some e =>
      some ((s.setBuf b { u with chunks := Tab.set u.chunks k (extSite e * 2 ^ 40 + extBase e + k * 2 ^ 21) }).chunkMapped b k)
    | none =>
      let c := s.choose (hbmBytes / u.chunkSize)
      match c.2.nextSite u.chunkSize c.1 8 s.nextMem with
      | none => none
      | some (site, a) =>
        some
          { (c.2.setBuf b { u with chunks := Tab.set u.chunks k (site * 2 ^ 40 + a) }).chunkMapped b k with
            nextMem := 1 + site % 8 }

/-- Map every chunk that n bytes of a buffer touch. -/
def State.mapRange (s : State) (b off n : Nat) : Option State :=
  let u := s.buf b
  if n = 0 ∨ u.peer.isSome then some s
  else
    let lo := off / u.chunkSize
    (List.range ((off + n - 1) / u.chunkSize + 1 - lo)).foldl (fun r i => r.bind fun s => s.mapChunk b (lo + i)) (some s)

/-- Bytes of a buffer that lie in a MEM site out of service (01 R20). -/
def State.lostAt (s : State) (b off n : Nat) : Bool :=
  let u := s.buf b
  u.chunks.any fun c => overlaps (c.1 * u.chunkSize) u.chunkSize off n && !(s.site (c.2 / 2 ^ 40)).inService

/-- A node that names nothing. -/
def Node.empty : Node :=
  { graph := 0, idx := 0, num := 0, parent := none, vf := 0, q := 0, prio := 0, desc := 0, classes := [],
    width := 0, code := [], gangs := [], arg := 0, arglen := 0, inl := none, binds := [], preds := [], phase := .waiting,
    cls := none, avoid := [], refs := [], outs := [], isErr := false, cont := false, pool := 0, late := none }

def State.node (s : State) (n : Nat) : Node := Tab.get Node.empty s.nodes n
def State.setNode (s : State) (n : Nat) (x : Node) : State := { s with nodes := Tab.set s.nodes n x }
def State.attempt (s : State) (a : Nat) : Attempt := Tab.get Attempt.empty s.atts a
def State.setAttempt (s : State) (a : Nat) (x : Attempt) : State := { s with atts := Tab.set s.atts a x }

/-- The virtual function that an attempt's requests carry (R49). -/
def State.vfOf (s : State) (t : Attempt) : Nat := (s.node t.node).vf

/-! What the shared units count (14 R321) -/

/-- A virtual function's request counts n in a counter of its partition, where the partition's SVF is that function. -/
def State.shared (s : State) (v k n : Nat) : State :=
  let f := s.vf v
  let t := s.partn f.part
  if f.valid && fld t.prof.toNat 8 9 == v then
    s.setPart f.part { t with counters := Tab.upd 0 t.counters k (· + BitVec.ofNat 64 n) }
  else s

/-- Bytes of a virtual function's request that are read over the fabric from HBM, and bytes that are written to it:
counters 102 to 105. -/
def State.readFar (s : State) (v n : Nat) : State := (s.shared v 102 n).shared v 104 n
def State.wroteFar (s : State) (v n : Nat) : State := (s.shared v 103 n).shared v 105 n

/-! The directory of lent extents (04 R87 to R94) -/

/-- The line of a byte of an extent's buffer: its DPA divided by 256 (04 R81, R88). -/
def lineOf (e off : Nat) : Nat := e * 2 ^ 20 + off / 256

/-- The lines that n bytes of a buffer touch; none outside a lent extent. -/
def State.linesAt (s : State) (b off n : Nat) : List Nat :=
  match (s.buf b).ext with
  | none => []
  | some e => if n = 0 then [] else (List.range ((off + n - 1) / 256 + 1 - off / 256)).map fun i => lineOf e off + i

def State.line (s : State) (l : Nat) : DirLine := Tab.get ⟨0, false, 0⟩ s.lines l

/-- A recall of a line from a link, sent once and counted (R88); one with BISnpInv is sent also while one with
BISnpData is on its way, whose holder keeps the line. -/
def State.recall (s : State) (l link : Nat) (inv : Bool) : State :=
  if s.recalls.any fun r => r.line == l && r.link == link && (r.inv || !inv) then s
  else
    let p := s.pkg
    let s1 : State := { s with recalls := s.recalls ++ [⟨l, link, inv, s.time⟩] }
    (s1.setPkg { p with recalls := satAdd p.recalls 1 }).send (.recall link l inv)

/-- Recall a line from every link of a mask. -/
def State.recallMask (s : State) (l mask : Nat) (inv : Bool) : State :=
  (List.range 4).foldl (fun s k => if mask.testBit k then s.recall l k inv else s) s

/-- Directory entries stand in the way of a device access: a read waits for an exclusive holder, a write for
every holder (R88, R89). -/
def DirLine.blocks (d : DirLine) (wr : Bool) : Bool := d.mask != 0 && (wr || d.excl)

/-- The lines of 256 bytes that n bytes of a buffer touch, in any buffer (01 R27). -/
def lineIds (b off n : Nat) : List Nat :=
  if n = 0 then [] else (List.range ((off + n - 1) / 256 + 1 - off / 256)).map fun i => b * 2 ^ 40 + off / 256 + i

/-- A write of the device, or something that follows its writes. -/
def HomeReq.dev (r : HomeReq) : Bool :=
  match r with
  | .hostRead _ _ _ | .hostWrite _ _ _ | .devWait _ _ _ => false
  | _ => true

/-- The extent of a DPA, and the offset in its buffer (R81). -/
def extOf (dpa : Nat) : Nat := dpa / 2 ^ 28
def dpaOff (dpa : Nat) : Nat := dpa % 2 ^ 28

/-- The bytes that a request at the homes waits for, as spans of buffers. -/
def State.reqSpans (s : State) (r : HomeReq) : List (Nat × Nat × Nat) :=
  match r with
  | .hostRead _ dpa _ | .hostWrite _ dpa _ => [((s.ext (extOf dpa)).buf, dpaOff dpa, 1)]
  | .devWait _ sp _ => sp
  | .devWrite b off bs _ _ => [(b, off, bs.length)]
  | .devAdd b off => [(b, off, 8)]
  | .devFence _ | .after _ => []

/-- The lines that a request at the homes waits for. -/
def State.reqIds (s : State) (r : HomeReq) : List Nat := (s.reqSpans r).flatMap fun x => lineIds x.1 x.2.1 x.2.2

/-- A request waits at the home of a line of these bytes: requests to one line perform in the order in which they
reach it (01 R27, R88). -/
def State.queuedOver (s : State) (b off n : Nat) : Bool := s.homeq.any fun r => (s.reqIds r).any (lineIds b off n).contains

/-- Something of the device waits at the homes. -/
def State.homeLate (s : State) : Bool := s.homeq.any HomeReq.dev

/-- A core's `fence` at system scope waits there (16 R379). -/
def State.fencedCore (s : State) (id : Nat) : Bool := s.homeq.contains (.devFence id)

/-- The directory stands in the way of a device access of these bytes. -/
def State.blocked (s : State) (b off n : Nat) (wr : Bool) : Bool := (s.linesAt b off n).any fun l => (s.line l).blocks wr

/-- A device access of these bytes has to wait for recalls or for an earlier request (R88). -/
def State.homeBusy (s : State) (b off n : Nat) (wr : Bool) : Bool := s.blocked b off n wr || s.queuedOver b off n

/-- A span holds all bytes of another. -/
def spanHas (y x : Nat × Nat × Nat) : Bool :=
  y.1 == x.1 && decide (y.2.1 ≤ x.2.1) && decide (x.2.1 + x.2.2 ≤ y.2.1 + y.2.2)

/-- A request is the place of an agent's access of these bytes. -/
def HomeReq.holds (r : HomeReq) (who : Actor → Bool) (wr : Bool) (x : Nat × Nat × Nat) : Bool :=
  match r with
  | .devWait w sp k => who w && k == wr && sp.any fun y => spanHas y x
  | _ => false

/-- A place that an agent's place for some spans takes over: it has one for its access, but for a core's stage
transfers and for a peer, each of which has its own. -/
def HomeReq.before (r : HomeReq) (who : Actor) (wr : Bool) (sp : List (Nat × Nat × Nat)) : Bool :=
  match r with
  | .devWait w old k => w == who && k == wr && ((who.eng != 6 && who.eng != 9) || old.all fun y => sp.any fun x => spanHas x y)
  | _ => false

/-- An access of an agent holds a place at its home: it reached the home and waits there (R86, R88). -/
def State.placed (s : State) (who : Actor → Bool) (wr : Bool) (x : Nat × Nat × Nat) : Bool :=
  s.homeq.any fun r => r.holds who wr x

/-- An agent's access of some spans has its turn at their homes: no holder stands in the way of one, and no request that
reached a line of one before it waits (R88). -/
def State.homeTurn (s : State) (who : Actor → Bool) (wr : Bool) (sp : List (Nat × Nat × Nat)) : Bool :=
  sp.all fun x => !s.blocked x.1 x.2.1 x.2.2 wr &&
    (s.homeq.takeWhile fun r => !r.holds who wr x).all fun r => (s.reqIds r).all fun l => !(lineIds x.1 x.2.1 x.2.2).contains l

/-- An agent's access has performed: it gives its place up. -/
def State.leaveHome (s : State) (who : Actor → Bool) (wr : Bool) (sp : List (Nat × Nat × Nat)) : State :=
  { s with homeq := s.homeq.filter fun r => !sp.any fun x => r.holds who wr x }

/-- A write whose turn at its home has come: nothing that waits there stands before it. -/
def State.inTurn (s : State) (f : State → State) : State :=
  let t := f { s with homeq := [] }
  { t with homeq := s.homeq ++ t.homeq }

/-- Send the recalls that a device access needs. -/
def State.homeRecall (s : State) (b off n : Nat) (wr : Bool) : State :=
  (s.linesAt b off n).foldl
    (fun s l => if (s.line l).blocks wr then s.recallMask l (s.line l).mask wr else s) s

/-- The recalls of every span of an access. -/
def State.recallSpans (s : State) (wr : Bool) (sp : List (Nat × Nat × Nat)) : State :=
  sp.foldl (fun s x => s.homeRecall x.1 x.2.1 x.2.2 wr) s

/-- An agent's access of some spans waits at their homes: it takes its place, once, and its recalls are sent. -/
def State.waitHome (s : State) (who : Actor) (wr : Bool) (sp : List (Nat × Nat × Nat)) : State :=
  let s1 : State :=
    if s.homeq.any fun r => sp.all (r.holds (· == who) wr) then s
    else { s with homeq := (s.homeq.filter fun r => !r.before who wr sp) ++ [.devWait who sp wr] }
  s1.recallSpans wr sp

/-- A device write of bytes to a buffer at the home of their lines: at once, or after its recalls and the writes
before it (R88, R89); one with release order at system scope performs behind every device write that waits (R96, 10
R231). -/
def State.deviceWrite (s : State) (b off : Nat) (bs : List Byte) (rel : Bool := false) (att : Option Nat := none) : State :=
  let s0 := match att with
    | some a => s.wroteFar (s.vfOf (s.attempt a)) bs.length
    | none => s
  if s.homeBusy b off bs.length true || (rel && s.homeLate) then
    let s1 : State := { s0 with homeq := s0.homeq ++ [.devWrite b off bs rel att] }
    s1.homeRecall b off bs.length true
  else s0.writeBuf b off bs

/-! What follows a write (02 R53, 03 R73, 14 R316) -/

/-- A packet is done: its completion may happen, with this STATUS (03 R72, R73). -/
def State.finishPacket (s : State) (v q num status : Nat) : State :=
  let x := s.queue v q
  s.setQueue v q { x with packets := x.packets.map fun p => if p.num = num then { p with fin := some status } else p }

/-- Slots of a ring are shown by its WIDX (14 R316). -/
def Ring.shown (r : Ring) (k : Nat) : Ring := { r with pend := r.pend - k, widx := r.widx + BitVec.ofNat 32 k }

/-- WIDX of a partition's sample or event ring shows k more slots, unless the ring has been written anew since; a sample,
written for the ring's owner, counts in counter 109 (R321). -/
def State.ringShown (s : State) (p : Nat) (samp : Bool) (gen k : Nat) : State :=
  let t := s.partn p
  let r := if samp then t.sring else t.ering
  if r.gen ≠ gen then s
  else if samp then (s.setPart p { t with sring := t.sring.shown k }).shared (t.owner.getD 0) 109 1
  else s.setPart p { t with ering := t.ering.shown k }

/-- What waited for the writes before it takes place. -/
def State.doAfter (s : State) (x : After) : State :=
  match x with
  | .vfIrq v vec => s.vfIrq v vec
  | .pfIrq vec => s.pfIrq vec
  | .host v a bs => s.hostWrite v a bs
  | .finish v q num status => s.finishPacket v q num status
  | .widx p samp gen k => s.ringShown p samp gen k

/-- Something that follows every device write made so far: at once, unless one still waits at its home. -/
def State.afterHome (s : State) (x : After) : State :=
  if s.homeLate then { s with homeq := s.homeq ++ [.after x] } else s.doAfter x

/-! Capabilities (03 R70, R513, 05 R108) -/

/-- The key of a partition's slot. -/
def capKey (p slot : Nat) : Nat := p * 65536 + slot

/-- What a partition's slot holds; none where it is empty. -/
def State.cap (s : State) (p slot : Nat) : Option CapSlot := Tab.find s.caps (capKey p slot)

/-- The capability of a valid slot: one that holds a capability that is not revoked (03 R70). -/
def State.validCap (s : State) (p slot : Nat) : Option (Nat × Bool × Bool) :=
  match s.cap p slot with
  | some (.cap b r w) => if 0xFFE0 ≤ slot ∨ (s.buf b).revoked then none else some (b, r, w)
  | _ => none

/-- The lowest slot of a partition that holds a buffer. -/
def State.slotHolding (s : State) (p b : Nat) : Option Nat :=
  (s.caps.find? fun c => c.1 / 65536 == p && (match c.2 with | .cap b' _ _ => b' == b | .reserved => false)).map (·.1 % 65536)

/-- A write of the device through a capability address, or nothing where it may not be made (R513); rel makes it
follow every device write made before it.  A buffer homed on a peer package is written in this package's copy of
it (log 29). -/
def State.capWrite (s : State) (p v a : Nat) (bs : List Byte) (rel : Bool := false) : State :=
  match s.validCap p (slotOf a) with
  | none => s
  | some (b, _, w) =>
    let u := s.buf b
    if !w || u.readOnly || decide (u.size < offOf a + bs.length) then s
    else
      match s.mapRange b (offOf a) bs.length with
      | none => s
      | some s1 => (((s1.deviceWrite b (offOf a) bs rel).wroteFar v bs.length).dirty v a bs.length true)

/-- A write of the device to a host or capability address that follows every write made before it (02 R53, 03
R73); nothing for a VF that is being reset (R55). -/
def State.outWrite (s : State) (p v a : Nat) (dev : Bool) (bs : List Byte) : State :=
  if (s.vf v).flrbusy then s else if dev then s.capWrite p v a bs true else s.afterHome (.host v a bs)

/-- A place in a buffer that no slot names: an address above 2^64, which a launched node's descriptor takes
from a binding of its parent (05 R122, 16 R389). -/
def direct (b off : Nat) : Nat := (b + 1) * 2 ^ 64 + off

/-- The buffer that a capability address reaches, and whether it may be read. -/
def State.reach (s : State) (p a : Nat) : Option (Nat × Bool) :=
  if a < 2 ^ 64 then (s.validCap p (slotOf a)).map fun c => (c.1, c.2.1)
  else
    let b := a / 2 ^ 64 - 1
    if (s.buf b).revoked then none else some (b, true)

/-- An agent of the front end, among those that wait at homes: a queue, a write-index word, a node's dispatch or check, a
graph's result. -/
def frontEnd (a : Actor) : Bool := decide (8 ≤ a.eng) && a.eng != 9

/-- The buffer of a capability address where a read of the front end that reached its home before the buffer was revoked
still waits there (04 R86). -/
def State.reachHeld (s : State) (p a n : Nat) : Option (Nat × Bool) :=
  let r : Option (Nat × Bool) :=
    if a < 2 ^ 64 then (match s.cap p (slotOf a) with | some (.cap b r _) => some (b, r) | _ => none)
    else some (a / 2 ^ 64 - 1, true)
  r.bind fun x => if s.placed frontEnd false (x.1, offOf a, n) then some x else none

/-- Why a read of the front end delivers nothing: a code of R65, R70 and R71, or recalls and requests at the home of
these bytes that it has to wait for (04 R88). -/
inductive ReadErr
  | code (n : Nat)
  | wait (b off n : Nat)
  deriving DecidableEq, Repr

/-- A read of n bytes through a capability address by the front end: the bytes, or the code of R65, R70
and R71: 0x5 for a slot or right that fails, 0x6 for a read that fails; or it has to wait. -/
def State.capRead (s : State) (p a n : Nat) : Except ReadErr (List Byte × State) :=
  match (s.reach p a).orElse fun _ => s.reachHeld p a n with
  | none => .error (.code 5)
  | some (b, r) =>
    let u := s.buf b
    if !r || decide (u.size < offOf a + n) then .error (.code 5)
    else if !s.homeTurn frontEnd false [(b, offOf a, n)] then .error (.wait b (offOf a) n)
    else if u.badAt (offOf a) n || s.lostAt b (offOf a) n || u.peer.isSome then .error (.code 6)
    else
      match s.mapRange b (offOf a) n with
      | none => .error (.code 6)
      | some s1 => .ok ((s1.buf b).mem.bytes (offOf a) n, s1.leaveHome frontEnd false [(b, offOf a, n)])

/-- A read that has to wait takes its place at the home, and its recalls are sent. -/
def State.readWait (s : State) (who : Actor) (e : ReadErr) : State :=
  match e with
  | .code _ => s
  | .wait b off n => s.waitHome who false [(b, off, n)]

/-- n bytes that an attempt's work writes to a buffer are logged for its VF at the page of the lowest slot of the
partition that holds the buffer (R49, R59). -/
def State.jobLog (s : State) (t : Attempt) (b off n : Nat) : State :=
  let v := s.vfOf t
  if !(s.vf v).mig.track then s
  else
    match s.slotHolding t.part b with
    | some sl => s.dirty v (sl * 2 ^ 48 + off) n true
    | none => s

/-- A debugger is attached to a partition (14 R327). -/
def State.attached (s : State) (p : Nat) : Bool := (s.partn p).attach && (s.partn p).dbgen

/-- The lowest watchpoint of an attempt that n bytes of a buffer hit (14 R332, R333), and the first watched
byte's offset. -/
def State.watchAt (s : State) (t : Attempt) (b off n : Nat) (wr : Bool) : Option (Nat × Nat) :=
  if !s.attached t.part then none
  else
    t.watches.findSome? fun w =>
      if w.buf = b ∧ (if wr then w.w else w.r) = true then
        ((List.range 64).find? fun k => w.mask.testBit k && decide (off ≤ w.off + k) && decide (w.off + k < off + n)).map
          fun k => (w.num, w.off + k)
      else none

/-! Lost lines (04 R91, R94) -/

/-- The 8-byte atomic addition of 1 at a home (R91). -/
def State.addOne (s : State) (b off : Nat) : State :=
  s.writeBuf b off (leBytes 8 ((s.buf b).mem.nat off 8 + 1))

/-- The owner's notify word of an extent is incremented, with release order at system scope, where the word may be
written (R91, 03 R513). -/
def State.notifyOwner (s : State) (e : Nat) : State :=
  let x := s.ext e
  let off := offOf x.notify
  match s.validCap x.owner (slotOf x.notify) with
  | none => s
  | some (b, _, w) =>
    let u := s.buf b
    if !w || u.readOnly || decide (u.size < off + 8) || s.lostAt b off 8 then s
    else
      match s.mapRange b off 8 with
      | none => s
      | some s1 =>
        if s1.homeBusy b off 8 true || s1.homeLate then
          State.homeRecall { s1 with homeq := s1.homeq ++ [.devAdd b off] } b off 8 true
        else s1.addOne b off

/-- A lost-line log entry (R94), its vector, and the notification of the owner that the extent has (R91).  DESIGN
CHOICE (log 65): an extent that no ADD gave an owner, or that a RELEASE has taken back into the pool, has none. -/
def State.logLine (s : State) (dpa cause link : Nat) (e : Option Nat) : State :=
  let p := s.pkg
  let bytes := leBytes 8 (dpa / 256 % 2 ^ 40 * 256) ++ leBytes 1 cause ++ leBytes 1 link ++ leBytes 2 (e.getD 0xFFFF)
    ++ leBytes 4 0 ++ leBytes 8 s.time ++ leBytes 8 0
  let s1 :=
    if 4096 ≤ (p.llogI - p.llogR).toNat then s.setPkg { p with llogO := satAdd p.llogO 1 }
    else
      ((s.hostPut (p.llogB + p.llogI.toNat % 4096 * 32) bytes).setPkg
        { p with llogI := p.llogI + 1 }).pfIrq 3
  match e with
  | some e => if (s1.ext e).owned then s1.notifyOwner e else s1
  | none => s1

/-! Rings (14 R315 to R319) -/

/-- The event ring of a partition is on. -/
def Partition.evOn (p : Partition) : Bool := p.prof.getLsbD 1

/-- The sample ring of a partition is on. -/
def Partition.sampOn (p : Partition) : Bool := p.prof.getLsbD 0

/-- A ring slot can be written: a host ring always, a device ring while its slot holds a capability that is not
revoked and has write right (R316). -/
def State.ringOk (s : State) (p : Nat) (r : Ring) : Bool :=
  if !r.loc then true
  else
    match s.validCap p (slotOf r.base) with
    | none => false
    | some (_, _, w) => w

/-- A partition's event ring, or its sample ring. -/
def Partition.ring (t : Partition) (samp : Bool) : Ring := if samp then t.sring else t.ering

def Partition.setRing (t : Partition) (samp : Bool) (r : Ring) : Partition :=
  if samp then { t with sring := r } else { t with ering := r }

/-- A record of k slots of 32 bytes enters a partition's event or sample ring: dropped whole, or written slot by
slot and then shown by WIDX (R316); none is made while the owner is being reset (02 R55). -/
def State.ringPut (s : State) (p : Nat) (samp : Bool) (bs : List Byte) : State :=
  let t := s.partn p
  let r := t.ring samp
  let k := bs.length / 32
  let size := 2 ^ r.log2
  let v := t.owner.getD 0
  let at_ := r.widx.toNat + r.pend
  if (s.vf v).flrbusy then s
  else if size < (r.widx - r.ridx).toNat + r.pend + k || !s.ringOk p r then
    s.setPart p (t.setRing samp { r with drop := satAdd r.drop k })
  else
    let s0 := s.setPart p (t.setRing samp { r with pend := r.pend + k })
    let s1 := (List.range k).foldl
      (fun s i => s.outWrite p v (r.base + (at_ + i) % size * 32) r.loc ((bs.drop (32 * i)).take 32)) s0
    s1.afterHome (.widx p samp r.gen k)

/-- A record enters a partition's event ring. -/
def State.eventPut (s : State) (p : Nat) (bs : List Byte) : State := s.ringPut p false bs

/-- A record enters a partition's sample ring and counts in counter 109. -/
def State.samplePut (s : State) (p : Nat) (bs : List Byte) : State := s.ringPut p true bs

/-- The EV_MASK bit of an event code (R318). -/
def eventGroup (code : Nat) : Nat :=
  if code ≤ 4 then 0
  else if code ≤ 7 then 1
  else if code ≤ 9 then 2
  else if code = 0x0F then 3
  else if code = 0x0A then 4
  else if code < 0x40 then 5
  else 6

/-- The bytes of an event record (R317): NODE_KEY is zero for the codes 0x05 to 0x09. -/
def EvRec.bytes (e : EvRec) : List Byte :=
  leBytes 8 e.time ++ leBytes 1 e.engine ++ leBytes 1 e.code ++ leBytes 1 e.site ++ leBytes 1 e.core
    ++ leBytes 4 (if 5 ≤ e.code ∧ e.code ≤ 9 then 0 else e.key.toNat) ++ leBytes 8 e.arg0 ++ leBytes 8 e.arg1 ++ e.payload

/-- An event is written where the ring and its group are on (R317). -/
def State.event (s : State) (e : EvRec) : State :=
  let p := s.partn e.part
  if p.evOn && p.evmask.getLsbD (eventGroup e.code) then s.eventPut e.part e.bytes else s

/-- An event of the scheduler front end: engine 8, site and core zero (R317). -/
def State.frontEvent (s : State) (part code arg0 arg1 : Nat) (key : Word) (payload : List Byte := []) : State :=
  s.event ⟨part, 8, code, 0, 0, s.time, arg0, arg1, key, payload⟩

/-- The events that streams and stage engines reported in the cycle are written in order. -/
def State.drainEvents (s : State) : State := s.evq.foldl (fun s e => s.event e) { s with evq := [] }

end Sys2Proof.Machine
end

