-- ==== Sys2Proof/Machine/Cache.lean ====
section
/-! DEFINITION. The caches between the cores and the homes, and the translations beside them: the clusters' L1s,
the chiplets' L2 slices with their way masks, what acquire and release order do to them, where atomics perform,
and TLBs with their walks (02 R54, 09 R206 to R209, R215, R219, R220, R225, 10 R227 to R239, 14 R321, R322).  A
line holds the bytes of 256 aligned bytes of a buffer; a byte is in it when its sector is filled or the byte is
dirty.  Lines of lent extents and of buffers homed on a peer package are never held (04 R89). -/

namespace Sys2Proof.Machine

/-! Places -/

/-- The buffer and the first byte's offset of a line's key. -/
def keyBuf (k : Nat) : Nat := k / 2 ^ 40
def keyOff (k : Nat) : Nat := k % 2 ^ 40 * 256

/-- The package physical address of a byte of a mapped chunk (R215, R218). -/
def State.pa (s : State) (b off : Nat) : Nat :=
  let u := s.buf b
  Tab.get 0 u.chunks (off / u.chunkSize) + off % u.chunkSize

/-- The home slice of a line at a package physical address (R215). -/
def sliceOf (a : Nat) : Nat := (a / 2 ^ 8 ^^^ a / 2 ^ 16 ^^^ a / 2 ^ 24 ^^^ a / 2 ^ 32 ^^^ a / 2 ^ 40) % 256

/-- The stack of a memory chiplet that holds a line (R216): even lines lie in stack 0, odd ones in stack 1. -/
def stackOf (a : Nat) : Nat := a / 256 % 2

/-- The pieces of n bytes of a buffer by line: key, first byte within the line, bytes. -/
def pieces (b off n : Nat) : List (Nat × Nat × Nat) :=
  (lineIds b off n).map fun k =>
    let lo := max off (keyOff k)
    (k, lo - keyOff k, min (off + n) (keyOff k + 256) - lo)

/-- A buffer whose bytes caches may hold: not a lent extent (04 R89), and homed on this package (01 R33). -/
def State.cached (s : State) (b : Nat) : Bool := (s.buf b).ext.isNone && (s.buf b).peer.isNone

/-! Lines -/

/-- The line holds a byte. -/
def CLine.has (l : CLine) (o : Nat) : Bool := l.sect.testBit (o / 128) || l.dirty.getLsbD o

/-- A byte of a line. -/
def CLine.byte (l : CLine) (o : Nat) : Byte := l.data.extractLsb' (8 * o) 8

/-- One byte replaced. -/
def CLine.put (l : CLine) (o : Nat) (b : Byte) : CLine :=
  { l with data := (l.data &&& ~~~((0xFF : Row) <<< (8 * o))) ||| (b.setWidth 2048 <<< (8 * o)) }

/-- A byte written: it becomes dirty (R207). -/
def CLine.write (l : CLine) (o : Nat) (b : Byte) : CLine :=
  let l1 := l.put o b
  { l1 with dirty := l.dirty ||| (1 : BitVec 256) <<< o }

/-- A 128-byte sector filled from below; dirty bytes stay (R207). -/
def CLine.fill (l : CLine) (sec : Nat) (below : Nat → Byte) : CLine :=
  if l.sect.testBit sec then l
  else
    let l1 := (List.range 128).foldl
      (fun l i => if l.dirty.getLsbD (128 * sec + i) then l else l.put (128 * sec + i) (below (128 * sec + i))) l
    { l1 with sect := l.sect ||| 2 ^ sec }

/-- The dirty bytes of a line, by their offsets within it. -/
def CLine.cells (l : CLine) : List (Nat × Byte) :=
  ((List.range 256).filter l.dirty.getLsbD).map fun o => (o, l.byte o)

/-- An empty line in its set and way. -/
def CLine.empty (set way vf : Nat) : CLine := ⟨set, way, 0, 0, 0, vf⟩

/-- The sectors that n bytes from a byte of a line touch. -/
def sectorsOf (o n : Nat) : List Nat := (List.range 2).filter fun k => overlaps o n (128 * k) 128

/-! What the shared units count (14 R321, R322) -/

/-- A line that one function's request allocated gives way to a request of another: counters 99 and 100 (R322). -/
def State.evictedBy (s : State) (old v : Nat) : State :=
  s.shared old (if (s.vf old).part = (s.vf v).part then 99 else 100) 1

/-! Reuse distances (14 R324) -/

/-- A lookup of an attempt's histogram: bucket k counts one more, saturating. -/
def Attempt.bucket (t : Attempt) (k : Nat) : Attempt :=
  { t with hist := Tab.upd 0 t.hist k fun n => min (n + 1) 0xFFFFFFFF }

/-- An L2 lookup of a line by an attempt on a chiplet: a register that holds the line gives its distance to
a bucket and is freed, the attempt's other registers count it, and a free register may be claimed
(the draw is a free choice, log 1). -/
def State.lookup (s : State) (site att line : Nat) : State :=
  let t := s.attempt att
  if !t.reuse then s
  else
    let x := s.site site
    let hits := x.tags.filter fun r => r.2.att == att && r.2.line == line
    let t1 := hits.foldl (fun t r => t.bucket (min 15 (Nat.log2 (r.2.d + 1)))) t
    let tags := (x.tags.filter fun r => !(r.2.att == att && r.2.line == line)).map
      fun r => if r.2.att == att then (r.1, { r.2 with d := r.2.d + 1 }) else r
    let c := s.choose 64
    let tags1 := if c.1 = 0 then
        match (List.range 256).find? fun k => (Tab.find tags k).isNone with
        | some k => Tab.set tags k ⟨att, line, 0⟩
        | none => tags
      else tags
    (c.2.setAttempt att t1).setSite site { x with tags := tags1 }

/-- The attempt that a cluster is given to. -/
def State.clusterAtt (s : State) (c : Nat) : Option Nat :=
  (s.atts.find? fun x => x.2.insts.any fun i => i.site == c / 32 && i.clusters.contains (c % 32)).map (·.1)

/-- A request of a cluster looks a line up in the L2 of its chiplet. -/
def State.lookupBy (s : State) (c line : Nat) : State :=
  match s.clusterAtt c with
  | some a => s.lookup (c / 32) a line
  | none => s

/-! L2 (R215) -/

/-- A line of a chiplet's L2. -/
def State.line2 (s : State) (k key : Nat) : Option CLine := Tab.find (Tab.get [] s.l2 k) key
def State.setLine2 (s : State) (k key : Nat) (l : CLine) : State :=
  { s with l2 := Tab.upd [] s.l2 k fun t => Tab.set t key l }
def State.erase2 (s : State) (k key : Nat) : State := { s with l2 := Tab.upd [] s.l2 k fun t => Tab.erase t key }

/-- Bytes of a line reach their home: written where the buffer still stands and its chunk's site is in service. -/
def State.homeCells (s : State) (key : Nat) (cells : List (Nat × Byte)) : State :=
  let b := keyBuf key
  let u := s.buf b
  if cells.isEmpty || (Tab.find s.bufs b).isNone || s.lostAt b (keyOff key) 256 then s
  else
    let full (x : Nat) : Bool := (List.range 64).all fun i => cells.any fun c => keyOff key + c.1 == 64 * x + i
    s.setBuf b
      { u.written with
        mem := Memory.putCells u.mem (cells.map fun c => (keyOff key + c.1, c.2))
        bad := u.bad.filter fun x => !full x }

/-- The dirty bytes of a line of an L2 are written back (R207, R215). -/
def State.clean2 (s : State) (k key : Nat) : State :=
  match s.line2 k key with
  | none => s
  | some l =>
    if l.dirty = 0 then s
    else
      let n := l.cells.length
      (((s.setLine2 k key { l with dirty := 0 }).homeCells key l.cells).shared l.vf 98 1).wroteFar l.vf n

/-- A line leaves an L2 after its write-back. -/
def State.evict2 (s : State) (k key : Nat) : State := (s.clean2 k key).erase2 k key

/-- The ways in which a function's request may allocate (02 R54): which of an old and a new mask holds within 2,000
cycles of the write is open (log 1). -/
def State.waysOf (s : State) (v : Nat) : List Nat × State :=
  let f := s.vf v
  if s.time < f.waysAt + 2000 then
    let c := s.choose 2
    ((List.range 16).filter (if c.1 = 0 then f.waysOld else f.ways).testBit, c.2)
  else ((List.range 16).filter f.ways.testBit, s)

/-- The lines of one set of a cache. -/
def setLines (t : Tab CLine) (set : Nat) : List (Nat × CLine) := t.filter fun x => x.2.set == set

/-- A line of a chiplet's L2 for a function's request: the one it hits, or a new one in a free way of its mask or in
place of a victim of its mask (R54, R215; which victim is open, log 6); none with a mask of zero. -/
def State.alloc2 (s : State) (k key v : Nat) : State :=
  if (s.line2 k key).isSome then s
  else
    let a := s.pa (keyBuf key) (keyOff key)
    let set := sliceOf a * 64 + Config.l2Set a % 64
    let m := s.waysOf v
    let here := setLines (Tab.get [] s.l2 k) set
    match m.1.find? fun w => here.all fun x => x.2.way != w with
    | some w => m.2.setLine2 k key (CLine.empty set w v)
    | none =>
      let c := m.2.choose m.1.length
      match m.1[c.1]? with
      | none => m.2
      | some w =>
        match here.find? fun x => x.2.way == w with
        | some x => ((c.2.evict2 k x.1).evictedBy x.2.vf v).setLine2 k key (CLine.empty set w v)
        | none => c.2

/-- A byte as a chiplet's L2 sees it: in its line, or at the home. -/
def State.seen2 (s : State) (k b a : Nat) : Byte :=
  match s.line2 k (b * 2 ^ 40 + a / 256) with
  | some l => if l.has (a % 256) then l.byte (a % 256) else (s.buf b).mem.byte a
  | none => (s.buf b).mem.byte a

/-- n bytes of a buffer that a chiplet's L2 does not hold and that would come from home with an uncorrectable error
(R225). -/
def State.bad2 (s : State) (k b off n : Nat) : Bool :=
  !(s.buf b).bad.isEmpty && (List.range n).any fun i =>
    (s.buf b).badAt (off + i) 1 && !(match s.line2 k (b * 2 ^ 40 + (off + i) / 256) with
      | some l => l.has ((off + i) % 256)
      | none => false)

/-- A lookup of n bytes of a line in an L2: sectors that it lacks are filled (R207, R215), counted as a hit or a miss with
their bytes; a sector that holds an uncorrectable error is not. -/
def State.fill2 (s : State) (k v : Nat) (p : Nat × Nat × Nat) : State :=
  let b := keyBuf p.1
  let hit := match s.line2 k p.1 with
    | some l => (List.range p.2.2).all fun i => l.has (p.2.1 + i)
    | none => false
  if hit then s.shared v 96 1
  else
    let s1 := (s.alloc2 k p.1 v).shared v 97 1
    match s1.line2 k p.1 with
    | none => s1.readFar v p.2.2
    | some l =>
      let new (sec : Nat) : Bool := !l.sect.testBit sec && !s1.bad2 k b (keyOff p.1 + 128 * sec) 128
      let secs := (sectorsOf p.2.1 p.2.2).filter new
      let l1 := secs.foldl (fun l sec => l.fill sec fun o => (s1.buf b).mem.byte (keyOff p.1 + o)) l
      (s1.setLine2 k p.1 l1).readFar v (128 * secs.length)

/-- Bytes written into a line of an L2, a hit or a miss: dirty there, or written through with a mask of zero (R54). -/
def State.write2 (s : State) (k v key : Nat) (cells : List (Nat × Byte)) : State :=
  let s1 := (s.alloc2 k key v).shared v (if (s.line2 k key).isSome then 96 else 97) 1
  match s1.line2 k key with
  | none => (s1.homeCells key cells).wroteFar v cells.length
  | some l => s1.setLine2 k key (cells.foldl (fun l c => l.write c.1 c.2) l)

/-! L1 (R207) -/

/-- A line of a cluster's L1; a cluster's number is site times 32 plus cluster. -/
def State.line1 (s : State) (c key : Nat) : Option CLine := Tab.find (Tab.get [] s.l1 c) key
def State.setLine1 (s : State) (c key : Nat) (l : CLine) : State :=
  { s with l1 := Tab.upd [] s.l1 c fun t => Tab.set t key l }
def State.erase1 (s : State) (c key : Nat) : State := { s with l1 := Tab.upd [] s.l1 c fun t => Tab.erase t key }

/-- The dirty bytes of a line of an L1 are written back to the L2 of its chiplet, which is looked up for it (14 R324). -/
def State.clean1 (s : State) (c key : Nat) : State :=
  match s.line1 c key with
  | none => s
  | some l => if l.dirty = 0 then s else ((s.setLine1 c key { l with dirty := 0 }).lookupBy c key).write2 (c / 32) l.vf key l.cells

/-- A line leaves an L1 after its write-back. -/
def State.evict1 (s : State) (c key : Nat) : State := (s.clean1 c key).erase1 c key

/-- A line of a cluster's L1: the one it hits, or a new one, in place of a victim where its set is full (which one is
open, log 6). -/
def State.alloc1 (s : State) (c key v : Nat) : State :=
  if (s.line1 c key).isSome then s
  else
    let set := Config.l1Set (s.pa (keyBuf key) (keyOff key)) % 128
    let here := setLines (Tab.get [] s.l1 c) set
    match (List.range 16).find? fun w => here.all fun x => x.2.way != w with
    | some w => s.setLine1 c key (CLine.empty set w v)
    | none =>
      let r := s.choose 16
      match here.find? fun x => x.2.way == r.1 with
      | some x => (r.2.evict1 c x.1).setLine1 c key (CLine.empty set r.1 v)
      | none => r.2

/-- A byte as a cluster's L1 sees it: in its line, or as the L2 of its chiplet sees it. -/
def State.seen1 (s : State) (c b a : Nat) : Byte :=
  match s.line1 c (b * 2 ^ 40 + a / 256) with
  | some l => if l.has (a % 256) then l.byte (a % 256) else s.seen2 (c / 32) b a
  | none => s.seen2 (c / 32) b a

/-- n bytes of a buffer that would reach a cluster from home with an uncorrectable error (R225). -/
def State.bad1 (s : State) (c b off n : Nat) : Bool :=
  !(s.buf b).bad.isEmpty && (List.range n).any fun i =>
    s.bad2 (c / 32) b (off + i) 1 && !(match s.line1 c (b * 2 ^ 40 + (off + i) / 256) with
      | some l => l.has ((off + i) % 256)
      | none => false)

/-- A lookup of n bytes of a line in an L1: sectors that it lacks are filled through the L2. -/
def State.fill1 (s : State) (c v : Nat) (p : Nat × Nat × Nat) : State :=
  let hit := match s.line1 c p.1 with
    | some l => (List.range p.2.2).all fun i => l.has (p.2.1 + i)
    | none => false
  if hit then s
  else
    let s1 := (s.fill2 (c / 32) v p).alloc1 c p.1 v
    match s1.line1 c p.1 with
    | none => s1
    | some l =>
      let good (sec : Nat) : Bool := !s1.bad2 (c / 32) (keyBuf p.1) (keyOff p.1 + 128 * sec) 128
      let l1 := ((sectorsOf p.2.1 p.2.2).filter good).foldl
        (fun l sec => l.fill sec fun o => s1.seen2 (c / 32) (keyBuf p.1) (keyOff p.1 + o)) l
      s1.setLine1 c p.1 l1

/-- Bytes written into a line of an L1: it allocates on writes, and they become dirty (R207). -/
def State.write1 (s : State) (c v key : Nat) (cells : List (Nat × Byte)) : State :=
  let s1 := s.alloc1 c key v
  match s1.line1 c key with
  | none => (s1.lookupBy c key).write2 (c / 32) v key cells
  | some l => s1.setLine1 c key (cells.foldl (fun l x => l.write x.1 x.2) l)

/-! Whole caches -/

/-- Every dirty byte of a cluster's L1 is written back. -/
def State.flush1 (s : State) (c : Nat) : State := (Tab.keys (Tab.get [] s.l1 c)).foldl (fun s key => s.clean1 c key) s

/-- The dirty bytes of some buffers in a chiplet's L2 are written back. -/
def State.flush2 (s : State) (k : Nat) (mine : Nat → Bool := fun _ => true) : State :=
  ((Tab.keys (Tab.get [] s.l2 k)).filter fun key => mine (keyBuf key)).foldl (fun s key => s.clean2 k key) s

/-- The lines of some buffers leave a cluster's L1, their dirty bytes written back. -/
def State.drop1 (s : State) (c : Nat) (mine : Nat → Bool) : State :=
  ((Tab.keys (Tab.get [] s.l1 c)).filter fun key => mine (keyBuf key)).foldl (fun s key => s.evict1 c key) s

/-- The lines of some buffers leave a chiplet's L2, their dirty bytes written back. -/
def State.drop2 (s : State) (k : Nat) (mine : Nat → Bool) : State :=
  ((Tab.keys (Tab.get [] s.l2 k)).filter fun key => mine (keyBuf key)).foldl (fun s key => s.evict2 k key) s

/-- Every line of a cluster's L1 is invalidated and dirty bytes are lost (R209). -/
def State.wipe1 (s : State) (c : Nat) : State := { s with l1 := Tab.erase s.l1 c }

/-- A compute chiplet's caches and translations are gone (01 R20). -/
def State.wipeSite (s : State) (k : Nat) : State :=
  { s with
    l1 := s.l1.filter fun x => x.1 / 32 != k
    l2 := Tab.erase s.l2 k
    tlb := s.tlb.filter fun x => x.1 / 32 != k
    walks := Tab.erase s.walks k }

/-- A buffer is gone from every cache, and from every TLB and walk (R220). -/
def State.forgetBuf (s : State) (b : Nat) : State :=
  let keep (t : Tab CLine) : Tab CLine := t.filter fun x => keyBuf x.1 != b
  { s with
    l1 := s.l1.map fun x => (x.1, keep x.2)
    l2 := s.l2.map fun x => (x.1, keep x.2)
    tlb := s.tlb.map fun x => (x.1, x.2.filter fun e => e.buf != b)
    walks := s.walks.map fun x => (x.1, x.2.filter fun w => w.buf != b) }

/-- A buffer's translations are invalidated in every TLB (R220). -/
def State.forgetTlb (s : State) (b : Nat) : State :=
  { s with
    tlb := s.tlb.map fun x => (x.1, x.2.filter fun e => e.buf != b)
    walks := s.walks.map fun x => (x.1, x.2.filter fun w => w.buf != b) }

/-! Acquire and release (10 R227, R231, R232) -/

/-- A release at a scope by a cluster: what its L1 holds is written back for a scope that reaches beyond it, and what
its chiplet's L2 holds for one that reaches beyond the chiplet (R231). -/
def State.releaseAt (s : State) (c scope : Nat) : State :=
  if scope < 3 then s else if scope = 3 then s.flush1 c else (s.flush1 c).flush2 (c / 32)

/-- An acquire at a scope by a cluster of a set of buffers: their lines above the scope's point of coherence are
dropped, so that later reads take their values at or below it (R232). -/
def State.acquireAt (s : State) (c scope : Nat) (mine : Nat → Bool) : State :=
  if scope < 3 then s else if scope = 3 then s.drop1 c mine else (s.drop1 c mine).drop2 (c / 32) mine

/-- Bytes of a buffer leave a cluster's L1, their dirty bytes written back, and for a scope beyond the chiplet its L2
as well: an access to them then performs at the scope's point of coherence (R208, R227). -/
def State.toPoint (s : State) (c scope b off n : Nat) : State :=
  (lineIds b off n).foldl (fun s key => let s1 := s.evict1 c key; if scope < 4 then s1 else s1.evict2 (c / 32) key) s

/-! Reads and writes of the cores (R206 to R208) -/

/-- n bytes of a buffer as a cluster's L1, or a chiplet's L2, sees them. -/
def State.bytes1 (s : State) (c b off n : Nat) : List Byte := (List.range n).map fun i => s.seen1 c b (off + i)
def State.bytes2 (s : State) (k b off n : Nat) : List Byte := (List.range n).map fun i => s.seen2 k b (off + i)

/-- A read of n bytes by a core, side-core data path included: what its cluster's L1 sees, which is filled, or the home
(R89). -/
def State.readL1 (s : State) (c v b off n : Nat) : State × List Byte :=
  if !s.cached b then (s.readFar v n, (s.buf b).mem.bytes off n)
  else
    ((pieces b off n).foldl (fun s p => s.fill1 c v p) s, s.bytes1 c b off n)

/-- A read of n bytes through a chiplet's L2: the stage engine's, or one that performs at chiplet scope. -/
def State.readL2 (s : State) (k v b off n : Nat) : State × List Byte :=
  if !s.cached b then (s.readFar v n, (s.buf b).mem.bytes off n)
  else
    ((pieces b off n).foldl (fun s p => s.fill2 k v p) s, s.bytes2 k b off n)

/-- The bytes of a piece of a write, by their offsets in the line. -/
def pieceCells (off : Nat) (bs : List Byte) (p : Nat × Nat × Nat) : List (Nat × Byte) :=
  cellsAt p.2.1 ((bs.drop (keyOff p.1 + p.2.1 - off)).take p.2.2)

/-- The first write to a buffer after its measurement discards the root (07 R162). -/
def State.touched (s : State) (b : Nat) : State :=
  if ((s.buf b).mrec.bind (·.root)).isSome then s.setBuf b (s.buf b).written else s

/-- A relaxed write by a core or its storer: into its cluster's L1 (R206, R207); at the home for a lent extent (R89), and
behind a write of its line that still waits there. -/
def State.writeL1 (s : State) (c v b off : Nat) (bs : List Byte) (att : Nat) : State :=
  if !s.cached b || s.queuedOver b off bs.length then s.deviceWrite b off bs false (some att)
  else (pieces b off bs.length).foldl (fun s p => s.write1 c v p.1 (pieceCells off bs p)) (s.touched b)

/-- A write of a cluster that performs in its chiplet's L2 (R208). -/
def State.writeL2 (s : State) (c v b off : Nat) (bs : List Byte) : State :=
  (pieces b off bs.length).foldl (fun s p => (s.lookupBy c p.1).write2 (c / 32) v p.1 (pieceCells off bs p)) (s.touched b)

/-- A write by a core with release order at a scope (10 R231): what happens before it is written back as far as the
scope reaches, and it performs at the scope's point of coherence. -/
def State.writeRel (s : State) (c v scope b off : Nat) (bs : List Byte) (att : Nat) : State :=
  if scope < 3 then s.writeL1 c v b off bs att
  else
    let s1 := (s.releaseAt c scope).toPoint c scope b off bs.length
    if scope = 3 ∧ s1.cached b ∧ !s1.queuedOver b off bs.length then s1.writeL2 c v b off bs
    else s1.deviceWrite b off bs (scope == 5) (some att)

/-- A write of a stage engine performs at the home (10 R242); its chiplet's L2 gives the lines up first. -/
def State.writeHome (s : State) (k b off : Nat) (bs : List Byte) (att : Nat) : State :=
  ((lineIds b off bs.length).foldl (fun s key => s.evict2 k key) s).deviceWrite b off bs false (some att)

/-! Translation (R218 to R221) -/

/-- The number of a TLB: a cluster's, or a stage engine's (R219). -/
def stageTlb (site : Nat) : Nat := site * 32 + 31

/-- Sets of a TLB of 16 ways: 4,096 entries of a cluster, 1,024 of a stage engine. -/
def tlbSets (unit : Nat) : Nat := if unit % 32 = 31 then 64 else 256

/-- A TLB holds a translation. -/
def State.tlbHit (s : State) (unit part b k : Nat) : Bool :=
  (Tab.get [] s.tlb unit).any fun e => e.part == part && e.buf == b && e.chunk == k

/-- A TLB takes a translation, in place of a victim where its set is full (which one is open, log 6). -/
def State.tlbPut (s : State) (unit part b k : Nat) : State :=
  if s.tlbHit unit part b k then s
  else
    let set := Config.tlbSet part b k % tlbSets unit
    let t := Tab.get [] s.tlb unit
    let here := t.filter fun e => e.set == set
    match (List.range 16).find? fun w => here.all fun e => e.way != w with
    | some w => { s with tlb := Tab.set s.tlb unit (t ++ [⟨part, b, k, set, w⟩]) }
    | none =>
      let r := s.choose 16
      { r.2 with tlb := Tab.set s.tlb unit (t.filter (fun e => !(e.set == set && e.way == r.1)) ++ [⟨part, b, k, set, r.1⟩]) }

/-- The chunks that n bytes of a buffer touch. -/
def State.chunksAt (s : State) (b off n : Nat) : List Nat :=
  let c := (s.buf b).chunkSize
  if n = 0 then [] else (List.range ((off + n - 1) / c + 1 - off / c)).map (off / c + ·)

/-- Every chunk of n bytes of a buffer is translated in a TLB; a buffer homed on a peer package is not translated here. -/
def State.translated (s : State) (unit part b off n : Nat) : Bool :=
  (s.buf b).peer.isSome || (s.chunksAt b off n).all (s.tlbHit unit part b)

/-- Outstanding walks of a compute chiplet: at most 512, of which its 64 walkers serve the first 64 (R219). -/
def maxWalks : Nat := 512
def walkers : Nat := 64

/-- The walks of a chiplet that have not ended, with their places: the first 512 are outstanding, the others wait for a
free place (R219). -/
def openWalks (ws : List Walk) : List (Walk × Nat) := ws.zipIdx.filter fun w => !w.1.found

/-- A walk is for a chunk of a partition's buffer. -/
def Walk.is (w : Walk) (part b k : Nat) : Bool := w.part == part && w.buf == b && w.chunk == k

/-- A walk for a TLB has found that a chunk is unmapped (R221). -/
def State.walkFound (s : State) (unit part b k : Nat) : Bool :=
  (Tab.get [] s.walks (unit / 32)).any fun w => w.found && w.is part b k && w.units.contains unit

/-- A miss of a TLB (R219): it joins a walk of its chiplet that has not ended, or starts one, as soon as there is a place
for it; a walk whose finding it has is not started again. -/
def State.walkFor (s : State) (unit part b k v : Nat) : State :=
  if s.tlbHit unit part b k || s.walkFound unit part b k then s
  else
    let site := unit / 32
    let ws := Tab.get [] s.walks site
    match (openWalks ws).find? fun w => w.1.is part b k with
    | some (w, i) =>
      if w.units.contains unit then s
      else ({ s with walks := Tab.set s.walks site (ws.set i { w with units := w.units ++ [unit] }) } : State).shared v 107 1
    | none =>
      let s1 := ({ s with walks := Tab.set s.walks site (ws ++ [⟨part, b, k, [unit], v, false⟩]) } : State).shared v 107 1
      if (openWalks ws).length < maxWalks then s1.shared v 108 1 else s1

/-- The walks that an access of n bytes needs are under way. -/
def State.walkAll (s : State) (unit part b off n v : Nat) : State :=
  if s.translated unit part b off n then s
  else (s.chunksAt b off n).foldl (fun s k => s.walkFor unit part b k v) s

/-- A place becomes free: the first walk that waits for one starts. -/
def State.walkStarts (s : State) (site : Nat) : State :=
  match (openWalks (Tab.get [] s.walks site))[maxWalks - 1]? with
  | some (w, _) => s.shared w.vf 108 1
  | none => s

/-- A walk of a chiplet ends: every TLB that waits for it takes the translation, or the finding that the chunk is unmapped
(R218, R221). -/
def State.walkDone (s : State) (site i : Nat) : State :=
  let ws := Tab.get [] s.walks site
  match ws[i]? with
  | none => s
  | some w =>
    if (Tab.find (s.buf w.buf).chunks w.chunk).isSome then
      let s1 : State := { s with walks := Tab.set s.walks site (ws.eraseIdx i) }
      (w.units.foldl (fun s u => s.tlbPut u w.part w.buf w.chunk) s1).walkStarts site
    else State.walkStarts { s with walks := Tab.set s.walks site (ws.set i { w with found := true }) } site

/-- One of the walks that the walkers of a chiplet serve may end in this cycle (log 1). -/
def State.walkTurn (s : State) (site : Nat) : State :=
  let ws := (openWalks (Tab.get [] s.walks site)).take walkers
  if ws.isEmpty then s
  else
    let c := s.choose (ws.length + 1)
    match ws[c.1]? with
    | some (_, i) => c.2.walkDone site i
    | none => c.2

/-! Replacement at any time -/

/-- A cache may give up any line at any time, its dirty bytes written back: one line of a cluster's L1 or of a
chiplet's L2 may go in this cycle (R207, 10 R229; log 6). -/
def State.replace (s : State) : State :=
  let ls := s.l1.flatMap fun x => (Tab.keys x.2).map fun k => (true, x.1, k)
  let ms := s.l2.flatMap fun x => (Tab.keys x.2).map fun k => (false, x.1, k)
  let all := ls ++ ms
  if all.isEmpty then s
  else
    let c := s.choose (64 * all.length)
    match all[c.1]? with
    | none => c.2
    | some (true, x, k) => c.2.evict1 x k
    | some (false, x, k) => c.2.evict2 x k

end Sys2Proof.Machine
end

