-- ==== Sys2Proof/Machine/Trap.lean ====
section
/-! DEFINITION. Trap records, the failure of an attempt by a trap, and the Tahr that takes and resolves traps
and queue-head faults (13 R293 to R306, 14 R329 to R331). -/

namespace Sys2Proof.Machine

open Host (Outcome)

/-- The stage predicates of a loop (R383). -/
def LoopRec.mask (l : LoopRec) : Nat :=
  if l.cond then 1
  else
    let n := l.trips + 1 - l.stages
    (List.range l.stages).foldl
      (fun m k => if k ≤ l.iter ∧ l.iter + 1 ≤ k + n then m + 2 ^ k else m) 0

/-- TCAUSE (R293). -/
def TrapRec.tcause (r : TrapRec) : Nat := r.cause * 256 + r.sub

/-- The 128 bytes of a trap record (R301). -/
def TrapRec.bytes (r : TrapRec) : List Byte :=
  let b (x : Bool) (k : Nat) : Nat := if x then 2 ^ k else 0
  let l := r.loops.head?
  let pc := if r.qhead && r.cause ≠ 0x02 then 0 else r.pc
  let j := (r.replay.map (·.j)).getD []
  leBytes 4 r.tcause ++ leBytes 1 r.engine
    ++ leBytes 1 (b r.prec 0 + b r.cmdb 1 + b r.replay.isSome 2 + b l.isSome 3 + b r.qhead 4)
    ++ leBytes 1 r.site ++ leBytes 1 r.core ++ leBytes 4 pc ++ leBytes 4 r.cmdidx
    ++ (r.word ++ List.replicate (24 - r.word.length) 0) ++ leBytes 4 r.status.toNat ++ leBytes 4 0
    ++ leBytes 8 r.addr ++ leBytes 1 ((l.map (·.id)).getD 0) ++ leBytes 1 ((l.map (·.mask)).getD 0)
    ++ leBytes 1 r.loops.length ++ leBytes 1 0 ++ leBytes 4 ((l.map (·.iter)).getD 0)
    ++ (List.range 6).flatMap (fun k => leBytes 2 (j.getD k 0))
    ++ leBytes 1 ((r.replay.map (·.tab % 2)).getD 0) ++ leBytes 3 0 ++ leBytes 8 r.gclk ++ leBytes 8 r.cclk
    ++ leBytes 8 r.time ++ leBytes 24 0

/-- A graph that names nothing. -/
def Graph.empty : Graph :=
  { part := 0, vf := 0, q := 0, pkt := 0, gid := 0, retry := 0, used := 0, meas := none, result := 0,
    single := false, err := none, errOn := false, rsn := 0, fail := none, recs := [] }

def State.graph (s : State) (g : Nat) : Graph := Tab.get Graph.empty s.graphs g
def State.setGraph (s : State) (g : Nat) (x : Graph) : State := { s with graphs := Tab.set s.graphs g x }

/-- The graph of an attempt. -/
def State.graphOf (s : State) (t : Attempt) : Graph := s.graph (s.node t.node).graph

/-- A trap event of an attempt, the record in its four further slots (14 R319). -/
def State.trapEvent (s : State) (t : Attempt) (r : TrapRec) (debug : Bool) : State :=
  s.frontEvent t.part 0x0F (s.graphOf t).gid (if debug then 1 else 0) t.key r.bytes

/-- The attempt in focus fails with a cause of R119 once the step's work is done (R116, R225). -/
def State.failAtt (s : State) (cause tcause eng : Nat) : State :=
  s.raise s.cur (.attemptFailure s.job.att cause tcause eng)

/-- Saiga keeps the full record of a failed attempt with the attempt's node (R305). -/
def State.keepRec (s : State) (t : Attempt) (r : TrapRec) : State :=
  let g := (s.node t.node).graph
  let x := s.graph g
  s.setGraph g { x with recs := x.recs ++ [(t.node, r)] }

/-- The attempt of the core in focus fails by a trap: the event is written, the record kept, and the failure follows
(R305). -/
def State.failTrap (s : State) (r : TrapRec) : State :=
  ((s.trapEvent s.att r false).keepRec s.att r).failAtt 1 r.tcause r.engine

/-- A fault at a queue head that nothing resolves fails the attempt at that moment (R304). -/
def State.headFail (s : State) (r : TrapRec) : State := s.failTrap r

/-- A breakpoint or watchpoint (R294). -/
def TrapRec.debug (r : TrapRec) : Bool := r.cause == 0x16 || r.cause == 0x17

/-- The Tahr resolves a trap and lets the core run on (R294). -/
def State.resolvable (s : State) (t : Attempt) (r : TrapRec) : Bool :=
  (r.cause == 0x06 && r.sub == 1) || (r.debug && s.attached t.part)

/-- The order of a cluster's Tahr; the focus names site and cluster. -/
def State.tahrQ (s : State) : List TahrItem := Tab.get [] s.tahr (s.cur.site * 32 + s.cur.core)

def State.setTahrQ (s : State) (q : List TahrItem) : State :=
  { s with tahr := Tab.set s.tahr (s.cur.site * 32 + s.cur.core) q }

/-- The place of a core by its number. -/
def coreAt (id : Nat) : Actor := ⟨id / 128, id % 128, 0⟩

/-- A core enters a debug halt (R303, 14 R331): the stop is counted and written as an event; the engine
re-executes past its event once. -/
def State.debugStop (s : State) (r : TrapRec) (skip : Bool) : State :=
  let c := s.core
  let s1 := s.setCore
    { c with
      frozen := true
      halted := true
      step := false
      skipDbg := if skip then c.skipDbg.filter (· % 16 ≠ r.engine) ++ [c.skipKey r.engine] else c.skipDbg }
  let p := s1.partn s1.att.part
  (s1.setPart s1.att.part { p with nstop := p.nstop + 1 }).trapEvent s1.att r true

/-- A record of a core is dealt with: the core unfreezes with its last one, unless it is in a debug halt
(R300). -/
def State.settleTrap (s : State) (r : TrapRec) : State :=
  if r.qhead then s
  else
    let c := s.core
    let ts := c.traps.erase r
    s.setCore { c with traps := ts, frozen := !ts.isEmpty || c.halted }

/-- The trap of an attempt that a Tahr is at work on. -/
def State.handled (s : State) (att : Nat) : Option TahrItem :=
  (s.tahr.flatMap (·.2)).find? fun i => i.taken && ({ s with cur := coreAt i.core } : State).core.job.any (·.att == att)

/-- The handler of a Tahr fails at a trap (cause 0x1A, engine 10 of R293): the attempt fails by a handler fault, whose
record names the stop the handler was at work on. DEDUCED (log 66): R293 gives cause and engine, no rule gives the
other fields. -/
def State.handlerFault (s : State) (i : TahrItem) : State :=
  let s1 := { s with tahr := s.tahr.map fun (q : Nat × List TahrItem) => (q.1, q.2.filter (·.core ≠ i.core)) }
  s1.at_ (coreAt i.core) fun s => s.failTrap { i.rec_ with cause := 0x1A, sub := 0, engine := 10, status := 0, addr := 0 }

/-- The Tahr takes the next trap or queue-head fault in order (R299, R305), once every one of its cycle is known: of a core's traps of one cycle the
first unhandled one fails the attempt; a debug event halts the core; a translation fault begins to be
resolved. -/
def execTahrTakeTrap (s : State) : Outcome State Fault Refusal :=
  match s.tahrQ with
  | [] => .next s
  | i :: rest =>
    if i.taken || decide (s.time ≤ i.rec_.time) then .next s
    else
      let a := coreAt i.core
      let f := { s with cur := a }
      if f.core.job.isNone then .next (s.setTahrQ rest)
      else
        let all := if i.rec_.qhead then [i.rec_] else f.core.traps
        match all.find? fun r => !f.resolvable f.att r with
        | some r => .next ((s.setTahrQ (rest.filter fun x => x.core ≠ i.core)).at_ a fun s => s.failTrap r)
        | none =>
          if i.rec_.debug then
            .next ((s.setTahrQ rest).at_ a fun s => (s.debugStop i.rec_ true).settleTrap i.rec_)
          else .next (s.setTahrQ ({ i with taken := true } :: rest))

/-- The Tahr has the chunk mapped (R217, R221, R300): the core unfreezes and its instruction re-executes, or
the queue head is tried again; where no site has room the attempt fails with SUB 2. -/
def execTrapResolved (s : State) : Outcome State Fault Refusal :=
  match s.tahrQ with
  | [] => .next s
  | i :: rest =>
    if !i.taken then .next s
    else
      let a := coreAt i.core
      let s1 := s.setTahrQ rest
      match i.rec_.chunk with
      | none => .next (s1.at_ a fun s => s.settleTrap i.rec_)
      | some (b, k) =>
        match s1.mapChunk b k with
        | some s2 => .next (s2.at_ a fun s => s.settleTrap i.rec_)
        | none => .next (s1.at_ a fun s => s.failTrap { i.rec_ with sub := 2 })

end Sys2Proof.Machine
end

