-- ==== Sys2Proof/Machine/ControlMem.lean ====
section
/-! DEFINITION. The control stream's loads, stores, atomics, acquire, release and fence (16 R373 to R379,
09 R202 to R208, 10 R227 to R239): their checks and how they issue.  A load or atomic performs when its data
arrives (08 R186). -/

namespace Sys2Proof.Machine

open Host (Outcome)

/-- The control stream waits for data (R186, R373): its translation is looked for and its recalls are sent, and the
access performs when it arrives. -/
def State.await (s : State) (r : LoadRec) : State :=
  let s1 := s.nextCtl 8
  let c := s1.core
  let s2 := s1.setCore { c with load := some r }
  match r.at_ with
  | .buf b off => (s2.homeRecall b off r.n (r.op != .read)).walkAll s2.cur.cluster s2.att.part b off r.n (s2.vfOf s2.att)
  | .args _ => s2

/-- The walk of an access of the control stream that meets an unmapped chunk, under way: none once it has found that, which
is the fault (09 R219, R221), and for any other trap. -/
def State.unmappedAt (s : State) (cause sub : Nat) (chunk : Option (Nat × Nat)) : Option State :=
  match chunk with
  | some (b, k) =>
    if cause = 6 ∧ sub = 1 ∧ s.walkFound s.cur.cluster s.att.part b k = false then
      some (s.walkFor s.cur.cluster s.att.part b k (s.vfOf s.att))
    else none
  | none => none

/-- The watchpoint that a control-stream access hits, once every check has passed (14 R333); none when the
stream re-executes past a debug stop (14 R329). -/
def State.watchTrap (s : State) (b off n : Nat) (wr : Bool) : Option Nat :=
  if s.skipsDebug then none else (s.watchAt s.att b off n wr).map (·.1)

/-- A load or atomic of n bytes whose access passed its checks (R373, R376 to R379): a watchpoint's stop, the
failure of an access to a MEM site out of service (01 R20), or the wait for its data; one to an unmapped chunk waits for
its walk, and then takes its translation fault (09 R219, R221). -/
def State.loadAt (s : State) (m : MemArg) (x : Access) (n : Nat) (wide sx : Bool) (op : AmoOp) (arg expect order : Nat)
    (mask : Option Word) : State :=
  let r (p : LoadAt) : LoadRec := ⟨m.d.toNat, wide, p, n, sx, op, arg, expect, m.scope.toNat, order, mask, false, 0, false⟩
  match x with
  | .trap c sub ch => (s.unmappedAt c sub ch).elim (s.trap c sub (s.eaWrapped m) 0 ch) fun t => t.stalled 1 0x3F
  | .args off => s.await (r (.args off))
  | .buf b off =>
    match s.watchTrap b off n (op != .read) with
    | some w => s.trap 0x17 w (s.eaWrapped m)
    | none => if s.lostAt b off n then s.failAtt 7 0 0 else s.await (r (.buf b off))

/-- A load of n bytes, sign- or zero-extended (R373). -/
def State.load (s : State) (m : MemArg) (n : Nat) (wide sx : Bool) : State :=
  s.loadAt m (s.memAccess m n n true false true) n wide sx .read 0 0 m.order.toNat none

/-- A write of the control stream, relaxed or with release order at a scope (10 R230, R231); behind a `fence` of the core
that still waits at the homes it is queued there (R379). -/
def State.coreWrite (s : State) (rel : Bool) (scope b off : Nat) (bs : List Byte) : State :=
  let c := s.cur.cluster
  let v := s.vfOf s.att
  let s1 :=
    if s.fencedCore s.cur.id then
      ((if rel then s.releaseAt c scope else s).toPoint c 4 b off bs.length).deviceWrite b off bs true (some s.job.att)
    else if rel then s.writeRel c v scope b off bs s.job.att
    else s.writeL1 c v b off bs s.job.att
  s1.jobLog s.att b off bs.length

/-- A store of n bytes of a value, relaxed or with release order (R374, R379): it never waits (08 R186). -/
def State.storeOrd (s : State) (m : MemArg) (n : Nat) (v : Nat) (rel : Bool) : State :=
  match s.memAccess m n n false true true with
  | .trap c sub ch => s.trap c sub (s.eaWrapped m) 0 ch
  | .args _ => s.nextCtl 8
  | .buf b off =>
    let u := s.cur.cluster
    let p := s.att.part
    let f := s.vfOf s.att
    match s.watchTrap b off n true with
    | some w => s.trap 0x17 w (s.eaWrapped m)
    | none =>
      if s.lostAt b off n then s.failAtt 7 0 0
      else ((s.walkAll u p b off n f).coreWrite rel m.scope.toNat b off (leBytes n v)).nextCtl 8

/-- A store of n bytes of a value with the order its word names (R374). -/
def State.store (s : State) (m : MemArg) (n : Nat) (v : Nat) : State := s.storeOrd m n v (m.order.toNat % 4 == 2)

/-- An atomic on n bytes (R376, R377, R378).  A system-scope atomic on a buffer homed on a peer package
performs there (R378, 01 R33). -/
def State.atomic (s : State) (m : MemArg) (n : Nat) (wide : Bool) (op : AmoOp) (arg expect : Nat) : State :=
  s.loadAt m (s.memAccess m n n true true (m.scope.toNat < 5)) n wide false op arg expect m.order.toNat none

/-- An atomic of R376. -/
def State.amo (s : State) (wide : Bool) (m : MemArg) (op : AmoOp) : State :=
  s.atomic m (if wide then 8 else 4) wide op (s.amoVal wide m) 0

/-- An n-byte value read as signed. -/
def signedN (n x : Nat) : Int := (BitVec.ofNat (8 * n) x).toInt

/-- What an atomic writes over an old value of n bytes; none writes nothing (R376, R377). -/
def AmoOp.new (op : AmoOp) (n old v expect : Nat) : Option Nat :=
  match op with
  | .read => none
  | .add => some ((old + v) % 2 ^ (8 * n))
  | .and_ => some (old &&& v)
  | .or_ => some (old ||| v)
  | .xor_ => some (old ^^^ v)
  | .min => some (if signedN n v < signedN n old then v else old)
  | .max => some (if signedN n old < signedN n v then v else old)
  | .minu => some (if v < old then v else old)
  | .maxu => some (if old < v then v else old)
  | .swap => some v
  | .cas => if old = expect then some v else none

/-- `ld.b`: one byte, sign-extended (R373). -/
def execLdB (m : MemArg) (s : State) : Outcome State Fault Refusal :=
  .next (s.load m 1 false true)

/-- `ld.bu`: one byte, zero-extended (R373). -/
def execLdBu (m : MemArg) (s : State) : Outcome State Fault Refusal :=
  .next (s.load m 1 false false)

/-- `ld.h`: two bytes, sign-extended (R373). -/
def execLdH (m : MemArg) (s : State) : Outcome State Fault Refusal :=
  .next (s.load m 2 false true)

/-- `ld.hu`: two bytes, zero-extended (R373). -/
def execLdHu (m : MemArg) (s : State) : Outcome State Fault Refusal :=
  .next (s.load m 2 false false)

/-- `ld.w`: four bytes (R373). -/
def execLdW (m : MemArg) (s : State) : Outcome State Fault Refusal :=
  .next (s.load m 4 false false)

/-- `ld.d`: eight bytes into the pair d (R373). -/
def execLdD (m : MemArg) (s : State) : Outcome State Fault Refusal :=
  .next (s.load m 8 true false)

/-- `st.b`: the low byte of s[d] (R374). -/
def execStB (m : MemArg) (s : State) : Outcome State Fault Refusal :=
  .next (s.store m 1 (s.sreg m.d).toNat)

/-- `st.h`: the low two bytes of s[d] (R374). -/
def execStH (m : MemArg) (s : State) : Outcome State Fault Refusal :=
  .next (s.store m 2 (s.sreg m.d).toNat)

/-- `st.w`: s[d] (R374). -/
def execStW (m : MemArg) (s : State) : Outcome State Fault Refusal :=
  .next (s.store m 4 (s.sreg m.d).toNat)

/-- `st.d`: S(d) (R374). -/
def execStD (m : MemArg) (s : State) : Outcome State Fault Refusal :=
  .next (s.store m 8 (s.pair m.d).toNat)

/-- `amoadd` (R376): wraps to the word. -/
def execAmoadd (wide : Bool) (m : MemArg) (s : State) : Outcome State Fault Refusal :=
  .next (s.amo wide m .add)

/-- `amoand` (R376). -/
def execAmoand (wide : Bool) (m : MemArg) (s : State) : Outcome State Fault Refusal :=
  .next (s.amo wide m .and_)

/-- `amoor` (R376). -/
def execAmoor (wide : Bool) (m : MemArg) (s : State) : Outcome State Fault Refusal :=
  .next (s.amo wide m .or_)

/-- `amoxor` (R376). -/
def execAmoxor (wide : Bool) (m : MemArg) (s : State) : Outcome State Fault Refusal :=
  .next (s.amo wide m .xor_)

/-- `amomin`: the smaller, signed (R376). -/
def execAmomin (wide : Bool) (m : MemArg) (s : State) : Outcome State Fault Refusal :=
  .next (s.amo wide m .min)

/-- `amomax`: the larger, signed (R376). -/
def execAmomax (wide : Bool) (m : MemArg) (s : State) : Outcome State Fault Refusal :=
  .next (s.amo wide m .max)

/-- `amominu`: the smaller, unsigned (R376). -/
def execAmominu (wide : Bool) (m : MemArg) (s : State) : Outcome State Fault Refusal :=
  .next (s.amo wide m .minu)

/-- `amomaxu`: the larger, unsigned (R376). -/
def execAmomaxu (wide : Bool) (m : MemArg) (s : State) : Outcome State Fault Refusal :=
  .next (s.amo wide m .maxu)

/-- `amoswp`: the operand replaces the word (R376). -/
def execAmoswp (wide : Bool) (m : MemArg) (s : State) : Outcome State Fault Refusal :=
  .next (s.amo wide m .swap)

/-- `cas`: four bytes, expected s[d], new s[aux] (R377). -/
def execCas (m : MemArg) (s : State) : Outcome State Fault Refusal :=
  .next (s.atomic m 4 false .cas (s.sreg m.aux).toNat (s.sreg m.d).toNat)

/-- `casp`: eight bytes, expected S(d), new S(aux) (R377). -/
def execCasp (m : MemArg) (s : State) : Outcome State Fault Refusal :=
  .next (s.atomic m 8 true .cas (s.pair m.aux).toNat (s.pair m.d).toNat)

/-- `acq`: an 8-byte read with acquire order; its mask register widens the acquire set (R237, R379). -/
def execAcq (m : MemArg) (s : State) : Outcome State Fault Refusal :=
  .next (s.loadAt m (s.memAccess m 8 8 true false true) 8 true false .read 0 0 1 (some (s.sreg m.aux)))

/-- `rel`: an 8-byte write with release order (R237, R379). -/
def execRel (m : MemArg) (s : State) : Outcome State Fault Refusal :=
  .next (s.storeOrd m 8 (s.pair m.d).toNat true)

/-- The buffers of an acquire set: the word's own, and those of the bindings that a mask names (10 R232, R237). -/
def Attempt.acquires (t : Attempt) (own : Option Nat) (mask : Word) (b : Nat) : Bool :=
  own == some b || t.binds.zipIdx.any fun x => x.1.buf == b && (mask.getLsbD 31 || (decide (x.2 ≤ 30) && mask.getLsbD x.2))

/-- `fence`: a release and then an acquire of every binding, at its scope; at system scope later accesses of the stream
wait for the device writes that still wait at the homes (R237, R379). -/
def execFence (m : MemArg) (s : State) : Outcome State Fault Refusal :=
  let c := s.cur.cluster
  let k := m.scope.toNat
  let s1 := (s.releaseAt c k).acquireAt c k (s.att.acquires none 0x80000000)
  let s2 : State := if k = 5 ∧ s1.homeLate then { s1 with homeq := s1.homeq ++ [.devFence s.cur.id] } else s1
  .next (s2.nextCtl 8)

end Sys2Proof.Machine
end

