-- ==== Sys2Proof/Machine/Flags.lean ====
section
/-! DEFINITION. The flag computations: the sticky bits of VSTAT and ACCFLAGS, and how they are set and cleared
(11 R260, R261). -/

namespace Sys2Proof.Machine

/-- VSTAT bits of a narrowing: SAT and NAN (R260). -/
def Narrowed.flags (n : Narrowed) : Nat := (if n.sat then 2 else 0) + (if n.nan then 4 else 0)

/-- A sticky register after bits are written as one: those bits clear, but for the ones set in this very cycle
(R260, R261). -/
def stickyClear (old fresh v : Word) : Word := old &&& ~~~(v &&& ~~~fresh)

/-- Set sticky bits of VSTAT (R260). -/
def Core.setVstat (c : Core) (b : Word) : Core := { c with vstat := c.vstat ||| b, vsFresh := c.vsFresh ||| b }

/-- Set an accumulator's bit of ACCFLAGS (R261). -/
def Core.setAccFlag (c : Core) (acc : Nat) : Core :=
  { c with accflags := c.accflags ||| bit32 acc, accFresh := c.accFresh ||| bit32 acc }

end Sys2Proof.Machine
end

