-- ==== Sys2Proof/Machine/ControlSys.lean ====
section
/-! DEFINITION. The control stream's nest tables, stage commands, system registers, time and traps
(16 R388, R392 to R397, 08 R192, R193, 11 R260, R261). -/

namespace Sys2Proof.Machine

open Host (Outcome)

/-- The core in focus has a matrix stream in use: its chiplet is DNS or SPR and its attempt runs no VEC
code object (R388). -/
def State.hasMatrix (s : State) : Bool := s.att.cls ≤ 2 && s.att.codeCls ≤ 2

/-- `nestw` (R193, R388): the shadow word is written at the end of the issue cycle. -/
def execNestw (idx : BitVec 5) (tbl : BitVec 2) (a : BitVec 6) (s : State) : Outcome State Fault Refusal :=
  if 25 ≤ idx.toNat then .next (s.trap 0x02 3)
  else if 2 ≤ tbl.toNat ∧ ¬ s.hasMatrix then .next (s.trap 0x02 0x13)
  else
    let c := s.core
    .next ((s.setCore { c with nest := Tab.set c.nest (tbl.toNat * 96 + idx.toNat) (s.sreg a) }).nextCtl 4)

/-- Reserved bits of a nest word (R193). -/
def nestWordOk (tab idx : Nat) (w : Word) : Bool :=
  if idx = 0 then decide (w.toNat < 8 ∧ w.toNat ≠ 0 ∧ w.toNat ≠ 7)
  else if idx % 4 = 1 then decide (w.toNat < 2 ^ 16)
  else if tab < 2 then decide (w.toNat < 2 ^ 12)
  else decide (w.toNat < 2 ^ 20)

/-- Every word of a table's shadow is legal (R193). -/
def Core.nestOk (c : Core) (tab : Nat) : Bool :=
  (List.range 25).all fun i => nestWordOk tab i (c.nestWord tab 0 i)

/-- Copy the 25 words of one copy of a table to another. -/
def Core.nestCopy (c : Core) (tab src dst : Nat) : Core :=
  let put (n : Tab Word) (i : Nat) : Tab Word := Tab.set n ((tab * 3 + dst) * 32 + i) (c.nestWord tab src i)
  { c with nest := (List.range 25).foldl put c.nest }

/-- `nestgo` (R192, R193, R388): the nest-configuration trap, or a wait while the go bit is set or about
to be, or the shadow is staged and the go bit is set 2 cycles later. -/
def execNestgo (tbl : BitVec 2) (s : State) : Outcome State Fault Refusal :=
  let tab := tbl.toNat
  let c := s.core
  if 2 ≤ tab ∧ ¬ s.hasMatrix then .next (s.trap 0x02 0x13)
  else if !c.nestOk tab then .next (s.trap 0x0F tab)
  else if c.go.getLsbD tab || c.goPend.getLsbD tab then .next (s.stalled 1 (0x39 + tab))
  else
    let c1 := c.nestCopy tab 0 1
    let s1 := s.setCore { c1 with goPend := c1.goPend ||| BitVec.ofNat 4 (2 ^ tab) }
    .next ((s1.later 2 (.go tab)).nextCtl 4)

/-- R487: the subcode with which a stage command is refused at the push. -/
def stageBad (w : BitVec 128) : Option Nat :=
  let op := fld w.toNat 88 4
  let len := fld w.toNat 96 26
  if 5 ≤ op then some 1
  else if fld w.toNat 92 4 ≠ 0 ∨ (op ≠ 2 ∧ fld w.toNat 122 6 ≠ 0) ∨ (op = 4 ∧ fld w.toNat 64 20 ≠ 0) then some 2
  else if fld w.toNat 0 7 ≠ 0 ∨ ((op = 2 ∨ op = 4) ∧ len % 512 ≠ 0) ∨ (op = 4 ∧ 16384 < len) then some 3
  else none

/-- R494: the subcode with which a decode command is refused at the push. -/
def decodeBad (w : BitVec 128) : Option Nat :=
  if fld w.toNat 88 8 ≠ 0 ∨ fld w.toNat 96 32 ≠ 0 then some 2
  else if fld w.toNat 0 10 ≠ 0 then some 3
  else none

/-- The window address of a decode command's parameter block (R494). -/
def decodeBlockAddr (w : BitVec 128) : Nat := 64 * fld w.toNat 64 20

/-- The parameter block is malformed (R494). -/
def blockBad (b : List Byte) : Bool :=
  let n := leNat b
  let cnt := fld n 128 32
  decide (fld n 80 16 ≠ 0) || decide (fld n 192 64 ≠ 0) || decide (cnt = 0) || decide (65536 < cnt)
    || decide (fld n 160 32 % 64 ≠ 0)

/-- The parameter block as it stands in the push cycle; empty when it lies beyond the window, which
the stage engine finds (R211, R490, R494). -/
def State.decodeBlock (s : State) (w : BitVec 128) : List Byte :=
  let a := decodeBlockAddr w
  if s.att.limit < a + 32 then [] else s.inst.sram.bytes a 32

/-- Entries that a pushed SCL command counts as outstanding (R450, R493). -/
def sclEntries (w : BitVec 128) : Nat := if fld w.toNat 88 4 = 4 then fld w.toNat 96 26 / 512 else 0

/-- Push a stage command, a release at package scope (10 R242); the caller has seen that there is room. -/
def State.pushStage (s : State) (q : StgCmd) : State :=
  let c := s.core
  let n := if q.dec then 0 else sclEntries q.w
  (s.releaseAt s.cur.cluster 4).setCore { c with stgq := c.stgq.push [q], scaleOut := c.scaleOut + n, scaleNew := c.scaleNew + n }

/-- The stage command queue has a free entry (R187, R188). -/
def State.stageRoom (s : State) : Bool := s.core.stgq.taken < 16

/-- `stg` (R392, R487). -/
def execStg (a : BitVec 6) (s : State) : Outcome State Fault Refusal :=
  let w := s.quad a
  match stageBad w with
  | some sub => .next (s.trap 0x01 sub)
  | none =>
    if !s.stageRoom then .next (s.stalled 2 0x06)
    else .next ((s.pushStage ⟨w, false, 0, []⟩).nextCtl 4)

/-- `stgdec` (R392, R494). -/
def execStgdec (a : BitVec 6) (s : State) : Outcome State Fault Refusal :=
  let w := s.quad a
  match decodeBad w with
  | some sub => .next (s.trap 0x01 sub)
  | none =>
    if !s.stageRoom then .next (s.stalled 2 0x06)
    else
      let b := s.decodeBlock w
      if !b.isEmpty && blockBad b then .next (s.trap 0x02 0x16)
      else .next ((s.pushStage ⟨w, true, 0, b⟩).nextCtl 4)

/-- LSTAT (R393). -/
def Core.lstat (c : Core) : Word :=
  match c.loops with
  | [] => 0
  | l :: _ => BitVec.ofNat 32 (c.loops.length * 65536 + l.id * 256 + l.mask)

/-- LITER (R393). -/
def Core.liter (c : Core) : Word := BitVec.ofNat 32 ((c.loops.head?.map (·.iter)).getD 0)

/-- The value of a system register; none for a number that the table does not hold (R393). -/
def State.sysReg (s : State) (n : Nat) : Option Word :=
  let c := s.core
  match n with
  | 0x100 => some (BitVec.ofNat 32 s.job.inst)
  | 0x101 => some (BitVec.ofNat 32 s.att.insts.length)
  | 0x102 => some (BitVec.ofNat 32 s.job.grank)
  | 0x103 => some (BitVec.ofNat 32 s.att.gang)
  | 0x104 => some (BitVec.ofNat 32 (s.inst.t0.getD 0))
  | 0x105 => some (BitVec.ofNat 32 ((s.inst.t0.getD 0) / 2 ^ 32))
  | 0x106 => some s.att.key
  | 0x107 => some c.lstat
  | 0x108 => some c.liter
  | 0x110 => some c.vctl
  | 0x111 => some c.vstat
  | 0x112 => some c.accflags
  | 0x114 => some c.markidx
  | _ => none

/-- `rdsys`: the value at the start of the issue cycle, with latency 2 (R354, R393). -/
def execRdsys (d : BitVec 6) (n : BitVec 12) (s : State) : Outcome State Fault Refusal :=
  match s.sysReg n.toNat with
  | none => .next (s.trap 0x02 0x14)
  | some v => .next ((s.wr 2 d v).nextCtl 4)

/-- `wrsys` (R260, R261, R393): VCTL governs the vector stream from issue + 2 on; the sticky registers
clear the bits written as one, but for those set in this very cycle. -/
def execWrsys (a : BitVec 6) (n : BitVec 12) (s : State) : Outcome State Fault Refusal :=
  let v := s.sreg a
  let c := s.core
  match n.toNat with
  | 0x110 =>
    if 8 ≤ v.toNat ∨ v.toNat % 4 = 3 then .next (s.trap 0x02 2)
    else .next (((s.setCore { c with vctl := v }).later 2 (.vctl v)).nextCtl 4)
  | 0x111 => .next ((s.setCore { c with vstat := stickyClear c.vstat c.vsFresh v }).nextCtl 4)
  | 0x112 => .next ((s.setCore { c with accflags := stickyClear c.accflags c.accFresh v }).nextCtl 4)
  | k =>
    match s.sysReg k with
    | none => .next (s.trap 0x02 0x14)
    | some _ => .next (s.trap 0x02 0x15)

/-- `rdtime`: the timebase in the issue cycle, with latency 2 (R394); the same count on every chiplet, where 01 R3 allows
a skew of up to 2 cycles (log 2). -/
def execRdtime (d : BitVec 6) (s : State) : Outcome State Fault Refusal :=
  .next ((s.wrPair 2 d (BitVec.ofNat 64 s.time)).nextCtl 4)

/-- `trap`: the software trap with the code as its subcode (R395). -/
def execTrap (code : BitVec 8) (s : State) : Outcome State Fault Refusal :=
  .next (s.trap 0x15 code.toNat)

/-- `brk`: the breakpoint trap, whose record's WORD holds the code (R395); re-executed after a debug stop it
raises nothing (14 R329). -/
def execBrk (_code : BitVec 8) (s : State) : Outcome State Fault Refusal :=
  if s.skipsDebug then .next (s.nextCtl 4) else .next (s.trap 0x16 1)

end Sys2Proof.Machine
end

