-- ==== Sys2Proof/Machine/VectorRow.lean ====
section
/-! DEFINITION. What one row of a vector instruction reads and writes (17 R398 to R415, 18 R420 to R439):
elements and their arithmetic, the results of a row, and the step that reads the next row. -/

namespace Sys2Proof.Machine

/-! Element operations (R398) -/

/-- An element operation with its integer and its floating form. -/
def eltOp (fi : Int → Int → Int → Int) (ff : Val → Val → Val → Val) (ty : Nat) (rm : Rnd) (rand a b d : Nat) :
    Nat :=
  if isFlt ty then ofEltVal ty rm rand (ff (eltVal ty a) (eltVal ty b) (eltVal ty d))
  else ofEltInt ty (fi (eltInt ty a) (eltInt ty b) (eltInt ty d))

/-- The smaller value; -0 < +0; NaN wins (R405). -/
def minVal (a b : Val) : Val :=
  if a.isNan || b.isNan then .nan
  else if a.lt b then a else if b.lt a then b else if a.isNeg then a else b

/-- The larger value. -/
def maxVal (a b : Val) : Val :=
  if a.isNan || b.isNan then .nan
  else if a.lt b then b else if b.lt a then a else if a.isNeg then b else a

/-- The amount of a shift (R408). -/
def shiftAmt (ty b : Nat) : Nat := b % eltW ty

/-- A special function on an element: the FP32 function of the widened input, rounded into the element
(R272, R410). -/
def eltSpecial (f : Word → Word) (ty : Nat) (rm : Rnd) (rand a _b _d : Nat) : Nat :=
  let y := f (roundFp32 .rne 0 (eltVal ty a))
  if ty = 2 then y.toNat else ofEltVal ty rm rand (ofFp32 y)

/-- Byte m of a word. -/
def byteOf (w m : Nat) : Nat := w / 2 ^ (8 * m) % 256

/-- A lane's packed dot product (R436). -/
def dot4 (ty : Nat) (_ : Rnd) (_rand a b d : Nat) : Nat :=
  let sb (x : Nat) : Int := (BitVec.ofNat 8 x).toInt
  let av (m : Nat) : Int := if ty = 0 then sb (byteOf a m) else (byteOf a m : Int)
  let p (m : Nat) : Int := av m * sb (byteOf b m)
  (BitVec.ofInt 32 (d + p 0 + p 1 + p 2 + p 3)).toNat

/-- The element function and latency of an instruction that works element by element (R355, R405 to
R408, R410, R429, R436); none for the others. -/
def vElt : Instr → Option (Nat × (Nat → Rnd → Nat → Nat → Nat → Nat → Nat))
  | .vadd _ => some (4, eltOp (fun a b _ => a + b) fun a b _ => a.add b)
  | .vsub _ => some (4, eltOp (fun a b _ => a - b) fun a b _ => a.add b.neg)
  | .vmul _ => some (6, eltOp (fun a b _ => a * b) fun a b _ => a.mul b)
  | .vmad _ => some (8, eltOp (fun a b d => a * b + d) fun a b d => (a.mul b).add d)
  | .vmin _ => some (4, eltOp (fun a b _ => if b < a then b else a) fun a b _ => minVal a b)
  | .vmax _ => some (4, eltOp (fun a b _ => if a < b then b else a) fun a b _ => maxVal a b)
  | .vabs _ => some (4, eltOp (fun a _ _ => if a < 0 then -a else a) fun a _ _ => a.abs)
  | .vneg _ => some (4, eltOp (fun a _ _ => -a) fun a _ _ => a.neg)
  | .vand _ => some (4, fun _ _ _ a b _ => a &&& b)
  | .vor _ => some (4, fun _ _ _ a b _ => a ||| b)
  | .vxor _ => some (4, fun _ _ _ a b _ => a ^^^ b)
  | .vshl _ => some (4, fun ty _ _ a b _ => a * 2 ^ shiftAmt ty b % 2 ^ eltW ty)
  | .vshr _ => some (4, fun ty _ _ a b _ => a / 2 ^ shiftAmt ty b)
  | .vsra _ => some (4, fun ty _ _ a b _ =>
      (BitVec.ofInt (eltW ty) ((BitVec.ofNat (eltW ty) a).toInt / 2 ^ shiftAmt ty b)).toNat)
  | .vrcp _ => some (20, eltSpecial frcp)
  | .vrsq _ => some (20, eltSpecial frsq)
  | .vexp2 _ => some (20, eltSpecial fexp2)
  | .vlog2 _ => some (20, eltSpecial flog2)
  | .vtanh _ => some (20, eltSpecial ftanh)
  | .vmovs _ => some (2, fun _ _ _ a _ _ => a)
  | .vdot4 _ => some (8, dot4)
  | .vfill v => some (4, fun _ _ _ _ _ _ => v.imm.toNat)
  | _ => none

/-! Rows -/

/-- A lane of a row. -/
def laneN (r : Row) (l : Nat) : Nat := (r.extractLsb' (32 * l) 32).toNat

/-- A row given by lanes: the mask of the lanes that have a value, and their values. -/
def rowMV (f : Nat → Option Nat) : Row × Row :=
  let r := (List.range 64).foldl
    (fun (acc : Nat × Nat) l =>
      match f l with
      | none => acc
      | some v => (acc.1 + 0xFFFFFFFF * 2 ^ (32 * l), acc.2 + v % 2 ^ 32 * 2 ^ (32 * l))) (0, 0)
  (BitVec.ofNat 2048 r.1, BitVec.ofNat 2048 r.2)

/-- A 64-bit mask of the lanes that satisfy a test. -/
def laneMask (f : Nat → Bool) : Nat := (List.range 64).foldl (fun m l => if f l then m + 2 ^ l else m) 0

/-- The physical destination row of row k. -/
def VOp.drow (op : VOp) (k : Nat) : Nat := tileRow op.vd op.sd k

/-- Element (k, l) may be written, given the row's guard bits (R183). -/
def VOp.on (op : VOp) (g : BitVec 64) (l : Nat) : Bool := decide (l < op.lanes) && g.getLsbD l

/-- A write of row k of the destination at issue + n, in the lanes that f gives (R399). -/
def VOp.write (op : VOp) (n row : Nat) (f : Nat → Option Nat) : Pend :=
  let mv := rowMV f
  ⟨op.t + n, .vreg row mv.1 mv.2⟩

/-- The ordinary write of row k with latency n: active and guarded lanes only. -/
def VOp.put (op : VOp) (n k : Nat) (g : BitVec 64) (f : Nat → Nat) : Pend :=
  op.write (n + k) (op.drow k) fun l => if op.on g l then some (f l) else none

/-- The rounding mode (R400). -/
def VOp.rnd (op : VOp) : Rnd := Rnd.ofCode op.rm

/-- rand24 of a row and a column, where the mode needs it (R400). -/
def VOp.rand (op : VOp) (s : State) (row col : Nat) : Nat :=
  if op.rm = 2 then rand24 s.att.key.toNat row col op.layer else 0

/-- What a row does: effects in flight, or a trap with its cause and address. -/
inductive VRes
  | ok (ps : List Pend)
  | trap (cause addr : Nat)
  deriving DecidableEq, Repr

/-- Sticky VSTAT bits set at issue + n. -/
def VOp.flags (op : VOp) (n bits : Nat) : List Pend :=
  if bits = 0 then [] else [⟨op.t + n, .vstat (BitVec.ofNat 32 bits)⟩]

/-- The lane words of a row of the destination, one element function over every half. -/
def VOp.lanesOf (op : VOp) (f : Nat → Nat → Nat) (l : Nat) : Nat := laneOf op.ty fun h => f l h

/-- A row of an element-wise instruction. -/
def VOp.elementRow (op : VOp) (s : State) (lat : Nat) (f : Nat → Rnd → Nat → Nat → Nat → Nat → Nat) (x : VIn)
    (k : Nat) : VRes :=
  let row := op.drow k
  .ok [op.put lat k x.g fun l =>
    let a := laneN x.a l
    let b := laneN x.b l
    let d := laneN x.d l
    laneOf op.ty fun h =>
      f op.ty op.rnd (op.rand s row (l * halves op.ty + h)) (elt op.ty a h) (elt op.ty b h) (elt op.ty d h)]

/-! Compares (R411) -/

/-- The relation COND of one element. -/
def eltRel (cond ty a b : Nat) : Bool :=
  if isFlt ty then
    let x := eltVal ty a
    let y := eltVal ty b
    let un := x.isNan || y.isNan
    match cond with
    | 0 => x.eqv y
    | 1 => un || !x.eqv y
    | 2 => x.lt y
    | 3 => !un && !y.lt x
    | 4 => y.lt x
    | 5 => !un && !x.lt y
    | _ => un
  else
    let x := eltInt ty a
    let y := eltInt ty b
    match cond with
    | 0 => x == y
    | 1 => x != y
    | 2 => decide (x < y)
    | 3 => decide (x ≤ y)
    | 4 => decide (y < x)
    | 5 => decide (y ≤ x)
    | _ => false

/-- A row of `vcmp`: the bit and its complement for the written elements. -/
def VOp.cmpRow (op : VOp) (x : VIn) (k : Nat) : VRes :=
  let pd := op.vd % 16
  let cond := op.vd / 16 % 8
  let c (l : Nat) : Bool :=
    (List.range (halves op.ty)).all fun h => eltRel cond op.ty (elt op.ty (laneN x.a l) h) (elt op.ty (laneN x.b l) h)
  let at64 (m : Nat) : PBits := BitVec.ofNat 1024 (m * 2 ^ (64 * k))
  let mask := at64 (laneMask fun l => op.on x.g l)
  .ok [⟨op.t + 4 + k, .preg pd mask (at64 (laneMask fun l => op.on x.g l && c l))⟩,
    ⟨op.t + 4 + k, .preg (pd + 1) mask (at64 (laneMask fun l => op.on x.g l && !c l))⟩]

/-! Reductions (R414) -/

/-- The included elements of a row, half h, in ascending lane. -/
def VOp.included (op : VOp) (x : VIn) (h : Nat) : List Nat :=
  ((List.range 64).filter (op.on x.g)).map fun l => elt op.ty (laneN x.a l) h

/-- The result of a reduction over one row's elements: kind 0 sum, 1 max, 2 min. -/
def reduce (kind ty : Nat) (xs : List Nat) : Nat :=
  if isFlt ty then
    let vs := xs.map (eltVal ty)
    let comb (a b : Val) : Val :=
      match kind with
      | 0 => ofFp32 (roundFp32 .rne 0 (a.add b))
      | 1 => maxVal a b
      | _ => minVal a b
    let empty : Val := match kind with | 0 => .fin ⟨false, 0, 0⟩ | 1 => .inf true | _ => .inf false
    let r := match vs with | [] => empty | v :: vs => vs.foldl comb v
    ofEltVal ty .rne 0 r
  else
    let vs := xs.map (eltInt ty)
    let comb (a b : Int) : Int :=
      match kind with
      | 0 => eltInt ty (ofEltInt ty (a + b))
      | 1 => if a < b then b else a
      | _ => if b < a then b else a
    let lo : Int := if ty = 1 then 0 else -2 ^ (eltW ty - 1)
    let hi : Int := if ty = 1 then 0xFFFFFFFF else 2 ^ (eltW ty - 1) - 1
    let empty : Int := match kind with | 0 => 0 | 1 => lo | _ => hi
    ofEltInt ty (match vs with | [] => empty | v :: vs => vs.foldl comb v)

/-- Nothing is written before the last row. -/
def VOp.atLast (op : VOp) (k : Nat) (f : Unit → List Pend) : VRes := if k + 1 < op.rows then .ok [] else .ok (f ())

/-- A row of a reduction: with the last row, lane k of the result row for every source row k. -/
def VOp.reduceRow (op : VOp) (kind : Nat) (ins : List VIn) (k : Nat) : VRes :=
  op.atLast k fun _ =>
    [op.write (12 + op.rows - 1) (op.vd % 4096) fun l =>
      match ins[l]? with
      | none => none
      | some x => some (laneOf op.ty fun h => reduce kind op.ty (op.included x h))]

/-! Queue and SRAM element widths (R421) -/

/-- Bytes of an element. -/
def VOp.eb (op : VOp) : Nat := op.ew / 8

/-- B, the bytes of a tile row. -/
def VOp.rowBytes (op : VOp) : Nat := 8 * op.ew

/-- An element on its way in. -/
def VOp.inElt (op : VOp) (code : Nat) : Nat :=
  match op.ty with
  | 0 => ((BitVec.ofNat op.ew code).signExtend 32).toNat
  | 1 => code % 2 ^ op.ew
  | _ =>
    if op.ew = 32 then code
    else if op.ew = 16 then (roundFp32 .rne 0 (bf16F.widen code)).toNat
    else (roundFp32 .rne 0 (descWiden op.fmt code)).toNat

/-- An element on its way out: its code and VSTAT bits. -/
def VOp.outElt (op : VOp) (rand w : Nat) : Nat × Nat :=
  if op.ty < 2 ∨ op.ew = 32 then (w % 2 ^ op.ew, 0)
  else
    let f := if op.ew = 16 then some (Fmt.flt bf16F) else descFmt op.fmt
    match f with
    | none => (0, 0)
    | some f =>
      let n := f.narrow op.rnd rand (ofFp32 (BitVec.ofNat 32 w))
      (n.code, n.flags)

/-- Little-endian bytes of a number. -/
def bytesOf : Nat → Nat → List Byte
  | 0, _ => []
  | n + 1, w => BitVec.ofNat 8 w :: bytesOf n (w / 256)

/-- A row of `vpop` (R423). -/
def VOp.popRow (op : VOp) (x : VIn) (k : Nat) : VRes :=
  .ok [op.put 2 k x.g fun l =>
    let o := k * op.rowBytes + l * op.eb
    let e : Row := op.ents.getD (o / 256) 0
    op.inElt (e.extractLsb' (8 * (o % 256)) op.ew).toNat]

/-- The entry that ends with row k of a `vpush`, from the rows read so far (R424). -/
def VOp.pushEntry (op : VOp) (ins : List VIn) (k : Nat) : Row :=
  let per := 256 / op.rowBytes
  let first := k / per * per
  BitVec.ofNat 2048 <| (List.range (k + 1 - first)).foldl
    (fun acc r =>
      match ins[first + r]? with
      | none => acc
      | some x => (List.range 64).foldl
          (fun acc l => if op.on x.g l then acc + (op.outElt 0 (laneN x.a l)).1 * 2 ^ (8 * (r * op.rowBytes + l * op.eb)) else acc) acc)
    0

/-- A row of `vpush`: an entry enters one cycle after the last row that gives it a byte (R424). -/
def VOp.pushRow (op : VOp) (ins : List VIn) (k : Nat) : VRes :=
  if (k + 1) % (256 / op.rowBytes) = 0 ∨ k + 1 = op.rows then
    .ok [⟨op.t + 1 + k, .push (op.vd % 4) (op.pushEntry ins k)⟩]
  else .ok []

/-- The first fault of a list of SRAM accesses of n bytes against the window (R427). -/
def State.windowFault (s : State) (as_ : List Nat) (n : Nat) : Option Nat :=
  as_.findSome? fun a => firstBeyond s.att.limit a n

/-- A row of `vlds` (R425): read at issue + k, written 12 cycles later. -/
def VOp.ldsRow (op : VOp) (s : State) (x : VIn) (k : Nat) : VRes :=
  let o := laneN op.row0 k / op.rowBytes * op.rowBytes
  let a := (op.vb + op.rowBytes * k + o) % 2 ^ 32
  match s.windowFault [a] op.rowBytes with
  | some f => .trap 0x07 f
  | none =>
    let m := s.inst.sram
    .ok [op.put 12 k x.g fun l => op.inElt (m.nat (a + l * op.eb) op.eb)]

/-- A row of `vsts` (R426): only the bytes of active and guarded elements. -/
def VOp.stsRow (op : VOp) (s : State) (x : VIn) (k : Nat) : VRes :=
  let a := (op.vb + op.rowBytes * k) % 2 ^ 32
  let ls := (List.range 64).filter (op.on x.g)
  match s.windowFault (ls.map fun l => a + l * op.eb) op.eb with
  | some f => .trap 0x07 f
  | none =>
    let outs := ls.map fun l => (l, op.outElt (op.rand s (op.drow k) l) (laneN x.d l))
    let cells := outs.flatMap fun o => cellsAt (a + o.1 * op.eb) (bytesOf op.eb o.2.1)
    let bits := outs.foldl (fun b o => b ||| o.2.2) 0
    .ok (⟨op.t + 4 + k, .sram cells .clear⟩ :: op.flags (4 + k) bits)

/-- Bytes of an element of a gather or scatter (R428). -/
def VOp.gz (op : VOp) : Nat := if op.ty < 3 then 4 else 2

/-- The address of element (k, l, h) of a gather or scatter (R428). -/
def VOp.gaddr (op : VOp) (x : VIn) (l h : Nat) : Nat :=
  (laneN x.a l + op.gz * elt op.ty (laneN x.b l) h) % 2 ^ 32 / op.gz * op.gz

/-- The active elements of a row, by lane and half. -/
def VOp.spots (op : VOp) (x : VIn) : List (Nat × Nat) :=
  ((List.range 64).filter (op.on x.g)).flatMap fun l => (List.range (halves op.ty)).map fun h => (l, h)

/-- A row of `vgath`. -/
def VOp.gathRow (op : VOp) (s : State) (x : VIn) (k : Nat) : VRes :=
  match s.windowFault ((op.spots x).map fun p => op.gaddr x p.1 p.2) op.gz with
  | some f => .trap 0x07 f
  | none =>
    let m := s.inst.sram
    .ok [op.put 14 k x.g (op.lanesOf fun l h => m.nat (op.gaddr x l h) op.gz)]

/-- A row of `vscat`: of two elements on one byte, the later in lane and half remains. -/
def VOp.scatRow (op : VOp) (s : State) (x : VIn) (k : Nat) : VRes :=
  match s.windowFault ((op.spots x).map fun p => op.gaddr x p.1 p.2) op.gz with
  | some f => .trap 0x07 f
  | none =>
    let cells := (op.spots x).flatMap fun p =>
      cellsAt (op.gaddr x p.1 p.2) (bytesOf op.gz (elt op.ty (laneN x.d p.1) p.2))
    .ok [⟨op.t + 4 + k, .sram cells .clear⟩]

/-! Lanes and rows (R429, R430) -/

/-- A row of `vperm`. -/
def VOp.permRow (op : VOp) (x : VIn) (k : Nat) : VRes :=
  .ok [op.put 10 k x.g fun l => let i := laneN x.b l; if 64 ≤ i then 0 else laneN x.a i]

/-- A row of `vxpose`: every row is written at issue + 10 + ROWS - 1. -/
def VOp.xposeRow (op : VOp) (ins : List VIn) (k : Nat) : VRes :=
  op.atLast k fun _ =>
    ins.zipIdx.map fun y => op.write (10 + op.rows - 1) (op.drow y.2) fun l =>
      if op.on y.1.g l then
        match ins[l % 16]? with
        | none => none
        | some m => some (laneN m.a (l / 16 * 16 + y.2))
      else none

/-- A row of `vbcast`: lane n of the one row of va. -/
def VOp.bcastRow (op : VOp) (x : VIn) (k : Nat) : VRes :=
  .ok [op.put 4 k x.g fun _ => laneN op.row0 (op.vb % 64)]

/-- The lane words of the list T, then those of F, of `vpart` and `vcompact` (R430). -/
def VOp.arms (op : VOp) (ins : List VIn) (want : Bool) : List Nat :=
  ins.flatMap fun x => ((List.range op.lanes).filter fun l => x.g.getLsbD l == want).map fun l => laneN x.a l

/-- A row of `vpart` (both lists) or `vcompact` (the first). -/
def VOp.partRow (op : VOp) (ins : List VIn) (k : Nat) (both : Bool) : VRes :=
  op.atLast k fun _ =>
    let words := op.arms ins true ++ (if both then op.arms ins false else [])
    (List.range op.rows).map fun r => op.write (10 + op.rows - 1) (op.drow r) fun l =>
      if l < op.lanes then words[r * op.lanes + l]? else none

/-! Conversion and quantisation (R431 to R433) -/

/-- The destination format of a type of `vcvt`. -/
def cvtTarget (ty : Nat) : Fmt :=
  match ty with
  | 0 => .int 32 (-2147483648) 2147483647
  | 1 => .int 32 0 4294967295
  | 5 => .int 16 (-32768) 32767
  | t => .flt (fltOf t)

/-- A row of `vcvt`. -/
def VOp.cvtRow (op : VOp) (s : State) (x : VIn) (k : Nat) : VRes :=
  let row := op.drow k
  let one (l h : Nat) : Narrowed :=
    (cvtTarget op.ty).narrow op.rnd (op.rand s row (l * halves op.ty + h)) (descWiden op.fmt (elt op.ty (laneN x.a l) h))
  let bits := (op.spots x).foldl (fun b p => b ||| (one p.1 p.2).flags) 0
  .ok (op.put 6 k x.g (op.lanesOf fun l h => (one l h).code) :: op.flags (6 + k) bits)

/-- Q2L of one block of FP32 words, none of which takes part where it is none (R432): the scale word,
the code of every element, and the VSTAT bits. -/
def quantBlock (w : Word) (xs : List (Option Nat)) : Nat × List Nat × Nat :=
  let part := xs.filterMap id
  if part.isEmpty then (0, xs.map fun _ => 0, 0)
  else
    let q := q2l w (part.map fun x => fp32F.widen x)
    let codes := (xs.foldl (fun (acc : List Nat × List Nat) x =>
      match x with
      | none => (acc.1 ++ [0], acc.2)
      | some _ => (acc.1 ++ [acc.2.headD 0], acc.2.tail)) ([], q.codes)).1
    (q2lScaleWord q, codes, (if q.sat then 2 else 0) + (if q.nan then 4 else 0))

/-- Which elements of a block saturate in Q2L (R261, R432). -/
def quantSats (w : Word) (xs : List (Option Nat)) : List Bool :=
  let part := xs.filterMap id
  (xs.foldl (fun (acc : List Bool × List Bool) x =>
    match x with
    | none => (acc.1 ++ [false], acc.2)
    | some _ => (acc.1 ++ [acc.2.headD false], acc.2.tail)) ([], (q2l w (part.map fun x => fp32F.widen x)).sats)).1

/-- A row of `vqnt`: with the last row, both copies; a row's flags are set as it completes (R261, R432). -/
def VOp.qntRow (op : VOp) (ins : List VIn) (k : Nat) : VRes :=
  op.atLast k fun _ =>
    let val (x : VIn) (l : Nat) : Option Nat := if op.on x.g l then some (laneN x.a l) else none
    let rowQ := ins.map fun x => quantBlock op.fmt ((List.range op.lanes).map (val x))
    let colQ := (List.range op.lanes).map fun l => quantBlock op.fmt (ins.map fun x => val x l)
    let code (q : List (Nat × List Nat × Nat)) (i j : Nat) : Nat := ((q.getD i (0, [], 0)).2.1).getD j 0
    let colS := (List.range op.lanes).map fun l => quantSats op.fmt (ins.map fun x => val x l)
    let colSat (i : Nat) : Bool := colS.any fun ss => ss.getD i false
    let last := 16 + op.rows - 1
    (ins.zipIdx.flatMap fun y =>
      op.put 16 y.2 y.1.g (fun l => code rowQ y.2 l + code colQ l y.2 * 256) ::
        op.flags (16 + y.2) ((rowQ.getD y.2 (0, [], 0)).2.2 ||| if colSat y.2 then 2 else 0)) ++
    [op.write last (tileRow op.vb op.sb 0) (fun l => (colQ[l]?).map (·.1)),
      op.write last (tileRow op.vb op.sb 1) (fun l => (rowQ[l]?).map (·.1))]

/-- A row of `vdqnt` (R433). -/
def VOp.dqntRow (op : VOp) (s : State) (x : VIn) (k : Nat) : VRes :=
  let tern := descKind op.fmt == 8
  let code (l : Nat) : Nat := laneN x.a l % 2 ^ descBits op.fmt
  let bad := tern && ((List.range 64).filter (op.on x.g)).any fun l => code l == 3
  if bad && op.t3 then .trap 0x14 0
  else
    let row := op.drow k
    let one (l : Nat) : Nat :=
      if tern && code l == 3 then 0
      else
        let q := if tern then Val.ofInt ((code l : Int) - 1) else descWiden op.fmt (code l)
        let sw := laneN x.b l
        let sc := bs20F.widen (q2lS (sw % 65536) (sw / 65536 % 256))
        (roundFp32 op.rnd (op.rand s row l) (q.mul sc)).toNat
    let sat := ((List.range 64).filter (op.on x.g)).any fun l =>
      (q2lSOf (laneN x.b l % 65536) (laneN x.b l / 65536 % 256)).sat
    .ok (op.put 8 k x.g one :: op.flags (8 + k) ((if bad then 1 else 0) + if sat then 2 else 0))

/-! Ternary unpack, patterns, random numbers, packing -/

/-- A row of `unpk3`: an illegal byte is flagged as the first row using it completes (R434, R435). -/
def VOp.unpk3Row (op : VOp) (ins : List VIn) (x : VIn) (k : Nat) : VRes :=
  let byte (l : Nat) : Nat := match ins[k / 5]? with | none => 0 | some y => laneN y.a l % 256
  let bad := ((List.range 64).filter (op.on x.g)).filter fun l => decide (243 ≤ byte l)
  let used (l : Nat) : Bool := ((ins.take k).drop (k / 5 * 5)).any fun y => op.on y.g l
  if !bad.isEmpty && op.t3 then .trap 0x14 0
  else
    .ok (op.put 6 k x.g (fun l => (BitVec.ofInt 32 (trit (byte l) (k % 5))).toNat) ::
      op.flags (6 + k) (if bad.any fun l => !used l then 1 else 0))

/-- A row of `vpatx` (R438). -/
def VOp.patxRow (op : VOp) (s : State) (x : VIn) (k : Nat) : VRes :=
  .ok [op.put 8 k x.g fun l =>
    let g := l / 8
    let q := pat s.att.key.toNat op.vb k g
    if l % 8 = q.1 then laneN x.a (2 * g) else if l % 8 = q.2 then laneN x.a (2 * g + 1) else 0]

/-- A row of `vrng` (R415). -/
def VOp.rngRow (op : VOp) (s : State) (x : VIn) (k : Nat) : VRes :=
  .ok [op.put 10 k x.g fun l =>
    let u := (philox (laneN x.a l) l k 0 op.vb s.att.key.toNat).word (k % 4)
    if op.ty = 2 then (roundFp32 .rne 0 (.fin ⟨false, u / 256, -24⟩)).toNat else u]

/-- The code width of `vpack` and `vunpk` (R439). -/
def VOp.codeW (op : VOp) : Nat :=
  if op.ew = 8 ∧ (descKind op.fmt = 7 ∨ (descKind op.fmt = 11 ∧ descWidth op.fmt ≤ 4)) then 4 else op.ew

/-- A row of `vpack`: row j of the result is complete with row min(ROWS - 1, c (j + 1) - 1). -/
def VOp.packRow (op : VOp) (ins : List VIn) (k : Nat) : VRes :=
  let w := op.codeW
  let c := 32 / w
  if (k + 1) % c = 0 ∨ k + 1 = op.rows then
    let j := k / c
    let code (t : Nat) : Nat :=
      match ins[t / 64]? with
      | none => 0
      | some x => if t % 64 < op.lanes then laneN x.a (t % 64) % 2 ^ w else 0
    let g := (ins[j]?.map (·.g)).getD 0
    .ok [op.write (6 + k) (op.drow j) fun l =>
      if op.on g l then
        some ((List.range c).foldl (fun acc i => acc + code ((64 * j + l) * c + i) * 2 ^ (w * i)) 0)
      else none]
  else .ok []

/-- A row of `vunpk` (R439). -/
def VOp.unpkRow (op : VOp) (ins : List VIn) (x : VIn) (k : Nat) : VRes :=
  let w := op.codeW
  let c := 32 / w
  .ok [op.put 6 k x.g fun l =>
    let t := 64 * k + l
    let u := t / c
    let word := match ins[u / 64]? with | none => 0 | some y => laneN y.a (u % 64)
    let v := word / 2 ^ (w * (t % c)) % 2 ^ w
    if op.ty = 0 then ((BitVec.ofNat w v).signExtend 32).toNat else v]

/-- What row k does, given every row read so far, the last of them this one. -/
def VOp.result (op : VOp) (s : State) (ins : List VIn) (x : VIn) (k : Nat) : VRes :=
  match op.i with
  | .vcmp _ => op.cmpRow x k
  | .vredsum _ => op.reduceRow 0 ins k
  | .vredmax _ => op.reduceRow 1 ins k
  | .vredmin _ => op.reduceRow 2 ins k
  | .vpop _ => op.popRow x k
  | .vpush _ => op.pushRow ins k
  | .vlds _ => op.ldsRow s x k
  | .vsts _ => op.stsRow s x k
  | .vgath _ => op.gathRow s x k
  | .vscat _ => op.scatRow s x k
  | .vperm _ => op.permRow x k
  | .vxpose _ => op.xposeRow ins k
  | .vbcast _ => op.bcastRow x k
  | .vpart _ => op.partRow ins k true
  | .vcompact _ => op.partRow ins k false
  | .vcvt _ => op.cvtRow s x k
  | .vqnt _ => op.qntRow ins k
  | .vdqnt _ => op.dqntRow s x k
  | .unpk3 _ => op.unpk3Row ins x k
  | .vpatx _ => op.patxRow s x k
  | .vrng _ => op.rngRow s x k
  | .vpack _ => op.packRow ins k
  | .vunpk _ => op.unpkRow ins x k
  | i =>
    match vElt i with
    | some f => op.elementRow s f.1 f.2 x k
    | none => .ok []

/-- The guard bits of row k (R183). -/
def State.guardRow (s : State) (guard k : Nat) : BitVec 64 :=
  if guard = 12 then BitVec.allOnes 64 else (s.preg guard).extractLsb' (64 * k) 64

/-- The ternary-code trap sets VSTAT.T3BAD (R433, R435). -/
def State.flagTernary (s : State) (cause : Nat) : State := if cause = 0x14 then s.setCore (s.core.setVstat 1) else s

/-- Read the next row of a vector instruction in the core cycle that has come: its effects enter the
flight list, or it traps precisely at the row (R296, R399); the ternary-code trap sets VSTAT.T3BAD (R435). -/
def State.vrowStep (s : State) (op : VOp) : State :=
  let k := op.got.length
  let c := s.core
  let x : VIn := ⟨c.vrow (tileRow op.va op.sa k), c.vrow (tileRow op.vb op.sb k), c.vrow (op.drow k), s.guardRow op.guard k⟩
  let ins := op.got ++ [x]
  match op.result s ins x k with
  | .trap cause addr =>
    (s.flagTernary cause).takeTrap ⟨cause, 0, 1, op.pc, 0, BitVec.ofNat 32 k, addr, none, op.replay⟩
  | .ok ps =>
    let more : List Pend := if k + 1 < op.rows then [⟨op.t + k + 1, .vrow { op with got := ins }⟩] else []
    s.laterAll (ps ++ more)

/-! Issue -/

/-- EW of VSHAPE in bits. -/
def Core.ewBits (c : Core) : Nat := match c.vshape.toNat / 4096 % 4 with | 1 => 16 | 2 => 8 | _ => 32

/-- What every vector instruction fixes in its issue cycle (R399, R420). -/
def State.vopCore (s : State) (i : Instr) (guard : BitVec 4) (ty : BitVec 4) : VOp :=
  let c := s.core
  { i := i, pc := s.stm.pc, layer := s.layer, t := c.clk, rows := c.vshape.toNat % 16 + 1,
    lanes := c.vshape.toNat / 16 % 64 + 1, ew := c.ewBits, rm := c.vctlV.toNat % 4,
    t3 := c.vctlV.toNat / 4 % 2 == 1, fmt := s.desc (c.vfmt.toNat % 64), guard := guard.toNat, ty := ty.toNat,
    vd := 0, va := 0, vb := 0, sd := 1, sa := 1, sb := 1, row0 := 0, ents := [], got := [], replay := s.stm.replay }

/-- A V64 or V96 stride form at its issue. -/
def State.vop (s : State) (i : Instr) (v : VArg) : VOp :=
  let sp := (i.vspec.map (·.1)).getD ⟨0, [], .none, .none, .none⟩
  let st := rowStrides v.ext
  let va := s.operandBase sp.a v.va v.aix 1
  { s.vopCore i v.guard v.ty with
    vd := s.operandBase sp.d v.vd v.dix 0, va := va, vb := s.operandBase sp.b v.vb v.bix 2
    sd := st.1, sa := st.2.1, sb := st.2.2, row0 := s.core.vrow va }

/-- A V96 immediate form at its issue: the immediate stands in the place of vb. -/
def State.vopImm (s : State) (i : Instr) (v : VImm) : VOp :=
  let va := s.tileBase v.va v.aix 1
  { s.vopCore i v.guard v.ty with
    vd := s.tileBase v.vd v.dix 0, va := va, vb := v.imm.toNat, row0 := s.core.vrow va }

/-- Issue a vector instruction: row 0 is read now, and the slot is taken for ROWS cycles (R184); a trap
of row 0 leaves the stream at the word. -/
def State.vstart (s : State) (op : VOp) (len : Nat) : State :=
  let s1 := s.vrowStep op
  if s1.trapped then s1 else s1.nextWord len op.rows

/-- Issue a V64 or V96 stride form. -/
def State.vissue (s : State) (i : Instr) (v : VArg) : State := s.vstart (s.vop i v) (vextLen v.ext)

/-- Issue a V96 immediate form. -/
def State.vissueImm (s : State) (i : Instr) (v : VImm) : State := s.vstart (s.vopImm i v) 12

end Sys2Proof.Machine
end

