-- ==== Sys2Proof/Machine/Vector.lean ====
section
/-! DEFINITION. The vector stream's shape, format, predicate, arithmetic, compare, reduction, constant and
random-number instructions and its replay (17 R403 to R417). -/

namespace Sys2Proof.Machine

open Host (Outcome)

/-- `vshape` (R182, R403): a value with EW 3 or a reserved bit set is refused. -/
def execVshape (v : BitVec 14) (s : State) : Outcome State Fault Refusal :=
  if v.toNat / 4096 = 3 ∨ v.toNat / 1024 % 4 ≠ 0 then .next (s.trap 0x02 1)
  else
    let c := s.core
    .next ((s.setCore { c with vshape := v.zeroExtend 32 }).nextWord 4 1)

/-- `vfmt` (R404): the descriptor is not checked. -/
def execVfmt (n : BitVec 6) (s : State) : Outcome State Fault Refusal :=
  let c := s.core
  .next ((s.setCore { c with vfmt := n.zeroExtend 32 }).nextWord 4 1)

/-- The predicate bits of the shape in focus (R412). -/
def Core.shapeBits (c : Core) : PBits :=
  let row := 2 ^ (c.vshape.toNat / 16 % 64 + 1) - 1
  BitVec.ofNat 1024 ((List.range (c.vshape.toNat % 16 + 1)).foldl (fun m k => m + row * 2 ^ (64 * k)) 0)

/-- A predicate operation: the bits of the shape, visible two cycles after issue (R412). -/
def State.predOp (s : State) (pd : BitVec 4) (v : PBits) : State :=
  (s.later 2 (.preg pd.toNat s.core.shapeBits v)).nextWord 4 1

/-- `pand` (R412). -/
def execPand (pd pa pb : BitVec 4) (s : State) : Outcome State Fault Refusal :=
  .next (s.predOp pd (s.preg pa.toNat &&& s.preg pb.toNat))

/-- `por` (R412). -/
def execPor (pd pa pb : BitVec 4) (s : State) : Outcome State Fault Refusal :=
  .next (s.predOp pd (s.preg pa.toNat ||| s.preg pb.toNat))

/-- `pxor` (R412). -/
def execPxor (pd pa pb : BitVec 4) (s : State) : Outcome State Fault Refusal :=
  .next (s.predOp pd (s.preg pa.toNat ^^^ s.preg pb.toNat))

/-- `pandn`: a and not b (R412). -/
def execPandn (pd pa pb : BitVec 4) (s : State) : Outcome State Fault Refusal :=
  .next (s.predOp pd (s.preg pa.toNat &&& ~~~s.preg pb.toNat))

/-- `pnot` (R412). -/
def execPnot (pd pa : BitVec 4) (s : State) : Outcome State Fault Refusal :=
  .next (s.predOp pd (~~~s.preg pa.toNat))

/-- `pmov` (R412). -/
def execPmovPredicate (pd pa : BitVec 4) (s : State) : Outcome State Fault Refusal :=
  .next (s.predOp pd (s.preg pa.toNat))

/-- `pset` (R412). -/
def execPset (pd : BitVec 4) (s : State) : Outcome State Fault Refusal :=
  .next (s.predOp pd (BitVec.allOnes 1024))

/-- `pclr` (R412). -/
def execPclr (pd : BitVec 4) (s : State) : Outcome State Fault Refusal := .next (s.predOp pd 0)

/-- `pcnt`: the set bits inside the shape, at issue + 3; a write to `i0` is discarded (R413). -/
def execPcnt (ix : BitVec 3) (pa : BitVec 4) (s : State) : Outcome State Fault Refusal :=
  let n := popNat 1024 (s.preg pa.toNat &&& s.core.shapeBits).toNat
  let s1 := if ix = 0 then s else s.later 3 (.ireg ix.toNat (BitVec.ofNat 12 n))
  .next (s1.nextWord 4 1)

/-- The offset after n vector or matrix words from pc, and whether one of them fails a test; none when
the section ends first (R416, R445). -/
def bodyEnd (eng : Nat) (bad : Instr → Bool) : Nat → Nat → List Byte → Option (Nat × Bool)
  | 0, pc, _ => some (pc, false)
  | n + 1, pc, bs =>
    match decodeFor eng bs with
    | .overrun => none
    | .word i len => (bodyEnd eng bad n (pc + len) (bs.drop len)).map fun r => (r.1, r.2 || bad i)

/-- What a vector body may not hold (R416). -/
def vseqBad (i : Instr) : Bool :=
  match i with
  | .vseq _ _ | .vRend _ _ | .vHalt => true
  | _ => false

/-- Begin a replay: the staged table becomes the active one and the go bit clears (R192, R417). -/
def State.beginReplay (s : State) (tab first after len : Nat) : State :=
  let c := s.core.nestCopy tab 1 2
  let s1 := (s.setCore { c with go := c.go &&& ~~~BitVec.ofNat 4 (2 ^ tab) }).nextWord len 1
  s1.setStm { s1.stm with replay := some ⟨tab, first, after, List.replicate 6 0⟩ }

/-- `vseq` (R416, R417). -/
def execVseq (nm1 : BitVec 6) (tbl : BitVec 1) (s : State) : Outcome State Fault Refusal :=
  let pc := s.stm.pc
  let tab := tbl.toNat
  match bodyEnd 1 vseqBad (nm1.toNat + 1) (pc + 4) ((s.section_ 1).drop (pc + 4)) with
  | none => .next (s.trap 0x12 0)
  | some (after, bad) =>
    if bad then .next (s.trap 0x02 0x10)
    else if !s.core.go.getLsbD tab then .next (s.stalled 1 (0x39 + tab))
    else .next (s.beginReplay tab (pc + 4) after 4)

/-- `vadd`: a + b (R405). -/
def execVadd (v : VArg) (s : State) : Outcome State Fault Refusal := .next (s.vissue (.vadd v) v)

/-- `vsub`: a - b (R405). -/
def execVsub (v : VArg) (s : State) : Outcome State Fault Refusal := .next (s.vissue (.vsub v) v)

/-- `vmul`: a x b (R405). -/
def execVmul (v : VArg) (s : State) : Outcome State Fault Refusal := .next (s.vissue (.vmul v) v)

/-- `vmad`: a x b + d, rounded once (R405). -/
def execVmad (v : VArg) (s : State) : Outcome State Fault Refusal := .next (s.vissue (.vmad v) v)

/-- `vmin`: the smaller (R405). -/
def execVmin (v : VArg) (s : State) : Outcome State Fault Refusal := .next (s.vissue (.vmin v) v)

/-- `vmax`: the larger (R405). -/
def execVmax (v : VArg) (s : State) : Outcome State Fault Refusal := .next (s.vissue (.vmax v) v)

/-- `vabs`: the magnitude (R406). -/
def execVabs (v : VArg) (s : State) : Outcome State Fault Refusal := .next (s.vissue (.vabs v) v)

/-- `vneg`: the negative (R406). -/
def execVneg (v : VArg) (s : State) : Outcome State Fault Refusal := .next (s.vissue (.vneg v) v)

/-- `vand`: bitwise and (R407). -/
def execVand (v : VArg) (s : State) : Outcome State Fault Refusal := .next (s.vissue (.vand v) v)

/-- `vor`: bitwise or (R407). -/
def execVor (v : VArg) (s : State) : Outcome State Fault Refusal := .next (s.vissue (.vor v) v)

/-- `vxor`: bitwise exclusive or (R407). -/
def execVxor (v : VArg) (s : State) : Outcome State Fault Refusal := .next (s.vissue (.vxor v) v)

/-- `vshl`: shift left (R408). -/
def execVshl (v : VArg) (s : State) : Outcome State Fault Refusal := .next (s.vissue (.vshl v) v)

/-- `vshr`: logical shift right (R408). -/
def execVshr (v : VArg) (s : State) : Outcome State Fault Refusal := .next (s.vissue (.vshr v) v)

/-- `vsra`: arithmetic shift right (R408). -/
def execVsra (v : VArg) (s : State) : Outcome State Fault Refusal := .next (s.vissue (.vsra v) v)

/-- `vrcp`: frcp (R410). -/
def execVrcp (v : VArg) (s : State) : Outcome State Fault Refusal := .next (s.vissue (.vrcp v) v)

/-- `vrsq`: frsq (R410). -/
def execVrsq (v : VArg) (s : State) : Outcome State Fault Refusal := .next (s.vissue (.vrsq v) v)

/-- `vexp2`: fexp2 (R410). -/
def execVexp2 (v : VArg) (s : State) : Outcome State Fault Refusal := .next (s.vissue (.vexp2 v) v)

/-- `vlog2`: flog2 (R410). -/
def execVlog2 (v : VArg) (s : State) : Outcome State Fault Refusal := .next (s.vissue (.vlog2 v) v)

/-- `vtanh`: ftanh (R410). -/
def execVtanh (v : VArg) (s : State) : Outcome State Fault Refusal := .next (s.vissue (.vtanh v) v)

/-- `vcmp`: a compare into a predicate and its complement (R411). -/
def execVcmp (v : VArg) (s : State) : Outcome State Fault Refusal := .next (s.vissue (.vcmp v) v)

/-- `vredsum`: row sums (R414). -/
def execVredsum (v : VArg) (s : State) : Outcome State Fault Refusal := .next (s.vissue (.vredsum v) v)

/-- `vredmax`: row maxima (R414). -/
def execVredmax (v : VArg) (s : State) : Outcome State Fault Refusal := .next (s.vissue (.vredmax v) v)

/-- `vredmin`: row minima (R414). -/
def execVredmin (v : VArg) (s : State) : Outcome State Fault Refusal := .next (s.vissue (.vredmin v) v)

/-- `vfill`: every written element receives the immediate (R409). -/
def execVfill (v : VImm) (s : State) : Outcome State Fault Refusal := .next (s.vissueImm (.vfill v) v)

/-- `vrng` (R415). -/
def execVrng (v : VImm) (s : State) : Outcome State Fault Refusal := .next (s.vissueImm (.vrng v) v)

end Sys2Proof.Machine
end

