-- ==== Sys2Proof/Machine/Chital.lean ====
section
/-! DEFINITION. Chital, the operand-port entropy decoder: coded tiles, markers, probability tables and the
decode of a segment (12 R274 to R290). -/

namespace Sys2Proof.Machine

/-- Why a decode failed (R285, R286): the subcode, whether it is table-malformed, the segment, the table
slot, the step, the lane, and whether words stayed unclaimed. -/
structure CodeFault where
  sub  : Nat
  tabf : Bool
  seg  : Nat
  slot : Nat
  step : Nat
  lane : Nat
  uncl : Bool
  deriving DecidableEq, Repr

/-- CAUSE of a decode fault (R293). -/
def CodeFault.cause (f : CodeFault) : Nat := if f.tabf then 0x0B else 0x0A

/-- Chital's status word (R286). -/
def CodeFault.status (f : CodeFault) : Word :=
  BitVec.ofNat 32 (f.sub * 2 ^ 28 + (if f.tabf then 2 ^ 27 else 0) + f.seg % 4 * 2 ^ 25 + f.slot % 8 * 2 ^ 22 +
    f.step % 32 * 2 ^ 17 + f.lane % 32 * 2 ^ 12 + (if f.uncl then 2 ^ 11 else 0))

/-- A little-endian number of n bytes at an offset of a byte list; bytes beyond its end read zero. -/
def numAt (bs : List Byte) (off n : Nat) : Nat := leNat ((bs.drop off).take n)

/-- The frequencies of a 512-byte probability table; none when it is malformed (R282). -/
def loadTable (bs : List Byte) : Option (List Nat) :=
  let fs := (List.range 256).map fun i => numAt bs (2 * i) 2
  if fs.all (fun f => decide (f ≤ 4096)) && fs.sum == 4096 then some fs else none

/-- The symbol of a slot, its frequency and its cumulative start (R275). -/
def symbolOf : List Nat → Nat → Nat → Nat → Nat × Nat × Nat
  | [], _, s, cum => (s, 0, cum)
  | f :: fs, slot, s, cum => if slot < cum + f then (s, f, cum) else symbolOf fs slot (s + 1) (cum + f)

/-- One decode step of a lane: its symbol and its next state (R275). -/
def decodeLane (freq : List Nat) (x : Nat) : Nat × Nat :=
  let r := symbolOf freq (x % 4096) 0 0
  (r.1, r.2.1 * (x / 4096) + x % 4096 - r.2.2)

/-- One round of the claiming phase in ascending lane order: the states, the words left, and the lane that
found none (R276). -/
def claimRound : Nat → List Nat → List Nat → List Nat × List Nat × Option Nat
  | _, [], ws => ([], ws, none)
  | l, x :: xs, ws =>
    if x < 0x10000 then
      match ws with
      | [] => (x :: xs, [], some l)
      | w :: ws =>
        let r := claimRound (l + 1) xs ws
        ((x * 65536 + w) :: r.1, r.2.1, r.2.2)
    else
      let r := claimRound (l + 1) xs ws
      (x :: r.1, r.2.1, r.2.2)

/-- The claiming phase: no lane needs a third round (R276). -/
def claimAll : Nat → List Nat → List Nat → List Nat × List Nat × Option Nat
  | 0, xs, ws => (xs, ws, none)
  | n + 1, xs, ws =>
    if xs.all fun x => decide (0x10000 ≤ x) then (xs, ws, none)
    else
      let r := claimRound 0 xs ws
      match r.2.2 with
      | some l => (r.1, r.2.1, some l)
      | none => claimAll n r.1 r.2.1

/-- The steps of a segment from step t on: the bytes, or the step and lane of an overrun, or the final
states and the words left. -/
def segmentSteps (freq : List Nat) : Nat → Nat → List Nat → List Nat →
    Except (Nat × Nat) (List Byte × List Nat × List Nat)
  | 0, _, xs, ws => .ok ([], xs, ws)
  | n + 1, t, xs, ws =>
    let ds := xs.map (decodeLane freq)
    let r := claimAll 3 (ds.map (·.2)) ws
    match r.2.2 with
    | some l => .error (t, l)
    | none =>
      match segmentSteps freq n (t + 1) r.1 r.2.1 with
      | .error e => .error e
      | .ok q => .ok (ds.map (fun d => BitVec.ofNat 8 d.1) ++ q.1, q.2)

/-- SEGWOFF of a segment (R278). -/
def segWoff (tile : List Byte) (s : Nat) : Nat := numAt tile (0x0C + 2 * s) 2

/-- LENGTH of a coded tile (R278). -/
def tileLength (tile : List Byte) : Nat := numAt tile 0x08 2

/-- The table slot that a tile header names. -/
def tileSlot (tile : List Byte) : Nat := numAt tile 1 1 % 8

/-- The header check, order 1 of R285 (R278, R280). -/
def headerOk (tile : List Byte) : Bool :=
  let len := tileLength tile
  let sum := ((List.range 288).map fun i => if i = 1 then 0 else numAt tile (2 * i) 2).sum
  numAt tile 0 1 == 0xC7 && decide (numAt tile 1 1 < 8) && numAt tile 0x0A 2 == 0 && numAt tile 0x14 12 == 0 &&
  len % 2 == 0 && decide (0x240 ≤ len) && segWoff tile 0 == 0x120 &&
  (List.range 3).all (fun s => decide (segWoff tile s ≤ segWoff tile (s + 1))) &&
  decide (segWoff tile 3 ≤ len / 2) && numAt tile 2 2 == (sum % 65536) ^^^ 0xFFFF

/-- The marker check of a segment, order 3 (R279). -/
def markerOk (tile : List Byte) (s : Nat) : Bool :=
  let m := 0x20 + 0x88 * s
  numAt tile (m + 0x80) 1 == s && numAt tile (m + 0x81) 1 == 0 && numAt tile (m + 0x82) 2 == segWoff tile s &&
  numAt tile (m + 0x84) 4 == 0

/-- The initial states of a segment (R279). -/
def markerStates (tile : List Byte) (s : Nat) : List Nat :=
  (List.range 32).map fun l => numAt tile (0x20 + 0x88 * s + 4 * l) 4

/-- The words of a segment's stream (R277). -/
def segWords (tile : List Byte) (s : Nat) : List Nat :=
  let a := segWoff tile s
  let b := if s < 3 then segWoff tile (s + 1) else tileLength tile / 2
  (List.range (b - a)).map fun i => numAt tile (2 * (a + i)) 2

/-- Decode one segment (orders 5 and 6 of R285). -/
def decodeSegment (tile : List Byte) (freq : List Nat) (s : Nat) : Except CodeFault (List Byte) :=
  let slot := tileSlot tile
  match segmentSteps freq 32 0 (markerStates tile s) (segWords tile s) with
  | .error (t, l) => .error ⟨2, false, s, slot, t, l, false⟩
  | .ok (bs, xs, ws) =>
    if ws.isEmpty && xs.all (· == 0x10000) then .ok bs
    else .error ⟨3, false, s, slot, 31, (xs.findIdx? (· != 0x10000)).getD 0, !ws.isEmpty⟩

/-- Whether a fault is of an earlier order than an underrun (R285). -/
def isOverrun : Except CodeFault α → Bool
  | .error f => f.sub == 2
  | .ok _ => false

/-- Decode segments f to f + n - 1 of a tile whose bytes are given, with the checks of R285 in order: the
decoded bytes with their place in the 4,096-byte result. -/
def decodeTile (tile : List Byte) (table : Nat → Option (List Nat)) (f n : Nat) :
    Except CodeFault (List (Nat × Byte)) :=
  let segs := (List.range n).map (f + ·)
  let slot := tileSlot tile
  if !headerOk tile then .error ⟨5, false, 0, slot, 0, 0, false⟩
  else
    match table slot with
    | none => .error ⟨2, true, 0, slot, 0, 0, false⟩
    | some freq =>
      match segs.find? fun s => !markerOk tile s with
      | some s => .error ⟨4, false, s, slot, 0, 0, false⟩
      | none =>
        match segs.find? fun s => (markerStates tile s).any fun x => decide (x < 0x10000) with
        | some s =>
          .error ⟨1, false, s, slot, 0, ((markerStates tile s).findIdx? fun x => decide (x < 0x10000)).getD 0, false⟩
        | none =>
          let rs := segs.map fun s => (s, decodeSegment tile freq s)
          match (rs.find? fun r => isOverrun r.2) with
          | some (_, .error e) => .error e
          | _ => rs.foldl (fun acc r =>
              match acc, r.2 with
              | .error e, _ => .error e
              | _, .error e => .error e
              | .ok cs, .ok bs => .ok (cs ++ cellsAt (1024 * r.1) bs)) (.ok [])

end Sys2Proof.Machine
end

