-- ==== Sys2Proof/Machine/ZeroTile.lean ====
section
/-! DEFINITION. Zero-suppressed tiles: the form a drain produces and a decoding reader checks
(19 R463 to R465, 10 R246). -/

namespace Sys2Proof.Machine

/-- LCHK (R463). -/
def lchk (len gen : Nat) : Nat :=
  let sum := ((List.range 2).map fun i => len / 2 ^ (16 * i) % 65536).sum +
    ((List.range 4).map fun i => gen / 2 ^ (16 * i) % 65536).sum
  (sum % 65536) ^^^ 0xFFFF

/-- Cut a data stream into sectors of 120 bytes, each closed by GEN, for at most fuel sectors. -/
def sectors : Nat → List Byte → Nat → List Byte
  | 0, _, _ => []
  | fuel + 1, bs, gen =>
    if bs.isEmpty then []
    else
      let d := bs.take 120
      d ++ List.replicate (120 - d.length) 0 ++ bytesOf 8 gen ++ sectors fuel (bs.drop 120) gen

/-- Sectors of a tile with so many values of eb bytes (R463). -/
def zsSectors (eb count : Nat) : Nat := (2064 + eb * count + 119) / 120

/-- The tile of 128 rows of 128 codes in a format of eb bytes (R463). -/
def zsEncode (fmt eb gen : Nat) (codes : List (List Nat)) : List Byte :=
  let all := codes.flatten
  let count := (all.filter (· != 0)).length
  let len := 128 * zsSectors eb count
  let map := codes.flatMap fun row =>
    bytesOf 16 ((row.zipIdx.map fun x => if x.1 = 0 then 0 else 2 ^ x.2).sum)
  let head : List Byte := [0xE5, BitVec.ofNat 8 fmt, BitVec.ofNat 8 eb, 0] ++ bytesOf 4 len ++
    bytesOf 2 (lchk len gen) ++ List.replicate 6 0
  sectors (zsSectors eb count) (head ++ map ++ (all.filter (· != 0)).flatMap (bytesOf eb)) gen

/-- The data bytes of a tile's sectors. -/
def zsData (tile : List Byte) : List Byte :=
  (List.range (tile.length / 128)).flatMap fun i => (tile.drop (128 * i)).take 120

/-- GEN of a sector. -/
def zsGen (tile : List Byte) (i : Nat) : Nat := numAt tile (128 * i + 120) 8

/-- Walk MAP in row-major order, taking a value for every present element. -/
def zsExpand (eb : Nat) : List Bool → List Byte → List Nat
  | [], _ => []
  | false :: ps, vs => 0 :: zsExpand eb ps vs
  | true :: ps, vs => leNat (vs.take eb) :: zsExpand eb ps (vs.drop eb)

/-- The presence bits of MAP in row-major order. -/
def zsPresent (data : List Byte) : List Bool :=
  (List.range 16384).map fun i => numAt data (16 + i / 8) 1 / 2 ^ (i % 8) % 2 == 1

/-- The 16,384 codes of a tile of the operand's format; none when a check of R465 fails. -/
def zsDecode (fmt eb : Nat) (tile : List Byte) : Option (List Nat) :=
  let data := zsData tile
  let present := zsPresent data
  let count := (present.filter id).length
  let n := tile.length / 128
  if numAt data 0 1 == 0xE5 && numAt data 1 1 == fmt && numAt data 2 1 == eb && numAt data 3 1 == 0 &&
      numAt data 4 4 == tile.length && numAt data 8 2 == lchk tile.length (zsGen tile 0) && numAt data 10 6 == 0 &&
      (List.range n).all (fun i => zsGen tile i == zsGen tile 0) &&
      tile.length == 128 * zsSectors eb count then
    some (zsExpand eb present (data.drop 2064))
  else none

/-- The dense slab-major bytes of slabs m to m + n - 1 of 128 by 128 codes of eb bytes (R442, R466). -/
def zsSlabs (eb m n : Nat) (codes : List Nat) : List Byte :=
  let arr := codes.toArray
  (List.range n).flatMap fun k => (List.range 128).flatMap fun i => (List.range 32).flatMap fun j =>
    bytesOf eb (arr.getD (128 * i + 32 * (m + k) + j) 0)

end Sys2Proof.Machine
end

