-- ==== Sys2Proof/Machine/MatrixStep.lean ====
section
/-! DEFINITION. The steps of the matrix stream: operand shapes, formats and addresses, the checks of a
command, scales, and what a step in flight reads and writes (19 R440 to R455, R466, R468, R469). -/

namespace Sys2Proof.Machine

/-! Formats and shapes (R441) -/

/-- The width class of an operand format: 16, 8 or 4 bits, 0 for packed ternary; none otherwise. -/
def opClass (w : Word) : Option Nat :=
  match descKind w with
  | 2 | 3 => some 16
  | 5 | 6 | 9 => some 8
  | 7 => some 4
  | 8 => some 0
  | 11 => some (if descWidth w ≤ 4 then 4 else 8)
  | _ => none

/-- The shape of a step: columns written, K-steps, and bits of an A and of a B element; none for a pairing
that is not allowed. -/
structure MShape where
  cols  : Nat
  steps : Nat
  wa    : Nat
  wb    : Nat
  deriving DecidableEq, Repr

/-- An integer step's format (R441). -/
def intFormat (w : Word) : Bool := [5, 6, 7, 8].contains (descKind w)

def mShape (fa fb : Word) (int : Bool) : Option MShape :=
  if int && !(intFormat fa && intFormat fb) then none
  else
    match opClass fa, opClass fb with
    | some 16, some 16 => some ⟨64, 1, 16, 16⟩
    | some 8, some 8 => some ⟨128, 1, 8, 8⟩
    | some 8, some 4 => some ⟨128, 2, 8, 4⟩
    | some 4, some 4 => some ⟨128, 2, 4, 4⟩
    | some 8, some 0 => some ⟨128, 2, 8, 0⟩
    | some 4, some 0 => some ⟨128, 2, 4, 0⟩
    | _, _ => none

/-- Bytes of A (R442). -/
def MShape.aBytes (m : MShape) : Nat := 512 * m.wa * m.steps

/-- Bytes of B (R441). -/
def MShape.bBytes (m : MShape) : Nat := if m.wb = 0 then 1664 else 32 * m.steps * m.cols * m.wb / 8

/-! Addresses and traps (R440, R468, R469) -/

/-- The units that an address field names: stepped by a slot of the replay unless held (R440). -/
def State.unitAddr (s : State) (addr : BitVec 20) (held : Bool) (slot : Nat) : Nat :=
  ((addr.toNat : Int) + (if held then 0 else s.nestOff slot)).emod (2 ^ 20) |>.toNat

/-- The status word of a matrix stop (R469). -/
def State.mStatus (s : State) (acc entry opnd side : Nat) : Word :=
  let kind := if Tab.get false s.core.accKind acc then 16 else 0
  BitVec.ofNat 32 (entry * 65536 + opnd * 256 + side * 128 + kind)

/-- A matrix command stops at its boundary (R295, R297). -/
def State.mTrap (s : State) (pc cmd cause sub addr : Nat) (status : Word) (replay : Option Replay) : State :=
  s.takeTrap ⟨cause, sub, 2, pc, cmd, status, addr, none, replay⟩

/-- Chital stops the command that carried the coded operand, as engine 3 (R285). -/
def State.codeTrap (s : State) (pc cmd : Nat) (f : CodeFault) (replay : Option Replay) : State :=
  s.takeTrap ⟨f.cause, f.sub, 3, pc, cmd, f.status, 0, none, replay⟩

/-- A coded tile that reaches beyond the window: Chital's fault, with the first byte outside (09 R211, 12 R285). -/
def State.codeWindow (s : State) (pc cmd addr : Nat) (replay : Option Replay) : State :=
  s.takeTrap ⟨0x07, 0, 3, pc, cmd, 0, addr, none, replay⟩

/-- What a check of a command finds: cause, subcode, operand, address. -/
structure MFault where
  cause : Nat
  sub   : Nat
  opnd  : Nat
  addr  : Nat
  deriving DecidableEq, Repr

/-- The result of the checks: an error, or a value. -/
abbrev MCheck (α : Type) := Except MFault α

/-- A condition that has to hold. -/
def need (b : Bool) (cause sub opnd : Nat) (addr : Nat := 0) : MCheck Unit :=
  if b then .ok () else .error ⟨cause, sub, opnd, addr⟩

/-- Bytes that have to lie in the window. -/
def State.inWindow (s : State) (a n opnd : Nat) : MCheck Unit :=
  match firstBeyond s.att.limit a n with
  | none => .ok ()
  | some f => .error ⟨0x07, 0, opnd, f⟩

/-- A tag bit: 15 VALID, 12 ZS, 11 CODED. -/
def tagBit (t : BitVec 16) (b : Nat) : Bool := t.getLsbD b

/-- The format index of an operand from its field and its tag (R443): role 0 A, 1 B, 2 a coded B. -/
def State.tagFormat (s : State) (field : BitVec 6) (a opnd role : Nat) : MCheck Nat :=
  let t := s.inst.tag a
  if tagBit t 15 && ((tagBit t 11 && role != 2) || (tagBit t 12 && role != 0)) then .error ⟨0x08, 0, opnd, 0⟩
  else if field != 0 then .ok field.toNat
  else if tagBit t 15 then .ok (t.toNat % 64)
  else .error ⟨0x08, 0, opnd, 0⟩

/-- A is a zero-suppressed tile (R443). -/
def State.isZs (s : State) (a : Nat) : Bool := tagBit (s.inst.tag a) 15 && tagBit (s.inst.tag a) 12

/-- An A operand: where it is read from, how many bytes, and the first slab of a zero-suppressed one. -/
structure AOpd where
  a    : Nat
  z    : Nat
  slab : Option Nat
  deriving DecidableEq, Repr

/-- The A operand at so many units, of so many bytes unless it is zero-suppressed (R442, R466). -/
def State.aOperand (s : State) (units bytes : Nat) : AOpd :=
  if s.isZs (64 * units) then
    let base := 64 * (units - units % 4)
    ⟨base, Nat.max 128 (s.inst.sram.nat (base + 4) 4), some (units % 4)⟩
  else ⟨64 * units, bytes, none⟩

/-! Scales (R449, R450) -/

/-- Entries that a step pops. -/
def popsOf (sc : MScale) : Nat := (if sc.sca = 1 then 1 else 0) + (if sc.scb = 1 then 1 else 0)

/-- What the scale queue says to a step: pop, wait, or fault on a side (R450). -/
inductive ScaleTest
  | pop
  | wait
  | fault (side : Nat)
  deriving DecidableEq, Repr

/-- The test of R450 on the queue and the outstanding entries as they stood at the start of the cycle. -/
def Core.scaleTest (c : Core) (sc : MScale) : ScaleTest :=
  let n := popsOf sc
  let q := c.scaleQ.items.length
  let all := q + (c.scaleOut - c.scaleNew)
  if n ≤ q then .pop
  else if n ≤ all then .wait
  else .fault (if sc.sca = 1 ∧ 1 ≤ all then 1 else if sc.sca = 1 then 0 else 1)

/-- The halves of a step's bank that its pops load, A before B. -/
def popHalves (h : MHead) (sc : MScale) : List Nat :=
  ((if sc.sca = 1 then [0] else []) ++ (if sc.scb = 1 then [1] else [])).map (2 * h.acc.toNat + ·)

/-- Pop the entries of a step into its bank, A before B (R449). -/
def State.popScales (s : State) (h : MHead) (sc : MScale) : State :=
  let c := s.core
  match c.scaleQ.pop (popsOf sc) with
  | none => s
  | some (es, q) =>
    let c1 : Core := { c with scaleQ := q, mark := c.mark.map fun m => { m with popped := m.popped ++ es } }
    (s.setCore c1).laterAll (((popHalves h sc).zip es).map fun x => ⟨c.clk + 1, .scale x.1 x.2⟩)

/-- What a half of a scale bank holds one cycle on, and whether a load in flight writes it after that. -/
def Core.scaleAhead (c : Core) (half : Nat) : AccRow × Bool :=
  c.pend.foldl
    (fun x p => match p.act with
      | .scale h v => if h ≠ half then x else if p.at_ ≤ c.clk + 1 then (v, x.2) else (x.1, true)
      | _ => x)
    (Tab.get 0 c.scale half, false)

/-- A step with what its pops take, and the bank halves that only they load: what its stop gives back (R297). -/
def MOp.taking (op : MOp) (c : Core) : MOp :=
  { op with
    popped := c.scaleQ.items.take (popsOf op.sc)
    banks := ((popHalves op.h op.sc).map fun x => (x, c.scaleAhead x)).filterMap fun x => if x.2.2 then none else some (x.1, x.2.1) }

/-- A core whose step numbered cmd stops at its boundary: the step's pops and bank writes are undone, and the kind that its
accumulator would take (R297). -/
def Core.undoStep (c : Core) (cmd : Nat) : Core :=
  match c.pend.findSome? fun p => match p.act with | .mread op => if op.cmd = cmd ∧ op.t < c.clk then some op else none | _ => none with
  | none => c
  | some op =>
    let kind (p : Pend) : Bool := match p.act with
      | .accKind a _ => decide (a = op.h.acc.toNat ∧ p.at_ = op.t + 40)
      | _ => false
    { c with
      pend := c.pend.filter fun p => !kind p
      scaleQ := { c.scaleQ with items := op.popped ++ c.scaleQ.items }
      scale := op.banks.foldl (fun t x => Tab.set t x.1 x.2) c.scale }

/-- A core whose drain numbered cmd stops at its boundary after later commands began: what the matrix stream owned is as it
stood then, and nothing of those commands is to come (R297). -/
def Core.undoDrain (c : Core) (cmd : Nat) : Core :=
  match c.mark with
  | none => c
  | some m =>
    if m.cmd ≠ cmd then c
    else
      let later (p : Pend) : Bool := match p.act with
        | .accRow _ _ _ _ | .accKind _ _ | .accZero _ | .accFlag _ | .scale _ _ | .table _ _ | .mread _ | .mfin _
        | .decoded _ _ | .mbsp _ | .mload _ | .drain _ _ | .resid _ _ _ _ | .qpush _ _ => true
        | _ => false
      { c with
        acc := m.acc, accKind := m.accKind, accflags := m.accflags, scale := m.scale, ctab := m.ctab, decB := m.decB
        markidx := m.markidx, streams := Tab.set c.streams 2 m.stream, pend := c.pend.filter fun p => !later p
        scaleQ := { c.scaleQ with items := m.popped ++ c.scaleQ.items }, mark := none }

/-! Reading (R444) -/

/-- The bytes of an operand of z bytes read in its c-th cycle of n: offsets o with ⌊n o / z⌋ = c. -/
def shareOf (m : Memory) (a z n c : Nat) : List Byte :=
  let lo := (c * z + n - 1) / n
  let hi := ((c + 1) * z + n - 1) / n
  m.bytes (a + lo) (Nat.min hi z - lo)

/-- The length check and the generation number of every sector of a zero-suppressed tile of z bytes, which a decoding reader
reads at the start and at the end of the decode (10 R246). -/
def zsMarks (m : Memory) (a z : Nat) : List Nat :=
  m.nat (a + 8) 2 :: (List.range (z / 128)).map fun i => m.nat (a + 128 * i + 120) 8

/-- The dense bytes of A: a zero-suppressed tile is expanded; none when its checks fail (R465, R466). -/
def MOp.aDense (op : MOp) : Option (List Byte) :=
  match op.slab with
  | none => some op.abuf
  | some m =>
    let eb := descSlot op.fa / 8
    let n := match mShape op.fa (op.fb.headD 0) op.h.int with
      | some sh => (if op.kind = 1 then 4 else 1) * sh.steps
      | none => 1
    (zsDecode op.fai eb op.abuf).map (zsSlabs eb m n)

/-- The next share of a step's operands; with the last one, the coded B is decoded (R452) and a zero-suppressed A is checked:
its length check and generation numbers stand as at the start of the decode, and it is well formed (R465, 10 R246). -/
def State.mreadStep (s : State) (op : MOp) : State :=
  let c := s.core
  let k := c.clk - op.t
  let m := s.inst.sram
  let op1 : MOp := { op with
    marks := if k = 0 ∧ op.slab.isSome then zsMarks m op.a op.za else op.marks
    abuf := op.abuf ++ shareOf m op.a op.za 32 k
    bbuf := op.bbuf ++ op.b.flatMap fun b => shareOf m b op.zb 32 k }
  let op2 : MOp :=
    if k = 8 then
      let acc := op.h.acc.toNat
      { op1 with sa := Tab.get 0 c.scale (2 * acc), sb := Tab.get 0 c.scale (2 * acc + 1) }
    else op1
  if k < 31 then s.later 1 (.mread op2)
  else
    match (if op.slab.isSome && op.marks != zsMarks m op.a op.za then none else op2.aDense) with
    | none => s.mTrap op.pc op.cmd 0x0A 6 0 (s.mStatus op.h.acc.toNat op.entry 1 0) op.replay
    | some ab =>
      if op.sc.coded then
        let n := op.sc.segnm1.toNat + 1
        match decodeTile op2.bbuf (Tab.find c.ctab) op.sc.segf.toNat n with
        | .error f => s.codeTrap op.pc op.cmd f op.replay
        | .ok cells =>
          let buf := (Memory.putCells c.decB cells).bytes 0 4096
          let mark := BitVec.ofNat 32 (4 * numAt op2.bbuf 4 4 + op.sc.segf.toNat + n)
          (s.later 1 (.decoded cells mark)).later 8 (.mfin { op2 with abuf := ab, bbuf := buf, slab := none })
      else s.later 8 (.mfin { op2 with abuf := ab, slab := none })

/-! Products and sums (R447, R453, R454) -/

/-- A code of w bits at a bit offset of a byte array. -/
def codeAt (bs : Array Byte) (bit w : Nat) : Nat :=
  let lo := (bs.getD (bit / 8) 0).toNat
  let v := if w = 16 then lo + (bs.getD (bit / 8 + 1) 0).toNat * 256 else lo / 2 ^ (bit % 8)
  v % 2 ^ w

/-- A's element (i, k), stored in elements of w bits (R442). -/
def aElt (fa : Word) (w : Nat) (bs : Array Byte) (i k : Nat) : Val :=
  descWiden fa (codeAt bs (8 * (512 * w * (k / 32) + 4 * w * i) + w * (k % 32)) w)

/-- B's element (k, j), stored in rows of cols elements of w bits, or as packed ternary (R442, R254). -/
def bElt (fb : Word) (w cols : Nat) (bs : Array Byte) (k j : Nat) : Val :=
  if w = 0 then .ofInt (trit (bs.getD (128 * (k / 5) + j) 0).toNat (k % 5))
  else descWiden fb (codeAt bs ((k * cols + j) * w) w)

/-- The K position and the kept row of product p of K-step q in column j (R447, R453). -/
def MOp.pick (op : MOp) (key q p j : Nat) : Nat × Nat :=
  let r := 32 * q + p
  if op.kind = 1 then
    let g := r / 2
    let u := j / 16 + 8 * (g / 8)
    let pos := pat key ((op.seed + u) % 2 ^ 32) (j % 16) (g % 8)
    (8 * g + (if r % 2 = 0 then pos.1 else pos.2), r)
  else (r, r)

/-- A sum of zero is neutral: it leaves an accumulator of -0 as it is (R267). -/
def neutral (v : Val) : Val := if v.isZero then .fin ⟨true, 0, 0⟩ else v

/-- The exact sum of 32 products. -/
def dotVal (a : Nat → Val) (b : Nat → Val) : Val :=
  neutral ((List.range 32).foldl (fun x p => x.add ((a p).mul (b p))) (.fin ⟨true, 0, 0⟩))

/-- An exact integer value. -/
def Val.toInt (v : Val) : Int := v.num.intAt 0

/-- A scale word as an exact value; source 0 is 1.0 (R449). -/
def scaleVal (src : BitVec 2) (r : AccRow) (x : Nat) : Val :=
  if src = 0 then .fin ⟨false, 1, 0⟩ else bs20F.widen ((r.extractLsb' (32 * x) 20).toNat)

/-- One K-step into one element: the new word, and whether an integer accumulation overflowed. -/
def MOp.accumulate (op : MOp) (s : State) (i j q : Nat) (p : Val) (w : Word) : Word × Bool :=
  if op.h.int then
    let v := w.toInt + p.toInt
    (BitVec.ofInt 32 v, decide (v < -2147483648) || decide (2147483647 < v))
  else
    let p := if op.h.scaled then neutral ((p.mul (scaleVal op.sc.sca op.sa i)).mul (scaleVal op.sc.scb op.sb j)) else p
    let rand := if op.h.round = 2 then rand24 s.att.key.toNat i (j + 128 * (q + op.entry)) op.layer else 0
    (roundFp32 (Rnd.ofCode op.h.round.toNat) rand ((ofFp32 w).add p), false)

/-- The columns a step writes, the B buffer, format, element bits and row length that serve a column. -/
structure BPart where
  lo   : Nat
  n    : Nat
  bs   : Array Byte
  fb   : Word
  w    : Nat
  cols : Nat

/-- The parts of B: one for a dense step, one for each present tile of an `mbsp` entry (R454). -/
def MOp.parts (op : MOp) (sh : MShape) : List BPart :=
  if op.kind = 2 then
    let tiles := (List.range 4).filter fun c => op.mask / 2 ^ c % 2 == 1
    let n := tiles.length
    (tiles.zip op.fb).zipIdx.map fun x =>
      let bytes := (List.range 32).flatMap fun k => (op.bbuf.drop (32 * n * k + 32 * x.2)).take 32
      ⟨32 * x.1.1, 32, bytes.toArray, x.1.2, 8, 32⟩
  else [⟨0, sh.cols, op.bbuf.toArray, op.fb.headD 0, sh.wb, sh.cols⟩]

/-- A row of an accumulator after a step, as the mask and values of the columns written, and whether it
overflowed. -/
def MOp.row (op : MOp) (s : State) (sh : MShape) (ab : Array Byte) (parts : List BPart) (i : Nat) (old : AccRow) :
    AccRow × AccRow × Bool :=
  let r := parts.foldl (fun (acc : Nat × Nat × Bool) pt =>
    (List.range pt.n).foldl (fun acc jj =>
      let j := pt.lo + jj
      let x := (List.range sh.steps).foldl (fun (w : Word × Bool) q =>
        let p := dotVal (fun p => aElt op.fa sh.wa ab i (op.pick s.att.key.toNat q p j).1)
          (fun p => bElt pt.fb pt.w pt.cols pt.bs (op.pick s.att.key.toNat q p j).2 jj)
        let y := op.accumulate s i j q p w.1
        (y.1, w.2 || y.2)) (old.extractLsb' (32 * j) 32, false)
      (acc.1 + 0xFFFFFFFF * 2 ^ (32 * j), acc.2.1 + x.1.toNat * 2 ^ (32 * j), acc.2.2 || x.2)) acc) (0, 0, false)
  (BitVec.ofNat 4096 r.1, BitVec.ofNat 4096 r.2.1, r.2.2)

/-- A step reads its accumulator in its cycle 39 and makes its elements visible one cycle later; they come
before any later command's (R185, R448). -/
def State.mfinStep (s : State) (op : MOp) : State :=
  let c := s.core
  let acc := op.h.acc.toNat
  match mShape op.fa (op.fb.headD 0) op.h.int with
  | none => s
  | some sh =>
    let ab := op.abuf.toArray
    let parts := op.parts sh
    let rows := (List.range 128).map fun i => (i, op.row s sh ab parts i (Tab.get 0 c.acc (acc * 128 + i)))
    let ps : List Pend := rows.map fun r => ⟨c.clk + 1, .accRow acc r.1 r.2.1 r.2.2.1⟩
    let ovf : List Pend := if rows.any fun r => r.2.2.2 then [⟨c.clk + 1, .accFlag acc⟩] else []
    let bad : List Pend :=
      if sh.wb = 0 ∧ (op.bbuf.take 1664).any fun b => decide (243 ≤ b.toNat) then [⟨c.clk + 1, .vstat 1⟩] else []
    s.setCore { c with pend := ps ++ c.pend ++ ovf ++ bad }

/-- A step that passed its checks begins: its reads from this cycle on, and the kind that its accumulator
takes 40 cycles later (R448). -/
def State.beginStep (s : State) (op : MOp) : State :=
  (s.popScales op.h op.sc).mreadStep (op.taking s.core) |>.later 40 (.accKind op.h.acc.toNat op.h.int)

/-! `mbsp` entries (R454, R455) -/

/-- Read the entry numbered e of a list, or note its first byte outside the window. -/
def State.bspEntry (s : State) (lbase e : Nat) : List Byte × Option Nat :=
  let a := lbase + 32 * e
  match firstBeyond s.att.limit a 32 with
  | some f => ([], some f)
  | none => (s.inst.sram.bytes a 32, none)

/-- Word i of an entry. -/
def bspWord (e : List Byte) (i : Nat) : Nat := numAt e (4 * i) 4

/-- MASK and KB and LAST. -/
def bspMask (e : List Byte) : Nat := bspWord e 0 / 65536 % 16
def bspKb (e : List Byte) : Nat := bspWord e 0 % 65536
def bspLast (e : List Byte) : Bool := decide (2 ^ 31 ≤ bspWord e 0)

/-- An entry is malformed (R455). -/
def bspBad (e : List Byte) (entry : Nat) (prev : Option Nat) : Bool :=
  let m := bspMask e
  decide (bspWord e 0 / 2 ^ 20 % 2 ^ 11 ≠ 0) || (List.range 3).any (fun i => bspWord e (5 + i) != 0) ||
  (List.range 4).any (fun c => decide (2 ^ 20 ≤ bspWord e (1 + c)) || (m / 2 ^ c % 2 == 0 && bspWord e (1 + c) != 0)) ||
  (match prev with | some k => decide (bspKb e ≤ k) | none => false) || (entry == 255 && !bspLast e)

/-- The window addresses of the present tiles of an entry. -/
def bspTiles (e : List Byte) : List Nat :=
  ((List.range 4).filter fun c => bspMask e / 2 ^ c % 2 == 1).map fun c => 64 * bspWord e (1 + c)

/-- The checks of an entry, in the order of R468 up to the window, and the step it stands for. -/
def State.bspStep (s : State) (b : MBsp) : MCheck (Option MOp) :=
  match b.bad with
  | some f => .error ⟨0x07, 0, 5, f⟩
  | none => do
    need (!bspBad b.bytes b.entry b.prev) 0x02 0x13 5
    if bspMask b.bytes = 0 then return none
    let units := b.abase + 64 * bspKb b.bytes
    let ao := s.aOperand units 4096
    let fai ← s.tagFormat b.h.fmta (64 * units) 1 0
    let tiles := bspTiles b.bytes
    let fbis ← tiles.mapM fun t => s.tagFormat b.h.fmtb t 2 1
    let fa := s.desc fai
    let fbs := fbis.map s.desc
    need (fbs.all fun fb => mShape fa fb b.h.int == some ⟨128, 1, 8, 8⟩) 0x09 0 2
    s.inWindow ao.a ao.z 1
    for t in tiles do s.inWindow t 1024 2
    return some
      { kind := 2, h := b.h, sc := b.sc, pc := b.pc, cmd := b.cmd, layer := b.layer, t := s.core.clk, entry := b.entry,
        fa := fa, fb := fbs, fai := fai, a := ao.a, za := ao.z, slab := ao.slab, b := tiles, zb := 1024,
        mask := bspMask b.bytes, seed := 0, abuf := [], bbuf := [], sa := 0, sb := 0, replay := b.replay, popped := [],
        banks := [], marks := [] }

/-- The matrix stream's slot is held until a core cycle. -/
def State.holdMatrix (s : State) (n : Nat) : State :=
  let c := s.core
  let t := Tab.get Stream.absent c.streams 2
  s.setCore { c with streams := Tab.set c.streams 2 { t with free := n } }

/-- One more command has issued on the matrix stream: an entry of `mbsp` after its first counts as it begins (R297, R455). -/
def State.countCmd (s : State) : State :=
  let c := s.core
  let t := Tab.get Stream.absent c.streams 2
  s.setCore { c with streams := Tab.set c.streams 2 { t with ncmd := t.ncmd + 1 } }

/-- Begin the entry that has come: it stops, waits for scales, or runs and sets up the next one.  The A slab of an entry is the
operand at dword 1's address + 64 KB units, with its own block's tag (R443, R454; log 26). -/
def State.bspRun (s : State) (b : MBsp) : State :=
  let clk := s.core.clk
  let acc := b.h.acc.toNat
  match s.bspStep b with
  | .error f => s.mTrap b.pc b.cmd f.cause f.sub f.addr (s.mStatus acc b.entry f.opnd 0) b.replay
  | .ok r =>
    let test := if r.isSome then s.core.scaleTest b.sc else .pop
    match test with
    | .fault side => s.mTrap b.pc b.cmd 0x0C 0 0 (s.mStatus acc b.entry 6 side) b.replay
    | .wait =>
      let s1 := (s.holdMatrix (clk + 1)).later 1 (.mbsp b)
      s1.setCore { s1.core with blocked := some 0x38 }
    | .pop =>
      let occ := if r.isSome then 32 else 8
      let s0 := if b.entry = 0 then s else s.countCmd
      let s1 := match r with
        | some op => s0.beginStep op
        | none => s0
      let s2 := s1.holdMatrix (clk + occ)
      if bspLast b.bytes then s2
      else
        let nx := s.bspEntry b.lbase (b.entry + 1)
        s2.later occ (.mbsp { b with
          cmd := b.cmd + 1, entry := b.entry + 1, bytes := nx.1, bad := nx.2, prev := some (bspKb b.bytes) })

end Sys2Proof.Machine
end

