-- ==== Sys2Proof/Machine/Drain.lean ====
section
/-! DEFINITION. The drain in flight: its rows, residual, dropout, packing, the bytes it writes and the
entries it pushes (19 R458 to R463). -/

namespace Sys2Proof.Machine

/-- Bits of an output element's slot: 32 for PACK 0 (R459). -/
def DOp.w (op : DOp) : Nat := if op.o.pack = 0 then 32 else descSlot op.fa

/-- Bytes of one dense copy (R460). -/
def DOp.copyBytes (op : DOp) : Nat := 2048 * op.w

/-- Rows leave one by one; otherwise everything leaves at issue + 176 (R461). -/
def DOp.perRow (op : DOp) : Bool := !op.o.zs && (decide (op.o.pack.toNat < 2) || (op.o.pack == 2 && !op.o.dual))

/-- The rounding mode. -/
def DOp.rnd (op : DOp) : Rnd := Rnd.ofCode op.o.round.toNat

/-- rand24 of a row and a column (R458). -/
def DOp.rand (op : DOp) (s : State) (k col : Nat) : Nat :=
  if op.o.round = 2 then rand24 s.att.key.toNat k col op.layer else 0

/-- The exact value of an accumulator word under a kind. -/
def kindVal (kind : Bool) (w : Word) : Val := if kind then .ofInt w.toInt else ofFp32 w

/-- Steps 1 to 3 of R458 on row k. -/
def DOp.value (op : DOp) (s : State) (k : Nat) (kind : Bool) (row : AccRow) (j : Nat) : Word :=
  let w := row.extractLsb' (32 * j) 32
  let wr := descSlot op.fr
  let x : Word :=
    if op.o.resen then
      let byte := op.res + 512 * wr * (j / 32) + 4 * wr * k + wr * (j % 32) / 8
      let code := s.inst.sram.nat byte (if wr < 8 then 1 else wr / 8) / 2 ^ (wr * (j % 32) % 8) % 2 ^ wr
      let r := descWiden op.fr code
      if kind then BitVec.ofInt 32 (w.toInt + r.toInt)
      else roundFp32 op.rnd (op.rand s k j) ((ofFp32 w).add r)
    else w
  if op.o.dropen && decide ((philox k j op.layer 0 op.seed s.att.key.toNat).c1 / 2 ^ 24 < op.o.dropth.toNat) then 0 else x

/-- The drained values of row k, packed again as a row. -/
def DOp.values (op : DOp) (s : State) (k : Nat) (kind : Bool) (row : AccRow) : AccRow :=
  BitVec.ofNat 4096 ((List.range 128).foldl (fun acc j => acc + (op.value s k kind row j).toNat * 2 ^ (32 * j)) 0)

/-- The lanes of an accumulator row. -/
def accLanes (r : AccRow) : List Word := (List.range 128).map fun j => r.extractLsb' (32 * j) 32

/-- Elements of so many bits as bytes (R251). -/
def packBits (w : Nat) (codes : List Nat) : List Byte :=
  bytesOf (codes.length * w / 8) ((codes.zipIdx.map fun x => x.1 % 2 ^ w * 2 ^ (w * x.2)).sum)

/-- The codes of row k for PACK 0 and 1, with VSTAT bits (R459). -/
def DOp.rowCodes (op : DOp) (s : State) (k : Nat) (kind : Bool) (vals : List Word) : List Nat × Nat :=
  if op.o.pack = 0 then (vals.map (·.toNat), 0)
  else
    match descFmt op.fa with
    | none => (vals.map fun _ => 0, 0)
    | some f =>
      let ns := vals.zipIdx.map fun x => f.narrow op.rnd (op.rand s k (x.2 + 128)) (kindVal kind x.1)
      (ns.map (·.code), ns.foldl (fun b n => b ||| n.flags) 0)

/-- A quantised row or column: codes, the two scale words, VSTAT bits (R460). -/
def quantLine (fa : Word) (xs : List Val) : List Nat × List Nat × Nat :=
  let q := q2l fa xs
  (q.codes, q.ss.map fun ss => q2lS q.sr ss, (if q.sat then 2 else 0) + (if q.nan then 4 else 0))

/-- The bytes of a row of codes, by the slab of 32 columns they lie in (R460). -/
def slabParts (w : Nat) (codes : List Nat) : List (Nat × List Byte) :=
  (List.range 4).map fun m => (m, packBits w ((codes.drop (32 * m)).take 32))

/-- The window cells of row k of a dense copy at base. -/
def denseCells (w base k : Nat) (codes : List Nat) : List (Nat × Byte) :=
  (slabParts w codes).flatMap fun p => cellsAt (base + 512 * w * p.1 + 4 * w * k) p.2

/-- The cells of the scale words of line x of a copy whose scale area starts at base. -/
def scaleCells (base x : Nat) (ws : List Nat) : List (Nat × Byte) :=
  ws.zipIdx.flatMap fun y => cellsAt (base + 4 * (128 * y.2 + x)) (bytesOf 4 y.1)

/-- The tag of the codes of a copy (R462). -/
def DOp.codeTag (op : DOp) (col : Bool) : BitVec 16 :=
  let n := 0x8000 +
    (if op.o.pack = 0 then (if op.kind0 then 4 else 1)
     else op.o.fmta.toNat + (if 2 ≤ op.o.pack.toNat then 0x100 else 0) + (if col then 0x400 else 0))
  BitVec.ofNat 16 n

/-- The tag of scale words (R462). -/
def scaleTag : BitVec 16 := 0x800A

/-- Cut bytes into 256-byte queue entries; the last is padded with zeros. -/
def entriesOf : Nat → List Byte → List Row
  | 0, _ => []
  | fuel + 1, bs => if bs.isEmpty then [] else BitVec.ofNat 2048 (leNat (bs.take 256)) :: entriesOf fuel (bs.drop 256)

/-- The core cycle in which row k leaves, counting the waits for queue room since the issue (R461). -/
def DOp.leaveAt (op : DOp) (s : State) (n : Nat) : Nat := op.t + n + (s.core.lag - op.lag)

/-- The sq a drain pushes to. -/
def DOp.queue (op : DOp) : Nat := op.o.dstsel.toNat - 4

/-- Append bytes to a drain's byte stream: the entries that are now whole leave at issue + n; with the last
bytes the rest leaves too. -/
def State.streamOut (s : State) (op : DOp) (n : Nat) (bs : List Byte) (last : Bool) : State :=
  let c := s.core
  let all := c.dbytes ++ bs
  let cut := if last then all.length else all.length / 256 * 256
  let s1 := s.setCore { c with dbytes := all.drop cut }
  if cut = 0 then s1 else s1.atCycle (op.leaveAt s n) (.qpush op.queue (entriesOf (cut / 256 + 1) (all.take cut)))

/-- Sticky bits of a drained element, in the cycle it is written. -/
def State.drainFlags (s : State) (at_ bits : Nat) : State :=
  if bits = 0 then s else s.atCycle at_ (.vstat (BitVec.ofNat 32 bits))

/-- Row k leaves: PACK 0, 1, or 2 without DUAL. -/
def State.rowOut (s : State) (op : DOp) (k : Nat) (kind : Bool) (vals : AccRow) : State :=
  let w := op.w
  let ws := accLanes vals
  let base := 64 * op.dst
  let at_ := op.t + 48 + k
  if op.o.pack = 2 then
    let q := quantLine op.fa (ws.map (kindVal kind))
    let s1 := s.drainFlags at_ q.2.2
    if op.o.dstsel = 0 then
      (s1.atCycle at_ (.sram (denseCells w base k q.1) (.first (op.codeTag false)))).atCycle at_
        (.sram (scaleCells (base + op.copyBytes) k q.2.1) (.first scaleTag))
    else
      let c := s1.core
      let s2 := s1.setCore { c with dvals := c.dvals ++ [(BitVec.ofNat 4096 (q.2.1.headD 0 + (q.2.1.getD 1 0) * 2 ^ 32), kind)] }
      let s3 := s2.streamOut op (48 + k) (packBits w q.1) false
      if k < 127 then s3
      else
        let sc := s3.core.dvals.map fun r => r.1.toNat
        s3.streamOut op (48 + k) ((sc.flatMap fun x => bytesOf 4 x) ++ (sc.flatMap fun x => bytesOf 4 (x / 2 ^ 32))) true
  else
    let r := op.rowCodes s k kind ws
    let s1 := s.drainFlags at_ r.2
    if op.o.dstsel = 0 then s1.atCycle at_ (.sram (denseCells w base k r.1) (.first (op.codeTag false)))
    else s1.streamOut op (48 + k) (packBits w r.1) (k == 127)

/-- Column j of a list of rows. -/
def columnOf (rows : List (List α)) (j : Nat) : List α := rows.filterMap fun r => r[j]?

/-- Both copies or the column copy, at issue + 176 (R460, R461). -/
def State.wholeQuant (s : State) (op : DOp) : State :=
  let rows := s.core.dvals.map fun r => (accLanes r.1).map (kindVal r.2)
  let rowC := rows.map (quantLine op.fa)
  let colC := (List.range 128).map fun j => quantLine op.fa (columnOf rows j)
  let colCodes := (List.range 128).map fun i => columnOf (colC.map (·.1)) i
  let copies : List (Bool × List (List Nat) × List (List Nat)) :=
    (if op.o.pack = 2 ∨ op.o.dual then [(false, rowC.map (·.1), rowC.map (·.2.1))] else []) ++
    (if op.o.pack = 3 ∨ op.o.dual then [(true, colCodes, colC.map (·.2.1))] else [])
  let used := (if op.o.pack = 2 ∨ op.o.dual then rowC else []) ++ (if op.o.pack = 3 ∨ op.o.dual then colC else [])
  let s1 := s.drainFlags (op.t + 176) (used.foldl (fun b q => b ||| q.2.2) 0)
  let w := op.w
  if op.o.dstsel = 0 then
    copies.zipIdx.foldl (fun s c =>
      let base := 64 * op.dst + c.2 * (op.copyBytes + 4096)
      let codes := c.1.2.1.zipIdx.flatMap fun r => denseCells w base r.2 r.1
      let scales := c.1.2.2.zipIdx.flatMap fun r => scaleCells (base + op.copyBytes) r.2 r.1
      (s.atCycle (op.t + 176) (.sram codes (.every (op.codeTag c.1.1)))).atCycle (op.t + 176) (.sram scales (.every scaleTag))) s1
  else
    let bytes := copies.flatMap fun c =>
      (c.2.1.flatMap (packBits w)) ++
      ((List.range 2).flatMap fun b => c.2.2.flatMap fun ws => bytesOf 4 (ws.getD b 0))
    s1.streamOut op 176 bytes true

/-- The format index of a zero-suppressed tile's elements (R462, R463). -/
def DOp.zsFmt (op : DOp) : Nat := if op.o.pack = 0 then (if op.kind0 then 4 else 1) else op.o.fmta.toNat

/-- The zero-suppressed tile of 128 drained rows, and the VSTAT bits of its elements (R463). -/
def DOp.zsTile (op : DOp) (s : State) (rows : List (AccRow × Bool)) : List Byte × Nat :=
  let outs := rows.zipIdx.map fun r => op.rowCodes s r.2 r.1.2 (accLanes r.1.1)
  (zsEncode op.zsFmt (op.w / 8) op.gen (outs.map (·.1)), outs.foldl (fun b q => b ||| q.2) 0)

/-- A zero-suppressed drain that reaches beyond the window stops at its boundary (R297). -/
def State.zsStop (s : State) (op : DOp) (addr : Nat) : State :=
  s.mTrap op.pc op.cmd 0x07 0 addr (s.mStatus op.o.acc.toNat 0 4 0) op.replay

/-- The zero-suppressed tile, at issue + 176 (R461, R463). -/
def State.wholeZs (s : State) (op : DOp) : State :=
  let r := op.zsTile s s.core.dvals
  let base := 64 * op.dst
  let s1 := s.drainFlags (op.t + 176) r.2
  if op.o.dstsel = 0 then
    match firstBeyond s.att.limit base r.1.length with
    | some f => (s.setCore (s.core.undoDrain op.cmd)).zsStop op f
    | none => (s1.setCore { s1.core with mark := none }).atCycle (op.t + 176) (.sram (cellsAt base r.1) (.every (BitVec.ofNat 16 (0x9000 + op.zsFmt))))
  else s1.streamOut op 176 r.1 true

/-- The rows that a drain will write as they stand with its last row read, and that row: residuals still to come are
taken as the window holds them now. -/
def State.rowsAhead (s : State) (op : DOp) (row : AccRow) (kind : Bool) : List (AccRow × Bool) :=
  let c := s.core
  c.dvals ++ (c.pend.filterMap fun p => match p.act with
    | .resid o k r i => if o.cmd = op.cmd then some (op.values s k i r, i) else none
    | _ => none) ++ [(op.values s 127 kind row, kind)]

/-- Row k takes its residual and dropout (R458), and leaves or is kept until the last. -/
def State.residStep (s : State) (op : DOp) (k : Nat) (row : AccRow) (kind : Bool) : State :=
  let vals := op.values s k kind row
  let c := s.core
  let s1 := if k = 0 then s.setCore { c with dvals := [], dbytes := [] } else s
  if op.perRow then s1.rowOut op k kind vals
  else
    let c1 := s1.core
    let s2 := s1.setCore { c1 with dvals := c1.dvals ++ [(vals, kind)] }
    if k < 127 then s2 else if op.o.zs then s2.wholeZs op else s2.wholeQuant op

/-- What the matrix stream owns as the last row of a zero-suppressed drain is read: kept until its tile is whole, since a
residual that changes until then may still take the tile out of the window (R297, R461). -/
def Core.markFor (c : Core) (op : DOp) : Option MatMark :=
  if op.o.resen then
    some ⟨op.cmd, c.acc, c.accKind, c.accflags, c.scale, c.ctab, c.decB, c.markidx,
      { Tab.get Stream.absent c.streams 2 with pc := op.pc, ncmd := op.cmd, free := c.clk, replay := op.replay }, []⟩
  else none

/-- Row k of the accumulator and its kind are read in cycle issue + k (R458).  With the last row, before any later
command issues, the length of a zero-suppressed tile is checked against the window (R297, R461; log 24). -/
def State.drainStep (s : State) (op : DOp) (k : Nat) : State :=
  let c := s.core
  let acc := op.o.acc.toNat
  let kind := Tab.get false c.accKind acc
  let op1 : DOp := if k = 0 then { op with kind0 := kind } else op
  let row := Tab.get 0 c.acc (acc * 128 + k)
  let s1 := s.later 40 (.resid op1 k row kind)
  if k < 127 then s1.later 1 (.drain op1 (k + 1))
  else if op.o.zs && op.o.dstsel == 0 then
    match firstBeyond s.att.limit (64 * op.dst) (op.zsTile s (s.rowsAhead op row kind)).1.length with
    | some f => s.zsStop op f
    | none => s1.setCore { s1.core with mark := s.core.markFor op1 }
  else s1

/-- The kind that an accumulator will have k cycles on: what the last of the commands in flight that set it by then gives
it, of two in one cycle the one that issued later (R185, R448). -/
def Core.kindAt (c : Core) (acc k : Nat) : Bool :=
  (c.pend.foldl
    (fun (x : Nat × Bool) p => match p.act with
      | .accKind a i => if a = acc ∧ p.at_ ≤ c.clk + k ∧ x.1 ≤ p.at_ then (p.at_, i) else x
      | _ => x)
    (0, Tab.get false c.accKind acc)).2

/-- The kinds that the rows of a drain issuing now will be read under (R458). -/
def Core.kindsAhead (c : Core) (acc : Nat) : List Bool := (List.range 128).map (c.kindAt acc)

/-- The drain mode is one that R459 allows. -/
def drainModeOk (o : MOut) (dst : Nat) (fa : Word) : Bool :=
  !(o.dual && decide (o.pack.toNat < 2)) &&
  !(o.zs && (decide (2 ≤ o.pack.toNat) || (o.pack == 1 && (descSlot fa == 4 || descKind fa == 8)))) &&
  !(o.pack == 0 && o.fmta != 0) && !(o.pack == 1 && o.fmta == 0) &&
  !(o.zs && dst % 4 != 0) && !(!o.zs && o.dstsel == 0 && dst % 64 != 0)

/-- The target is one that R459 allows. -/
def drainTargetOk (o : MOut) (fa : Word) : Bool :=
  match o.pack.toNat with
  | 0 => true
  | 1 => (descFmt fa).isSome && descKind fa != 8 && descKind fa != 10
  | _ => q2lTarget fa && descKind fa != 8

/-- A residual format suits the kinds it will meet (R458). -/
def residualOk (fr : Word) (kinds : List Bool) : Bool :=
  (descFmt fr).isSome && descKind fr != 8 && descKind fr != 10 &&
  (!kinds.contains true || [4, 5, 6, 7].contains (descKind fr))

/-- Window bytes that a drain to SRAM writes (R460): the scale areas' first 1,024 bytes only. -/
def DOp.window (op : DOp) : Nat :=
  let c := op.copyBytes
  if op.o.pack.toNat < 2 then c else if op.o.dual then 2 * c + 4096 + 1024 else c + 1024

/-- The checks of a drain in the order of R468, and the drain. -/
def State.drainCheck (s : State) (o : MOut) : MCheck DOp := do
  let dst := s.unitAddr o.dst false 2
  let res := 64 * s.unitAddr o.resaddr false 2
  let fa := if o.pack = 0 then fixedDesc 1 else s.desc o.fmta.toNat
  need (drainModeOk o dst fa) 0x02 0x14 4
  let tag := s.inst.tag res
  need (!o.resen || tagBit tag 15) 0x08 0 3
  let fr := s.desc (tag.toNat % 64)
  need (drainTargetOk o fa) 0x09 0 4
  need (!o.resen || residualOk fr (s.core.kindsAhead o.acc.toNat)) 0x09 0 3
  if o.resen then s.inWindow res (2048 * descSlot fr) 3
  let op : DOp :=
    { o := o, pc := s.stm.pc, cmd := s.stm.ncmd, layer := s.layer, t := s.core.clk, lag := s.core.lag, fa := fa,
      fr := fr, dst := dst, res := res, seed := argNat s.att.args (4 * o.seedsel.toNat) 4,
      gen := s.time % 2 ^ 52 * 4096 + s.cur.id, kind0 := false, replay := s.stm.replay }
  if o.dstsel = 0 && !o.zs then s.inWindow (64 * dst) op.window 4
  return op

/-- Entries that wait for an sq move in, at most two per cycle, in order; one that finds no room stops the
matrix stream for the cycle and delays every later entry and the entries of an `mbsp` that have not begun by it (R461). -/
def State.pushWaiting (s : State) : Nat → State
  | 0 => s
  | n + 1 =>
    let c := s.core
    match c.sqWait with
    | [] => s
    | (q, r) :: rest =>
      let f := Tab.get Fifo.empty c.sq q
      if c.sqTaken q < 16 then
        State.pushWaiting (s.setCore { c with sq := Tab.set c.sq q { f with items := f.items ++ [r] }, sqWait := rest }) n
      else
        let t := Tab.get Stream.absent c.streams 2
        let late (p : Pend) : Pend :=
          match p.act with
          | .qpush _ _ => if c.clk < p.at_ then { p with at_ := p.at_ + 1 } else p
          | .mbsp _ => { p with at_ := p.at_ + 1 }
          | _ => p
        s.setCore { c with
          blocked := some (0x34 + q), lag := c.lag + 1, pend := c.pend.map late
          streams := Tab.set c.streams 2 { t with free := Nat.max t.free c.clk + 1 } }

end Sys2Proof.Machine
end

