-- ==== Sys2Proof/Machine/Matrix.lean ====
section
/-! DEFINITION. The matrix stream's commands (19 R445 to R467). -/

namespace Sys2Proof.Machine

open Host (Outcome)

/-- A stop of the command in focus. -/
def State.cmdTrap (s : State) (acc : Nat) (f : MFault) (side : Nat := 0) : State :=
  s.mTrap s.stm.pc s.stm.ncmd f.cause f.sub f.addr (s.mStatus acc 0 f.opnd side) s.stm.replay

/-- LVL and LVLEN are reserved outside a replay (R445). -/
def State.levelOk (s : State) (lvlen : Bool) (lvl : BitVec 3) : Bool := s.stm.replay.isSome || (!lvlen && lvl == 0)

/-- The core in focus is on an SPR chiplet, which alone has `mspz` and `mbsp` (R454). -/
def State.onSpr (s : State) : Bool := s.att.cls == 2

/-- The words of a matrix body up to the next `mend`: the offset of that word, their number and whether one
may not stand there; none when the section ends first (R445). -/
def matrixBody : Nat → Nat → List Byte → Option (Nat × Nat × Bool)
  | 0, _, _ => none
  | fuel + 1, pc, bs =>
    match decodeFor 2 bs with
    | .overrun => none
    | .word .mend _ => some (pc, 0, false)
    | .word i len =>
      let bad := match i with
        | .mseq _ | .mRend _ _ | .mHalt => true
        | _ => false
      (matrixBody fuel (pc + len) (bs.drop len)).map fun r => (r.1, r.2.1 + 1, r.2.2 || bad)

/-- `mseq` (R445). -/
def execMseq (tbl : BitVec 1) (s : State) : Outcome State Fault Refusal :=
  let pc := s.stm.pc
  let tab := 2 + tbl.toNat
  let bs := (s.section_ 2).drop (pc + 24)
  match matrixBody bs.length (pc + 24) bs with
  | none => .next (s.trap 0x12 0)
  | some (after, n, bad) =>
    if bad || n == 0 || decide (256 < n) then .next (s.cmdTrap 0 ⟨0x02, 0x10, 0, 0⟩)
    else if !s.core.go.getLsbD tab then .next (s.stalled 1 (0x39 + tab))
    else .next (s.beginReplay tab (pc + 24) after 24)

/-- `mend`: issues once after the last iteration (R446). -/
def execMend (s : State) : Outcome State Fault Refusal :=
  match s.stm.replay with
  | none => .next (s.cmdTrap 0 ⟨0x02, 0x11, 0, 0⟩)
  | some _ =>
    let s1 := s.setStm { s.stm with replay := none }
    .next ((s1.nextWord 24 1).coreEvent 2 0x41 s.stm.ncmd 0)

/-- What a step has passed when its checks are done: the operation in flight. -/
def State.stepCheck (s : State) (kind : Nat) (h : MHead) (a b : MOpd) (t : MScale) : MCheck MOp := do
  let mul := if kind = 1 then 4 else 1
  let ua := s.unitAddr a.addr (a.agen == 1) 0
  let ub := 64 * s.unitAddr b.addr (b.agen == 1) 1
  let m := s.inst.sram
  let head := m.bytes ub 64
  let zsA := s.isZs (64 * ua)
  -- illegal operand: the header of `mspz` (R453), the slab index of a zero-suppressed A (R466)
  let headIn := (firstBeyond s.att.limit ub 64).isNone
  need (kind != 1 || !headIn || (numAt head 0 1 == 0x2B && numAt head 1 3 == 0 && (head.drop 8).all (· == 0))) 0x02 0x12 7
  let guessA := s.desc (if h.fmta = 0 then (s.inst.tag (64 * ua)).toNat % 64 else h.fmta.toNat)
  let guessB := s.desc (if h.fmtb = 0 then (s.inst.tag ub).toNat % 64 else h.fmtb.toNat)
  let slabs := mul * ((mShape guessA guessB h.int).map (·.steps)).getD 1
  need (!zsA || decide (ua % 4 + slabs ≤ 4)) 0x02 0x15 1
  let fai ← s.tagFormat h.fmta (64 * ua) 1 0
  let fbi ← s.tagFormat h.fmtb ub 2 (if t.coded then 2 else 1)
  let fa := s.desc fai
  let fb := s.desc fbi
  match mShape fa fb h.int with
  | none => .error ⟨0x09, 0, 2, 0⟩
  | some sh =>
    need (!(kind == 1 && sh.wb == 0)) 0x09 0 2
    let ao := s.aOperand ua (mul * sh.aBytes)
    s.inWindow ao.a ao.z 1
    if kind = 1 then s.inWindow ub 64 7
    let len := m.nat (ub + 8) 2
    let bz := if t.coded then Nat.max len 0x20 else sh.bBytes
    let ba := if kind = 1 then ub + 64 else ub
    s.inWindow ba bz 2
    .ok
      { kind := kind, h := h, sc := t, pc := s.stm.pc, cmd := s.stm.ncmd, layer := s.layer, t := s.core.clk,
        entry := 0, fa := fa, fb := [fb], fai := fai, a := ao.a, za := ao.z, slab := ao.slab, b := [ba], zb := bz,
        mask := 0, seed := numAt head 4 4, abuf := [], bbuf := [], sa := 0, sb := 0, replay := s.stm.replay, popped := [],
        banks := [], marks := [] }

/-- Run the checks of a step, its scale test, and the step (R468). -/
def State.stepRun (s : State) (kind : Nat) (h : MHead) (a b : MOpd) (t : MScale) : State :=
  let acc := h.acc.toNat
  match s.stepCheck kind h a b t with
  | .error f =>
    if t.coded && f.cause == 0x07 && f.opnd == 2 then s.codeWindow s.stm.pc s.stm.ncmd f.addr s.stm.replay else s.cmdTrap acc f
  | .ok op =>
    match s.core.scaleTest t with
    | .fault side => s.cmdTrap acc ⟨0x0C, 0, 6, 0⟩ side
    | .wait => s.stalled 1 0x38
    | .pop => (s.beginStep op).nextWord 24 32

/-- `mstep` (R447). -/
def execMstep (h : MHead) (a b : MOpd) (t : MScale) (s : State) : Outcome State Fault Refusal :=
  if !s.levelOk h.lvlen h.lvl then .next (s.trap 0x01 2) else .next (s.stepRun 0 h a b t)

/-- `mspz` (R453): on SPR cores only. -/
def execMspz (h : MHead) (a b : MOpd) (t : MScale) (s : State) : Outcome State Fault Refusal :=
  if !s.onSpr then .next (s.trap 0x01 1)
  else if !s.levelOk h.lvlen h.lvl then .next (s.trap 0x01 2)
  else .next (s.stepRun 1 h a b t)

/-- `mbsp` (R454, R455): on SPR cores only; entries 0 and 1 are read at issue. -/
def execMbsp (h : MHead) (a b : MOpd) (t : MScale) (s : State) : Outcome State Fault Refusal :=
  if !s.onSpr then .next (s.trap 0x01 1)
  else if !s.levelOk h.lvlen h.lvl then .next (s.trap 0x01 2)
  else if t.coded then .next (s.cmdTrap h.acc.toNat ⟨0x02, 0x15, 0, 0⟩)
  else
    let lbase := 64 * s.unitAddr b.addr (b.agen == 1) 1
    let e := s.bspEntry lbase 0
    let run : MBsp :=
      { h := h, sc := t, pc := s.stm.pc, cmd := s.stm.ncmd, layer := s.layer, lbase := lbase, entry := 0,
        abase := s.unitAddr a.addr (a.agen == 1) 0, bytes := e.1, bad := e.2, prev := none, replay := s.stm.replay }
    match s.bspStep run with
    | .error _ => .next (s.bspRun run)
    | .ok r =>
      if r.isSome && s.core.scaleTest t == .wait then .next (s.stalled 1 0x38)
      else
        let s1 := s.bspRun run
        if s1.trapped then .next s1
        else
          let free := s1.stm.free
          .next ((s1.nextWord 24 1).holdMatrix free)

/-- `mzero` (R456). -/
def execMzero (acc : BitVec 2) (lvlen : Bool) (lvl : BitVec 3) (_iter : BitVec 2) (s : State) :
    Outcome State Fault Refusal :=
  if !s.levelOk lvlen lvl then .next (s.trap 0x01 2)
  else .next (((s.later 2 (.accZero acc.toNat)).later 2 (.accKind acc.toNat false)).nextWord 24 1)

/-- `mscl` and `mdtab` read 256 or 64 bytes a cycle from their issue on; the bank takes its words at issue +
6, the table slot its table at issue + 8, checked with its last bytes (R282, R451, R457). -/
def State.mloadStep (s : State) (op : MLoad) : State :=
  let c := s.core
  let k := c.clk - op.t
  let n := if op.table then 64 else 256
  let last := if op.table then 7 else 3
  let op1 : MLoad := { op with buf := op.buf ++ s.inst.sram.bytes (op.a + n * k) n }
  if k < last then s.later 1 (.mload op1)
  else if op.table then
    match loadTable op1.buf with
    | none => s.codeTrap op.pc op.cmd ⟨1, true, 0, op.slot, 0, 0, false⟩ op.replay
    | some fs => s.later 1 (.table op.slot fs)
  else
    (s.later 3 (.scale (2 * op.slot) (BitVec.ofNat 4096 (leNat (op1.buf.take 512))))).later 3
      (.scale (2 * op.slot + 1) (BitVec.ofNat 4096 (leNat (op1.buf.drop 512))))

/-- `mscl` (R451). -/
def execMscl (acc : BitVec 2) (a : MOpd) (s : State) : Outcome State Fault Refusal :=
  let at_ := 64 * s.unitAddr a.addr (a.agen == 1) 0
  match s.inWindow at_ 1024 6 with
  | .error f => .next (s.cmdTrap acc.toNat f)
  | .ok _ => .next ((s.mloadStep ⟨false, acc.toNat, s.stm.pc, s.stm.ncmd, s.core.clk, at_, [], s.stm.replay⟩).nextWord 24 4)

/-- `mdtab` (R457). -/
def execMdtab (addr : BitVec 20) (tslot : BitVec 3) (s : State) : Outcome State Fault Refusal :=
  let at_ := 64 * addr.toNat
  match s.inWindow at_ 512 5 with
  | .error f => .next (s.cmdTrap 0 f)
  | .ok _ => .next ((s.mloadStep ⟨true, tslot.toNat, s.stm.pc, s.stm.ncmd, s.core.clk, at_, [], s.stm.replay⟩).nextWord 24 8)

/-- `mdrain` (R458 to R462). -/
def execMdrain (o : MOut) (s : State) : Outcome State Fault Refusal :=
  if !s.levelOk o.lvlen o.lvl then .next (s.trap 0x01 2)
  else
    match s.drainCheck o with
    | .error f => .next (s.cmdTrap o.acc.toNat f)
    | .ok op => .next (((s.drainStep op 0).nextWord 24 128).coreEvent 2 0x40 op.cmd (64 * op.dst))

end Sys2Proof.Machine
end

