-- ==== Sys2Proof/Machine/Sort.lean ====
section
/-! DEFINITION. The sort engine's commands (20 R470 to R479). -/

namespace Sys2Proof.Machine

open Host (Outcome)

/-- The order value of a key word (R471). -/
def orderVal (kfmt w : Nat) : Nat :=
  match kfmt with
  | 0 => w ^^^ 0x80000000
  | 1 => w
  | 2 =>
    if 0x7F800000 < w % 2 ^ 31 then 0xFFFFFFFF
    else if 2 ^ 31 ≤ w then 0xFFFFFFFF - w else w + 2 ^ 31
  | _ =>
    let h := w % 65536
    if 0x7F80 < h % 2 ^ 15 then 0xFFFF
    else if 2 ^ 15 ≤ h then 0xFFFF - h else h + 2 ^ 15

/-- A key with its order value and its value word. -/
structure KItem where
  o : Nat
  k : Nat
  v : Nat
  deriving DecidableEq, Repr

/-- Strictly earlier in the order (R471). -/
def before (desc : Bool) (a b : Nat) : Bool := if desc then decide (b < a) else decide (a < b)

/-- Insert an item before every item that does not come strictly earlier. -/
def insertItem (desc : Bool) (x : KItem) : List KItem → List KItem
  | [] => [x]
  | y :: ys => if before desc y.o x.o then y :: insertItem desc x ys else x :: y :: ys

/-- A stable sort (R471). -/
def sortItems (desc : Bool) (xs : List KItem) : List KItem := xs.foldr (insertItem desc) []

/-- The exact merge of two runs, for at most fuel items (R473). -/
def mergeItems (desc : Bool) : Nat → List KItem → List KItem → List KItem
  | 0, as_, bs => as_ ++ bs
  | _, [], bs => bs
  | _, as_, [] => as_
  | n + 1, a :: as_, b :: bs =>
    if before desc b.o a.o then b :: mergeItems desc n (a :: as_) bs else a :: mergeItems desc n as_ (b :: bs)

/-- Words as sort rows; the last row is padded with zeros. -/
def rowsOf : Nat → List Nat → List (List Nat)
  | 0, _ => []
  | n + 1, ws => (ws.take 64 ++ List.replicate (64 - (ws.take 64).length) 0) :: rowsOf n (ws.drop 64)

/-- The lane words of a row. -/
def rowLanes (r : Row) : List Nat := (List.range 64).map (laneN r)

/-- N of a command. -/
def kRows (k : SArg) : Nat := k.nm1.toNat + 1

/-- Rows that the keys of a source take, the value rows behind them included. -/
def kBoth (k : SArg) (n : Nat) : Nat := if k.vals then 2 * n else n

/-- The items of a command from the rows it read. -/
def kItems (k : SArg) (keys vals : List Row) : List KItem :=
  let ks := keys.flatMap rowLanes
  let vs := vals.flatMap rowLanes
  ks.zipIdx.map fun x => ⟨orderVal k.kfmt.toNat x.1, x.1, if k.vals then vs.getD x.2 0 else 0⟩

/-- Destination rows of keys, and of values behind them where there are any. -/
def kOut (k : SArg) (d : Nat) (items : List KItem) : List (List Nat) :=
  rowsOf d (items.map (·.k)) ++ (if k.vals then rowsOf d (items.map (·.v)) else [])

/-- The row-mode selection: the first k items of every 64, the rest zero (R474). -/
def topRows (desc : Bool) (k : Nat) : Nat → List KItem → List KItem
  | 0, _ => []
  | n + 1, xs =>
    let t := (sortItems desc (xs.take 64)).take k
    t ++ List.replicate (64 - t.length) ⟨0, 0, 0⟩ ++ topRows desc k n (xs.drop 64)

/-- k, SHIFT, B and E of PARAM (R474 to R476). -/
def kTop (k : SArg) : Nat := if k.param.toNat < 256 then k.param.toNat + 1 else k.param.toNat % 64 + 1
def kHistB (k : SArg) : Nat := k.param.toNat / 32
def kExperts (k : SArg) : Nat := k.param.toNat + 1

/-- The rows a command writes (R472 to R476). -/
def sortResult (i : Instr) (keys vals : List Row) : List (List Nat) :=
  match i with
  | .ksort k => kOut k (kRows k) (sortItems k.desc (kItems k keys vals))
  | .kmerge k =>
    let xs := kItems k keys vals
    let m := 64 * (k.param.toNat % 128 + 1)
    kOut k (kRows k) (mergeItems k.desc xs.length (xs.take m) (xs.drop m))
  | .ktopk k =>
    let xs := kItems k keys vals
    if k.param.toNat < 256 then kOut k (((kTop k) + 63) / 64) ((sortItems k.desc xs).take (kTop k))
    else kOut k (kRows k) (topRows k.desc (kTop k) (kRows k) xs)
  | .khist k =>
    let xs := kItems k keys vals
    let n := 2 ^ (kHistB k)
    let count (x : Nat) : Nat :=
      (xs.filter fun y => y.o / 2 ^ (k.param.toNat % 32) % n == x).foldl
        (fun c y => (c + if k.vals then y.v else 1) % 2 ^ 32) 0
    rowsOf ((n + 63) / 64) ((List.range n).map count)
  | .kroute k =>
    let xs := kItems k keys vals
    let e := (kExperts k)
    let sorted := sortItems false (xs.filter fun x => decide (x.k < e)) ++ xs.filter fun x => decide (e ≤ x.k)
    let offs := (List.range (e + 1)).map fun n => (xs.filter fun x => decide (x.k < n)).length
    kOut k (kRows k) sorted ++ rowsOf ((e + 1 + 63) / 64) offs
  | _ => []

/-- The rows a command writes, in number. -/
def sortRows (i : Instr) : Nat :=
  match i with
  | .ksort k | .kmerge k => kBoth k (kRows k)
  | .ktopk k => kBoth k (if k.param.toNat < 256 then ((kTop k) + 63) / 64 else (kRows k))
  | .khist k => (2 ^ (kHistB k) + 63) / 64
  | .kroute k => kBoth k (kRows k) + ((kExperts k) + 1 + 63) / 64
  | _ => 0

/-- The fields of a sort command. -/
def sortArg (i : Instr) : Option SArg :=
  match i with
  | .ksort k | .kmerge k | .ktopk k | .khist k | .kroute k => some k
  | _ => none

/-- The occupancy of a command (15 R357). -/
def sortOcc (i : Instr) : Nat :=
  match i with
  | .ksort k => 16 * (kRows k) + 16
  | .kmerge k => 2 * (kRows k) + 8
  | .ktopk k => (kRows k) + 24
  | .khist k => (kRows k) + 8
  | .kroute k => 2 * (kRows k) + 16
  | _ => 1

/-- Read a window row. -/
def State.sortRow (s : State) (r : Nat) : Row := BitVec.ofNat 2048 (s.inst.sram.nat (256 * r) 256)

/-- Read the next key and value rows; with the last, every destination row becomes visible at issue + P + 4
(R478). -/
def State.kreadStep (s : State) (op : KOp) : State :=
  match sortArg op.i with
  | none => s
  | some k =>
    let q := op.keys.length
    let keys := op.keys ++ [s.sortRow (k.addra.toNat + q)]
    let vals := if k.vals then op.vals ++ [s.sortRow (k.addra.toNat + (kRows k) + q)] else []
    if q + 1 < (kRows k) then s.later 1 (.kread { op with keys := keys, vals := vals })
    else
      let cells := (sortResult op.i keys vals).zipIdx.flatMap fun r =>
        cellsAt (256 * (k.addrd.toNat + r.2)) (r.1.flatMap (bytesOf 4))
      s.atCycle (op.t + sortOcc op.i + 4) (.sram cells .clear)

/-- The illegal operands of a command (R473 to R475). -/
def sortOperandBad (i : Instr) : Option Nat :=
  match i with
  | .kmerge k => if (kRows k) ≤ k.param.toNat % 128 + 1 then some 0x10 else none
  | .ktopk k => if k.param.toNat < 256 ∧ 64 * (kRows k) < (kTop k) then some 0x11 else none
  | .khist k => if 12 < (kHistB k) then some 0x12 else none
  | _ => none

/-- A stop of the sort stream at its command boundary, with its status word (R479). -/
def State.sortTrap (s : State) (sub opnd : Nat) : State :=
  s.takeTrap ⟨0x02, sub, 7, s.stm.pc, s.stm.ncmd, BitVec.ofNat 32 (opnd * 256), 0, none, none⟩

/-- The first group of rows that does not lie in the window: 1 keys, 2 values, 3 destination (R470). -/
def State.sortWindow (s : State) (i : Instr) (k : SArg) : Option Nat :=
  let fits (r n : Nat) : Bool := decide (256 * (r + n) ≤ s.att.limit)
  if !fits k.addra.toNat (kRows k) then some 1
  else if k.vals && !fits (k.addra.toNat + (kRows k)) (kRows k) then some 2
  else if !fits k.addrd.toNat (sortRows i) then some 3
  else none

/-- Issue a sort command. -/
def State.sortIssue (s : State) (i : Instr) (k : SArg) : State :=
  match sortOperandBad i with
  | some sub => s.sortTrap sub 0
  | none =>
    match s.sortWindow i k with
    | some opnd => s.sortTrap 0x14 opnd
    | none => (s.kreadStep ⟨i, s.core.clk, [], []⟩).nextWord 8 (sortOcc i)

/-- `ksort` (R472). -/
def execKsort (k : SArg) (s : State) : Outcome State Fault Refusal := .next (s.sortIssue (.ksort k) k)

/-- `kmerge` (R473). -/
def execKmerge (k : SArg) (s : State) : Outcome State Fault Refusal := .next (s.sortIssue (.kmerge k) k)

/-- `ktopk` (R474). -/
def execKtopk (k : SArg) (s : State) : Outcome State Fault Refusal := .next (s.sortIssue (.ktopk k) k)

/-- `khist` (R475). -/
def execKhist (k : SArg) (s : State) : Outcome State Fault Refusal := .next (s.sortIssue (.khist k) k)

/-- `kroute` (R476). -/
def execKroute (k : SArg) (s : State) : Outcome State Fault Refusal := .next (s.sortIssue (.kroute k) k)

end Sys2Proof.Machine
end

