-- ==== Sys2Proof/Machine/SideCore.lean ====
section
/-! DEFINITION. The loader and storer cores: RV32IMC and the queue extension (08 R196, R197, 20 R480 to
R483), and the illegal encodings of every stream (15 R337). -/

namespace Sys2Proof.Machine

open Host (Outcome)

/-- A register of the side core in focus; `x0` reads zero. -/
def State.xr (s : State) (r : BitVec 5) : Word := if r = 0 then 0 else Tab.get 0 s.core.x (s.cur.eng * 32 + r.toNat)

/-- Write a register; a write to `x0` is discarded. -/
def State.setX (s : State) (r : BitVec 5) (v : Word) : State :=
  if r = 0 then s
  else
    let c := s.core
    s.setCore { c with x := Tab.set c.x (s.cur.eng * 32 + r.toNat) v }

/-- The subcode with which a data access of n bytes is refused, the lowest that applies (R196). -/
def sideAccess (a n : Nat) (write : Bool) : Option Nat :=
  let e := a + n
  let inData := decide (e ≤ 0x4000)
  let inCode := decide (0x80000000 ≤ a) && decide (e ≤ 0x80008000)
  if !inData && !inCode then some 1
  else if write && inData && decide (0x3F00 < e) then some 2
  else if inCode then some 3
  else if a % n ≠ 0 then some 4
  else none

/-- A byte of the data store or of the argument area behind it (R196). -/
def State.sideByte (s : State) (a : Nat) : Byte :=
  if a < 0x3F00 then Memory.byte (Tab.get [] s.core.dstore s.cur.eng) a else s.att.args.getD (a - 0x3F00) 0

/-- n bytes from an address of the data store. -/
def State.sideBytes (s : State) (a n : Nat) : List Byte := (List.range n).map fun i => s.sideByte (a + i)

/-- Write the low n bytes of a word to the data store. -/
def State.sideWrite (s : State) (a n w : Nat) : State :=
  let c := s.core
  s.setCore { c with dstore := Tab.upd [] c.dstore s.cur.eng fun m => Memory.putNat m a n w }

/-- A result into rd, and on to the next instruction. -/
def State.rvOut (s : State) (len : Nat) (rd : BitVec 5) (v : Word) : State := (s.setX rd v).nextSide len

/-- A load (funct3 0 lb, 1 lh, 2 lw, 4 lbu, 5 lhu). -/
def State.rvLoad (s : State) (len : Nat) (f3 : BitVec 3) (rd rs1 : BitVec 5) (imm : BitVec 12) : State :=
  let a := (s.xr rs1 + imm.signExtend 32).toNat
  let n := 2 ^ (f3.toNat % 4)
  match sideAccess a n false with
  | some sub => s.trap 0x13 sub a
  | none =>
    let v := leNat (s.sideBytes a n)
    let w : Word := if f3.toNat < 4 then (BitVec.ofNat (8 * n) v).signExtend 32 else BitVec.ofNat 32 v
    s.rvOut len rd w

/-- A store (funct3 0 sb, 1 sh, 2 sw). -/
def State.rvStore (s : State) (len : Nat) (f3 : BitVec 3) (rs1 rs2 : BitVec 5) (imm : BitVec 12) : State :=
  let a := (s.xr rs1 + imm.signExtend 32).toNat
  let n := 2 ^ f3.toNat
  match sideAccess a n true with
  | some sub => s.trap 0x13 sub a
  | none => (s.sideWrite a n (s.xr rs2).toNat).nextSide len

/-- The ALU function of funct3. -/
def rvAlu (f3 : BitVec 3) (a b : Word) : Word :=
  match f3.toNat with
  | 0 => a + b
  | 1 => sllW a b
  | 2 => boolWord (a.slt b)
  | 3 => boolWord (a.ult b)
  | 4 => a ^^^ b
  | 5 => srlW a b
  | 6 => a ||| b
  | _ => a &&& b

/-- The multiply and divide function of funct3 (RV32M). -/
def rvMulDiv (f3 : BitVec 3) (a b : Word) : Word :=
  match f3.toNat with
  | 0 => a * b
  | 1 => mulHi a.toInt b.toInt
  | 2 => mulHi a.toInt b.toNat
  | 3 => mulHi a.toNat b.toNat
  | 4 => divS a b
  | 5 => divU a b
  | 6 => remS a b
  | _ => remU a b

/-- The branch condition of funct3. -/
def rvTaken (f3 : BitVec 3) (a b : Word) : Bool :=
  match f3.toNat with
  | 0 => a == b
  | 1 => a != b
  | 4 => a.slt b
  | 5 => !a.slt b
  | 6 => a.ult b
  | _ => !a.ult b

/-- The PC of the side core as a word. -/
def State.rvPc (s : State) : Word := BitVec.ofNat 32 s.stm.pc

/-- Go to an address. -/
def State.rvJump (s : State) (target : Word) : State := s.goto target.toNat 1

/-- A base instruction of len bytes (R196, R197). -/
def State.rvRun (s : State) (len : Nat) (op : RvOp) : State :=
  let link : Word := s.rvPc + BitVec.ofNat 32 len
  match op with
  | .lui rd imm => s.rvOut len rd (imm ++ (0 : BitVec 12))
  | .auipc rd imm => s.rvOut len rd (s.rvPc + (imm ++ (0 : BitVec 12)))
  | .jal rd off => (s.setX rd link).rvJump (s.rvPc + 2 * off.signExtend 32)
  | .jalr rd rs1 imm => (s.setX rd link).rvJump ((s.xr rs1 + imm.signExtend 32) &&& 0xFFFFFFFE)
  | .branch f3 rs1 rs2 off =>
    if rvTaken f3 (s.xr rs1) (s.xr rs2) then s.rvJump (s.rvPc + 2 * off.signExtend 32) else s.nextSide len
  | .load f3 rd rs1 imm => s.rvLoad len f3 rd rs1 imm
  | .store f3 rs1 rs2 imm => s.rvStore len f3 rs1 rs2 imm
  | .opImm f3 rd rs1 imm => s.rvOut len rd (rvAlu f3 (s.xr rs1) (imm.signExtend 32))
  | .slli rd rs1 sh => s.rvOut len rd (s.xr rs1 <<< sh.toNat)
  | .srli rd rs1 sh => s.rvOut len rd (s.xr rs1 >>> sh.toNat)
  | .srai rd rs1 sh => s.rvOut len rd ((s.xr rs1).sshiftRight sh.toNat)
  | .op f3 rd rs1 rs2 => s.rvOut len rd (rvAlu f3 (s.xr rs1) (s.xr rs2))
  | .sub rd rs1 rs2 => s.rvOut len rd (s.xr rs1 - s.xr rs2)
  | .sra rd rs1 rs2 => s.rvOut len rd (sraW (s.xr rs1) (s.xr rs2))
  | .mulDiv f3 rd rs1 rs2 => s.rvOut len rd (rvMulDiv f3 (s.xr rs1) (s.xr rs2))
  | .fence | .fenceI => s.nextSide len

/-- An RV32IMC base instruction (R196). -/
def execRv32imcBaseInstruction (compressed : Bool) (op : RvOp) (s : State) : Outcome State Fault Refusal :=
  .next (s.rvRun (if compressed then 2 else 4) op)

/-- The lowest subcode that applies to an illegal word with what its place adds to the encoding (15 R337): `mspz` and `mbsp`
stand for nothing on a DNS core and `lq.cfg` for nothing on a storer core (SUB 1; 19 R454, 20 R480), and LVL and LVLEN are
reserved outside a replay (SUB 2; 19 R445). -/
def State.lowestSub (s : State) (sub : Nat) : Nat :=
  let w := leNat (s.wordAt s.cur.eng s.stm.pc)
  if s.cur.eng = 2 then
    if (w % 64 = 3 ∨ w % 64 = 4) ∧ ¬ s.onSpr then 1
    else if ([2, 3, 4, 5, 8].contains (w % 64) && !s.levelOk (bit w 13) (bf w 10 3)) = true then Nat.min sub 2
    else sub
  else if s.cur.eng = 5 ∧ w % 128 = 0x0B ∧ fld w 12 3 = 5 then 1
  else sub

/-- A word that no instruction's encoding admits, of any stream (15 R337). -/
def execIllegalEncoding (sub : BitVec 8) (s : State) : Outcome State Fault Refusal :=
  .next (s.trap 0x01 (s.lowestSub sub.toNat))

/-- Descriptors pushed by the side core in focus whose accesses have not all performed (R244). -/
def State.pushedOpen (s : State) : Bool :=
  decide (Tab.get 0 s.core.doneN s.cur.eng < Tab.get 0 s.core.pushedN s.cur.eng)

/-- Hold an item back until every descriptor pushed so far has performed (R244, R480). -/
def State.hold (s : State) (a : HeldAct) : State :=
  let c := s.core
  s.setCore { c with held := c.held ++ [⟨s.cur.eng, Tab.get 0 c.pushedN s.cur.eng, a⟩] }

/-- `ecall` (R197): an arrival with `a0`'s number and final flag, held back where descriptors are open
(R244). -/
def execEcall (s : State) : Outcome State Fault Refusal :=
  let a0 := (s.xr 10).toNat
  let num := a0 % 16
  let fin := a0 / 16 % 2 == 1
  let s1 := s.nextSide 4
  if s.pushedOpen then
    .next ((s1.setStm { s1.stm with meet := .withheld }).hold (.arrive num fin))
  else .next (s1.setStm { s1.stm with meet := .arrived s.stm.pc num fin false })

/-- `ebreak` (R197); re-executed after a debug stop it raises nothing (14 R329). -/
def execEbreak (compressed : Bool) (s : State) : Outcome State Fault Refusal :=
  if s.skipsDebug then .next (s.nextSide (if compressed then 2 else 4)) else .next (s.trap 0x16 2)

/-- The 16 bytes that an extension instruction reads, or the subcode of its access fault (R480). -/
def State.sideBlock (s : State) (rs1 : BitVec 5) : Except Nat (BitVec 128) :=
  let a := (s.xr rs1).toNat
  match sideAccess a 16 false with
  | some sub => .error sub
  | none => .ok (BitVec.ofNat 128 (leNat (s.sideBytes a 16)))

/-- R483: the subcode with which a descriptor is refused, the lowest that applies. -/
def descBad (storer : Bool) (w : BitVec 128) : Option Nat :=
  let n := w.toNat
  let scale := fld n 106 1 == 1
  let dec := fld n 107 1 == 1
  if fld n 101 3 ≠ 0 ∨ fld n 108 4 ≠ 0 ∨ fld n 112 16 ≠ 0 ∨ (storer && (scale || dec)) ∨
      (fld n 100 1 ≠ 0 ∧ !scale) then some 2
  else if (scale && dec) ∨ (scale ∧ fld n 104 2 ≠ 0) ∨ fld n 0 5 ≠ 0 ∨ fld n 64 5 ≠ 0 then some 3
  else none

/-- Rows or entries of a descriptor (R482). -/
def descRows (w : BitVec 128) : Nat := fld w.toNat 96 5 + 1

/-- A descriptor names the scale queue. -/
def descScale (w : BitVec 128) : Bool := fld w.toNat 106 1 == 1

/-- Push a descriptor to the address queue of the side core in focus, with LQCFG as it stands (R481). -/
def State.pushDesc (s : State) (w : BitVec 128) : State :=
  let c := s.core
  let d : Desc := ⟨w, (Tab.get 0 c.lqcfg (fld w.toNat 104 2)).toNat % 64⟩
  let c1 : Core := { c with pushedN := Tab.upd 0 c.pushedN s.cur.eng (· + 1) }
  if s.cur.eng = 4 then
    let n := if descScale w then descRows w else 0
    s.setCore { c1 with laq := c.laq.push [d], scaleOut := c.scaleOut + n, scaleNew := c.scaleNew + n }
  else s.setCore { c1 with saq := c.saq.push [d] }

/-- The address queue of the side core in focus. -/
def State.addrQ (s : State) : Fifo Desc := if s.cur.eng = 4 then s.core.laq else s.core.saq

/-- `aq.push` (R480, R483). -/
def execAqPush (rs1 : BitVec 5) (s : State) : Outcome State Fault Refusal :=
  match s.sideBlock rs1 with
  | .error sub => .next (s.trap 0x13 sub (s.xr rs1).toNat)
  | .ok w =>
    match descBad (s.cur.eng == 5) w with
    | some sub => .next (s.trap 0x01 sub)
    | none =>
      if 64 ≤ s.addrQ.taken then .next (s.stalled 1 (if s.cur.eng = 4 then 0x40 else 0x41))
      else .next ((s.pushDesc w).nextSide 4)

/-- `aq.stat` (R480). -/
def execAqStat (rd _rs1 : BitVec 5) (s : State) : Outcome State Fault Refusal :=
  let n := s.addrQ.size
  .next (s.rvOut 4 rd (BitVec.ofNat 32 (n * 256 + (64 - n))))

/-- `tk.post`: held back where descriptors are open (R244, R480). -/
def execTkPost (tok : BitVec 4) (rs1 : BitVec 5) (s : State) : Outcome State Fault Refusal :=
  let n := (s.xr rs1).toNat % 65536
  if s.pushedOpen then .next ((s.hold (.post tok.toNat n s.stm.pc)).nextSide 4)
  else .next ((s.post tok.toNat n).nextSide 4)

/-- `tk.wait` (R480). -/
def execTkWait (tok : BitVec 4) (rs1 : BitVec 5) (s : State) : Outcome State Fault Refusal :=
  let n := s.stm.latch.getD ((s.xr rs1).toNat % 65536)
  match s.takeToken tok.toNat n with
  | some s' => .next (s'.nextSide 4)
  | none =>
    let s1 := s.stalled 1 (0x20 + tok.toNat)
    .next (s1.setStm { s1.stm with latch := some n })

/-- `cyc.rd` (R480). -/
def execCycRd (rd : BitVec 5) (hi : Bool) (s : State) : Outcome State Fault Refusal :=
  let c := s.core
  if hi then .next (s.rvOut 4 rd (Tab.get 0 c.cycHi s.cur.eng))
  else
    let s1 := s.setCore { c with cycHi := Tab.set c.cycHi s.cur.eng (BitVec.ofNat 32 (s.time / 2 ^ 32)) }
    .next (s1.rvOut 4 rd (BitVec.ofNat 32 s.time))

/-- `lq.cfg`: illegal on the storer core; bits [31:6] are ignored (R480, R481). -/
def execLqCfg (q : BitVec 2) (rs1 : BitVec 5) (s : State) : Outcome State Fault Refusal :=
  if s.cur.eng = 5 then .next (s.trap 0x01 1)
  else
    let c := s.core
    .next ((s.setCore { c with lqcfg := Tab.set c.lqcfg q.toNat (s.xr rs1 &&& 0x3F) }).nextSide 4)

/-- A `stg.dec` whose parameter block is malformed fails the attempt at the push, with a QHEAD record whose
PC names the `stg.dec` (R494, R304). -/
def State.badBlock (s : State) (w : BitVec 128) (pc : Nat) : State :=
  let r := s.trapRec ⟨0x02, 0x16, s.cur.eng, pc, 0, 0, 0, none, none⟩ true (bytesOf 16 w.toNat)
  s.headFail r

/-- A stage command of a side core whose checks have passed: it waits for room, then enters the queue, or is
held back where descriptors are open or something earlier of that core is (R480). -/
def State.sideStage (s : State) (w : BitVec 128) (dec : Bool) : State :=
  if !s.stageRoom then s.stalled 2 0x06
  else if s.pushedOpen || s.core.held.any (fun h => h.eng == s.cur.eng) then (s.hold (.stage (bytesOf 16 w.toNat) dec s.stm.pc)).nextSide 4
  else
    let b := if dec then s.decodeBlock w else []
    if dec && !b.isEmpty && blockBad b then (s.badBlock w s.stm.pc).nextSide 4
    else (s.pushStage ⟨w, dec, s.cur.eng, b⟩).nextSide 4

/-- `stg.issue` (R480, R487). -/
def execStgIssue (rs1 : BitVec 5) (s : State) : Outcome State Fault Refusal :=
  match s.sideBlock rs1 with
  | .error sub => .next (s.trap 0x13 sub (s.xr rs1).toNat)
  | .ok w =>
    match stageBad w with
    | some sub => .next (s.trap 0x01 sub)
    | none => .next (s.sideStage w false)

/-- `stg.dec` (R480, R494). -/
def execStgDec (rs1 : BitVec 5) (s : State) : Outcome State Fault Refusal :=
  match s.sideBlock rs1 with
  | .error sub => .next (s.trap 0x13 sub (s.xr rs1).toNat)
  | .ok w =>
    match decodeBad w with
    | some sub => .next (s.trap 0x01 sub)
    | none => .next (s.sideStage w true)

end Sys2Proof.Machine
end

