-- ==== Sys2Proof/Machine/DataPath.lean ====
section
/-! DEFINITION. What arrives at a core from outside it and what its data paths do: scalar data, the loader and
storer data paths, and the side cores' held-back items (08 R186, R198, R199, R221, 10 R244, 13 R304,
14 R324, 20 R480 to R485). -/

namespace Sys2Proof.Machine

open Host (Outcome)

/-! Reuse distances (14 R324) -/

/-- The L2 of the chiplet in focus is looked up for a line: for every one by the stage engine, for those that its
cluster's L1 lacks by a core (09 R206, R215); lent extents are not cached there (04 R89). -/
def State.lookups (s : State) (stage : Bool) (b off n : Nat) : State :=
  if !s.cached b then s
  else (pieces b off n).foldl
    (fun s p =>
      let hit := match s.line1 s.cur.cluster p.1 with
        | some l => (List.range p.2.2).all fun i => l.has (p.2.1 + i)
        | none => false
      if !stage && hit then s else s.lookup s.cur.site s.job.att p.1)
    s

/-- A register that reaches 2^20 lookups without reuse adds to bucket 15 and is freed (R324).  The focus
names the site and the register. -/
def execReuseRegisterExpiry (s : State) : Outcome State Fault Refusal :=
  let x := s.site s.cur.site
  match Tab.find x.tags s.cur.core with
  | some r =>
    if r.d < 2 ^ 20 then .next s
    else .next ((s.setAttempt r.att ((s.attempt r.att).bucket 15)).setSite s.cur.site
      { x with tags := Tab.erase x.tags s.cur.core })
  | none => .next s

/-! Scalar data (08 R186) -/

/-- The value that a load of n bytes writes. -/
def LoadRec.value (r : LoadRec) (old : Nat) : DWord :=
  if r.sx then (BitVec.ofNat (8 * r.n) old).signExtend 64 else BitVec.ofNat 64 old

/-- The data of the load in focus has arrived. -/
def State.arrived (s : State) (r : LoadRec) (old : Nat) : State :=
  s.setCore { s.core with load := some { r with v := r.value old, arrived := true } }

/-- The order that a load or atomic has once its old value is known: a `cas` that fails has its failure order (10
R239). -/
def LoadRec.orderOn (r : LoadRec) (old : Nat) : Nat :=
  if r.op == .cas && (r.op.new r.n old r.arg r.expect).isNone then r.order / 4 % 4 else r.order % 4

/-- A load or atomic has acquire order. -/
def acqOrder (o : Nat) : Bool := o % 2 == 1

/-- It has release order. -/
def LoadRec.rel (r : LoadRec) : Bool := r.op != .read && decide (2 ≤ r.order % 4)

/-- The acquire set of a load or atomic to a buffer (10 R232, R237). -/
def State.acquiring (s : State) (r : LoadRec) (b b' : Nat) : Bool := s.att.acquires (some b) (r.mask.getD 0) b'

/-- A load of n bytes performs (R373, 10 R227, R232): a relaxed one through its cluster's L1; one with acquire order at
its scope's point of coherence, after the lines of its acquire set are dropped above that. -/
def State.performLoad (s : State) (r : LoadRec) (b off : Nat) : State :=
  let c := s.cur.cluster
  let v := s.vfOf s.att
  let acq := acqOrder r.order && decide (3 ≤ r.scope)
  let s1 := if acq then (s.acquireAt c r.scope (s.acquiring r b)).toPoint c r.scope b off r.n else s
  let bad := if acq && decide (4 ≤ r.scope) then (s1.buf b).badAt off r.n else s1.bad1 c b off r.n
  if bad then s.failAtt 3 0 0
  else
    let s2 := if acq && decide (4 ≤ r.scope) then s1 else s1.lookups false b off r.n
    let x :=
      if !s2.cached b || (acq && decide (4 ≤ r.scope)) then (s2.readFar v r.n, (s2.buf b).mem.bytes off r.n)
      else if acq then s2.readL2 (c / 32) v b off r.n
      else s2.readL1 c v b off r.n
    x.1.arrived r (leNat x.2)

/-- An atomic performs (R376 to R378, 09 R208, 10 R238): its cluster's L1 gives the line up, and it reads, computes and
writes at the L2 slice of its chiplet up to chiplet scope, at the memory chiplet beyond and for a lent extent; its
release comes before and its acquire after. -/
def State.performAtomic (s : State) (r : LoadRec) (b off : Nat) : State :=
  let c := s.cur.cluster
  let v := s.vfOf s.att
  let far := decide (4 ≤ r.scope) || !s.cached b
  let s1 := (if r.rel then s.releaseAt c r.scope else s).toPoint c (if far then 4 else 3) b off r.n
  if (if far then (s1.buf b).badAt off r.n else s1.bad2 (c / 32) b off r.n) then s.failAtt 3 0 0
  else
    let x := if far then ((s1.shared v 106 1).readFar v r.n, (s1.buf b).mem.bytes off r.n)
      else (s1.lookups true b off r.n).readL2 (c / 32) v b off r.n
    let old := leNat x.2
    let s2 := x.1.arrived r old
    let s3 := match r.op.new r.n old r.arg r.expect with
      | some w =>
        let bs := leBytes r.n w
        (if far then (s2.wroteFar v r.n).writeBuf b off bs else s2.writeL2 c v b off bs).jobLog s.att b off r.n
      | none => s2
    if acqOrder (r.orderOn old) then s3.acquireAt c r.scope (s3.acquiring r b) else s3

/-- A request to a peer package failed (01 R33, R34): its port counts it and the issuing node fails. -/
def State.peerFails (s : State) (p eng : Nat) : State :=
  let x := s.port p
  (s.setPort p { x with fail := satAdd x.fail 1 }).failAtt 7 0 eng

/-- A port carries traffic (01 R34). -/
def PeerPort.up (x : PeerPort) : Bool := x.state == 2 || x.state == 3

/-- An answer has come to the request of the core in focus for an address, or of its control stream. -/
def State.answered (s : State) (addr : Option Nat) (x : PeerAnswer) : Bool :=
  decide (x.at_ ≤ s.time) && x.site == s.cur.site && x.core == s.cur.core && x.addr == addr

/-- What a peer package has answered to that request: bytes, or a refusal. -/
def State.reply (s : State) (addr : Option Nat) : Option (Option (List Byte)) := (s.replies.find? (s.answered addr)).map (·.data)

/-- That answer is taken. -/
def State.tookReply (s : State) (addr : Option Nat) : State := { s with replies := s.replies.eraseP (s.answered addr) }

/-- A remote atomic (01 R33, R378): it is sent once, with its release before it, as soon as its port carries traffic, and
the peer's answer is its data; a refusal, or a port that is down, fails the node. -/
def State.remoteAtomic (s : State) (r : LoadRec) (p b off : Nat) : State :=
  let c := s.cur.cluster
  if r.asked then
    match s.reply none with
    | none => s
    | some none => (s.tookReply none).peerFails p 0
    | some (some bs) =>
      let old := leNat (bs.take r.n)
      let s1 := (s.tookReply none).arrived r old
      if acqOrder (r.orderOn old) then s1.acquireAt c 5 (s1.acquiring r b) else s1
  else if r.rel && s.homeLate then s
  else if (s.port p).state = 0 then s.peerFails p 0
  else if !(s.port p).up then s
  else
    let s1 := if r.rel then s.releaseAt c 5 else s
    (s1.setCore { s1.core with load := some { r with asked := true } }).send (.peerAtomic p b off r.n r.op r.arg r.expect)

/-- A scalar load's, atomic's or `acq`'s data arrives (R186): the access performs now, once its translation is there,
its turn at the home has come and what orders it has performed (04 R88, R89, 09 R219, R379); an uncorrectable error
delivers nothing and fails the attempt (R225).  A remote atomic takes its peer's answer.  The argument block's data comes
at once, with the acquire set that an `acq` names. -/
def execScalarLoadArrival (s : State) : Outcome State Fault Refusal :=
  let c := s.core
  match c.load with
  | none => .next s
  | some r =>
    if r.arrived then .next s
    else
      match r.at_ with
      | .args off =>
        let s1 := s.arrived r (argNat s.att.args off r.n)
        .next (if acqOrder r.order then s1.acquireAt s.cur.cluster r.scope (s.att.acquires none (r.mask.getD 0)) else s1)
      | .buf b off =>
        let wr := r.op != .read
        let me : Actor := { s.cur with eng := 0 }
        let at_ := [(b, off, r.n)]
        if s.fencedCore s.cur.id then .next s
        else
          match (s.buf b).peer with
          | some p => .next (s.remoteAtomic r p b off)
          | none =>
            if r.rel && decide (r.scope = 5) && s.homeLate then .next s
            else if !s.translated s.cur.cluster s.att.part b off r.n then
              .next (s.walkAll s.cur.cluster s.att.part b off r.n (s.vfOf s.att))
            else if !s.homeTurn (· == me) wr at_ then .next (s.waitHome me wr at_)
            else
              let t := s.leaveHome (· == me) wr at_
              if t.lostAt b off r.n then .next (t.failAtt 7 0 0)
              else if wr then .next (t.performAtomic r b off)
              else .next (t.performLoad r b off)

/-! Queue heads (13 R304) -/

/-- A fault of the core in focus at the head of a queue of an engine waits in the Tahr's order already. -/
def State.headWaits (s : State) (eng : Nat) : Bool :=
  (Tab.get [] s.tahr s.cur.cluster).any fun i => i.core == s.cur.id && i.rec_.qhead && i.rec_.engine == eng

/-- A fault at a queue head: a translation fault enters the Tahr's order, any other fails the attempt
(R304). -/
def State.headTrap (s : State) (cause sub eng : Nat) (word : List Byte) (addr : Nat) (chunk : Option (Nat × Nat)) :
    State :=
  if cause = 0x06 ∧ sub = 1 then s.headFault cause sub eng word addr chunk
  else s.headFail (s.trapRec ⟨cause, sub, eng, 0, 0, 0, addr, chunk, none⟩ true word)

/-- A fault found while a queue head is checked: cause, subcode, address and chunk; a failure of R116 by
its CAUSE; or a wait, for its turn at the homes of some spans, for a translation, or for a peer package's answer. -/
inductive HeadFault
  | trap (cause sub addr : Nat) (chunk : Option (Nat × Nat))
  | fail (cause : Nat)
  | wait (spans : List (Nat × Nat × Nat))
  | walk (b off n : Nat)
  | peer (port addr b off n : Nat)
  deriving DecidableEq, Repr

/-- The TLB that serves a core's data paths, or its chiplet's stage engine (09 R219). -/
def State.pathTlb (s : State) (stage : Bool) : Nat := if stage then stageTlb s.cur.site else s.cur.cluster

/-- A data path of a core, or its stage transfers, as they wait at homes. -/
def State.pathWho (s : State) (stage wr : Bool) : Actor := { s.cur with eng := if stage then 6 else if wr then 5 else 4 }

/-- The access of bytes of a slot's buffer that was revoked while the access waited at the home (04 R86). -/
def State.heldAccess (s : State) (stage : Bool) (slot off n : Nat) (wr : Bool) : Option Access :=
  match s.att.binds[slot - 0xFFE0]? with
  | some b =>
    if 0xFFE0 ≤ slot ∧ s.placed (· == s.pathWho stage wr) wr (b.buf, off, n) = true then some (.buf b.buf off) else none
  | none => none

/-- n bytes at a device address offset, read or written by a data path or by the stage engine: the checks of R205, then
the translation and the home of the bytes.  An offset outside its 48 bits lies beyond every SIZE.  Only the stage
engine reaches a buffer homed on a peer package (01 R32; log 29). -/
def State.pathCheck (s : State) (stage : Bool) (slot : Nat) (off : Int) (n : Nat) (wr : Bool) : Except HeadFault Access :=
  let a := slot * 2 ^ 48 + (off % 2 ^ 48).toNat
  if off < 0 ∨ 2 ^ 48 ≤ off + n then
    match s.access (slot * 2 ^ 48) 0 0 (!wr) wr false with
    | .trap c sub ch => .error (.trap c sub a ch)
    | _ => .error (.trap 0x04 5 a none)
  else
    let x := s.access a n 0 (!wr) wr false
    match (if x = .trap 0x04 3 none then (s.heldAccess stage slot off.toNat n wr).getD x else x) with
    | .trap 0x06 1 (some (b, k)) =>
      .error (if s.walkFound (s.pathTlb stage) s.att.part b k then .trap 0x06 1 a (some (b, k)) else .walk b (k * (s.buf b).chunkSize) 1)
    | .trap c sub ch => .error (.trap c sub a ch)
    | .args o => .ok (.args o)
    | .buf b o =>
      match (s.buf b).peer with
      | some p => .error (if stage then .peer p a b o n else .fail 7)
      | none =>
        if s.lostAt b o n then .error (.fail 7)
        else if !s.translated (s.pathTlb stage) s.att.part b o n then .error (.walk b o n)
        else if !s.homeTurn (· == s.pathWho stage wr) wr [(b, o, n)] then .error (.wait [(b, o, n)])
        else if !wr && (if stage then s.bad2 s.cur.site b o n else s.bad1 s.cur.cluster b o n) then .error (.fail 3)
        else .ok (.buf b o)

/-- n bytes of an accessed place as a data path or the stage engine sees them (09 R206). -/
def State.seenAt (s : State) (stage : Bool) (x : Access) (n : Nat) : List Byte :=
  match x with
  | .buf b off =>
    if !s.cached b then (s.buf b).mem.bytes off n
    else if stage then s.bytes2 s.cur.site b off n
    else s.bytes1 s.cur.cluster b off n
  | x => s.bytesAt x n

/-- What a read of n bytes of a place leaves: its place at the home is given up, and the caches (09 R207, R215) and reuse
registers take it. -/
def State.fillAt (s : State) (stage : Bool) (x : Access) (n : Nat) : State :=
  match x with
  | .buf b off =>
    let s1 := (s.leaveHome (· == s.pathWho stage false) false [(b, off, n)]).lookups stage b off n
    let v := s.vfOf s.att
    (if stage then s1.readL2 s.cur.site v b off n else s1.readL1 s.cur.cluster v b off n).1
  | _ => s

/-- The fields of a descriptor (R482). -/
def Desc.slot (d : Desc) : Nat := slotOf (fld d.w.toNat 0 64)
def Desc.off (d : Desc) : Nat := offOf (fld d.w.toNat 0 64)
def Desc.stride (d : Desc) : Int := (BitVec.ofNat 32 (fld d.w.toNat 64 32)).toInt
def Desc.q (d : Desc) : Nat := fld d.w.toNat 104 2
def Desc.dec (d : Desc) : Bool := fld d.w.toNat 107 1 == 1

/-- The offset of row r. -/
def Desc.rowOff (d : Desc) (r : Nat) : Int := d.off + r * d.stride

/-- The number of the buffer that a node-relative slot binds. -/
def State.slotBind (s : State) (slot : Nat) : Option Nat :=
  if 0xFFE0 ≤ slot ∧ slot < 0xFFFF then (s.att.binds[slot - 0xFFE0]?).map (·.buf) else none

/-- The buffer that a node-relative slot binds, where it binds one. -/
def State.slotBuf (s : State) (slot : Nat) : Option Buffer :=
  if 0xFFE0 ≤ slot ∧ slot < 0xFFFF then (s.att.binds[slot - 0xFFE0]?).map fun b => s.buf b.buf else none

/-- The fields of ATTR (03 R71). -/
def attrFmt (a : Nat) : Nat := fld a 2 6
def attrCoded (a : Nat) : Bool := fld a 11 1 == 1
def attrZs (a : Nat) : Bool := fld a 12 1 == 1

/-- An element code widened to a 32-bit lane value (R222): integers extended, floating formats to FP32. -/
def widenWord (w : Word) (code : Nat) : Nat :=
  let k := descKind w
  if k = 4 ∨ k = 5 ∨ k = 6 ∨ k = 7 then (BitVec.ofInt 32 (descWiden w code).toInt).toNat
  else (roundFp32 .rne 0 (descWiden w code)).toNat

/-- A row of 64 lanes. -/
def rowOf (xs : List Nat) : Row :=
  BitVec.ofNat 2048 (xs.zipIdx.foldl (fun acc x => acc + x.1 * 2 ^ (32 * x.2)) 0)

/-- A packed element of w bits at an index. -/
def packedAt (bs : List Byte) (w i : Nat) : Nat :=
  leNat ((bs.drop (i * w / 8)).take ((w + 7) / 8)) / 2 ^ (i * w % 8) % 2 ^ w

/-- A decode-on descriptor that no format can serve (R484). -/
def Desc.formatBad (d : Desc) (attr idx : Nat) (desc : Word) : Bool :=
  let k := descKind desc
  decide (idx = 0) || decide (k = 0) || attrCoded attr || decide (k = 8) || decide (k = 10) ||
    (attrZs attr && (decide (fld d.w.toNat 72 24 ≠ 0) || decide (255 < fld d.w.toNat 64 8 + fld d.w.toNat 96 5) ||
      decide (d.off % 256 ≠ 0)))

/-- The rows of a list of checks, or the first fault. -/
def firstFault (xs : List (Except HeadFault α)) : Except HeadFault (List α) :=
  xs.foldr (fun x acc => match x with | .error f => .error f | .ok a => acc.map (a :: ·)) (.ok [])

/-- The rows of a zero-suppressed source (R484), lane rows of the expanded tile, and what was read. -/
def State.zsRows (s : State) (d : Desc) (idx : Nat) (desc : Word) (attr : Nat) :
    Except HeadFault (List AccRow × List (Access × Nat)) := do
  let x ← s.pathCheck false d.slot d.off 128 false
  let len := leNat ((s.seenAt false x 128).drop 4 |>.take 4)
  let eb := descSlot desc / 8
  let sane := decide (len % 128 = 0) && decide (128 ≤ len) && decide (len ≤ 128 * zsSectors 4 16384)
  let y ← if sane then s.pathCheck false d.slot d.off len false else .ok x
  let bad : HeadFault := .trap 0x0A 6 0 none
  if d.formatBad attr idx desc then .error (.trap 0x09 0 0 none)
  else
    match if sane then zsDecode idx eb (s.seenAt false y len) else none with
    | none => .error bad
    | some codes =>
      let f := fld d.w.toNat 64 8
      .ok ((List.range (descRows d.w)).map fun r =>
        let at_ := 128 * ((f + r) / 2) + 64 * ((f + r) % 2)
        (rowOf (((codes.drop at_).take 64).map (widenWord desc))).setWidth 4096, [(y, len)])

/-- The bytes of a descriptor's rows, as spans of buffers. -/
def State.rowSpans (s : State) (d : Desc) (n len : Nat) (wr : Bool) : List (Nat × Nat × Nat) :=
  (List.range n).filterMap fun r =>
    match s.access (d.slot * 2 ^ 48 + (d.rowOff r % 2 ^ 48).toNat) len 0 (!wr) wr false with
    | .buf b o => some (b, o, len)
    | _ => none

/-- The checks of a descriptor's rows of len bytes, in their order; rows that have to wait at homes wait there together. -/
def State.rowsCheck (s : State) (d : Desc) (n len : Nat) (wr : Bool) : Except HeadFault (List Access) :=
  match firstFault ((List.range n).map fun r => s.pathCheck false d.slot (d.rowOff r) len wr) with
  | .error (.wait _) => .error (.wait (s.rowSpans d n len wr))
  | x => x

/-- The rows or entries that the loader data path's head descriptor delivers and what it reads, or its fault (R222,
R484). -/
def State.loaderRows (s : State) (d : Desc) : Except HeadFault (List AccRow × List (Access × Nat)) :=
  let n := descRows d.w
  let rows (len : Nat) (f : Access → AccRow) : Except HeadFault (List AccRow × List (Access × Nat)) :=
    (s.rowsCheck d n len false).map
      fun xs => (xs.map f, xs.map fun x => (x, len))
  if descScale d.w then rows 512 fun x => BitVec.ofNat 4096 (leNat (s.seenAt false x 512))
  else if !d.dec then rows 256 fun x => BitVec.ofNat 4096 (leNat (s.seenAt false x 256))
  else
    let attr := ((s.slotBuf d.slot).map (·.attr.toNat)).getD 0
    let idx := if attrFmt attr = 0 then d.fmt else attrFmt attr
    let desc := s.desc idx
    if attrZs attr then s.zsRows d idx desc attr
    else
      let w := if descSlot desc = 0 then 32 else descSlot desc
      match rows (8 * w) fun x =>
          let bs := s.seenAt false x (8 * w)
          (rowOf ((List.range 64).map fun l => widenWord desc (packedAt bs w l))).setWidth 4096 with
      | .error f => .error f
      | .ok xs => if d.formatBad attr idx desc then .error (.trap 0x09 0 0 none) else .ok xs

/-- A queue head met a fault, a failure or a wait. -/
def State.headFaulted (s : State) (eng : Nat) (word : BitVec 128) (f : HeadFault) (wr : Bool) : State :=
  match f with
  | .trap c sub a ch => s.headTrap c sub eng (bytesOf 16 word.toNat) a ch
  | .fail c => s.failAtt c 0 0
  | .wait sp => s.waitHome (s.pathWho false wr) wr sp
  | .walk b off n => s.walkAll s.cur.cluster s.att.part b off n (s.vfOf s.att)
  | .peer _ _ _ _ _ => s

/-- Rows on their way to an lq, or to the scale queue. -/
def Core.onWay (c : Core) (scale : Bool) (q : Nat) : Nat :=
  (c.lflight.filter fun x => x.scale == scale && (scale || x.q == q)).length

/-- The loader's target has room for every row, counting reserved ones (R198). -/
def Core.loaderRoom (c : Core) (d : Desc) : Bool :=
  if descScale d.w then decide (c.scaleQ.size + c.onWay true 0 + descRows d.w ≤ 32)
  else decide ((Tab.get Fifo.empty c.lq d.q).size + c.onWay false d.q + descRows d.w ≤ 16)

/-- A core whose data paths can act: it runs a job and is not frozen. -/
def Core.live? (c : Core) : Bool := c.job.isSome && !c.frozen

/-- The loader data path translates and issues its head descriptor (R198, R199). -/
def execLoaderDescriptorIssue (s : State) : Outcome State Fault Refusal :=
  let c := s.core
  match c.laq.items with
  | [] => .next s
  | d :: rest =>
    if !c.live? || s.headWaits 4 then .next s
    else
      match s.loaderRows d with
      | .error f => .next (s.headFaulted 4 d.w f false)
      | .ok (rows, reads) =>
        if !c.loaderRoom d then .next s
        else
          let fl := rows.zipIdx.map fun x => (⟨descScale d.w, d.q, x.1, decide (x.2 + 1 = rows.length)⟩ : Inflight)
          let s1 := s.setCore { c with laq := { c.laq with items := rest }, lflight := c.lflight ++ fl }
          .next (reads.foldl (fun s x => s.fillAt false x.1 x.2) s1)

/-- The next row or entry of the loader's descriptors enters its queue (R198); traffic for a frozen core is
held (13 R298). -/
def execLqRowArrival (s : State) : Outcome State Fault Refusal :=
  let c := s.core
  match c.lflight with
  | [] => .next s
  | x :: rest =>
    if !c.live? then .next s
    else
      let c1 : Core := { c with lflight := rest, doneN := if x.last then Tab.upd 0 c.doneN 4 (· + 1) else c.doneN }
      if x.scale then
        .next (s.setCore { c1 with scaleQ := { c.scaleQ with items := c.scaleQ.items ++ [x.row] }, scaleOut := c.scaleOut - 1 })
      else
        let add (q : Fifo Row) : Fifo Row := { q with items := q.items ++ [x.row.setWidth 2048] }
        .next (s.setCore { c1 with lq := Tab.upd Fifo.empty c.lq x.q add })

/-- The storer data path writes its head descriptor's rows once its sq holds them (R198, R485). -/
def execStorerDescriptorIssue (s : State) : Outcome State Fault Refusal :=
  let c := s.core
  match c.saq.items with
  | [] => .next s
  | d :: rest =>
    let n := descRows d.w
    let q := Tab.get Fifo.empty c.sq d.q
    if !c.live? || s.headWaits 5 then .next s
    else
      match s.rowsCheck d n 256 true with
      | .error f => .next (s.headFaulted 5 d.w f true)
      | .ok xs =>
        if q.items.length < n then .next s
        else
          let c1 : Core :=
            { c with
              saq := { c.saq with items := rest }
              sq := Tab.set c.sq d.q { q with items := q.items.drop n }
              doneN := Tab.upd 0 c.doneN 5 (· + 1) }
          let put (s : State) (x : Access × Row) : State :=
            match x.1 with
            | .buf b off =>
              let s1 := s.leaveHome (· == s.pathWho false true) true [(b, off, 256)]
              (s1.inTurn fun s => s.writeL1 s.cur.cluster (s.vfOf s.att) b off (bytesOf 256 x.2.toNat) s.job.att).jobLog s.att b off 256
            | _ => s
          .next ((xs.zip (q.items.take n)).foldl put (s.setCore c1))

/-! Held-back items of the side cores (10 R244, 20 R480) -/

/-- A held-back item takes effect; a stage command that finds no room stays. -/
def State.heldAct (s : State) (h : Held) : Option State :=
  match h.act with
  | .post tok n pc =>
    let c := s.core
    some (if n = 0 then s else s.setCore { c with posts := c.posts ++ [⟨h.eng, pc, 0, tok, n, none⟩] })
  | .arrive num fin =>
    let t := s.stm
    some (s.setStm { t with meet := .arrived (t.pc - 4) num fin false })
  | .stage cmd dec pc =>
    let w := BitVec.ofNat 128 (leNat cmd)
    if !s.stageRoom then none
    else if !dec then some (s.pushStage ⟨w, false, s.cur.eng, []⟩)
    else
      let b := s.decodeBlock w
      if !b.isEmpty && blockBad b then some (s.badBlock w pc) else some (s.pushStage ⟨w, true, s.cur.eng, b⟩)

/-- A side core's oldest held-back item takes effect once its earlier descriptors have performed (R244). -/
def execSideCoreHeldRelease (s : State) : Outcome State Fault Refusal :=
  let c := s.core
  match c.held.find? fun h => h.eng == s.cur.eng with
  | none => .next s
  | some h =>
    if !c.live? || decide (Tab.get 0 c.doneN h.eng < h.after) then .next s
    else
      match s.heldAct h with
      | none => .next s
      | some s1 =>
        let c1 := s1.core
        .next (s1.setCore { c1 with held := c1.held.erase h })

end Sys2Proof.Machine
end

