-- ==== Sys2Proof/Machine/Sha512.lean ====
section
/-! DEFINITION. SHA-512 (00 R3) and the tree root of a byte range (07 R160). -/

namespace Sys2Proof.Machine

/-- The first 40 round constants. -/
def sha512K0 : List (BitVec 64) :=
  [0x428A2F98D728AE22, 0x7137449123EF65CD, 0xB5C0FBCFEC4D3B2F, 0xE9B5DBA58189DBBC,
   0x3956C25BF348B538, 0x59F111F1B605D019, 0x923F82A4AF194F9B, 0xAB1C5ED5DA6D8118,
   0xD807AA98A3030242, 0x12835B0145706FBE, 0x243185BE4EE4B28C, 0x550C7DC3D5FFB4E2,
   0x72BE5D74F27B896F, 0x80DEB1FE3B1696B1, 0x9BDC06A725C71235, 0xC19BF174CF692694,
   0xE49B69C19EF14AD2, 0xEFBE4786384F25E3, 0x0FC19DC68B8CD5B5, 0x240CA1CC77AC9C65,
   0x2DE92C6F592B0275, 0x4A7484AA6EA6E483, 0x5CB0A9DCBD41FBD4, 0x76F988DA831153B5,
   0x983E5152EE66DFAB, 0xA831C66D2DB43210, 0xB00327C898FB213F, 0xBF597FC7BEEF0EE4,
   0xC6E00BF33DA88FC2, 0xD5A79147930AA725, 0x06CA6351E003826F, 0x142929670A0E6E70,
   0x27B70A8546D22FFC, 0x2E1B21385C26C926, 0x4D2C6DFC5AC42AED, 0x53380D139D95B3DF,
   0x650A73548BAF63DE, 0x766A0ABB3C77B2A8, 0x81C2C92E47EDAEE6, 0x92722C851482353B]

/-- The last 40 round constants. -/
def sha512K1 : List (BitVec 64) :=
  [0xA2BFE8A14CF10364, 0xA81A664BBC423001, 0xC24B8B70D0F89791, 0xC76C51A30654BE30,
   0xD192E819D6EF5218, 0xD69906245565A910, 0xF40E35855771202A, 0x106AA07032BBD1B8,
   0x19A4C116B8D2D0C8, 0x1E376C085141AB53, 0x2748774CDF8EEB99, 0x34B0BCB5E19B48A8,
   0x391C0CB3C5C95A63, 0x4ED8AA4AE3418ACB, 0x5B9CCA4F7763E373, 0x682E6FF3D6B2B8A3,
   0x748F82EE5DEFB2FC, 0x78A5636F43172F60, 0x84C87814A1F0AB72, 0x8CC702081A6439EC,
   0x90BEFFFA23631E28, 0xA4506CEBDE82BDE9, 0xBEF9A3F7B2C67915, 0xC67178F2E372532B,
   0xCA273ECEEA26619C, 0xD186B8C721C0C207, 0xEADA7DD6CDE0EB1E, 0xF57D4F7FEE6ED178,
   0x06F067AA72176FBA, 0x0A637DC5A2C898A6, 0x113F9804BEF90DAE, 0x1B710B35131C471B,
   0x28DB77F523047D84, 0x32CAAB7B40C72493, 0x3C9EBE0A15C9BEBC, 0x431D67C49C100D4C,
   0x4CC5D4BECB3E42B6, 0x597F299CFC657E2A, 0x5FCB6FAB3AD6FAEC, 0x6C44198C4A475817]

/-- The initial hash value. -/
def sha512H : List (BitVec 64) :=
  [0x6A09E667F3BCC908, 0xBB67AE8584CAA73B, 0x3C6EF372FE94F82B, 0xA54FF53A5F1D36F1,
   0x510E527FADE682D1, 0x9B05688C2B3E6C1F, 0x1F83D9ABFB41BD6B, 0x5BE0CD19137E2179]

/-- The eight working variables. -/
structure ShaVars where
  a : BitVec 64
  b : BitVec 64
  c : BitVec 64
  d : BitVec 64
  e : BitVec 64
  f : BitVec 64
  g : BitVec 64
  h : BitVec 64
  deriving DecidableEq, Repr

/-- One round, with its schedule word and constant. -/
def ShaVars.round (v : ShaVars) (w k : BitVec 64) : ShaVars :=
  let s1 := v.e.rotateRight 14 ^^^ v.e.rotateRight 18 ^^^ v.e.rotateRight 41
  let ch := (v.e &&& v.f) ^^^ (~~~v.e &&& v.g)
  let t1 := v.h + s1 + ch + k + w
  let s0 := v.a.rotateRight 28 ^^^ v.a.rotateRight 34 ^^^ v.a.rotateRight 39
  let maj := (v.a &&& v.b) ^^^ (v.a &&& v.c) ^^^ (v.b &&& v.c)
  ⟨t1 + (s0 + maj), v.a, v.b, v.c, v.d + t1, v.e, v.f, v.g⟩

/-- The next schedule word from the last sixteen, the oldest first. -/
def shaNext (w : List (BitVec 64)) : BitVec 64 :=
  let x := w.getD 1 0
  let y := w.getD 14 0
  let s0 := x.rotateRight 1 ^^^ x.rotateRight 8 ^^^ x >>> 7
  let s1 := y.rotateRight 19 ^^^ y.rotateRight 61 ^^^ y >>> 6
  w.getD 0 0 + s0 + w.getD 9 0 + s1

/-- The rounds of a block over the remaining constants; w holds the schedule words from this round on. -/
def shaRounds : List (BitVec 64) → List (BitVec 64) → ShaVars → ShaVars
  | [], _, v => v
  | k :: ks, w, v => shaRounds ks (w.drop 1 ++ [shaNext w]) (v.round (w.getD 0 0) k)

/-- A big-endian word of eight bytes. -/
def beWord (bs : List Byte) : BitVec 64 := bs.foldl (fun w b => w <<< 8 ||| b.setWidth 64) 0

/-- A word's eight bytes, big-endian. -/
def beBytes (w : BitVec 64) : List Byte := (List.range 8).map fun i => w.extractLsb' (56 - 8 * i) 8

/-- One block of 128 bytes. -/
def shaBlock (h : List (BitVec 64)) (block : List Byte) : List (BitVec 64) :=
  let w := (List.range 16).map fun i => beWord ((block.drop (8 * i)).take 8)
  let g (i : Nat) := h.getD i 0
  let v0 : ShaVars := ⟨g 0, g 1, g 2, g 3, g 4, g 5, g 6, g 7⟩
  let v := shaRounds (sha512K0 ++ sha512K1) w v0
  [g 0 + v.a, g 1 + v.b, g 2 + v.c, g 3 + v.d, g 4 + v.e, g 5 + v.f, g 6 + v.g, g 7 + v.h]

/-- The blocks of a padded message, at most fuel of them. -/
def shaBlocks : Nat → List (BitVec 64) → List Byte → List (BitVec 64)
  | 0, h, _ => h
  | fuel + 1, h, bs => if bs.isEmpty then h else shaBlocks fuel (shaBlock h (bs.take 128)) (bs.drop 128)

/-- SHA-512: 64 bytes in their natural order. -/
def sha512 (m : List Byte) : List Byte :=
  let n := m.length
  let z := (239 - n % 128) % 128
  let len := (List.range 16).map fun i => BitVec.ofNat 8 (8 * n / 2 ^ (8 * (15 - i)))
  let p := m ++ [0x80] ++ List.replicate z 0 ++ len
  (shaBlocks (p.length / 128) sha512H p).flatMap beBytes

/-- A number of n bytes, little-endian. -/
def leNum : Nat → Nat → List Byte
  | 0, _ => []
  | n + 1, w => BitVec.ofNat 8 w :: leNum n (w / 256)

/-- Leaf i of a range of size bytes (R160). -/
def treeLeaf (data : Nat → Nat → List Byte) (size i : Nat) : List Byte :=
  sha512 (0x00 :: leNum 8 i ++ data (i * 2 ^ 20) (min (2 ^ 20) (size - i * 2 ^ 20)))

/-- The tree root of size bytes, data giving n bytes from an offset (R160). -/
def treeRoot (data : Nat → Nat → List Byte) (size : Nat) : List Byte :=
  let l := (size + 2 ^ 20 - 1) / 2 ^ 20
  let leaf := treeLeaf data size
  if l ≤ 4096 then sha512 (0x01 :: (List.range l).flatMap leaf)
  else
    let group (j : Nat) := sha512 (0x01 :: (List.range (min 4096 (l - 4096 * j))).flatMap fun i => leaf (4096 * j + i))
    sha512 (0x02 :: (List.range ((l + 4095) / 4096)).flatMap group)

/-! RSASSA-PSS of RFC 8017 with SHA-512, MGF1 with SHA-512, a 64-byte salt and a 4,096-bit modulus (01 R39, 07 R168) -/

/-- The number of a big-endian octet string, and the octet string of n bytes of a number. -/
def beNum (bs : List Byte) : Nat := bs.foldl (fun n b => n * 256 + b.toNat) 0
def beStr (n x : Nat) : List Byte := (leNum n x).reverse

/-- b to the power e modulo m, for e below 2 to the fuel. -/
def modPow : Nat → Nat → Nat → Nat → Nat
  | 0, _, _, m => 1 % m
  | fuel + 1, b, e, m =>
    let h := modPow fuel (b * b % m) (e / 2) m
    if e % 2 = 1 then b * h % m else h

/-- MGF1: n mask bytes of a seed. -/
def mgf1 (seed : List Byte) (n : Nat) : List Byte :=
  ((List.range ((n + 63) / 64)).flatMap fun k => sha512 (seed ++ beStr 4 k)).take n

/-- The hash H of an encoded message, of the message's digest and the salt. -/
def pssHash (m salt : List Byte) : List Byte := sha512 (List.replicate 8 0 ++ sha512 m ++ salt)

/-- The data block of an encoded message: 382 padding bytes, 0x01 and the salt. -/
def pssBlock (salt : List Byte) : List Byte := List.replicate 382 0 ++ [0x01] ++ salt

/-- A data block under its mask, the leftmost bit cleared. -/
def pssMask (h db : List Byte) : List Byte :=
  match List.zipWith (· ^^^ ·) db (mgf1 h 447) with
  | [] => []
  | b :: bs => (b &&& 0x7F) :: bs

/-- The encoded message of 512 bytes. -/
def pssEncode (m salt : List Byte) : List Byte :=
  let h := pssHash m salt
  pssMask h (pssBlock salt) ++ h ++ [0xBC]

/-- The signature of a message under a modulus and private exponent. -/
def pssSign (n d : Nat) (m salt : List Byte) : List Byte := beStr 512 (modPow 4096 (beNum (pssEncode m salt)) d n)

/-- A signature of a message is valid under a modulus and the public exponent 65,537. -/
def pssVerify (n : Nat) (m sig : List Byte) : Bool :=
  let x := beNum sig
  let em := beStr 512 (modPow 17 x 65537 n)
  let h := (em.drop 447).take 64
  let db := pssMask h (em.take 447)
  let salt := db.drop 383
  sig.length == 512 && decide (x < n) && em.drop 511 == [0xBC] && decide (beNum em < 2 ^ 4095) && db == pssBlock salt && h == pssHash m salt

end Sys2Proof.Machine
end

