-- ==== Sys2Proof/Machine/Stage.lean ====
section
/-! DEFINITION. The stage engine (20 R486 to R495, 09 R211, R213, R221, 10 R242, R243, 12 R291, R292, 14 R318,
R334).  The focus names site, core and, as its third number, 0 for the admission of the command at the head
of the core's queue or k + 1 for the next act of transfer k of the site. -/

namespace Sys2Proof.Machine

open Host (Outcome)

/-- The fields of a stage command (R486, R494). -/
def StgCmd.op (q : StgCmd) : Nat := if q.dec then 5 else fld q.w.toNat 88 4
def StgCmd.maddr (q : StgCmd) : Nat := fld q.w.toNat 0 64
def StgCmd.token (q : StgCmd) : Nat := fld q.w.toNat 84 4
def StgCmd.window (q : StgCmd) : Nat := 64 * fld q.w.toNat 64 20
def StgCmd.len (q : StgCmd) : Nat := fld q.w.toNat 96 26
def StgCmd.fmt (q : StgCmd) : Nat := fld q.w.toNat 122 6

/-- The fields of a decode command's parameter block (R494). -/
def StgCmd.index (q : StgCmd) : Nat := numAt q.blk 0 8
def StgCmd.cslot (q : StgCmd) : Nat := numAt q.blk 8 2
def StgCmd.first (q : StgCmd) : Nat := numAt q.blk 12 4
def StgCmd.count (q : StgCmd) : Nat := numAt q.blk 16 4
def StgCmd.table (q : StgCmd) : Nat := numAt q.blk 20 4

/-- The command's 16 bytes. -/
def StgCmd.bytes (q : StgCmd) : List Byte := bytesOf 16 q.w.toNat

/-- The command is a fence (R243, R488). -/
def StgCmd.fence (q : StgCmd) : Bool := !q.dec && q.len == 0

/-- Acts that a transfer takes: bytes, or segments of a decode. -/
def StgCmd.total (q : StgCmd) : Nat := if q.dec then 4 * q.count else q.len

/-- The transfers of the site in focus. -/
def State.xfers (s : State) : List Xfer := Tab.get [] s.stage s.cur.site

def State.setXfers (s : State) (xs : List Xfer) : State := { s with stage := Tab.set s.stage s.cur.site xs }

/-- The destination address and length that an event gives (R318). -/
def StgCmd.evArgs (q : StgCmd) : Nat × Nat :=
  let dst := match q.op with
    | 1 | 5 => q.maddr
    | 4 => 0
    | _ => q.window
  (dst, (if q.dec then 4096 * q.count else q.len) % 2 ^ 32 + q.token * 2 ^ 32)

/-- An event of the stage engine. -/
def State.stageEvent (s : State) (code arg0 arg1 : Nat) : State :=
  { s with evq := s.evq ++ [⟨s.att.part, 6, code, s.cur.site, 0, s.time, arg0, arg1, s.att.key, []⟩] }

/-- A stage command's fault: a translation fault pauses, any other fails the attempt (R304, R488). -/
def State.stageTrap (s : State) (q : StgCmd) (cause sub addr : Nat) (chunk : Option (Nat × Nat) := none) : State :=
  s.headTrap cause sub 6 q.bytes addr chunk

/-- Bytes of one code row of 128 elements of a QNT, and the start of its scale area (R491). -/
def StgCmd.qRow (w : Nat) : Nat := 16 * w
def StgCmd.qScales (q : StgCmd) (w : Nat) : Nat := q.window + (q.len / 512 * (16 * w) + 63) / 64 * 64

/-- The window range a command names: where it starts and its bytes (R488). -/
def State.stageWindow (s : State) (q : StgCmd) : Nat × Nat :=
  match q.op with
  | 0 | 1 => (q.window, q.len)
  | 2 =>
    let w := descSlot (s.desc q.fmt)
    (q.window, q.qScales w + q.len / 512 * 8 - q.window)
  | 3 => (q.window, 64)
  | 5 => (q.table, 512)
  | _ => (0, 0)

/-- The checks of R205 over a memory range but for its translation (R488). -/
def State.rangeCheck (s : State) (a n : Nat) (wr : Bool) : Option (Nat × Nat) :=
  if 2 ^ 48 < offOf a + n then
    match s.access (slotOf a * 2 ^ 48) 0 0 (!wr) wr false with
    | .trap c sub _ => some (c, sub)
    | _ => some (0x04, 5)
  else
    match s.access a n 0 (!wr) wr false with
    | .trap c sub _ => if c = 0x06 then none else some (c, sub)
    | _ => none

/-- A QNT's formats (R491): the source's index 0 or 1, the target one of Q2L's other than ternary. -/
def State.qntFormats (s : State) (q : StgCmd) : Bool :=
  let src := ((s.slotBuf (slotOf q.maddr)).map fun b => attrFmt b.attr.toNat).getD 0
  let d := s.desc q.fmt
  decide (src ≤ 1) && q2lTarget d && decide (descKind d ≠ 8)

/-- What admission finds: a fault with cause, subcode and address, or none (R488, R491, R494). -/
def State.admitFault (s : State) (q : StgCmd) : Option (Nat × Nat × Nat) :=
  if q.fence then none
  else
    let win (p : Nat × Nat) : Option (Nat × Nat × Nat) := (firstBeyond s.att.limit p.1 p.2).map fun a => (0x07, 0, a)
    let mem (a n : Nat) (wr : Bool) : Option (Nat × Nat × Nat) := (s.rangeCheck a n wr).map fun c => (c.1, c.2, a)
    if q.dec then
      if q.blk.isEmpty then win (decodeBlockAddr q.w, 32)
      else
        (if offOf q.index + 8 * q.first < 2 ^ 48 then mem (q.index + 8 * q.first) (8 * q.count) false
          else mem q.index (8 * (q.first + q.count)) false).orElse fun _ =>
          (mem (q.cslot * 2 ^ 48) 0 false).orElse fun _ =>
            (mem q.maddr (4096 * q.count) true).orElse fun _ =>
              (win (s.stageWindow q)).orElse fun _ =>
                if (loadTable (s.inst.sram.bytes q.table 512)).isNone then some (0x0B, 1, 0) else none
    else
      (mem q.maddr q.len (q.op == 1)).orElse fun _ =>
        (if q.op = 2 ∧ ¬ s.qntFormats q then some (0x09, 0, 0) else none).orElse fun _ => win (s.stageWindow q)

/-- Transfers of the core in focus that have not posted. -/
def State.openXfers (s : State) : List Xfer := s.xfers.filter fun x => x.core == s.cur.core

/-- A write of an attempt to bytes of a buffer waits at its home. -/
def State.writeLate (s : State) (att b off n : Nat) : Bool :=
  s.homeq.any fun r => match r with
    | .devWrite b' o bs _ a => a == some att && b' == b && overlaps o bs.length off n
    | _ => false

/-- A transfer has performed its last byte (R242). -/
def State.xferDone (s : State) (x : Xfer) : Bool :=
  decide (x.cmd.total ≤ x.doneB) &&
    (if x.cmd.op = 1 ∨ x.cmd.op = 5 then
      match s.slotBind (slotOf x.cmd.maddr) with
      | some b => !s.writeLate x.att b (offOf x.cmd.maddr) (if x.cmd.dec then 4096 * x.cmd.count else x.cmd.len)
      | none => true
    else true)

/-- The stage engine admits the command at the head of the core's queue (R243, R488): a fence only once every
transfer admitted earlier from the core has performed. -/
def State.admitTransfer (s : State) (op : Nat) : State :=
  let c := s.core
  match c.stgq.items with
  | [] => s
  | q :: rest =>
    if q.op ≠ op ∨ c.live? = false ∨ (q.fence ∧ s.openXfers.any (fun x => !s.xferDone x) = true) then s
    else
      match s.admitFault q with
      | some (cause, sub, a) => s.stageTrap q cause sub a
      | none =>
        let buf := if q.dec then s.inst.sram.bytes q.table 512 else []
        let x : Xfer := ⟨s.job.att, s.job.inst, s.cur.core, q, 0, false, buf, false, false, none, []⟩
        let s1 := (s.setCore { c with stgq := { c.stgq with items := rest } }).setXfers (s.xfers ++ [x])
        s1.stageEvent 0x20 q.evArgs.1 q.evArgs.2

/-- A transfer's fault waits in the Tahr's order. -/
def State.xferWaits (s : State) (x : Xfer) : Bool :=
  x.wait && (Tab.get [] s.tahr s.cur.cluster).any fun i =>
    i.core == s.cur.id && i.rec_.qhead && i.rec_.engine == 6 && i.rec_.word == x.cmd.bytes

/-- Replace transfer k. -/
def State.setXfer (s : State) (k : Nat) (x : Xfer) : State := s.setXfers (s.xfers.set k x)

/-- A request of transfer k to a peer package is sent, unless one waits for its answer, as soon as its port carries
traffic; it fails where its port is down (01 R33). -/
def State.askPeer (s : State) (k : Nat) (x : Xfer) (p a : Nat) (m : Sent) : State :=
  if x.asked.isSome then s
  else if (s.port p).state = 0 then s.peerFails p 6
  else if !(s.port p).up then s
  else (s.setXfer k { x with asked := some (p, a) }).send m

/-- What a transfer met: a pause on translation with its event, a failure, or a wait for recalls, for a walk or for a peer
package, of which it asks these bytes (none: n bytes that it reads). -/
def State.xferFault (s : State) (k : Nat) (x : Xfer) (f : HeadFault) (wr : Bool) (bs : Option (List Byte) := none) : State :=
  match f with
  | .trap c sub a ch =>
    let s1 := s.stageTrap x.cmd c sub a ch
    if c = 0x06 ∧ sub = 1 then (s1.setXfer k { x with wait := true }).stageEvent 0x22 a 0 else s1
  | .fail c => s.failAtt c 0 6
  | .wait sp => s.waitHome (s.pathWho true wr) wr sp
  | .walk b off n => s.walkAll (stageTlb s.cur.site) s.att.part b off n (s.vfOf s.att)
  | .peer p a b off n => 
    match bs with
    | some bs => s.askPeer k x p (a + 2 ^ 64) (.peerWrite p b off bs)
    | none => s.askPeer k x p a (.peerRead p b off n)

/-- A stage-engine write hits a watchpoint: the control stream of the issuing core has to stop (14 R333,
R334). -/
def State.stageHit (s : State) (a b off n : Nat) : State :=
  match s.watchAt s.att b off n true with
  | none => s
  | some (num, o) =>
    let c := s.core
    let h : WatchHit := ⟨6, num, a + (o - off), (Tab.get Stream.absent c.streams 0).ncmd⟩
    s.setCore { c with hits := c.hits ++ [h] }

/-- A write of a transfer to memory, at the home of its bytes (10 R242). -/
def State.xferWrite (s : State) (a : Nat) (y : Access) (bs : List Byte) : State :=
  match y with
  | .buf b off =>
    let s1 := (s.writeHome s.cur.site b off bs s.job.att).jobLog s.att b off bs.length
    s1.stageHit a b off bs.length
  | _ => s

/-- A window write of a transfer. -/
def State.windowPut (s : State) (a : Nat) (bs : List Byte) (g : TagAct) : State :=
  s.setInst (s.inst.write (cellsAt a bs) g)

/-- The tag that a LOAD sets from a buffer's ATTR (R213). -/
def attrTag (a : Nat) : BitVec 16 :=
  BitVec.ofNat 16 (0x8000 + fld a 12 1 * 0x1000 + fld a 11 1 * 0x800 + fld a 10 1 * 0x400 + fld a 8 2 * 0x100 + fld a 2 6)

/-- A transfer takes a peer package's answer: the bytes it asked for, zero where the answer is short, or a refusal, which
fails the node (01 R33). -/
def State.takeReply (s : State) (k : Nat) (x : Xfer) : Except State (State × Xfer) :=
  match x.asked with
  | none => .ok (s, x)
  | some (p, a) =>
    match s.reply (some a) with
    | none => .ok (s, x)
    | some none => .error (((s.tookReply (some a)).setXfer k { x with asked := none }).peerFails p 6)
    | some (some bs) =>
      let x1 := { x with asked := none, got := Tab.set x.got a bs }
      .ok ((s.tookReply (some a)).setXfer k x1, x1)

/-- The act that event k of an operation stands for: admission, or the next act of a transfer of that
operation that is not done and does not wait, after a peer package's answer. -/
def State.stageAct (s : State) (op : Nat) (act : State → Nat → Xfer → State) : State :=
  match s.cur.eng with
  | 0 => s.admitTransfer op
  | k + 1 =>
    match s.xfers[k]? with
    | none => s
    | some x =>
      if x.cmd.op ≠ op ∨ x.core ≠ s.cur.core ∨ x.cmd.total ≤ x.doneB ∨ s.xferWaits x = true then s
      else
        match s.takeReply k x with
        | .error t => t
        | .ok (t, y) => act t k y

/-- Transfer k has done n more of what it has to do. -/
def State.xferOn (s : State) (k : Nat) (x : Xfer) (n : Nat) : State :=
  s.setXfer k { x with doneB := x.doneB + n, wait := false, asked := none, got := [] }

/-- n bytes that a peer package answered for an address. -/
def Xfer.answer (x : Xfer) (a n : Nat) : Option (List Byte) :=
  (Tab.find x.got a).map fun bs => (bs ++ List.replicate n 0).take n

/-- The bytes of the next granule of a LOAD or STORE: up to the end of a 128-byte sector of the window (10 R246, 19
R464). -/
def Xfer.granule (x : Xfer) : Nat := min (128 - (x.cmd.window + x.doneB) % 128) (x.cmd.len - x.doneB)

/-- A source of several granules: every byte checked, the first fault a granule at a time (R221). -/
def State.sourceCheck (s : State) (a n : Nat) : Except HeadFault Access :=
  match firstFault ((List.range ((n + 127) / 128)).map fun i =>
      s.pathCheck true (slotOf a) (offOf a + 128 * i : Nat) (min 128 (n - 128 * i)) false) with
  | .error f => .error f
  | .ok xs => .ok (xs.headD (.args 0))

/-- n source bytes of a transfer at a device address: a peer package's answer, or what the stage engine sees and where. -/
def State.sourceRead (s : State) (x : Xfer) (a n : Nat) : Except HeadFault (List Byte × List (Access × Nat)) :=
  match x.answer a n with
  | some bs => .ok (bs, [])
  | none =>
    match s.sourceCheck a n with
    | .error (.peer p _ b _ _) => .error (.peer p a b (offOf a) n)
    | .error (.wait sp) => .error (.wait (sp.map fun z => (z.1, offOf a, n)))
    | .error f => .error f
    | .ok y => .ok (s.seenAt true y n, [(y, n)])

/-- What reads leave in the caches. -/
def State.fillReads (s : State) (xs : List (Access × Nat)) : State := xs.foldl (fun s x => s.fillAt true x.1 x.2) s

/-- n bytes of a transfer are written at a device address; the state once they are, or the fault met.  Bytes that have to
wait for recalls perform at the home in their turn; a peer package has to answer first, and then has the bytes, which a
watchpoint on the buffer sees (14 R333). -/
def State.destWrite (s : State) (x : Xfer) (a : Nat) (bs : List Byte) : Except HeadFault State :=
  if (x.answer (a + 2 ^ 64) 0).isSome then
    .ok (match s.att.binds[slotOf a - 0xFFE0]? with | some b => s.stageHit a b.buf (offOf a) bs.length | none => s)
  else
    match s.pathCheck true (slotOf a) (offOf a : Nat) bs.length true with
    | .error (.wait sp) => .ok (s.xferWrite a (match sp with | z :: _ => .buf z.1 z.2.1 | [] => .args 0) bs)
    | .error f => .error f
    | .ok y => .ok (s.xferWrite a y bs)

/-- LOAD (R489): the next granule of memory bytes enters the window, with the tags of its blocks. -/
def execStageLoad (s : State) : Outcome State Fault Refusal :=
  .next <| s.stageAct 0 fun s k x =>
    let n := x.granule
    match s.sourceRead x (x.cmd.maddr + x.doneB) n with
    | .error f => s.xferFault k x f false
    | .ok (bs, reads) =>
      let g : TagAct := match s.slotBuf (slotOf x.cmd.maddr) with
        | some u => .every (attrTag u.attr.toNat)
        | none => .clear
      ((s.fillReads reads).windowPut (x.cmd.window + x.doneB) bs g).xferOn k x n

/-- STORE (R489): the next granule of window bytes is written to memory.  DESIGN CHOICE (log 74): the granules of a transfer
perform in ascending order, where 01 R27 lets them reach their homes in any order. -/
def execStageStore (s : State) : Outcome State Fault Refusal :=
  .next <| s.stageAct 1 fun s k x =>
    let n := x.granule
    let bs := s.inst.sram.bytes (x.cmd.window + x.doneB) n
    match s.destWrite x (x.cmd.maddr + x.doneB) bs with
    | .error f => s.xferFault k x f true (some bs)
    | .ok s1 => s1.xferOn k x n

/-- QNT (R491): the next row is read whole and quantised; its codes and scales enter the window. -/
def execStageQnt (s : State) : Outcome State Fault Refusal :=
  .next <| s.stageAct 2 fun s k x =>
    match s.sourceRead x (x.cmd.maddr + x.doneB) 512 with
    | .error f => s.xferFault k x f false
    | .ok (bs, reads) =>
      let d := s.desc x.cmd.fmt
      let w := descSlot d
      let i := x.doneB / 512
      let line := quantLine d ((List.range 128).map fun j => ofFp32 (BitVec.ofNat 32 (numAt bs (4 * j) 4)))
      let sa := x.cmd.qScales w
      let codes := cellsAt (x.cmd.window + StgCmd.qRow w * i) (packBits w line.1)
      let codeTag : BitVec 16 := BitVec.ofNat 16 (0x8000 + 0x100 + x.cmd.fmt)
      let both := codes.filter fun c => c.1 / 4096 == sa / 4096
      let only := codes.filter fun c => c.1 / 4096 != sa / 4096
      let words := line.2.1.zipIdx.flatMap fun z => cellsAt (sa + 4 * (z.2 * (x.cmd.len / 512) + i)) (bytesOf 4 z.1)
      let s1 := s.fillReads reads
      let n1 := ((s1.inst.write only (.every codeTag)).write both (.every scaleTag)).write words (.every scaleTag)
      let x1 := { x with sat := x.sat || fld line.2.2 1 1 == 1, nan := x.nan || fld line.2.2 2 1 == 1 }
      (s1.setInst n1).xferOn k x1 512

/-- HASH (R492): the tree root of the range enters the window and clears the tags of its blocks; the hash units read at
the home, unmapped chunks count as zeros, an uncorrectable error fails the attempt. -/
def execStageHash (s : State) : Outcome State Fault Refusal :=
  .next <| s.stageAct 3 fun s k x =>
    let n := x.cmd.len
    let put (data : Nat → Nat → List Byte) : State :=
      (s.windowPut x.cmd.window (treeRoot data n) .clear).xferOn k x n
    let y := s.access x.cmd.maddr 0 0 true false false
    match (if y = .trap 0x04 3 none then (s.heldAccess true (slotOf x.cmd.maddr) (offOf x.cmd.maddr) n false).getD y else y) with
    | .args off => put fun o m => (List.range m).map fun i => s.att.args.getD (off + o + i) 0
    | .trap c sub _ => s.stageTrap x.cmd c sub x.cmd.maddr
    | .buf b off =>
      let u := s.buf b
      match u.peer, x.answer x.cmd.maddr n with
      | some _, some bs => put fun o m => (bs.drop o).take m
      | some p, none => s.askPeer k x p x.cmd.maddr (.peerRead p b off n)
      | none, _ =>
        if u.badAt off n then s.failAtt 3 0 6
        else if s.lostAt b off n then s.failAtt 7 0 6
        else
          let me := s.pathWho true false
          if !s.homeTurn (· == me) false [(b, off, n)] then s.waitHome me false [(b, off, n)]
          else
            ((s.leaveHome (· == me) false [(b, off, n)]).windowPut x.cmd.window (treeRoot (fun o m => u.mem.bytes (off + o) m) n) .clear).xferOn k x n

/-- SCL (R493): the next entry of 512 bytes enters the scale queue of the issuing core when it has room; entries of two
SCL commands may interleave (R243). -/
def execStageScl (s : State) : Outcome State Fault Refusal :=
  .next <| s.stageAct 4 fun s k x =>
    let c := s.core
    if !c.live? || decide (32 ≤ c.scaleQ.size + c.onWay true 0) then s
    else
      match s.sourceRead x (x.cmd.maddr + x.doneB) 512 with
      | .error f => s.xferFault k x f false
      | .ok (bs, reads) =>
        let e := BitVec.ofNat 4096 (leNat bs)
        let s1 := s.setCore { c with scaleQ := { c.scaleQ with items := c.scaleQ.items ++ [e] }, scaleOut := c.scaleOut - 1 }
        (s1.fillReads reads).xferOn k x 512

/-- An address at an offset in a slot; an offset outside its 48 bits lies beyond every SIZE (09 R203, R205). -/
def slotPlus (a n : Nat) : Except HeadFault Nat :=
  if 2 ^ 48 ≤ offOf a + n then .error (.trap 0x04 5 (slotOf a * 2 ^ 48 + (offOf a + n) % 2 ^ 48) none)
  else .ok (slotOf a * 2 ^ 48 + offOf a + n)

/-- The span of an access of n bytes of a buffer. -/
def Access.span (x : Access × Nat) : Option (Nat × Nat × Nat) :=
  match x.1 with
  | .buf b off => some (b, off, x.2)
  | _ => none

/-- A tile of a decode command: its 4,096 bytes and what was read, with the checks of R291, or the fault met. -/
def State.stageTile (s : State) (x : Xfer) (i : Nat) : Except HeadFault (List Byte × List (Access × Nat)) := do
  let n := x.cmd.first + i
  let ea ← slotPlus x.cmd.index (8 * n)
  let y ← s.sourceRead x ea 8
  let e := leNat y.1
  let len := fld e 40 16
  let off := fld e 0 40
  if fld e 56 8 ≠ 0 ∨ off % 64 ≠ 0 then .error (.trap 0x0A 5 0 none)
  else if len = 0 then .ok (List.replicate 4096 0, y.2)
  else
    let z ← match s.sourceRead x (x.cmd.cslot * 2 ^ 48 + off) len with
      | .error (.wait sp) => .error (.wait (y.2.filterMap Access.span ++ sp))
      | r => r
    let t := z.1
    if tileLength t ≠ len ∨ numAt t 4 4 ≠ n then .error (.trap 0x0A 5 0 none)
    else
      match decodeTile t (fun _ => loadTable x.buf) 0 4 with
      | .error f => .error (.trap f.cause f.sub 0 none)
      | .ok cells => .ok ((Memory.putCells [] cells).bytes 0 4096, y.2 ++ z.2)

/-- `stgdec` (R291, R292): the next segment is decoded in full, every destination byte translated, and the
segment written whole; a destination chunk that is not mapped discards it. -/
def execStageDecode (s : State) : Outcome State Fault Refusal :=
  .next <| s.stageAct 5 fun s k x =>
    match s.stageTile x (x.doneB / 4) with
    | .error f => s.xferFault k x f false
    | .ok (tile, reads) =>
      let seg := (tile.drop (1024 * (x.doneB % 4))).take 1024
      match (s.fillReads reads).destWrite x (x.cmd.maddr + 1024 * x.doneB) seg with
      | .error f => s.xferFault k x f true (some seg)
      | .ok s1 => s1.xferOn k x 1

/-- When a transfer's last byte has performed it posts its token once, with a QNT's sticky flags; a post that
would overflow fails the attempt (R189, R242, R491).  A destination in memory enters the acquire set of the waiting
agent: its cluster's L1 and its chiplet's L2 give its lines up.  The third number of the focus is k + 1. -/
def execStageTransferComplete (s : State) : Outcome State Fault Refusal :=
  let c := s.core
  let k := s.cur.eng - 1
  match s.xfers[k]? with
  | none => .next s
  | some x =>
    if x.core ≠ s.cur.core ∨ c.live? = false ∨ s.xferDone x = false then .next s
    else
      let t := x.cmd.token
      if Tab.get 0 c.tk t = 0xFFFF then .next (s.stageTrap x.cmd 0x0D t 0)
      else
        let bits : Word := (if x.sat then 2 else 0) ||| (if x.nan then 4 else 0)
        let s1 := s.setCore { c with tk := Tab.upd 0 c.tk t (· + 1), vstat := c.vstat ||| bits }
        let s2 := match (if x.cmd.op = 1 ∨ x.cmd.op = 5 then s.slotBind (slotOf x.cmd.maddr) else none) with
          | some b => s1.acquireAt s.cur.cluster 4 (· == b)
          | none => s1
        .next ((s2.setXfers (s.xfers.eraseIdx k)).stageEvent 0x21 x.cmd.evArgs.1 x.cmd.evArgs.2)

end Sys2Proof.Machine
end

