-- ==== Sys2Proof/Machine/Desc.lean ====
section
/-! DEFINITION. The descriptors that define work and their checks: code objects (15 R358 to R360), node
descriptors and bindings (05 R100, R101), graph descriptors (R98, R99). -/

namespace Sys2Proof.Machine

/-! Code objects -/

/-- A section entry of a code object (R359). -/
structure Sect where
  eng   : Nat
  off   : Nat
  len   : Nat
  dlen  : Nat
  start : Nat
  deriving DecidableEq, Repr

/-- A code object's header (R358). -/
structure CodeHead where
  cls     : Nat
  restart : Bool
  total   : Nat
  gang    : Nat
  budget  : Nat
  energy  : Nat
  sram    : Nat
  ymask   : Nat
  sects   : List Sect
  deriving DecidableEq, Repr

/-- The engines of the sections, in rising order, and the place of each among the section entries (R358). -/
def sectEngines : List (Nat × Nat) := [(0, 0), (1, 1), (2, 2), (4, 4), (5, 5), (7, 3)]

/-- The largest gang of a class (R358). -/
def maxGang (cls : Nat) : Nat := 4 * classClusters cls

/-- Bytes of operand SRAM of a cluster of a class (09 R210). -/
def sramShare (cls : Nat) : Nat := (if cls ≤ 2 then 7680 else if cls = 3 then 2560 else 10240) * 1024

/-- A class has the stream of an engine (08 R173). -/
def hasEngine (cls eng : Nat) : Bool :=
  if eng = 2 then decide (cls ≤ 2) else if eng = 7 then decide (cls = 4) else true

/-- The word size and the most code bytes of a section (R360). -/
def sectLimits (eng : Nat) : Nat × Nat :=
  match eng with
  | 0 | 1 => (4, 65536)
  | 2 => (24, 49152)
  | 7 => (8, 16384)
  | _ => (4, 32768)

/-- Zero bytes of a range of a byte list. -/
def zeroAt (bs : List Byte) (off n : Nat) : Bool := ((bs.drop off).take n).all (· == 0)

/-- The sections of a header, those present, in rising order of their engines. -/
def headSects (h : List Byte) : List Sect :=
  (sectEngines.map fun x =>
    let a := 0x30 + 16 * x.2
    (⟨x.1, numAt h a 4, numAt h (a + 4) 4, numAt h (a + 8) 4, numAt h (a + 12) 2⟩ : Sect)).filter fun t => t.len ≠ 0

/-- A present section keeps the rules of R360. -/
def Sect.ok (t : Sect) (cls total : Nat) : Bool :=
  let lim := sectLimits t.eng
  let side := t.eng == 4 || t.eng == 5
  hasEngine cls t.eng && t.off % 64 == 0 && decide (0x100 ≤ t.off) && decide (t.off + t.len + t.dlen ≤ total) &&
    t.len % lim.1 == 0 && decide (t.len ≤ lim.2) && decide (t.dlen ≤ if side then 16128 else 0)

/-- No two of a list of sections overlap. -/
def sectsApart : List Sect → Bool
  | [] => true
  | t :: ts => (ts.all fun u => !overlaps t.off (t.len + t.dlen) u.off (u.len + u.dlen)) && sectsApart ts

/-- The header of a code object for the CODE entry of class cls; none when it is malformed (R360). -/
def codeHead (h : List Byte) (cls : Nat) : Option CodeHead :=
  let sects := headSects h
  let total := numAt h 8 4
  let gang := numAt h 0x0C 2
  let flags := numAt h 7 1
  let sram := numAt h 0x18 4
  let entries := (List.range 6).all fun k =>
    let a := 0x30 + 16 * k
    zeroAt h (a + 14) 2 && (numAt h (a + 4) 4 != 0 || zeroAt h a 16)
  if numAt h 0 4 == 0x4F435A4F && numAt h 4 2 == 1 && numAt h 6 1 == cls && decide (flags < 2) && zeroAt h 0x0E 2 &&
      zeroAt h 0x1C 4 && zeroAt h 0x28 8 && zeroAt h 0x90 112 && entries && decide (1 ≤ gang) &&
      decide (gang ≤ maxGang cls) && decide (1 ≤ numAt h 0x10 4) && (flags == 1 || zeroAt h 0x20 8) &&
      decide (sram ≤ (gang + 3) / 4 * sramShare cls) && decide (256 ≤ total) &&
      (sects.any fun t => t.eng == 0) && sects.all (fun t => t.ok cls total) && sectsApart sects then
    some ⟨cls, flags == 1, total, gang, numAt h 0x10 4, numAt h 0x14 4, sram, numAt h 0x20 8, sects⟩
  else none

/-! Node descriptors -/

/-- What a node descriptor says (R100, R101). -/
structure NodeDesc where
  classes : List Nat
  width   : Nat
  code    : List Nat
  arg     : Nat
  arglen  : Nat
  binds   : List BindSpec
  deriving DecidableEq, Repr

/-- ATTR in the encoding of BUF_CREATE, with no reserved encoding (03 R71). -/
def attrOk (a : Nat) : Bool := decide (a < 2 ^ 13) && decide (fld a 8 2 ≠ 3)

/-- A binding of 16 bytes; none when a field breaks R101.  A field that R101 gives to other kinds only has to be zero
(log 64: R101 does not say it of ATTR and SIZE). -/
def bindSpec (b : List Byte) : Option BindSpec :=
  let kind := numAt b 0 1
  let rights := numAt b 1 1
  let ref := numAt b 2 2
  let pbind := numAt b 4 1
  let flags := numAt b 5 1
  let attr := numAt b 6 2
  let size := numAt b 8 8
  let fresh := kind == 2 || kind == 3
  let exp := fld flags 1 1 == 1
  let ok :=
    decide (kind ≤ 4) && (if kind = 4 then decide (1 ≤ rights) && decide (rights ≤ 3) else rights == 0) &&
    decide (flags < 4) && (!exp || kind == 2) && (flags % 2 == 0 || fresh) &&
    (kind == 0 || kind == 4 || kind == 1 || exp || ref == 0) && (kind == 1 || pbind == 0) &&
    (if fresh then attrOk attr && decide (1 ≤ size) && decide (size < 2 ^ 48) else attr == 0 && size == 0)
  if ok then some ⟨kind, rights, ref, pbind, exp, flags % 2 == 1, attr, size⟩ else none

/-- Every element, or none. -/
def allSome : List (Option α) → Option (List α)
  | [] => some []
  | none :: _ => none
  | some a :: t => (allSome t).map (a :: ·)

/-- No element occurs twice. -/
def noRepeats : List Nat → Bool
  | [] => true
  | a :: t => !t.contains a && noRepeats t

/-- A node descriptor from its header and bindings; none when it is malformed (R100, R101, R103). -/
def nodeDesc (h binds : List Byte) : Option NodeDesc :=
  let nclass := numAt h 4 1
  let nbind := numAt h 5 1
  let width := numAt h 6 2
  let list := numAt h 8 4
  let classes := (List.range nclass).map fun j => fld list (4 * j) 4
  let code := (List.range 4).map fun c => numAt h (0x10 + 8 * c) 8
  let ok :=
    numAt h 0 4 == 0x444E5A4F && decide (1 ≤ nclass) && decide (nclass ≤ 4) && decide (nbind ≤ 31) && decide (1 ≤ width) &&
    decide (width ≤ 16) && decide (list < 2 ^ (4 * nclass)) && classes.all (fun c => decide (1 ≤ c) && decide (c ≤ 4)) &&
    noRepeats classes && zeroAt h 0x0C 4 && zeroAt h 0x3A 6 && decide (numAt h 0x38 2 ≤ 256) && code.all (· % 64 == 0)
  if ok then
    (allSome ((List.range nbind).map fun k => bindSpec ((binds.drop (16 * k)).take 16))).map fun bs =>
      ⟨classes, width, code, numAt h 0x30 8, numAt h 0x38 2, bs⟩
  else none

/-! Class fallback (01 R22, R23) -/

/-- The CODE entry of a class. -/
def codeOf (code : List Nat) (cls : Nat) : Nat := code.getD (cls - 1) 0

/-- The code class that a node runs with on a class: its own, or on DNS its VEC object (R22, R23). -/
def codeClassOn (code : List Nat) (cls : Nat) : Option Nat :=
  if codeOf code cls ≠ 0 then some cls
  else if cls = 1 ∧ codeOf code 3 ≠ 0 then some 3
  else none

/-- The class that a class falls back to for a node (R23). -/
def fallback (code : List Nat) (cls : Nat) : Option Nat :=
  match cls with
  | 2 => if codeOf code 1 ≠ 0 then some 1 else none
  | 4 => if codeOf code 3 ≠ 0 then some 3 else none
  | 3 => if codeOf code 1 ≠ 0 ∨ codeOf code 3 ≠ 0 then some 1 else none
  | _ => none

/-- The classes that a listed class reaches by falling back, in order. -/
def chainOf (code : List Nat) (cls : Nat) : List Nat :=
  match fallback code cls with
  | none => []
  | some f => f :: (match fallback code f with | none => [] | some g => [g])

/-- Some listed class has a code object, counting fallback (R103; log 64: R100 wants one for every listed class). -/
def anyCode (d : NodeDesc) : Bool :=
  d.classes.any fun c => (codeClassOn d.code c).isSome || !(chainOf d.code c).isEmpty

/-! Reading them -/

/-- A descriptor that breaks its rules (R103). -/
def badDesc : ReadErr := .code 0

/-- What a parser of read bytes answers, or a broken descriptor. -/
def parsed (x : Option α) : Except ReadErr α :=
  match x with
  | some a => .ok a
  | none => .error badDesc

/-- The code object headers of a node's CODE entries, by class, each checked (R103, R360). -/
def State.codeHeads (s : State) (p : Nat) (code : List Nat) : Except ReadErr (List (Option CodeHead) × State) :=
  (List.range 4).foldl
    (fun r k =>
      r.bind fun x =>
        let a := code.getD k 0
        if a = 0 then .ok (x.1 ++ [none], x.2)
        else
          (x.2.capRead p a 256).bind fun y =>
            (parsed (codeHead y.1 (k + 1))).bind fun h =>
              (y.2.capRead p a h.total).map fun z => (x.1 ++ [some h], z.2))
    (.ok ([], s))

/-- Read and check a node descriptor at a capability address, and its code objects (R103): the descriptor and
the gang sizes by class. -/
def State.readNode (s : State) (p a : Nat) : Except ReadErr (NodeDesc × List Nat × State) :=
  (s.capRead p a 64).bind fun x =>
    (x.2.capRead p (a + 64) (16 * numAt x.1 5 1)).bind fun y =>
      (parsed ((nodeDesc x.1 y.1).filter anyCode)).bind fun d =>
        (y.2.codeHeads p d.code).map fun h => (d, h.1.map (fun z => (z.map (·.gang)).getD 0), h.2)

/-- An entry of a graph descriptor (R99). -/
structure GraphEntry where
  desc  : Nat
  preds : List Nat
  deriving DecidableEq, Repr

/-- What a graph descriptor says (R98). -/
structure GraphDesc where
  err     : Option Nat
  result  : Nat
  entries : List GraphEntry
  deriving DecidableEq, Repr

/-- Node entry i; none when it breaks R99. The error node's own PRED entries are ignored.  DEDUCED (log 78): a misaligned
address breaks its rule as another wrong field does. -/
def graphEntry (e : List Byte) (i : Nat) (err : Option Nat) : Option GraphEntry :=
  let n := numAt e 8 1
  let preds := (List.range n).map fun k => numAt e (0x10 + 2 * k) 2
  let isErr := err == some i
  let ok := numAt e 0 8 % 64 == 0 && decide (n ≤ 16) && zeroAt e 9 7 && zeroAt e 0x30 16 &&
    (isErr || zeroAt e (0x10 + 2 * n) (32 - 2 * n) && preds.all fun k => decide (k < i) && err != some k)
  if ok then some ⟨numAt e 0 8, if isErr then [] else preds⟩ else none

/-- A graph descriptor from its header and entries; none when it is malformed (R98, R99, R103). -/
def graphDesc (h es : List Byte) : Option GraphDesc :=
  let n := numAt h 6 2
  let e := numAt h 8 2
  let err := if e = 0xFFFF then none else some e
  let ok := numAt h 0 4 == 0x44475A4F && numAt h 4 2 == 1 && decide (1 ≤ n) && decide (n ≤ 4096) && (e == 0xFFFF || decide (e < n)) &&
    zeroAt h 0x0A 6 && zeroAt h 0x18 40 && numAt h 0x10 8 % 64 == 0
  if ok then
    (allSome ((List.range n).map fun i => graphEntry ((es.drop (64 * i)).take 64) i err)).map fun l => ⟨err, numAt h 0x10 8, l⟩
  else none

/-- The PRODUCED bindings of node i of a graph name an earlier node, not the error node, and an OUT binding of
it; the error node holds none (R103). -/
def producedOk (ds : List NodeDesc) (err : Option Nat) (i : Nat) (d : NodeDesc) : Bool :=
  d.binds.all fun b =>
    if b.kind ≠ 1 then true
    else
      err != some i && decide (b.ref < i) && err != some b.ref &&
        (match ds[b.ref]? with
          | some p => (match p.binds[b.pbind]? with | some o => o.kind == 2 | none => false)
          | none => false)

/-- Read and check a whole graph (R103). -/
def State.readGraph (s : State) (p a : Nat) : Except ReadErr (GraphDesc × List (NodeDesc × List Nat) × State) :=
  (s.capRead p a 64).bind fun x =>
    (x.2.capRead p (a + 64) (64 * numAt x.1 6 2)).bind fun y =>
      (parsed (graphDesc x.1 y.1)).bind fun g =>
        (g.entries.foldl
          (fun (r : Except ReadErr (List (NodeDesc × List Nat) × State)) e =>
            r.bind fun z => (z.2.readNode p e.desc).map fun n => (z.1 ++ [(n.1, n.2.1)], n.2.2))
          (.ok ([], y.2))).bind fun z =>
            let ds := z.1.map (·.1)
            if (ds.zipIdx.all fun d => producedOk ds g.err d.2 d.1) then .ok (g, z.1, z.2) else .error badDesc

end Sys2Proof.Machine
end

