-- ==== Sys2Proof/Machine/Saiga.lean ====
section
/-! DEFINITION. The life of nodes, attempts and graphs: references and buffers, class choice and readiness,
retirement, failure, cancellation and completion (05 R105 to R124, 01 R22 to R25, 07 R158 to R162). -/

namespace Sys2Proof.Machine

open Host (Outcome)

/-! Buffers and references (R106 to R108) -/

/-- A new buffer with one reference. -/
def State.newBuf (s : State) (size attr : Nat) (big : Bool) : Nat × State :=
  let u : Buffer := { Buffer.none with size := size, attr := BitVec.ofNat 13 attr, big := big, refs := 1 }
  (s.nextBuf, { s.setBuf s.nextBuf u with nextBuf := s.nextBuf + 1 })

/-- One more reference. -/
def State.addRef (s : State) (b : Nat) : State :=
  let u := s.buf b
  s.setBuf b { u with refs := u.refs + 1 }

/-- One reference less; a buffer without references is freed, with the code digests taken from it (R107,
07 R157) and what caches and TLBs hold of it (09 R220).  An extent that is lent keeps its state when its buffer goes
so (log 65). -/
def State.dropRef (s : State) (b : Nat) : State :=
  let u := s.buf b
  if 1 < u.refs then s.setBuf b { u with refs := u.refs - 1 }
  else
    let s1 := s.forgetBuf b
    { s1 with bufs := Tab.erase s1.bufs b, codes := s1.codes.filter fun c => c.buf != b }

def State.dropRefs (s : State) (bs : List Nat) : State := bs.foldl State.dropRef s

/-- A further reference would exceed 32 bits (R107). -/
def State.refsFull (s : State) (b : Nat) : Bool := decide (0xFFFFFFFF ≤ (s.buf b).refs)

def State.setCap (s : State) (p slot : Nat) (c : CapSlot) : State := { s with caps := Tab.set s.caps (capKey p slot) c }
def State.clearCap (s : State) (p slot : Nat) : State := { s with caps := Tab.erase s.caps (capKey p slot) }

/-- Every capability, copy and binding of a buffer is revoked (R113), and its translations are gone (09 R220). -/
def State.revoke (s : State) (b : Nat) : State :=
  let u := s.buf b
  (s.setBuf b { u with revoked := true }).forgetTlb b

/-! Classes and readiness (01 R22 to R25, 05 R105) -/

/-- The clusters in a mask. -/
def clustersOf (mask : Nat) : List Nat := (List.range 24).filter fun k => mask.testBit k

/-- Usable cores of a site now (01 R16). -/
def Site.cores (x : Site) : Nat := if x.inService && decide (x.cls ≤ 4) then 4 * (clustersOf x.clmask).length else 0

/-- In-service sites of a class, ascending. -/
def State.sitesOf (s : State) (cls : Nat) : List Nat :=
  (s.sites.filter fun x => x.2.inService && x.2.cls == cls).map (·.1)

/-- A class is available to a node (R22). -/
def State.available (s : State) (nd : Node) (cls : Nat) : Bool :=
  match codeClassOn nd.code cls with
  | none => false
  | some cc => decide (nd.width ≤ ((s.sitesOf cls).filter fun k => decide (nd.gangs.getD (cc - 1) 0 ≤ (s.site k).cores)).length)

/-- The dispatch class (R24); none is NO_CLASS. -/
def State.dispatchClass (s : State) (nd : Node) : Option Nat :=
  match nd.classes.find? fun c => s.available nd c with
  | some c => some c
  | none => nd.classes.findSome? fun c => (chainOf nd.code c).find? fun f => s.available nd f

/-- Nodes of a graph. -/
def State.nodesOf (s : State) (g : Nat) : List Nat := (s.nodes.filter fun x => x.2.graph == g).map (·.1)

/-- The nodes that an attempt of a node posted. -/
def State.children (s : State) (n : Nat) : List Nat :=
  (s.nodes.filter fun x => match x.2.parent with | some p => p.1 == n | none => false).map (·.1)

/-! The end of an attempt -/

/-- A core's counts go to its partition's totals (14 R321). -/
def State.flushCore (s : State) (p : Nat) (id : Nat) : State :=
  let c := Tab.get Core.idle s.cores id
  let t := s.partn p
  let tot := c.counters.foldl (fun (a : Tab DWord) x => Tab.upd 0 a x.1 (· + BitVec.ofNat 64 x.2)) t.counters
  { s.setPart p { t with counters := tot } with cores := Tab.set s.cores id { c with counters := [] } }

/-- The cores that run an attempt. -/
def State.coresOf (s : State) (a : Nat) : List Nat :=
  (s.cores.filter fun x => match x.2.job with | some j => j.att == a | none => false).map (·.1)

/-- Metered energy accrues to an attempt, its partition and the package (06 R141): how much is a free value
(log 8). -/
def State.meter (s : State) (a : Nat) : State :=
  let t := s.attempt a
  let m := Config.meter s.freeIdx
  let p := s.partn t.part
  let k := s.pkg
  let s1 := (s.setAttempt a { t with metered := t.metered + m }).setPart t.part { p with metered := p.metered + m }
  { s1.setPkg { k with metered := k.metered + m } with freeIdx := s.freeIdx + 1 }

/-- A partition's reserve changes; vector 30 of its VFs fires when it becomes negative and when it stops being
negative (06 R143). -/
def State.reserveTo (s : State) (p : Nat) (r : Int) : State :=
  let x := s.partn p
  let s1 := s.setPart p { x with reserve := r }
  if decide (x.reserve < 0) != decide (r < 0) then (s.vfsOf p).foldl (fun s v => s.vfIrq v 30) s1 else s1

/-- What the attempt has not been charged yet of M, or gets back of its hold (06 R141). -/
def State.settleEnergy (s : State) (a : Nat) : State :=
  let s1 := s.meter a
  let t := s1.attempt a
  let back : Int := (t.hold : Int) + t.debited - t.metered
  s1.reserveTo t.part ((s1.partn t.part).reserve + back)

/-- The reuse histogram of an attempt that ends (14 R325). -/
def State.reuseEvent (s : State) (a : Nat) : State :=
  let t := s.attempt a
  if !t.reuse then s
  else s.frontEvent t.part 0x0A (s.graphOf t).gid t.codeAt t.key ((List.range 16).flatMap fun k => leBytes 4 (Tab.get 0 t.hist k))

/-- The clusters of a chiplet's attempt, as the L1s number them. -/
def Attempt.l1s (t : Attempt) : List Nat := t.insts.flatMap fun i => i.clusters.map (i.site * 32 + ·)

/-- Every byte that an attempt wrote, and every byte that another agent wrote before it on its chiplets, reaches its home:
its clusters' L1s are written back and end empty, and its chiplets' L2s are written back (R114 step 1, 09 R209, 10 R231,
R233). -/
def State.settleWrites (s : State) (a : Nat) : State :=
  let t := s.attempt a
  let s1 := t.l1s.foldl (fun s c => (s.flush1 c).wipe1 c) s
  (t.insts.map (·.site)).foldl (fun s k => s.flush2 k) s1

/-- The clusters that an attempt's jobs ran on are given back: its cores hold no job, its transfers and faults
are gone, and what its L1s still hold is lost (09 R209, 13 R305, 20 R495). -/
def State.freeCores (s : State) (a : Nat) : State :=
  let ids := s.coresOf a
  let t := s.attempt a
  let s1 := t.l1s.foldl State.wipe1 (ids.foldl (fun s id => s.flushCore t.part id) s)
  { s1 with
    cores := s1.cores.filter fun x => !ids.contains x.1
    tahr := s1.tahr.map fun q => (q.1, q.2.filter fun i => !ids.contains i.core)
    stage := s1.stage.map fun q => (q.1, q.2.filter fun x => x.att != a)
    turns := s1.turns.filter fun u => match u with | .core id | .stream id _ | .fin id => !ids.contains id }

/-- An attempt ends: its energy is settled, its histogram written, its sample tag registers freed, and its cores (14
R324). -/
def State.endAttempt (s : State) (a : Nat) : State :=
  let s1 := ((s.settleEnergy a).reuseEvent a).freeCores a
  { s1 with
    atts := Tab.erase s1.atts a
    sites := s1.sites.map fun x => (x.1, { x.2 with tags := x.2.tags.filter fun r => r.2.att != a }) }

/-- Bindings of a partition's attempt that does not retire give up their OUT and SCRATCH buffers, gives, drops and
reservations (R116). -/
def State.releaseBinds (s : State) (p : Nat) (bs : List Bind) : State :=
  bs.foldl
    (fun s b =>
      let s1 := match b.slot with | some k => s.clearCap p k | none => s
      let s2 := match b.give with | some k => (s1.clearCap p k).dropRef b.buf | none => s1
      if b.kind = 2 ∨ b.kind = 3 then s2.dropRef b.buf else s2)
    s

/-- An attempt that does not retire gives them up. -/
def State.releaseAttempt (s : State) (a : Nat) : State :=
  let t := s.attempt a
  s.releaseBinds t.part t.binds

/-- The attempt of a node that runs or is suspended. -/
def Node.attempt? (nd : Node) : Option Nat :=
  match nd.phase with
  | .running a | .suspended a => some a
  | _ => none

/-- An event that an attempt failed or was aborted (14 R318). -/
def State.failEvent (s : State) (a cause : Nat) : State :=
  let t := s.attempt a
  let g := s.graphOf t
  s.frontEvent t.part 0x03 g.gid (cause + g.used * 256) t.key

/-- Stop an attempt that does not retire. -/
def State.stopAttempt (s : State) (a cause : Nat) : State := ((s.failEvent a cause).releaseAttempt a).endAttempt a

/-- A node is in the run lists. -/
def Node.candidate (nd : Node) : Bool := match nd.phase with | .ready | .suspended _ => true | _ => false

/-- The key of a node's queue (06 R128). -/
def Node.key (nd : Node) : Nat := nd.vf * 16 + nd.q

/-- A partition, or a queue of it, has candidates of a level (06 R128). -/
def State.hasCandidate (s : State) (lvl p : Nat) (q : Option Nat) : Bool :=
  s.runq.any fun n =>
    let nd := s.node n
    nd.candidate && nd.prio == lvl && (s.graph nd.graph).part == p && (match q with | none => true | some k => nd.key == k)

/-- The credit of a partition or a queue that has run out of candidates is lost (06 R128). -/
def State.loseCredit (s : State) : State :=
  { s with
    robin := s.robin.map fun x =>
      (x.1, { x.2 with
        credit := if s.hasCandidate x.1 x.2.at_ none then x.2.credit else 0
        queues := x.2.queues.map fun y => (y.1, if s.hasCandidate x.1 y.1 (some y.2.1) then y.2 else (y.2.1, 0)) }) }

/-- A node leaves the tables: its references, its pool or dependence entry and its places go (R104, R121). -/
def State.forget (s : State) (n : Nat) : State :=
  let nd := s.node n
  let s1 := (s.dropRefs (Tab.vals nd.refs)).dropRefs (Tab.vals nd.outs)
  State.loseCredit
    { s1 with
      nodes := Tab.erase s1.nodes n
      runq := s1.runq.filter (· != n)
      held := s1.held.filter fun h => h.2 != n }

/-- Successors that wait for a continuation wait for its parent again (R124). -/
def State.unredirect (s : State) (n parent : Nat) : State :=
  { s with nodes := s.nodes.map fun x => (x.1, { x.2 with preds := x.2.preds.map fun p => if p = n then parent else p }) }

/-- What a retired group node still had to bring about is lost: its slots lapse, with the references they hold (R124). -/
def State.loseLate (s : State) (n : Nat) : State :=
  let nd := s.node n
  match nd.late with
  | none => s
  | some d =>
    let p := (s.graph nd.graph).part
    let s1 := d.fills.foldl (fun s f => (s.clearCap p f.1).dropRef f.2.1) s
    s1.setNode n { nd with late := none }

/-- The launch group of a node is undone (R124): attempts are aborted with a CAUSE, retired nodes lose their deferred
effects and buffers, and so do the groups below. -/
def State.undoGroup : Nat → State → Nat → Nat → State
  | 0, s, _, _ => s
  | fuel + 1, s, n, cause =>
    (s.children n).foldl
      (fun s c =>
        let nd := s.node c
        let s1 := match nd.attempt? with | some a => s.stopAttempt a cause | none => s
        let s2 := State.undoGroup fuel s1 c cause
        let s3 := if nd.cont then s2.unredirect c n else s2
        (s3.loseLate c).forget c)
      s

/-- Undo a node's group, however deep. -/
def State.undo (s : State) (n : Nat) (cause : Nat := 0) : State := s.undoGroup (s.nodes.length + 1) n cause

/-- A node's attempt, if any, is stopped, its group undone, and the node forgotten. -/
def State.cancel (s : State) (n cause : Nat) : State :=
  let s1 := match (s.node n).attempt? with | some a => s.stopAttempt a cause | none => s
  ((s1.undo n cause).loseLate n).forget n

/-! Graph completion (R118, R119) -/

/-- The graph result record (R119). -/
def Graph.record (g : Graph) (status time : Nat) (cause : Option Nat) : List Byte :=
  let f := g.fail.getD ⟨0xFFFF, 0, 0, 0, 0⟩
  let c := cause.getD f.cause
  leBytes 4 status ++ leBytes 2 f.node ++ leBytes 1 c ++ leBytes 1 g.used ++
    leBytes 4 (if c = 1 then f.tcause else 0) ++ leBytes 1 (if c = 1 then f.eng else 0) ++ leBytes 3 0 ++
    leBytes 8 g.rsn ++ leBytes 8 time ++ leBytes 32 0

/-- The result record of a graph is written, where it names one (R119, R120). -/
def State.resultRecord (s : State) (g : Graph) (status : Nat) (cause : Option Nat) : State :=
  if g.single ∨ g.result = 0 then s else s.capWrite g.part g.vf g.result (g.record status s.time cause) true

/-- A graph ends: what is left of it goes, its result record is written, and its packet may complete. -/
def State.completeGraph (s : State) (g : Nat) : State :=
  let x := s.graph g
  let status := (x.fail.map (·.status)).getD 0
  let s1 := (s.nodesOf g).foldl (fun s n => s.cancel n 0) s
  let s2 := (s1.resultRecord x status none).finishPacket x.vf x.q x.pkt status
  { s2 with graphs := Tab.erase s2.graphs g }

/-- A graph's nodes other than an error node that has not been dispatched have all ended.  DESIGN CHOICE (log 80): an error node
that has retired ends with its launch group. -/
def State.graphDone (s : State) (g : Nat) : Bool :=
  let x := s.graph g
  (s.nodesOf g).all fun n => x.err == some n && !x.errOn

/-- Complete a graph that is done. -/
def State.checkGraph (s : State) (g : Nat) : State :=
  if (Tab.find s.graphs g).isSome && s.graphDone g then s.completeGraph g else s

/-- A node failed for the last time (R118): every other node of its graph is cancelled or aborted, and the
error node becomes ready; without one, or when it is the one that failed, the graph completes.  DESIGN CHOICE (log 80): STATUS,
FAILNODE and CAUSE stay those of the first failure. -/
def State.graphFails (s : State) (g : Nat) (f : GraphFail) : State :=
  let x := s.graph g
  let s1 := s.setGraph g { x with fail := some (x.fail.getD f), errOn := true }
  match x.err with
  | none => s1.completeGraph g
  | some e =>
    if x.errOn then s1.completeGraph g
    else
      let s2 := ((s1.nodesOf g).filter (· != e)).foldl (fun s n => if (Tab.find s.nodes n).isSome then s.cancel n 0 else s) s1
      let nd := s2.node e
      match s2.dispatchClass nd with
      | none => s2.completeGraph g
      | some c => { s2.setNode e { nd with phase := .ready, cls := some c, preds := [] } with runq := s2.runq ++ [e] }

/-- A node fails for the last time with a status and cause. -/
def State.nodeFails (s : State) (n status cause tcause eng : Nat) : State :=
  let nd := s.node n
  s.graphFails nd.graph ⟨if nd.parent.isSome then 0xFFFF else nd.idx, status, cause, tcause, eng⟩

/-- A node whose predecessors have all retired becomes ready, with its class chosen; without one it fails at
once (R24, R25, R105). -/
def State.makeReady (s : State) (n : Nat) : State :=
  let nd := s.node n
  match s.dispatchClass nd with
  | some c => { s.setNode n { nd with phase := .ready, cls := some c } with runq := s.runq ++ [n] }
  | none => s.nodeFails n 2 4 0 0

/-- The waiting nodes whose predecessors have retired become ready, in order of graph index and then of
launch-group index (06 R127). -/
def State.releaseReady (s : State) : State :=
  let g := s.nodes.filter fun x => x.2.phase == .waiting && x.2.preds.isEmpty && !x.2.isErr
  let byGraph := g.filter fun x => x.2.parent.isNone
  let byGroup := g.filter fun x => x.2.parent.isSome
  ((byGraph ++ byGroup).map (·.1)).foldl
    (fun s n => if (s.node n).phase == .waiting && (Tab.find s.nodes n).isSome then s.makeReady n else s) s

/-! Retirement (R114, R115, R123, 07 R158 to R162) -/

/-- An extension group enters its context's chain, under an RSN; a closed context takes nothing (07 R154, R159,
R162, R163, R167). -/
def State.extend (s : State) (p c rsn : Nat) (recs : List LogRec) (roots : List (Nat × List Byte)) : State :=
  let x := s.ctx p c
  if !x.isOpen || recs.isEmpty then s
  else
    let add (y : Ctx) (r : LogRec) : Ctx :=
      let full := decide (65536 ≤ y.recs.length)
      { y with
        chain := sha512 (y.chain ++ leBytes 1 r.kind ++ leBytes 8 r.len ++ r.dig)
        extcount := y.extcount + 1
        rsnlast := rsn
        recs := if full then y.recs else y.recs ++ [{ r with rsn := rsn }]
        lost := y.lost || full }
    let s1 := s.setCtx p c (recs.foldl add x)
    roots.foldl (fun s r => let u := s.buf r.1; s.setBuf r.1 { u with mrec := some ⟨p, c, some r.2⟩ }) s1

/-- The slots that an attempt fills at its retirement: its exports and gives, with their rights (R112, R114).  DESIGN CHOICE
(log 79): an export slot gets both rights whatever ATTR is. -/
def Attempt.fills (t : Attempt) : List (Nat × Nat × Bool × Bool) :=
  t.binds.flatMap fun b =>
    let ex := match b.slot with | some k => [(k, b.buf, true, true)] | none => []
    let gv := match b.give with
      | some k =>
        let r := b.kind = 0 ∨ b.kind = 1 ∨ b.kind = 2 ∨ b.kind = 3 ∨ b.r
        [(k, b.buf, decide r, decide (b.kind = 2 ∨ b.kind = 3) || (b.kind == 4 && b.w))]
      | none => []
    ex ++ gv

/-- Fill slots; each takes over a reference that was held for it (R107). -/
def State.fill (s : State) (p : Nat) (fs : List (Nat × Nat × Bool × Bool)) : State :=
  fs.foldl (fun s f => s.setCap p f.1 (.cap f.2.1 f.2.2.1 f.2.2.2)) s

/-- The buffers that an attempt's export slots receive at its retirement. -/
def Attempt.exports (t : Attempt) : List Nat := t.binds.filterMap fun b => if b.slot.isSome then some b.buf else none

/-- The measured OUT bindings of an attempt: index, buffer (R158). -/
def Attempt.measuredOuts (s : State) (t : Attempt) : List (Nat × Nat) :=
  (t.binds.zipIdx.filter fun x => x.1.kind == 2 && (s.buf x.1.buf).attr.getLsbD 1).map fun x => (x.2, x.1.buf)

/-- The tree root of a buffer (R160). -/
def Buffer.root (u : Buffer) : List Byte := treeRoot (fun o n => u.mem.bytes o n) u.size

/-- The extension group of a measured attempt (R158): code object, argument block, measured OUT buffers. -/
def State.extensionGroup (s : State) (t : Attempt) : List LogRec × List (Nat × List Byte) :=
  match t.meas with
  | none => ([], [])
  | some m =>
    let nd := s.node t.node
    let g := s.graph nd.graph
    let idx := if nd.parent.isSome then 0xFFFF else nd.idx
    let rec_ (kind bind len : Nat) (dig : List Byte) : LogRec := ⟨0, g.gid, idx, kind, bind, t.cls, len, dig⟩
    let outs := (t.measuredOuts s).map fun x => (x.1, x.2, (s.buf x.2).root)
    ([rec_ 1 0 m.codeLen m.codeDig, rec_ 2 0 t.args.length m.argDig] ++ outs.map (fun o => rec_ 3 o.1 (s.buf o.2.1).size o.2.2),
      outs.map fun o => (o.2.1, o.2.2))

/-- The buffers of a producer go to every PRODUCED binding that names one of them (R107, R114). -/
def State.handOut (s : State) (n : Nat) (outs : Tab Nat) : State :=
  let p := s.node n
  let names (m : Node) : Option Nat :=
    match p.parent, m.parent with
    | none, none => if m.graph = p.graph then some p.idx else none
    | some a, some b => if a.1 = b.1 then some a.2 else none
    | _, _ => none
  s.nodes.foldl
    (fun s x =>
      let m := x.2
      let ref := match m.parent with
        | some q => if q.1 = n then some 0 else names m
        | none => names m
      match ref with
      | none => s
      | some r =>
        if m.phase == .posted then s
        else
          m.binds.zipIdx.foldl
            (fun s b =>
              if b.1.kind = 1 ∧ b.1.ref = r then
                match Tab.find outs b.1.pbind with
                | some u =>
                  let y := s.node x.1
                  if (Tab.find y.refs b.2).isSome then s else (s.setNode x.1 { y with refs := Tab.set y.refs b.2 u }).addRef u
                | none => s
              else s)
            s)
    s

/-- A node's retirement is over for those that wait for it. -/
def State.satisfy (s : State) (n : Nat) : State :=
  { s with nodes := s.nodes.map fun x => (x.1, { x.2 with preds := x.2.preds.filter (· != n) }) }

/-- Retired nodes of a group, with their RSNs, ascending. -/
def State.retiredKids (s : State) (n : Nat) : List (Nat × Nat) :=
  let l := (s.children n).filterMap fun c => match (s.node c).phase with | .retired r => some (r, c) | _ => none
  l.mergeSort fun a b => decide (a.1 ≤ b.1)

/-- The deferred effects of a node's retired group take effect under its RSN, and those of the groups below,
in ascending order of the nodes' own RSNs (R123, 07 R159). -/
def State.takeEffect : Nat → State → Nat → Nat → State
  | 0, s, _, _ => s
  | fuel + 1, s, n, rsn =>
    (s.retiredKids n).foldl
      (fun s k =>
        let nd := s.node k.2
        let g := s.graph nd.graph
        let d := nd.late.getD ⟨[], [], []⟩
        let s1 := s.fill g.part d.fills
        let s2 := match g.meas with | some c => s1.extend g.part c rsn d.recs d.roots | none => s1
        (State.takeEffect fuel s2 k.2 rsn).forget k.2)
      s

/-- Every core of an attempt has ended its job (R177), and none of it is suspended. -/
def State.jobsDone (s : State) (a : Nat) : Bool :=
  let ids := s.coresOf a
  !(s.attempt a).parked && (s.attempt a).ckpts.isEmpty && !ids.isEmpty && ids.all fun id => (Tab.get Core.idle s.cores id).done

/-- Writes of an attempt that are still to perform: at a home, in a storer's queue, in the stage engine
(R114 step 1). -/
def State.writesOpen (s : State) (a : Nat) : Bool :=
  (s.homeq.any fun r => match r with | .devWrite _ _ _ _ x => x == some a | _ => false) ||
    (s.stage.any fun q => q.2.any fun x => x.att == a && (x.cmd.op == 1 || x.cmd.op == 5)) ||
    (s.coresOf a).any fun id =>
      let c := Tab.get Core.idle s.cores id
      (c.stgq.items.any fun q => q.op == 1 || q.op == 5) ||
        (match c.saq.items with
          | [] => false
          | d :: _ => decide (descRows d.w ≤ (Tab.get Fifo.empty c.sq d.q).items.length))

/-- A reference that retirement would add is one too many (R107): of a buffer that is handed on, of one that was given,
or of one that a retired node of the group below has yet to hand on. -/
def State.overRefs : Nat → State → Nat → Bool
  | 0, _, _ => false
  | fuel + 1, s, n =>
    (s.retiredKids n).any fun k =>
      (((s.node k.2).late.getD ⟨[], [], []⟩).fills.any fun f => decide (0xFFFFFFFF < (s.buf f.2.1).refs)) ||
        State.overRefs fuel s k.2

/-- The steps of R114 for an attempt whose roots can be computed. -/
def State.retire (s : State) (a : Nat) : State :=
  let t := s.attempt a
  let n := t.node
  let nd := s.node n
  let g := s.graph nd.graph
  let rsn := s.pkg.rsn + 1
  let k := s.pkg
  let ext := s.extensionGroup t
  let s1 := (s.setPkg { k with rsn := rsn }).setGraph nd.graph { g with rsn := rsn }
  let s2 := s1.frontEvent t.part 0x02 g.gid rsn t.key
  let outs : Tab Nat := (t.binds.zipIdx.filter fun x => x.1.kind == 2).map fun x => (x.2, x.1.buf)
  let later := match nd.parent with | some p => (Tab.find s.nodes p.1).isSome | none => false
  let s3 := s2.handOut n outs
  let s4 := t.exports.foldl State.addRef s3
  let scratch := (t.binds.filter fun b => b.kind == 3).map (·.buf)
  if later then
    let keep : Node := { s4.node n with phase := .retired rsn, outs := outs, late := some ⟨t.fills, ext.1, ext.2⟩ }
    let s5 := (s4.setNode n { keep with refs := [] }).dropRefs (Tab.vals keep.refs)
    (((s5.dropRefs scratch).endAttempt a).satisfy n).releaseReady
  else
    let s5 := s4.fill t.part t.fills
    let s6 := match g.meas with | some c => s5.extend t.part c rsn ext.1 ext.2 | none => s5
    let s7 := ((s6.dropRefs (Tab.vals outs)).dropRefs scratch).endAttempt a
    let s8 := State.takeEffect (s7.nodes.length + 1) s7 n rsn
    let s9 := (s8.forget n).satisfy n
    s9.releaseReady.checkGraph nd.graph

/-- An attempt whose every job has ended retires (R114): it waits for its writes and for the checks of what it
launched; a reference too many fails its node (R107); an uncorrectable error, or a memory chiplet out of service, met
while hashing fails it first (07 R161, 01 R20).  The focus names the attempt. -/
def execAttemptRetirement (s : State) : Outcome State Fault Refusal :=
  let a := s.cur.site
  if (Tab.find s.atts a).isNone || !s.jobsDone a || s.writesOpen a then .next s
  else
    let t := s.attempt a
    let s := s.settleWrites a
    let hashed := if t.meas.isSome then t.measuredOuts s else []
    if (s.children t.node).any fun c => (s.node c).phase == .posted then .next s
    else if t.binds.any (fun b => (b.kind == 2 && s.refsFull b.buf) || (b.give.isSome && decide (0xFFFFFFFF < (s.buf b.buf).refs)))
        || State.overRefs (s.nodes.length + 1) s t.node then
      .next (((s.stopAttempt a 6).undo t.node).nodeFails t.node 1 6 0 0)
    else if hashed.any (fun o => (s.buf o.2).badAt 0 (s.buf o.2).size) then .next (s.raise s.cur (.attemptFailure a 3 0 0))
    else if hashed.any (fun o => s.lostAt o.2 0 (s.buf o.2).size) then .next (s.raise s.cur (.attemptFailure a 7 0 0))
    else .next (s.retire a)

/-! Failure (R116 to R118) -/

/-- The sites of an attempt. -/
def Attempt.sites (t : Attempt) : List Nat := t.insts.map (·.site)

/-- An attempt fails (R116, R117): its jobs stop, its group and its fresh buffers go; while the graph's budget
lasts the node becomes ready again, away from its instances; else it has failed for the last time. -/
def State.attFails (s : State) (a cause tcause eng : Nat) : State :=
  let t := s.attempt a
  let n := t.node
  let s1 := (s.stopAttempt a cause).undo n
  let nd := s1.node n
  let g := s1.graph nd.graph
  let s2 : State :=
    { s1.setNode n { nd with phase := .waiting, avoid := t.sites, cls := none } with runq := s1.runq.filter (· != n) }
  if g.used < g.retry then (s2.setGraph nd.graph { g with used := g.used + 1 }).makeReady n
  else s2.nodeFails n 1 cause tcause eng

/-- An attempt fails with a CAUSE of R119, and the TCAUSE and engine of its trap (R116, R305). A handler fault (TCAUSE
0x1A00 of R293) comes from outside; the Tahr at work on a trap of the attempt first forms its record. -/
def execAttemptFailure (att cause tcause eng : Nat) (s : State) : Outcome State Fault Refusal :=
  if (Tab.find s.atts att).isNone then .next s
  else
    match (if tcause = 0x1A00 then s.handled att else none) with
    | some i => .next (s.handlerFault i)
    | none => .next (s.attFails att cause tcause eng)

/-- An attempt is aborted without a retry and its node goes back to the head of its queue's order (06 R148). -/
def State.requeue (s : State) (a : Nat) : State :=
  let n := (s.attempt a).node
  let s1 := (s.stopAttempt a 0).undo n
  let nd := s1.node n
  match s1.dispatchClass nd with
  | some c => { s1.setNode n { nd with phase := .ready, cls := some c } with runq := n :: s1.runq }
  | none => s1.nodeFails n 2 4 0 0

/-- Every attempt that runs on a site fails with a health event's CAUSE once the step is over (01 R20). -/
def State.failSite (s : State) (site : Nat) (clusters : Option (List Nat)) : State :=
  s.atts.foldl
    (fun s x =>
      if x.2.insts.any fun i => i.site == site && (match clusters with | none => true | some cs => i.clusters.any cs.contains) then
        s.raise s.cur (.attemptFailure x.1 7 0 0)
      else s)
    s

/-- The dispatch class of every waiting node is chosen anew at a GEN change (06 R131); one that is left without
a class fails. -/
def State.rechoose (s : State) : State :=
  s.runq.foldl
    (fun s n =>
      let nd := s.node n
      if nd.phase != .ready then s
      else
        match s.dispatchClass nd with
        | some c => s.setNode n { nd with cls := some c }
        | none => s.nodeFails n 2 4 0 0)
    s

end Sys2Proof.Machine
end

