-- ==== Sys2Proof/Machine/Launch.lean ====
section
/-! DEFINITION. The control stream's launches and capability instructions, and the check of a launched
descriptor (05 R112, R121 to R124, 16 R389 to R391). -/

namespace Sys2Proof.Machine

open Host (Outcome)

/-- The address check of a launch (R389): checks 1 to 5 of R205 over a 64-byte header, then where the
header lies in a buffer or in the argument block; or the trap. -/
def State.launchAt (s : State) (a : Nat) : Access :=
  if offOf a % 64 ≠ 0 then .trap 0x03 0 none
  else
    match s.access (slotOf a * 2 ^ 48) 0 0 true false false with
    | .buf b _ => .buf b (offOf a)
    | .args _ => .args (offOf a)
    | .trap 0x04 5 _ => .args (offOf a)
    | .trap c sub ch => .trap c sub ch

/-- Pool entries of a kind that are held: 1 from a partition's reserve, 2 shared (R121). -/
def State.poolHeld (s : State) (p kind : Nat) : Nat :=
  (s.nodes.filter fun x => x.2.pool == kind && (kind == 2 || (s.graph x.2.graph).part == p)).length

/-- The pool entry a launch of a partition takes: its reserve first (R121). -/
def State.poolEntry (s : State) (p : Nat) : Option Nat :=
  if s.poolHeld p 1 < 64 then some 1 else if s.poolHeld p 2 < 4096 then some 2 else none

/-- The node that a launch posts (R123, 06 R127, 11 R270); its descriptor lies at desc, or blk holds what of the
argument block follows desc. -/
def State.postedNode (s : State) (t : Attempt) (desc pool : Nat) (blk : Option (List Byte)) (cont : Bool) : Node :=
  let nd := s.node t.node
  let idx := t.posted + 1
  { Node.empty with
    graph := nd.graph
    idx := idx
    num := (nd.num * 256 + idx) % 65536
    parent := some (t.node, idx)
    vf := nd.vf
    q := nd.q
    prio := nd.prio
    desc := desc
    inl := blk
    phase := .posted
    cont := cont
    pool := pool }

/-- What waits for a node's retirement waits for: the node, or the continuation that its attempt posted, and so on
(R124). -/
def State.awaited : Nat → State → Nat → Nat
  | 0, _, n => n
  | fuel + 1, s, n =>
    match (s.children n).find? fun c => (s.node c).cont with
    | some c => State.awaited fuel s c
    | none => n

/-- The node whose retirement a group member stands for. -/
def State.lastOf (s : State) (n : Nat) : Nat := State.awaited (s.nodes.length + 1) s n

/-- A node has retired. -/
def State.isRetired (s : State) (n : Nat) : Bool := match (s.node n).phase with | .retired _ => true | _ => false

/-- Post a node to the launch group of the attempt in focus; what waits for the parent waits for a
continuation instead (R122 to R124). -/
def State.postNode (s : State) (desc pool : Nat) (blk : Option (List Byte)) (cont : Bool) : State :=
  let t := s.att
  let n := s.nextNode
  let before := ((s.children t.node).map s.lastOf).filter fun c => !s.isRetired c
  let nd := { s.postedNode t desc pool blk cont with preds := if cont then t.node :: before else [] }
  let late (m : Node) : Node :=
    match m.parent with
    | some q => if q.1 = t.node then m else { m with preds := m.preds.map fun p => if p = t.node then n else p }
    | none => { m with preds := m.preds.map fun p => if p = t.node then n else p }
  let s1 : State := if cont then { s with nodes := s.nodes.map fun x => (x.1, late x.2) } else s
  let s2 : State := { s1.setNode n nd with nextNode := n + 1 }
  s2.setAtt { t with posted := t.posted + 1, cont := t.cont || cont }

/-- A launch (R122, R389): the status is written 32 cycles after the issue. -/
def State.doLaunch (s : State) (d a : BitVec 6) (cont : Bool) : State :=
  let t := s.att
  let addr := (s.pair a).toNat
  let post (desc : Nat) (blk : Option (List Byte)) : State :=
    match s.poolEntry t.part with
    | none => (s.wr 32 d 1).nextCtl 4
    | some pool =>
      if 255 ≤ t.posted then (s.wr 32 d 2).nextCtl 4
      else if cont && t.cont then (s.wr 32 d 3).nextCtl 4
      else ((((s.postNode desc pool blk cont).wr 32 d 0).later 32 (.shown s.nextNode)).nextCtl 4)
  match s.launchAt addr with
  | .trap c sub ch => s.trap c sub addr 0 ch
  | .buf b off => post (direct b off) none
  | .args off => post off (some (t.args.drop off))

/-- `launch` (R389). -/
def execLaunch (d a : BitVec 6) (s : State) : Outcome State Fault Refusal := .next (s.doLaunch d a false)

/-- `launch …, cont` (R124, R389). -/
def execLaunchContinuation (d a : BitVec 6) (s : State) : Outcome State Fault Refusal := .next (s.doLaunch d a true)

/-! Capability instructions (R112, R390, R391) -/

/-- Replace binding k of the attempt in focus. -/
def State.setBind (s : State) (k : Nat) (b : Bind) : State :=
  let t := s.att
  s.setAtt { t with binds := t.binds.set k b }

/-- `capgive` (R112, R390): the slot is reserved, the pending give holds a reference (R107), and the binding reads as
EMPTY from the next instruction. -/
def execCapgive (d a : BitVec 6) (k : BitVec 5) (s : State) : Outcome State Fault Refusal :=
  let slot := (s.sreg a).toNat % 65536
  let t := s.att
  match t.binds[k.toNat]? with
  | none => .next (s.trap 0x04 1)
  | some b =>
    if b.empty then .next ((s.wr 6 d 1).nextCtl 4)
    else if 0xFFDF < slot ∨ (s.cap t.part slot).isSome then .next ((s.wr 6 d 2).nextCtl 4)
    else
      let s0 := (s.setCap t.part slot .reserved).addRef b.buf
      let s1 := s0.setBind k.toNat { b with empty := true, given := true, give := some slot }
      .next ((s1.wr 6 d 0).nextCtl 4)

/-- `capdrop` (R112, R390): the reference goes at retirement. -/
def execCapdrop (d : BitVec 6) (k : BitVec 5) (s : State) : Outcome State Fault Refusal :=
  match s.att.binds[k.toNat]? with
  | none => .next (s.trap 0x04 1)
  | some b =>
    if b.empty then .next ((s.wr 6 d 1).nextCtl 4)
    else .next (((s.setBind k.toNat { b with empty := true }).wr 6 d 0).nextCtl 4)

/-- The words that `capqry` with part 0 reports of a binding (R391). -/
def Bind.query (b : Bind) (u : Buffer) : DWord :=
  let on (x : Bool) (k : Nat) : Nat := if x then 2 ^ k else 0
  BitVec.ofNat 64 (b.kind + on b.exp 3 + on b.r 4 + on b.w 5 + on b.empty 6 + on b.given 7 + on u.revoked 8
    + u.attr.toNat * 2 ^ 32)

/-- `capqry` (R112, R391). -/
def execCapqry (d : BitVec 6) (k : BitVec 5) (part : Bool) (s : State) : Outcome State Fault Refusal :=
  match s.att.binds[k.toNat]? with
  | none => .next (s.trap 0x04 1)
  | some b =>
    let u := s.buf b.buf
    .next ((s.wrPair 6 d (if part then BitVec.ofNat 64 u.size else b.query u)).nextCtl 4)

/-! The check of a launched descriptor (R122, R123, R389) -/

/-- An address or slot of a launched node's descriptor: through a binding of the parent it names the bound
buffer itself; none when the parent has no such binding or lacks the right. -/
def Attempt.through (s : State) (t : Attempt) (slot : Nat) (r w : Bool) : Option Nat :=
  match t.binds[slot - 0xFFE0]? with
  | none => none
  | some b => if b.empty || (s.buf b.buf).revoked || (r && !b.r) || (w && !b.w) then none else some b.buf

/-- A code or argument address of a launched node's descriptor; one through a binding keeps the address that it names (14
R318). -/
def Attempt.addrThrough (s : State) (t : Attempt) (a : Nat) : Option Nat :=
  if slotOf a < 0xFFE0 then some a else (t.through s (slotOf a) true false).map fun b => direct b a

/-- A binding of a launched node's descriptor. -/
def Attempt.bindThrough (s : State) (t : Attempt) (b : BindSpec) : Option BindSpec :=
  if (b.kind = 0 ∨ b.kind = 4) ∧ 0xFFE0 ≤ b.ref then
    (t.through s b.ref (b.kind == 0 || b.rights % 2 == 1) (b.kind == 4 && decide (2 ≤ b.rights))).map
      fun u => { b with ref := 65536 + u }
  else some b

/-- Member i of the launch group of a node; 0 is the node itself. -/
def State.member (s : State) (parent i : Nat) : Option Nat :=
  if i = 0 then some parent else (s.children parent).find? fun c => (s.node c).parent == some (parent, i)

/-- The PRODUCED bindings of group node idx name lower members and OUT bindings of theirs (R103, R123). -/
def State.groupProducedOk (s : State) (parent idx : Nat) (binds : List BindSpec) : Bool :=
  binds.all fun b =>
    if b.kind ≠ 1 then true
    else
      decide (b.ref < idx) &&
        (match s.member parent b.ref with
          | some m => (match (s.node m).binds[b.pbind]? with | some o => o.kind == 2 | none => false)
          | none => false)

/-- The members that a launched node's PRODUCED bindings wait for, a continuation in place of the member that posted it
(R124), and the buffers of those that have retired. -/
def State.groupProducers (s : State) (parent : Nat) (binds : List BindSpec) : List Nat × Tab Nat :=
  binds.zipIdx.foldl
    (fun (acc : List Nat × Tab Nat) b =>
      if b.1.kind ≠ 1 then acc
      else
        match s.member parent b.1.ref with
        | none => acc
        | some m =>
          let last := if m = parent then m else s.lastOf m
          let waits := if s.isRetired last || acc.1.contains last then acc.1 else acc.1 ++ [last]
          match Tab.find (s.node m).outs b.1.pbind with
          | some u => (waits, if s.isRetired m then Tab.set acc.2 b.2 u else acc.2)
          | none => (waits, acc.2))
    ([], [])

/-- The descriptor of a launched node as Saiga reads it: a code or argument address through the parent's
bindings names the buffer. -/
def State.readLaunched (s : State) (t : Attempt) (p desc : Nat) (blk : Option (List Byte)) :
    Except ReadErr (NodeDesc × List Nat × State) :=
  let get (s : State) (at_ n : Nat) : Except ReadErr (List Byte × State) :=
    match blk with
    | none => s.capRead p (desc + at_) n
    | some bs => if bs.length < at_ + n then .error badDesc else .ok ((bs.drop at_).take n, s)
  (get s 0 64).bind fun x =>
    (get x.2 64 (16 * numAt x.1 5 1)).bind fun y =>
      (parsed ((nodeDesc x.1 y.1).filter anyCode)).bind fun d =>
        (parsed (allSome (d.code.map fun a => if a = 0 then some 0 else t.addrThrough s a))).bind fun code =>
          (parsed (allSome (d.binds.map fun b => t.bindThrough s b))).bind fun binds =>
            (parsed (if d.arglen = 0 then some 0 else t.addrThrough s d.arg)).bind fun arg =>
              (y.2.codeHeads p code).map fun h =>
                ({ d with code := code, binds := binds, arg := arg }, h.1.map (fun z => (z.map (·.gang)).getD 0), h.2)

/-- The status of the `launch` that posted a node has not been written yet (R389). -/
def State.statusDue (s : State) (n : Nat) : Bool :=
  s.cores.any fun c => !c.2.done && c.2.pend.any fun p => p.act == .shown n

/-- Saiga reads and checks the descriptor of a launched node once the status of its `launch` is written (R122, R389): a
malformed one fails the node for the last time with CAUSE 5; a read that waits for a lent line's holders is tried again.
The focus names the node; the members of its group below it are checked first. -/
def execLaunchedDescriptorCheck (s : State) : Outcome State Fault Refusal :=
  let n := s.cur.site
  let nd := s.node n
  match nd.phase, nd.parent with
  | .posted, some (parent, idx) =>
    let first := (s.children parent).all fun c =>
      (s.node c).phase != .posted || (match (s.node c).parent with | some q => decide (idx ≤ q.2) | none => true)
    if !first || s.statusDue n then .next s
    else
      let p := (s.graph nd.graph).part
      let t := match (s.node parent).attempt? with | some a => s.attempt a | none => Attempt.empty
      match s.readLaunched t p nd.desc nd.inl with
      | .error (.wait b off k) => .next (s.readWait ⟨n, 0, 12⟩ (.wait b off k))
      | .error (.code _) => .next (s.nodeFails n 1 5 0 0)
      | .ok (d, gangs, s1) =>
        if !s1.groupProducedOk parent idx d.binds then .next (s1.nodeFails n 1 5 0 0)
        else
          let pr := s1.groupProducers parent d.binds
          let s2 := (Tab.vals pr.2).foldl State.addRef s1
          let nd1 : Node :=
            { nd with
              classes := d.classes, width := d.width, code := d.code, gangs := gangs, arg := d.arg, arglen := d.arglen
              binds := d.binds, preds := nd.preds ++ pr.1.filter (fun m => !nd.preds.contains m), phase := .waiting
              refs := pr.2, inl := none }
          .next (s2.setNode n nd1).releaseReady
  | _, _ => .next s

end Sys2Proof.Machine
end

