-- ==== Sys2Proof/Machine/Ckpt.lean ====
section
/-! DEFINITION. A core at the start of an attempt, the checkpoint record of a job and its restoring (08 R175,
R196, 13 R308, R309). -/

namespace Sys2Proof.Machine

/-- The engines of a class in the bit order of a checkpoint's STREAMS. -/
def ckEngines (cls : Nat) : List Nat := [0, 1, if cls = 4 then 7 else 2, 4, 5]

/-- The first PC of a stream (R175, R196). -/
def firstPc (eng : Nat) : Nat := if eng = 4 ∨ eng = 5 then 0x80000000 else 0

/-- A stream at its start. -/
def Stream.begin (eng start : Nat) : Stream :=
  { Stream.absent with present := true, start := start, pc := firstPc eng }

/-- A core with the start state of R175: a job, its streams, its side cores' registers and data stores. -/
def Core.begin (t : Attempt) (j : Job) (width : Nat) : Core :=
  let regs (e : Nat) : Tab Word :=
    [(e * 32 + 10, BitVec.ofNat 32 j.grank), (e * 32 + 11, BitVec.ofNat 32 t.gang), (e * 32 + 12, BitVec.ofNat 32 j.inst),
      (e * 32 + 13, BitVec.ofNat 32 width)]
  { Core.idle with
    job := some j
    budget := t.budget
    streams := t.code.map fun x => (x.1, Stream.begin x.1 (Tab.get 0 t.starts x.1))
    x := regs 4 ++ regs 5
    dstore := t.data.map fun x => (x.1, Memory.putBytes [] 0 x.2) }

/-- The 24 bytes of a loop in a checkpoint. -/
def LoopRec.bytes (l : LoopRec) : List Byte :=
  leBytes 1 l.id ++ leBytes 1 l.mask ++ leBytes 1 (if l.cond then 2 else 1) ++ leBytes 1 0 ++ leBytes 4 l.iter ++
    leBytes 4 l.limit ++ leBytes 4 l.start ++ leBytes 4 l.stop ++ leBytes 4 l.trips

/-- The checkpoint record of a job (R308). -/
def Core.checkpoint (c : Core) (t : Attempt) (grank gclk : Nat) : List Byte :=
  let stm (e : Nat) : Stream := Tab.get Stream.absent c.streams e
  let on (e : Nat) : Bool := (stm e).present && !(stm e).ended
  let es := ckEngines t.codeCls
  let mask := (es.zipIdx.foldl (fun m x => m + if on x.1 then 2 ^ x.2 else 0) 0)
  let head := leBytes 4 0x43595A4F ++ leBytes 2 1 ++ leBytes 1 grank ++ leBytes 1 mask
  if mask = 0 then head ++ List.replicate 760 0
  else
    let loops := c.loops.reverse
    head ++ es.flatMap (fun e => leBytes 4 (if on e then (stm e).pc else 0)) ++ leBytes 4 0 ++ leBytes 8 t.ymask.toNat ++
      leBytes 4 (c.budget - gclk) ++ leBytes 4 c.markidx.toNat ++ leBytes 4 c.vctl.toNat ++ leBytes 4 c.vstat.toNat ++
      leBytes 4 c.accflags.toNat ++ leBytes 4 c.ef.toNat ++
      (List.range 16).flatMap (fun k => leBytes 2 (Tab.get 0 c.tk k)) ++
      (List.range 4).flatMap (fun k => match loops[k]? with | some l => l.bytes | none => List.replicate 24 0) ++
      (List.range 64).flatMap (fun k => leBytes 4 (if k ≠ 0 && t.ymask.getLsbD k then (Tab.get 0 c.s k).toNat else 0)) ++
      (List.range 31).flatMap (fun k => leBytes 4 (Tab.get 0 c.x (4 * 32 + k + 1)).toNat) ++
      (List.range 31).flatMap (fun k => leBytes 4 (Tab.get 0 c.x (5 * 32 + k + 1)).toNat) ++ List.replicate 72 0

/-- A loop as a checkpoint holds it, with what its loop word says of stages and register; none for KIND 0. -/
def loopFrom (t : Attempt) (b : List Byte) : Option LoopRec :=
  let kind := numAt b 2 1
  let start := numAt b 12 4
  let word := (Tab.get [] t.code 0).drop (start - 12)
  let sr : Nat × Nat := match decodeFor 0 word with
    | .word (.loop a _ stg _ _) _ => (stg.toNat + 1, a.toNat)
    | .word (.loopw a _ _ _ _) _ => (1, a.toNat)
    | _ => (1, 0)
  if kind = 0 then none
  else some ⟨kind == 2, numAt b 0 1, sr.1, numAt b 4 4, numAt b 8 4, start, numAt b 16 4, numAt b 20 4, sr.2⟩

/-- A register table from 32-bit words: those that are not zero. -/
def wordTab (b : List Byte) (at_ n first : Nat) : Tab Word :=
  ((List.range n).map fun k => (first + k, BitVec.ofNat 32 (numAt b (at_ + 4 * k) 4))).filter fun x => x.2 ≠ 0

/-- A core resumed from its record (R309): every stream that STREAMS names starts at core clock 4 at its
recorded PC; without any the job has ended. -/
def Core.resume (t : Attempt) (j : Job) (width : Nat) (b : List Byte) : Core :=
  let c := Core.begin t j width
  let mask := numAt b 7 1
  if mask = 0 then { c with streams := c.streams.map fun x => (x.1, { x.2 with ended := true }), done := true }
  else
    let es := ckEngines t.codeCls
    let one (x : Nat × Stream) : Nat × Stream :=
      let k := es.idxOf x.1
      if mask.testBit k then (x.1, { x.2 with start := 4, pc := numAt b (8 + 4 * k) 4 }) else (x.1, { x.2 with ended := true })
    let vctl := BitVec.ofNat 32 (numAt b 0x30 4)
    { c with
      streams := c.streams.map one
      budget := numAt b 0x28 4
      markidx := BitVec.ofNat 32 (numAt b 0x2C 4)
      vctl := vctl
      vctlV := vctl
      vstat := BitVec.ofNat 32 (numAt b 0x34 4)
      accflags := BitVec.ofNat 32 (numAt b 0x38 4)
      ef := BitVec.ofNat 32 (numAt b 0x3C 4)
      tk := ((List.range 16).map fun k => (k, numAt b (0x40 + 2 * k) 2)).filter fun x => x.2 ≠ 0
      loops := ((List.range 4).filterMap fun k => loopFrom t ((b.drop (0x60 + 24 * k)).take 24)).reverse
      s := wordTab b 0xC0 64 0
      x := wordTab b 0x1C0 31 (4 * 32 + 1) ++ wordTab b 0x23C 31 (5 * 32 + 1) }

end Sys2Proof.Machine
end

