-- ==== Sys2Proof/Machine/Place.lean ====
section
/-! DEFINITION. Dispatch: which ready node goes next, where it is placed, what its attempt takes, and the
arming of its instances (05 R110, R117, 06 R127 to R141, R150, R152, 07 R156, R157, 14 R332). -/

namespace Sys2Proof.Machine

open Host (Outcome)

/-! Residency (06 R146 to R149) -/

/-- A partition is resident: its queues are fetched and its state is held in Saiga. -/
def State.resident (s : State) (p : Nat) : Bool :=
  let g := s.group (s.partn p).group
  if !g.sliced then true
  else
    match g.switch with
    | none => g.resident == some p
    | some w => !w.saving && w.out.contains p

/-- A partition's nodes may be dispatched. -/
def State.dispatchable (s : State) (p : Nat) : Bool :=
  let g := s.group (s.partn p).group
  !g.sliced || (g.switch.isNone && g.resident == some p)

/-! Placement (06 R132, R133, 05 R117) -/

/-- Clusters that a gang takes. -/
def gangClusters (g : Nat) : Nat := (g + 3) / 4

/-- Clusters of a site that an attempt holds. -/
def State.busyClusters (s : State) (site : Nat) : List Nat :=
  s.atts.flatMap fun x => x.2.insts.flatMap fun i => if i.site = site then i.clusters else []

/-- Free usable clusters of a site. -/
def State.freeClusters (s : State) (site : Nat) : List Nat :=
  (clustersOf (s.site site).clmask).filter fun k => !(s.busyClusters site).contains k

/-- Where a node may go: too few instances even when idle, too few now, or the sites. -/
inductive Placing
  | few
  | busy
  | sites (l : List Nat)
  deriving DecidableEq, Repr

/-- The sites of a node of class cls, gang g and width w in a group (R132, R133): those of the failed attempt
only make up a shortfall (R117). -/
def State.placing (s : State) (gs : Nat) (cls g w : Nat) (avoid : List Nat) : Placing :=
  let all := (s.sitesOf cls).filter fun k => gs.testBit k && decide (gangClusters g ≤ (clustersOf (s.site k).clmask).length)
  let others := all.filter fun k => !avoid.contains k
  let free (k : Nat) : Bool := decide (gangClusters g ≤ (s.freeClusters k).length)
  if all.length < w then .few
  else if w ≤ others.length then
    let ok := (others.filter free).take w
    if ok.length < w then .busy else .sites ok
  else
    let back := ((all.filter fun k => avoid.contains k).filter free).take (w - others.length)
    if (others.all free) && decide (others.length + back.length = w) then .sites ((others ++ back).mergeSort fun a b => decide (a ≤ b))
    else .busy

/-- The code class and code object header that a node's class runs, read without effect. -/
def State.codeFor (s : State) (nd : Node) (cls : Nat) : Nat × Option CodeHead :=
  let cc := (codeClassOn nd.code cls).getD cls
  let p := (s.graph nd.graph).part
  match s.capRead p (codeOf nd.code cc) 256 with
  | .ok x => (cc, codeHead x.1 cc)
  | .error _ => (cc, none)

/-- The class, gang size and hold in nanojoules of a candidate (06 R141); a suspended attempt keeps its class and gang
(R150). -/
def State.demand (s : State) (nd : Node) : Nat × Nat × Nat :=
  match nd.phase with
  | .suspended a => ((s.attempt a).cls, (s.attempt a).gang, (s.attempt a).hold)
  | _ =>
    let cls := nd.cls.getD 0
    let c := s.codeFor nd cls
    match c.2 with
    | some h => (cls, h.gang, h.energy * nd.width * 1000)
    | none => (cls, nd.gangs.getD (c.1 - 1) 1, 0)

/-- The refill rate a partition asks for and its reserve limit (06 R142), in milliwatts and microjoules. -/
def Partition.request (p : Partition) : Nat := min (p.reqMw.getD p.ceilMw) p.ceilMw
def Partition.limit (p : Partition) : Nat := min (p.reqUj.getD p.ceilUj) p.ceilUj

/-- Energy admission (R141, R143): a lowered limit takes effect at the next tick, until which the one of the last
tick stands (R142). -/
def Partition.admits (p : Partition) (hold : Nat) : Bool :=
  decide (0 ≤ p.reserve) && (decide ((hold : Int) ≤ p.reserve) || decide (p.reserve = (max p.lim p.limit : Int) * 1000))

/-- What a decision finds of a candidate: it waits for instances, its instances are busy, energy admission
refuses it, or it goes to sites. -/
inductive Verdict
  | wait
  | busy
  | refused
  | go (l : List Nat)
  deriving DecidableEq, Repr

/-- Judge a candidate: placement before energy (R128); a suspended attempt has kept its hold (R150). -/
def State.judge (s : State) (n : Nat) : Verdict :=
  let nd := s.node n
  let p := s.partn (s.graph nd.graph).part
  let d := s.demand nd
  match s.placing (s.group p.group).sites d.1 d.2.1 nd.width nd.avoid with
  | .few => .wait
  | .busy => .busy
  | .sites l =>
    match nd.phase with
    | .suspended _ => .go l
    | _ => if p.admits d.2.2 then .go l else .refused

/-! The order of candidates (06 R127 to R130, R152) -/

/-- Candidates of a partition and level, oldest first. -/
def State.candidates (s : State) (lvl p : Nat) : List Nat :=
  s.runq.filter fun n =>
    let nd := s.node n
    nd.candidate && nd.prio == lvl && (s.graph nd.graph).part == p

/-- A class takes a node: no node is held there, or this one is, or one of lower priority (R130). -/
def State.classOpen (s : State) (n cls : Nat) : Bool :=
  match Tab.find s.held cls with
  | none => true
  | some h => h == n || decide ((s.node h).prio < (s.node n).prio)

/-- A candidate that cannot be placed becomes the held node of its class (R130). -/
def State.holdNode (s : State) (n cls : Nat) : State :=
  if s.classOpen n cls then { s with held := Tab.set s.held cls n } else s

/-- The candidates of a queue in order: the first that can be dispatched; a refusal by energy admission ends
the queue's turn (R128). -/
def tryNodes : State → List Nat → State × Option (Nat × List Nat)
  | s, [] => (s, none)
  | s, n :: ns =>
    let cls := (s.demand (s.node n)).1
    if !s.classOpen n cls then tryNodes s ns
    else
      match s.judge n with
      | .wait => tryNodes s ns
      | .busy => tryNodes (s.holdNode n cls) ns
      | .refused => (s, none)
      | .go l => (s, some (n, l))

/-- A weighted round robin: the keys to try, the one at the pointer with its credit first, then the others in
ascending order with their weights (R128). -/
def turnOrder (keys : List Nat) (weight : Nat → Nat) (at_ credit : Nat) : List (Nat × Nat) :=
  (if 0 < credit ∧ keys.contains at_ then [(at_, credit)] else []) ++
    ((keys.filter (at_ < ·)) ++ keys.filter (· ≤ at_)).map fun k => (k, weight k)

/-- The first key of an order under which something can be dispatched, with the credit it leaves. -/
def tryTurns (f : State → Nat → State × Option α) : State → List (Nat × Nat) → State × Option (α × Nat × Nat)
  | s, [] => (s, none)
  | s, (k, c) :: rest =>
    let r := f s k
    match r.2 with
    | some a => (r.1, some (a, k, c - 1))
    | none => tryTurns f r.1 rest

/-- Numbers without repeats, ascending. -/
def sortedKeys (l : List Nat) : List Nat := (l.eraseDups).mergeSort fun a b => decide (a ≤ b)

/-- A partition's plug-in is asked in this decision (R152). -/
def Partition.plugged (p : Partition) : Bool := p.plugin != 0 && !p.plugOff && !p.plugLate

/-- Any order of a list: each next element is a fresh choice (log 1). -/
def State.shuffle : Nat → State → List Nat → State × List Nat
  | 0, s, l => (s, l)
  | fuel + 1, s, l =>
    match l with
    | [] | [_] => (s, l)
    | a :: t =>
      let c := s.choose (t.length + 1)
      let r := State.shuffle fuel c.2 ((a :: t).eraseIdx c.1)
      (r.1, (a :: t).getD c.1 a :: r.2)

/-- The order of a queue's candidates: a plug-in may put them in any order (R152, log 1). -/
def State.ordered (s : State) (p : Nat) (l : List Nat) : State × List Nat :=
  if (s.partn p).plugged then s.shuffle l.length l else (s, l)

/-- A plug-in may set the weights of its partition's queues (R152, log 1). -/
def State.plugWeight (s : State) (p key : Nat) : State :=
  if (s.partn p).plugged then
    let c := s.choose 65536
    if c.1 = 0 then c.2
    else
      let q := c.2.queue (key / 16) (key % 16)
      c.2.setQueue (key / 16) (key % 16) { q with weight := c.1 }
  else s

def State.robin_ (s : State) (lvl : Nat) : Robin := Tab.get Robin.reset s.robin lvl

/-- The queues of a partition at a level (R128 step 3); a credit left when a queue runs out of candidates is lost. -/
def State.tryPartition (lvl : Nat) (s : State) (p : Nat) : State × Option (Nat × List Nat) :=
  if !s.dispatchable p then (s, none)
  else
    let cs := s.candidates lvl p
    let keys := sortedKeys (cs.map fun n => (s.node n).key)
    let s1 := keys.foldl (fun s k => s.plugWeight p k) s
    let rb := Tab.get (0, 0) (s1.robin_ lvl).queues p
    let weight (k : Nat) : Nat := (s1.queue (k / 16) (k % 16)).weight
    let one (s : State) (k : Nat) : State × Option (Nat × List Nat) :=
      let o := s.ordered p (cs.filter fun n => (s.node n).key == k)
      tryNodes o.1 o.2
    let r := tryTurns one s1 (turnOrder keys weight rb.1 rb.2)
    match r.2 with
    | none => (r.1, none)
    | some (x, k, c) =>
      let y := r.1.robin_ lvl
      let left := if cs.any fun n => n != x.1 && (s.node n).key == k then c else 0
      ({ r.1 with robin := Tab.set r.1.robin lvl { y with queues := Tab.set y.queues p (k, left) } }, some x)

/-- The partitions of a level (R128 step 2); a credit left when a partition runs out of candidates is lost. -/
def State.tryLevel (s : State) (lvl : Nat) : State × Option (Nat × List Nat) :=
  let ps := sortedKeys ((s.runq.filter fun n => (s.node n).candidate && (s.node n).prio == lvl).map fun n => (s.graph (s.node n).graph).part)
  let y := s.robin_ lvl
  let r := tryTurns (State.tryPartition lvl) s (turnOrder ps (fun p => (s.partn p).weight) y.at_ y.credit)
  match r.2 with
  | none => (r.1, none)
  | some (x, p, c) =>
    let y := r.1.robin_ lvl
    let left := if (s.candidates lvl p).any fun n => n != x.1 then c else 0
    ({ r.1 with robin := Tab.set r.1.robin lvl { y with at_ := p, credit := left } }, some x)

/-- The levels, highest first (R128 step 1). -/
def tryLevels : State → List Nat → State × Option (Nat × List Nat)
  | s, [] => (s, none)
  | s, l :: ls =>
    let r := s.tryLevel l
    match r.2 with
    | some x => (r.1, some x)
    | none => tryLevels r.1 ls

/-! What a dispatch takes (05 R107, R110, 07 R156, R157) -/

/-- How far the taking of a node's resources got: its effects so far, the end of its node without a retry
(CAUSE 5 or 6), the failure of the attempt (CAUSE, TCAUSE and engine), or a read that has to wait for a lent line's
holders, after which the node is tried again. -/
inductive Taken (α : Type)
  | ok (a : α) (s : State)
  | last (cause : Nat)
  | fails (cause tcause eng : Nat)
  | wait (e : ReadErr)

def Taken.bind (x : Taken α) (f : α → State → Taken β) : Taken β :=
  match x with
  | .ok a s => f a s
  | .last c => .last c
  | .fails c t e => .fails c t e
  | .wait e => .wait e

/-- A read at dispatch: a slot, right or range that fails ends the node with CAUSE 6 (R110); an uncorrectable
error, a lost site, or a chunk for which no site has room (09 R217; its TCAUSE and engine: log 66) fails the attempt
(R116). -/
def State.takeRead (s : State) (p a n : Nat) : Taken (List Byte) :=
  match s.capRead p a n with
  | .ok (bs, s1) => .ok bs s1
  | .error (.code 6) =>
    (match s.reach p a with
      | some (b, _) =>
        if (s.buf b).badAt (offOf a) n then .fails 3 0 0
        else if s.lostAt b (offOf a) n || (s.buf b).peer.isSome then .fails 7 0 0
        else .fails 1 0x0602 8
      | none => .last 6)
  | .error (.code _) => .last 6
  | .error (.wait b off k) => .wait (.wait b off k)

/-- The buffer of an IN or SHARED binding, resolved when the first attempt is dispatched (R110). -/
def State.bindTarget (s : State) (p : Nat) (b : BindSpec) : Option Nat :=
  if 65536 ≤ b.ref then
    let u := b.ref - 65536
    if (Tab.find s.bufs u).isSome && !(s.buf u).revoked && !s.refsFull u then some u else none
  else
    match s.validCap p b.ref with
    | none => none
    | some (u, r, w) =>
      let okR := if b.kind = 0 then r else b.rights % 2 == 0 || r
      let okW := if b.kind = 0 then true else decide (b.rights < 2) || w
      if okR && okW && !s.refsFull u then some u else none

/-- Resolve one binding of a node at its dispatch. -/
def State.takeBind (s : State) (n p : Nat) (x : BindSpec × Nat) : Taken Bind :=
  let b := x.1
  let nd := s.node n
  let plain (r w : Bool) (u : Nat) (slot : Option Nat) : Bind := ⟨b.kind, r, w, b.exp, u, false, false, none, slot⟩
  match b.kind with
  | 1 => .ok (plain true false ((Tab.find nd.refs x.2).getD 0) none) s
  | 2 | 3 =>
    if b.exp && (decide (0xFFE0 ≤ b.ref) || (s.cap p b.ref).isSome) then .last 6
    else
      let s1 := if b.exp then s.setCap p b.ref .reserved else s
      let r := s1.newBuf b.size b.attr b.big
      .ok (plain true true r.1 (if b.exp then some b.ref else none)) r.2
  | k =>
    let right (u : Nat) : Bind := plain (k == 0 || b.rights % 2 == 1) (k == 4 && decide (2 ≤ b.rights)) u none
    match Tab.find nd.refs x.2 with
    | some u => .ok (right u) s
    | none =>
      match s.bindTarget p b with
      | none => .last 6
      | some u => .ok (right u) ((s.setNode n { nd with refs := Tab.set nd.refs x.2 u }).addRef u)

/-- All bindings, in their order. -/
def State.takeBinds (n p : Nat) : State → List (BindSpec × Nat) → Taken (List Bind)
  | s, [] => .ok [] s
  | s, x :: xs => (s.takeBind n p x).bind fun b s1 => (State.takeBinds n p s1 xs).bind fun bs s2 => .ok (b :: bs) s2

/-- The argument block's snapshot (R110, R156). -/
def State.takeArgs (s : State) (nd : Node) (p : Nat) : Taken (List Byte) :=
  match nd.inl with
  | some bs => .ok bs s
  | none => if nd.arglen = 0 then .ok [] s else s.takeRead p nd.arg nd.arglen

/-- The code object of a class: its header and its bytes. -/
def State.takeCode (s : State) (p a cc : Nat) : Taken (CodeHead × List Byte) :=
  (s.takeRead p a 256).bind fun h s1 =>
    match codeHead h cc with
    | none => .last 5
    | some c => (s1.takeRead p a c.total).bind fun bs s2 => .ok (c, bs) s2

/-- Register a code object in Markhor's table, or use the entry it has; the entry used least recently goes when
the table is full (R157). -/
def State.registerCode (s : State) (b off : Nat) (bs : List Byte) : List Byte × State :=
  match s.codes.find? fun c => c.buf == b && c.off == off with
  | some e => (e.dig, { s with codes := s.codes.map fun c => if c.buf = b ∧ c.off = off then { c with used := s.time } else c })
  | none =>
    let d := sha512 bs
    let oldest := s.codes.foldl (fun (m : Option CodeEnt) c => match m with | none => some c | some x => if c.used < x.used then some c else m) none
    let kept := if 4096 ≤ s.codes.length then (match oldest with | some x => s.codes.erase x | none => s.codes) else s.codes
    (d, { s with codes := kept ++ [⟨b, off, d, s.time⟩] })

/-- The measurements of a measured attempt (R156): its code object has to lie in a read-only buffer. -/
def State.takeMeasure (s : State) (g : Graph) (a : Nat) (h : CodeHead) (code args : List Byte) : Taken (Option Measure) :=
  match g.meas with
  | none => .ok none s
  | some c =>
    match s.reach g.part a with
    | none => .last 6
    | some (b, _) =>
      if !(s.buf b).readOnly then .last 6
      else
        let r := s.registerCode b (offOf a) (code.take h.total)
        .ok (some ⟨c, h.total, r.1, sha512 args⟩) r.2

/-- The watchpoints that are armed at a dispatch (14 R332). -/
def State.watchesOf (s : State) (p : Nat) : List Watch :=
  (List.range 4).filterMap fun n =>
    let w := Tab.get WatchReg.reset (s.partn p).watch n
    match s.validCap p (slotOf w.addr) with
    | some (b, _, _) => if w.mask = 0 then none else some ⟨n, b, offOf w.addr, w.mask, w.r, w.w⟩
    | none => none

/-- The attempt of a node on a class, before its instances (06 R134, R141, 14 R325). -/
def State.newAttempt (s : State) (n cls cc : Nat) (h : CodeHead) (code : List Byte) (binds : List Bind) (args : List Byte)
    (m : Option Measure) : Attempt :=
  let nd := s.node n
  let g := s.graph nd.graph
  let p := s.partn g.part
  { Attempt.empty with
    node := n
    part := g.part
    cls := cls
    codeCls := cc
    gang := h.gang
    restart := h.restart
    budget := h.budget
    limit := (h.sram + 4095) / 4096 * 4096
    ymask := BitVec.ofNat 64 h.ymask
    code := h.sects.map fun t => (t.eng, (code.drop t.off).take t.len)
    data := (h.sects.filter fun t => t.dlen ≠ 0).map fun t => (t.eng, (code.drop (t.off + t.len)).take t.dlen)
    starts := h.sects.map fun t => (t.eng, t.start)
    binds := binds
    args := args
    fdesc := p.fdesc
    key := BitVec.ofNat 32 g.gid ^^^ BitVec.ofNat 32 (nd.num * 65536)
    hold := h.energy * nd.width * 1000
    codeAt := codeOf nd.code cc % 2 ^ 64
    watches := s.watchesOf g.part
    nobudget := s.attached g.part && p.nobudget
    meas := m
    reuse := p.prof.getLsbD 2 }

/-! Placing it (06 R132, R134, R136, R150) -/

/-- The level that the last tick and the guard set for a partition's gangs (R143, R144). -/
def State.levelOf (s : State) (p : Nat) : Nat := if s.pkg.guard then 12 else if (s.partn p).slow then 8 else 0

/-- The instance of a partition's gang on a site: it begins at the level of every running gang of its partition. -/
def State.instAt (s : State) (p g site : Nat) : Inst :=
  { Inst.empty with site := site, clusters := (s.freeClusters site).take (gangClusters g), level := s.levelOf p }

/-- The cores of an instance's gang, by rank. -/
def Inst.cores (i : Inst) (g : Nat) : List Nat := (i.clusters.flatMap fun k => (List.range 4).map fun j => 4 * k + j).take g

/-- The number that a checkpoint is kept under: instance rank and gang rank. -/
def ckKey (inst grank : Nat) : Nat := inst * 128 + grank

/-- Put an attempt on sites: its gangs take the lowest free clusters, and their cores are set up, each from its
checkpoint where there is one. -/
def State.arm (s : State) (a : Nat) (sites : List Nat) : State :=
  let t := s.attempt a
  let insts := sites.map fun k => s.instAt t.part t.gang k
  let t1 := { t with insts := insts, ckpts := [], parked := false, preempt := false }
  let put (cs : Tab Core) (x : Inst × Nat) : Tab Core :=
    (x.1.cores t.gang).zipIdx.foldl
      (fun cs y =>
        let j : Job := ⟨a, x.2, y.2⟩
        let c := match Tab.find t.ckpts (ckKey x.2 y.2) with
          | some b => Core.resume t1 j insts.length b
          | none => Core.begin t1 j insts.length
        Tab.set cs (x.1.site * 128 + y.1) c)
      cs
  { s.setAttempt a t1 with cores := insts.zipIdx.foldl put s.cores }

/-- A dispatched node leaves the run list, its class's hold and the pending-launch pool (R121, R130). -/
def State.dispatched (s : State) (n a : Nat) : State :=
  let nd := s.node n
  { s.setNode n { nd with phase := .running a, pool := 0 } with
    runq := s.runq.filter (· != n)
    held := s.held.filter fun h => h.2 != n }

/-- The event of a dispatch (14 R318). -/
def State.dispatchEvent (s : State) (a : Nat) (sites : List Nat) : State :=
  let t := s.attempt a
  let nd := s.node t.node
  let idx := if nd.parent.isSome then 0xFFFF else nd.idx
  s.frontEvent t.part 0x01 (s.graph nd.graph).gid
    (idx + t.cls * 2 ^ 16 + nd.width * 2 ^ 24 + sites.headD 0 * 2 ^ 32) t.key

/-- A dispatch that fails the attempt before it has begun (R116, R117): the node has left the run list, its class's hold
and the pending-launch pool (R121, R130), its fresh buffers go, its IN and SHARED references stay, and it consumes a
retry, away from its sites. -/
def State.dispatchFails (s : State) (n : Nat) (binds : List Bind) (sites : List Nat) (cause tcause eng : Nat) : State :=
  let nd := s.node n
  let g := s.graph nd.graph
  let key := BitVec.ofNat 32 g.gid ^^^ BitVec.ofNat 32 (nd.num * 65536)
  let s0 := (s.frontEvent g.part 0x03 g.gid (cause + g.used * 256) key).releaseBinds g.part binds
  let s1 : State :=
    { s0.setNode n { nd with phase := .waiting, cls := none, avoid := sites, pool := 0 } with
      runq := s0.runq.filter (· != n)
      held := s0.held.filter fun h => h.2 != n }
  if g.used < g.retry then (s1.setGraph nd.graph { g with used := g.used + 1 }).makeReady n
  else s1.nodeFails n 1 cause tcause eng

/-- What is acquired at a dispatch: the chiplets of its sites drop what their L2s hold of its buffers (R115). -/
def State.acquireSites (s : State) (a : Nat) (sites : List Nat) : State :=
  let t := s.attempt a
  let mine (b : Nat) : Bool := t.binds.any fun x => x.buf == b
  sites.foldl (fun s k => s.drop2 k mine) s

/-- An attempt goes to its sites. -/
def State.launchOn (s : State) (n a : Nat) (sites : List Nat) : State :=
  (((s.acquireSites a sites).arm a sites).dispatched n a).dispatchEvent a sites

/-- Dispatch a node to sites (R110, R128, R132, R141), or find that a read of it has to wait; the watchpoints of an attempt
that was suspended are resolved again (14 R332). -/
def State.dispatch (s : State) (n : Nat) (sites : List Nat) : Except ReadErr State :=
  let nd := s.node n
  match nd.phase with
  | .suspended a =>
    let t := s.attempt a
    .ok ((s.setAttempt a { t with watches := s.watchesOf t.part }).launchOn n a sites)
  | _ =>
    let cls := nd.cls.getD 0
    let cc := (codeClassOn nd.code cls).getD cls
    let g := s.graph nd.graph
    let addr := codeOf nd.code cc
    match s.takeBinds n g.part nd.binds.zipIdx with
    | .last cause => .ok (s.nodeFails n 1 cause 0 0)
    | .fails cause tc e => .ok (s.dispatchFails n [] sites cause tc e)
    | .wait e => .error e
    | .ok binds s1 =>
      let rest : Taken Attempt :=
        (s1.takeArgs nd g.part).bind fun args s2 =>
          (s2.takeCode g.part addr cc).bind fun c s3 =>
            (s3.takeMeasure g addr c.1 c.2 args).bind fun m s4 => .ok (s4.newAttempt n cls cc c.1 c.2 binds args m) s4
      match rest with
      | .last cause => .ok (s.nodeFails n 1 cause 0 0)
      | .fails cause tc e => .ok (s1.dispatchFails n binds sites cause tc e)
      | .wait e => .error e
      | .ok t s4 =>
        let a := s4.nextAtt
        let s5 := ({ s4 with nextAtt := a + 1 }.setAttempt a t).reserveTo t.part ((s4.partn t.part).reserve - t.hold)
        .ok (s5.launchOn n a sites)

/-- A suspended attempt whose class is no longer available fails as by a health event (R150). -/
def State.lostSuspended (s : State) : Option Nat :=
  s.runq.findSome? fun n =>
    let nd := s.node n
    match nd.phase with
    | .suspended a =>
      if s.dispatchable (s.graph nd.graph).part && !s.available nd (s.attempt a).cls then some a else none
    | _ => none

/-- Saiga makes one dispatch decision, at most one every 16 cycles (R128); where a read of the node has to wait nothing is
dispatched and no credit is spent. -/
def execDispatchDecision (s : State) : Outcome State Fault Refusal :=
  if s.time < s.nextDisp ∨ s.runq.isEmpty then .next s
  else
    let s0 : State := { s with nextDisp := s.time + 16 }
    match s0.lostSuspended with
    | some a => .next (s0.raise s.cur (.attemptFailure a 7 0 0))
    | none =>
      let r := tryLevels s0 [3, 2, 1, 0]
      let s1 : State := { r.1 with parts := r.1.parts.map fun x => (x.1, { x.2 with plugLate := false }) }
      match r.2 with
      | none => .next s1
      | some (n, sites) =>
        match s1.dispatch n sites with
        | .ok t => .next t
        | .error e => .next ({ s1 with robin := s0.robin }.readWait ⟨n, 0, 11⟩ e)

/-- A plug-in took more than 2,000 cycles: the next decision uses the default order (R152).  The focus names the
partition. -/
def execPluginTimeout (s : State) : Outcome State Fault Refusal :=
  let p := s.partn s.cur.site
  if p.plugged then .next (s.setPart s.cur.site { p with plugLate := true }) else .next s

/-- A plug-in that faults is disabled until P_PLUGIN is written (R152). -/
def execPluginFault (s : State) : Outcome State Fault Refusal :=
  let p := s.partn s.cur.site
  if p.plugin = 0 then .next s else .next (s.setPart s.cur.site { p with plugOff := true })

/-! Arming (06 R136 to R138) -/

/-- A core of a gang reports ready (R136): when the last one has, T0 is the largest reported time plus 64. -/
def execCoreReadyReport (s : State) : Outcome State Fault Refusal :=
  if s.core.job.isNone then .next s
  else
    let i := s.inst
    if i.t0.isSome || (Tab.find i.ready s.cur.core).isSome then .next s
    else
      let ready := Tab.set i.ready s.cur.core s.time
      let t0 := if ready.length = s.att.gang then some ((Tab.vals ready).foldl max 0 + 64) else none
      .next (s.setInst { i with ready := ready, t0 := t0 })

/-- A stream starts in the cycle in which its core clock equals its start offset (R137). -/
def execStreamStart (s : State) : Outcome State Fault Refusal :=
  let t := s.stm
  if t.present && !t.started && !t.ended && decide (t.start ≤ s.core.clk) then
    .next (s.setStm { t with started := true, free := max t.free s.core.clk, stall := 0 })
  else .next s

/-- The stream of a core with the smallest start offset. -/
def Core.firstStream (c : Core) : Nat × Stream :=
  (c.streams.foldl (fun (m : Option (Nat × Stream)) x => match m with | none => some x | some y => if x.2.start < y.2.start then some x else m) none).getD
    (0, Stream.absent)

/-- A record that no engine reports: a slip or a deadline (R306). -/
def State.plainRec (s : State) (cause sub eng pc : Nat) : TrapRec :=
  s.trapRec ⟨cause, sub, eng, pc, 0, 0, 0, none, (Tab.get Stream.absent s.core.streams (streamOf eng)).replay⟩ false (s.wordAt eng pc)

/-- A core that has not received T0 at T0, or is held in a debug halt, slips (R138, R306): the attempt fails.
The focus names the core; its number eng is the SUB, 1 or 2. -/
def execSlipFault (s : State) : Outcome State Fault Refusal :=
  let c := s.core
  match s.inst.t0 with
  | none => .next s
  | some t0 =>
    if c.job.isNone || s.time ≠ t0 || c.streams.any (fun x => x.2.started) || (s.cur.eng = 2 && !c.halted) || decide (s.cur.eng = 0) ||
        decide (2 < s.cur.eng) then .next s
    else
      let f := c.firstStream
      let r := s.plainRec 0x19 s.cur.eng f.1 f.2.pc
      .next (((s.trapEvent s.att r false).keepRec s.att r).failAtt 2 0 0)

/-- The gang clock reaches a job's budget while a stream of it has not ended (R200, R306): the attempt fails
without a handler; not one that was dispatched under NOBUDGET (14 R328). -/
def execDeadlineFault (s : State) : Outcome State Fault Refusal :=
  let c := s.core
  if c.job.isNone || c.done || s.att.nobudget || s.inst.t0.isNone || decide (s.inst.gclk < c.budget) then .next s
  else
    let r := s.plainRec 0x18 0 0 (Tab.get Stream.absent c.streams 0).pc
    .next (((s.trapEvent s.att r false).keepRec s.att r).failAtt 2 0 0)

end Sys2Proof.Machine
end

