-- ==== Sys2Proof/Machine/Queues.lean ====
section
/-! DEFINITION. Submission queues: their registers' effects, status blocks, errors and completions, and the
fetch and checks of packets (03 R62 to R78, R513). -/

namespace Sys2Proof.Machine

open Host (Outcome)

/-! Status blocks, errors, completions -/

/-- Slots of a queue's ring. -/
def Queue.slots (x : Queue) : Nat := 2 ^ x.log2

/-- The partition of a VF. -/
def State.partOf (s : State) (v : Nat) : Nat := (s.vf v).part

/-- The 64 bytes of a status block (R74). -/
def Queue.block (x : Queue) (time : Nat) : List Byte :=
  leBytes 4 x.readIdx ++ leBytes 1 x.st ++ leBytes 1 0 ++ leBytes 2 x.lastSeq ++ leBytes 8 x.err ++ leBytes 8 x.completed ++
    leBytes 8 time ++ List.replicate 32 0

/-- Write a queue's status block. -/
def State.statusBlock (s : State) (v q : Nat) : State :=
  let x := s.queue v q
  (s.setQueue v q { x with since := 0 }).outWrite (s.partOf v) v x.statAddr x.sloc (x.block s.time)

/-- A queue changes its state and reports it (R74). -/
def State.queueState (s : State) (v q st : Nat) : State :=
  let x := s.queue v q
  if x.st = st then s else (s.setQueue v q { x with st := st }).statusBlock v q

/-- Idle or running, as the indices stand. -/
def Queue.awake (x : Queue) : Nat := if x.widx = x.readIdx then 1 else 2

/-- An idle or running queue of a resident partition follows its indices (R75, 06 R149). -/
def State.kick (s : State) (v q : Nat) : State :=
  let x := s.queue v q
  if (x.st = 1 ∨ x.st = 2) ∧ s.resident (s.partOf v) then s.queueState v q x.awake else s

/-- A queue stops in the error state for the packet at an index (R76). -/
def State.queueErrorAt (s : State) (v q code idx : Nat) : State :=
  let x := s.queue v q
  let err := code * 2 ^ 32 + idx
  let s1 := (s.setQueue v q { x with err := err, st := 6, turn := none, head := none }).statusBlock v q
  (s1.afterHome (.vfIrq v x.vec)).frontEvent (s.partOf v) 0x08 err (v + q * 65536) 0

/-- A grant that a peer refused stops its queue, where the queue still has its packet (05 R109). -/
def State.refuseGrant (s : State) (g : PeerGrant) : State :=
  let s1 : State := { s with grants := s.grants.filter (· != g) }
  let x := s1.queue g.vf g.q
  if !x.packets.any (fun p => p.num == g.pkt) then s1
  else
    (s1.setQueue g.vf g.q { x with packets := x.packets.filter fun p => p.num != g.pkt }).queueErrorAt g.vf g.q 5 g.idx

/-- A queue stops in the error state at its READ_IDX (R76). -/
def State.queueError (s : State) (v q code : Nat) : State := s.queueErrorAt v q code (s.queue v q).readIdx

/-- The completion record of a packet (R73). -/
def Packet.record (p : Packet) (status time : Nat) : List Byte :=
  leBytes 4 status ++ leBytes 2 p.seq ++ leBytes 2 0 ++ leBytes 8 time

/-- A packet completes: its record, the status block, its interrupt, each behind the one before (R73, 02 R53). -/
def State.complete (s : State) (v q : Nat) (p : Packet) (status : Nat) : State :=
  let s1 := if p.done = 0 then s else s.outWrite (s.partOf v) v p.done p.dloc (p.record status s.time)
  let x := s1.queue v q
  let s2 := s1.setQueue v q
    { x with packets := x.packets.filter fun y => y.num != p.num, completed := (x.completed + 1) % 2 ^ 64, lastSeq := p.seq }
  let s3 := s2.statusBlock v q
  if p.irq then s3.afterHome (.vfIrq v x.vec) else s3

/-- A packet that has what its completion needs completes (R72, R73), once its partition is resident: until then
Q_STATE and the status block keep their values (06 R149; log 67).  The focus names VF, queue and the packet's number. -/
def execPacketCompletion (s : State) : Outcome State Fault Refusal :=
  let v := s.cur.site
  let q := s.cur.core
  let x := s.queue v q
  match x.packets.find? fun p => p.num == s.cur.eng with
  | none => .next s
  | some p =>
    match p.fin with
    | none => .next s
    | some st => if s.resident (s.partOf v) then .next (s.complete v q p st) else .next s

/-! Enabling and indices (R62 to R65, R77) -/

/-- The queue's group is written with ENABLE 1 while it is disabled (R63): the whole of Q_CFG is in cfg.  The focus
names VF and queue. -/
def execQueueEnable (cfg : Nat) (s : State) : Outcome State Fault Refusal :=
  s.vfBar s.cur.site <|
  let v := s.cur.site
  let q := s.cur.core
  let x := s.queue v q
  let log2 := fld cfg 16 5
  let vec := fld cfg 6 5
  if x.st ≠ 0 ∨ fld cfg 0 1 = 0 ∨ !(s.vf v).valid ∨ (s.vf v).flrbusy ∨ log2 < 4 ∨ 16 < log2 ∨ 29 < vec ∨ 16 ≤ q then .next s
  else
    let x1 : Queue :=
      { x with
        log2 := log2, vec := vec, prio := fld cfg 4 2, widxOn := fld cfg 2 1 == 1, loc := fld cfg 1 1 == 1, readIdx := 0, widx := 0
        lastSeq := 0, completed := 0, err := 0, st := 1, packets := [], turn := none, head := none, reread := true, since := 0, tested := s.time }
    .next ((s.setQueue v q x1).statusBlock v q)

/-- Write index from Q_NOTIFY (R62, R65); a disabled queue keeps its index of zero (log 68). -/
def execQueueNotify (v : Nat) (s : State) : Outcome State Fault Refusal :=
  s.vfBar s.cur.site <|
  let x := s.queue s.cur.site s.cur.core
  if x.st = 0 ∨ x.widxOn then .next s
  else .next ((s.setQueue s.cur.site s.cur.core { x with widx := v % 2 ^ 32 % x.slots }).kick s.cur.site s.cur.core)

/-- Q_RESUME acts in the error state only (R77). -/
def execQueueResume (v : Nat) (s : State) : Outcome State Fault Refusal :=
  s.vfBar s.cur.site <|
  let x := s.queue s.cur.site s.cur.core
  if x.st ≠ 6 then .next s
  else
    let x1 : Queue := { x with readIdx := v % 2 ^ 32 % x.slots, err := 0, reread := true }
    .next ((s.setQueue s.cur.site s.cur.core { x1 with st := x1.awake }).statusBlock s.cur.site s.cur.core)

/-- The front end reads the write-index word (R65): a read that fails stops the queue.  For a partition that is not
resident the index follows the word and the queue keeps its state (06 R149).  DEDUCED (log 77): a queue that waits at a
WAIT does not read the word. -/
def execWriteIndexWordRead (s : State) : Outcome State Fault Refusal :=
  let v := s.cur.site
  let q := s.cur.core
  let x := s.queue v q
  if !x.widxOn || !(x.st = 1 || x.st = 2) || (s.vf v).flrbusy then .next s
  else
    match s.capRead (s.partOf v) x.widxAddr 4 with
    | .error (.wait b off n) => .next (s.readWait ⟨v, q, 10⟩ (.wait b off n))
    | .error (.code c) =>
      if s.resident (s.partOf v) then .next ((s.setQueue v q { x with reread := false }).queueError v q c) else .next s
    | .ok (bs, s1) => .next ((s1.setQueue v q { x with widx := leNat bs % x.slots, reread := false, tested := s.time }).kick v q)

/-! Ending the work of a queue (R63, R55) -/

/-- Graphs launched from a queue. -/
def State.graphsOf (s : State) (v q : Nat) : List Nat := (s.graphs.filter fun g => g.2.vf == v && g.2.q == q).map (·.1)

/-- A graph is aborted: its nodes end without a retry and its result record takes a STATUS and CAUSE.  DESIGN CHOICE (log
80): where a node has failed, FAILNODE stays. -/
def State.abortGraph (s : State) (g status cause : Nat) : State :=
  let s1 := (s.nodesOf g).foldl (fun s n => if (Tab.find s.nodes n).isSome then s.cancel n cause else s) s
  let s2 := s1.resultRecord (s1.graph g) status (some cause)
  { s2 with graphs := Tab.erase s2.graphs g }

/-- What a queue forgets when it is disabled: everything but its registers. -/
def Queue.cleared (x : Queue) : Queue :=
  { x with st := 0, err := 0, readIdx := 0, widx := 0, packets := [], turn := none, head := none, reread := false, since := 0 }

/-- Requests of a queue that wait elsewhere are forgotten. -/
def State.dropRequests (s : State) (v q : Nat) : State :=
  { s with receipts := s.receipts.filter fun r => !(r.vf == v && r.q == q) }

/-- Writing ENABLE 0 (R63): every launch that has not completed receives STATUS 3 in its record. -/
def execQueueDisable (s : State) : Outcome State Fault Refusal :=
  s.vfBar s.cur.site <|
  let v := s.cur.site
  let q := s.cur.core
  let x := s.queue v q
  if x.st = 0 then .next s
  else
    let s1 := (s.graphsOf v q).foldl (fun s g => s.abortGraph g 3 0) s
    let s2 := x.packets.foldl
      (fun s p => if p.done = 0 then s else s.outWrite (s.partOf v) v p.done p.dloc (p.record 3 s.time)) s1
    let s3 := s2.setQueue v q { s2.queue v q with st := 0, err := 0 }
    let s4 := s3.statusBlock v q
    .next ((s4.setQueue v q (s4.queue v q).cleared).dropRequests v q)

/-! Fetching and checking a packet (R68 to R72) -/

/-- A fetch: nothing to take now, an error code, a packet that may go on, or one that passed every check and waits
for its fence. -/
inductive Fetch
  | wait
  | fail (code : Nat)
  | ok (p : Pkt)
  | hold (p : Pkt)
  deriving DecidableEq, Repr

/-- n bytes of a ring (R64), or the code of a read that fails: 0x5 for a device ring whose slot or right fails (02 R61),
0x6 for a fetch error. -/
def State.ringRead (s : State) (v : Nat) (x : Queue) (idx n : Nat) : Except ReadErr (List Byte × State) :=
  let a := x.base + 64 * idx
  if x.loc then s.capRead (s.partOf v) a n
  else if s.hostFails a n then .error (.code 6)
  else .ok (Memory.bytes s.host a n, s)

/-- What a failed read of a packet does: it stops the queue, or waits for a lent line's holders. -/
def State.fetchErr (s : State) (v q : Nat) (e : ReadErr) : Fetch × State :=
  match e with
  | .code c => (.fail c, s)
  | .wait b off n => (.wait, s.readWait ⟨v, q, 8⟩ (.wait b off n))

/-- Fetch the packet at READ_IDX: checks 1 to 3 of R70, and the wait for slots that are not published yet.  The rest
of a packet is read, and the read's failure goes first, where all of it is published. -/
def State.fetchPacket (s : State) (v q : Nat) : Fetch × State :=
  let x := s.queue v q
  match s.ringRead v x x.readIdx 64 with
  | .error e => s.fetchErr v q e
  | .ok (h, s1) =>
    let hdr := numAt h 0 8
    let slots := fld hdr 8 2
    let typ := fld hdr 0 8
    let straddles := x.slots < x.readIdx + slots + 1
    if straddles ∨ (x.widx + x.slots - x.readIdx) % x.slots < slots + 1 then
      (if 10 < typ then .fail 1 else if straddles then .fail 3 else .wait, s1)
    else
      match s1.ringRead v x x.readIdx (64 * (slots + 1)) with
      | .error e => s.fetchErr v q e
      | .ok (bs, s2) =>
        (if 10 < typ then .fail 1
          else .ok ⟨typ, slots, fld hdr 11 1 == 1, fld hdr 10 1 == 1, fld hdr 16 16, fld hdr 32 32, hdr, bs⟩, s2)

/-- An 8-byte field of a body. -/
def Pkt.dw (p : Pkt) (off : Nat) : Nat := numAt p.bytes off 8

/-- ARGLEN and ARGREF of a NODE_LAUNCH. -/
def Pkt.arglen (p : Pkt) : Nat := fld p.spec 9 9
def Pkt.argref (p : Pkt) : Bool := fld p.spec 18 1 == 1

/-- Check 4 (R69, R71). -/
def Pkt.sizeOk (p : Pkt) : Bool :=
  match p.typ with
  | 0 => true
  | 2 => decide (p.arglen ≤ 256) && (if p.argref then p.slots == 0 else decide (p.arglen ≤ 32 + 64 * p.slots))
  | _ => p.slots == 0

/-- SPEC bits that a type reserves are zero. -/
def Pkt.specOk (p : Pkt) : Bool :=
  let n := match p.typ with
    | 1 => 9 | 2 => 19 | 3 => 17 | 4 => 16 | 5 => 16 | 6 => 3 | 7 => 4 | 8 => 4 | 9 => 8 | _ => 0
  decide (p.spec < 2 ^ n)

/-- Body bytes, reserved encodings, alignment and value rules of a type (R71). -/
def Pkt.bodyOk (p : Pkt) : Bool :=
  let z (off n : Nat) : Bool := zeroAt p.bytes off n
  let launch := p.dw 0x18 % 16 == 0 && p.dw 8 % 64 == 0
  match p.typ with
  | 1 => launch && z 0x20 32
  | 2 => launch && (!p.argref || z 0x28 24)
  | 3 => decide (p.dw 8 < 2 ^ 48) && decide (p.dw 8 ≠ 0) && attrOk (numAt p.bytes 0x10 4) && z 0x14 44
  | 4 => z 8 56
  | 5 =>
    let rights := numAt p.bytes 0x0C 4
    let peer := numAt p.bytes 0x10 2
    decide (numAt p.bytes 8 1 ≤ 63) && z 9 1 && decide (1 ≤ rights) && decide (rights ≤ 3) && (decide (peer ≤ 7) || peer == 0xFFFF) && z 0x12 46
  | 6 =>
    let op := fld p.spec 0 2
    decide (op < 2) && !(op == 1 && fld p.spec 2 1 == 0) && p.dw 8 % 8 == 0 && z 0x18 40
  | 7 => decide (fld p.spec 0 3 < 4) && p.dw 8 % 8 == 0 && z 0x20 32
  | 8 => z 0x28 24
  | 9 =>
    let n := fld p.spec 4 3
    decide (n ≤ 4) && p.dw 8 % 1024 == 0 && z (0x18 + 2 * n) (8 - 2 * n) && z (0x20 + 8 * n) (32 - 8 * n)
  | 10 => z 0x10 48
  | _ => true

/-- Check 5. -/
def Pkt.fieldsOk (p : Pkt) : Bool := fld p.hdr 12 4 == 0 && p.specOk && p.bodyOk

/-- A slot of a partition is valid for check 6. -/
def State.slotOk (s : State) (p slot : Nat) : Bool := (s.validCap p slot).isSome

/-- Check 6 for a packet of a partition (R70, R71, R109). -/
def State.capsOk (s : State) (p : Nat) (k : Pkt) : Bool :=
  let addr (a : Nat) : Bool := s.slotOk p (slotOf a)
  let done := fld k.spec 3 1 == 0 || k.dw 0x18 == 0 || addr (k.dw 0x18)
  let slot := fld k.spec 0 16
  match k.typ with
  | 1 => addr (k.dw 8) && done
  | 2 => addr (k.dw 8) && done && (!k.argref || addr (k.dw 0x20))
  | 3 => decide (slot < 0xFFE0) && (s.cap p slot).isNone
  | 4 => decide (slot < 0xFFE0) && (match s.cap p slot with | some (.cap _ _ _) => true | _ => false)
  | 5 =>
    let tp := numAt k.bytes 8 1
    let ts := numAt k.bytes 0x0A 2
    let rights := numAt k.bytes 0x0C 4
    (match s.validCap p slot with
      | none => false
      | some (b, r, w) =>
        (rights % 2 == 0 || r) && (decide (rights < 2) || w) && decide (ts < 0xFFE0) && !s.refsFull b &&
          (numAt k.bytes 0x10 2 != 0xFFFF || ((s.cap tp ts).isNone && s.bound tp)))
  | 6 => fld k.spec 2 1 == 0 || addr (k.dw 8)
  | 7 => fld k.spec 3 1 == 0 || addr (k.dw 8)
  | 9 => addr (k.dw 8) && (List.range (fld k.spec 4 3)).all fun i => s.slotOk p (numAt k.bytes (0x18 + 2 * i) 2)
  | _ => true

/-- The code of the first of checks 4 to 6 that a packet fails. -/
def State.checkPacket (s : State) (p : Nat) (k : Pkt) : Option Nat :=
  if !k.sizeOk then some 4 else if !k.fieldsOk then some 2 else if !s.capsOk p k then some 5 else none

/-- A queue's front end can parse: it runs, its VF exists and is bound, and its partition is resident (02 R48). -/
def State.fetching (s : State) (v q : Nat) : Bool :=
  let f := s.vf v
  (s.queue v q).st == 2 && f.enabled && f.valid && !f.flrbusy && s.resident f.part

/-- A packet with a fence waits for every earlier one to complete (R72). -/
def State.fenced (s : State) (v q : Nat) (p : Pkt) : Bool := p.fence && !(s.queue v q).packets.isEmpty

/-- A packet that was held for its fence and fills or empties a slot finds it as it stands when it starts (R108, R109). -/
def State.slotStale (s : State) (p : Nat) (k : Pkt) : Bool := (k.typ == 3 || k.typ == 4 || k.typ == 5) && !s.capsOk p k

/-- Parse the packet at the head of a queue: nothing to do now; the queue stops in error; or the packet, with
every check of R70 passed when it came to the head.  A fence delays its start, not its checks (R70, R72). -/
def State.parse (s : State) (v q : Nat) : Fetch × State :=
  if !s.fetching v q then (.wait, s)
  else
    match (s.queue v q).head with
    | some p => (if s.fenced v q p then .wait else if s.slotStale (s.partOf v) p then .fail 5 else .ok p, s)
    | none =>
      let r := s.fetchPacket v q
      match r.1 with
      | .ok p =>
        match r.2.checkPacket (s.partOf v) p with
        | some c => (.fail c, r.2)
        | none => (if s.fenced v q p then .hold p else .ok p, r.2)
      | x => (x, r.2)

/-- READ_IDX moves past a packet; the queue is idle when it reaches the write index (R74, R75). -/
def State.advance (s : State) (v q n : Nat) : State :=
  let x := s.queue v q
  let x1 : Queue := { x with readIdx := (x.readIdx + n) % x.slots, since := x.since + n, turn := none, head := none }
  let s1 := s.setQueue v q x1
  if x1.st = 3 ∨ x1.awake ≠ x1.st then s1.queueState v q x1.awake
  else if 64 ≤ x1.since then s1.statusBlock v q
  else s1

/-- A packet starts: it enters the queue's list under a number, with fin for its completion. -/
def State.start (s : State) (v q : Nat) (p : Pkt) (fin : Option Nat) : Nat × State :=
  let x := s.queue v q
  let launch := p.typ = 1 ∨ p.typ = 2
  let pk : Packet := ⟨x.nextNum, p.seq, p.irq, if launch then p.dw 0x18 else 0, launch && fld p.spec 3 1 == 1, p.typ == 10, fin⟩
  (x.nextNum, (s.setQueue v q { x with packets := x.packets ++ [pk], nextNum := x.nextNum + 1 }).advance v q (p.slots + 1))

/-- The common course of a packet event of one type: a packet of another type is left to its own event; one that
fails a check stops the queue (R76).  A failure that leaves the type unknown belongs to every packet event. -/
def State.packetEvent (s : State) (typ : Nat) (f : Nat → Nat → Pkt → State → State) : State :=
  let v := s.cur.site
  let q := s.cur.core
  let r := s.parse v q
  match r.1 with
  | .wait => r.2
  | .fail c => r.2.queueError v q c
  | .ok p => if p.typ = typ then f v q p r.2 else s
  | .hold p => if p.typ = typ then r.2.setQueue v q { r.2.queue v q with head := some p } else s

/-- `NOP` (R69, R71). -/
def execNopPacket (s : State) : Outcome State Fault Refusal :=
  .next (s.packetEvent 0 fun v q p s => (s.start v q p (some 0)).2)

/-- A packet of a reserved type, or one that fails another check of R70, stops its queue (R70, R76). -/
def execReservedPacketType (s : State) : Outcome State Fault Refusal :=
  let r := s.parse s.cur.site s.cur.core
  match r.1 with
  | .fail c => .next (r.2.queueError s.cur.site s.cur.core c)
  | .wait => .next r.2
  | _ => .next s

end Sys2Proof.Machine
end

