-- ==== Sys2Proof/Machine/Packets.lean ====
section
/-! DEFINITION. The packets: launches and their admission, buffers, grants, signals, waits, measurement, energy
(03 R69 to R72, 05 R98 to R109, R120, 07 R153 to R155, R164, 06 R142). -/

namespace Sys2Proof.Machine

open Host (Outcome)

/-! Launches (05 R97 to R105, R120) -/

/-- Entries of the dependence table in use: nodes that `launch` did not post (R104, R122). -/
def State.tableUsed (s : State) : Nat := (s.nodes.filter fun x => x.2.parent.isNone).length

/-- The place of a launch in the order of admission (R104). -/
def State.turnOf (s : State) (v q : Nat) : Nat := ((s.queue v q).turn).getD s.nextTurn

/-- The launches that wait for table entries. -/
def State.waitingTurns (s : State) : List Nat :=
  s.vfs.flatMap fun f => f.2.queues.filterMap fun x => x.2.turn

/-- A launch of n nodes at the head of a queue may be admitted: entries are free and none waits before it. -/
def State.admits (s : State) (v q n : Nat) : Bool :=
  decide (s.tableUsed + n ≤ 65536) && s.waitingTurns.all fun k => decide (s.turnOf v q ≤ k)

/-- A launch waits at its queue's head for table entries. -/
def State.queueTurn (s : State) (v q : Nat) (k : Pkt) : State :=
  let x := s.queue v q
  match x.turn with
  | some _ => s
  | none => { s.setQueue v q { x with turn := some s.nextTurn, head := some k } with nextTurn := s.nextTurn + 1 }

/-- The measured context of a launch; none inside when it names a closed one (07 R155). -/
def State.launchCtx (s : State) (p : Nat) (k : Pkt) : Option (Option Nat) :=
  if fld k.spec 4 1 = 0 then some none
  else if (s.ctx p (fld k.spec 5 4)).isOpen then some (some (fld k.spec 5 4))
  else none

/-- The predecessors of a graph's node: its PRED entries and its producers (R101, R105). -/
def predsOf (first : Nat) (preds : List Nat) (binds : List BindSpec) : List Nat :=
  ((preds ++ (binds.filter fun b => b.kind == 1).map (·.ref)).eraseDups).map (first + ·)

/-- The nodes of an admitted graph enter the table (R104). -/
def State.addNodes (s : State) (g v q : Nat) (gd : GraphDesc) (ds : List (NodeDesc × List Nat)) (inl : Option (List Byte)) (prio : Nat) :
    State :=
  let first := s.nextNode
  let one (s : State) (x : (GraphEntry × (NodeDesc × List Nat)) × Nat) : State :=
    let d := x.1.2.1
    let nd : Node :=
      { Node.empty with
        graph := g
        idx := x.2
        num := x.2
        vf := v
        q := q
        prio := prio
        desc := x.1.1.desc
        classes := d.classes
        width := d.width
        code := d.code
        gangs := x.1.2.2
        arg := d.arg
        arglen := d.arglen
        inl := inl
        binds := d.binds
        preds := predsOf first x.1.1.preds d.binds
        phase := .waiting
        isErr := gd.err == some x.2 }
    s.setNode (first + x.2) nd
  let s1 := ((gd.entries.zip ds).zipIdx).foldl one s
  { s1 with nextNode := first + gd.entries.length }

/-- A launch that passed its checks: the packet starts, the graph is made and its nodes may become ready. -/
def State.launchGraph (s : State) (v q : Nat) (k : Pkt) (gd : GraphDesc) (ds : List (NodeDesc × List Nat)) (meas : Option Nat)
    (single : Bool) (inl : Option (List Byte)) : State :=
  let prio := (s.queue v q).prio
  let st := s.start v q k none
  let g := st.2.nextGraph
  let gr : Graph :=
    { Graph.empty with
      part := s.partOf v
      vf := v
      q := q
      pkt := st.1
      gid := k.dw 0x10
      retry := fld k.spec 0 3
      meas := meas
      result := gd.result
      single := single
      err := gd.err.map (st.2.nextNode + ·) }
  let s1 : State := { st.2.setGraph g gr with nextGraph := g + 1 }
  let s2 := (s1.addNodes g v q gd ds inl prio).releaseReady
  s2.checkGraph g

/-- A malformed launch completes at once with STATUS 1, its result record with CAUSE 5 (R103). -/
def State.malformed (s : State) (v q : Nat) (k : Pkt) (result : Nat) : State :=
  let st := s.start v q k (some 1)
  let gr : Graph := { Graph.empty with part := s.partOf v, vf := v, q := q, fail := some ⟨0xFFFF, 1, 5, 0, 0⟩, result := result }
  st.2.resultRecord gr 1 none

/-- RESULT of a graph descriptor that may be malformed: where the header can be read and the address is
aligned; a read that has to wait is tried again. -/
def State.resultOf (s : State) (p desc : Nat) : Except ReadErr Nat :=
  match s.capRead p desc 64 with
  | .ok (h, _) => .ok (if numAt h 0x10 8 % 64 = 0 then numAt h 0x10 8 else 0)
  | .error (.code _) => .ok 0
  | .error e => .error e

/-- A graph that turns out to be malformed completes with its result record, where its header can be read (R103). -/
def State.badGraph (s : State) (v q : Nat) (k : Pkt) : State :=
  match s.resultOf (s.partOf v) (k.dw 8) with
  | .ok r => s.malformed v q k r
  | .error e => s.readWait ⟨v, q, 8⟩ e

/-- `GRAPH_LAUNCH` (R98, R103, R104): read and checked; a malformed graph completes, a good one is admitted when
the table has room for it.  A read that waits for a lent line's holders is tried again. -/
def State.graphPacket (v q : Nat) (k : Pkt) (s : State) : State :=
  let p := s.partOf v
  match s.launchCtx p k with
  | none => s.badGraph v q k
  | some m =>
    match s.readGraph p (k.dw 8) with
    | .error (.wait b off n) => s.readWait ⟨v, q, 8⟩ (.wait b off n)
    | .error (.code _) => s.badGraph v q k
    | .ok (gd, ds, s1) =>
      if s1.admits v q gd.entries.length then s1.launchGraph v q k gd ds m false none else s1.queueTurn v q k

/-- A single node as a graph (R120). -/
def soloGraph (desc : Nat) : GraphDesc := ⟨none, 0, [⟨desc, []⟩]⟩

/-- `NODE_LAUNCH` (R120): the packet's argument block takes the place of the descriptor's. -/
def State.nodePacket (v q : Nat) (k : Pkt) (s : State) : State :=
  let p := s.partOf v
  match s.launchCtx p k with
  | none => s.malformed v q k 0
  | some m =>
    match s.readNode p (k.dw 8) with
    | .error (.wait b off n) => s.readWait ⟨v, q, 8⟩ (.wait b off n)
    | .error (.code _) => s.malformed v q k 0
    | .ok (d, gangs, s1) =>
      if d.binds.any fun b => b.kind == 1 || (b.exp && decide (0xFFE0 ≤ b.ref)) then s.malformed v q k 0
      else if !s1.admits v q 1 then s1.queueTurn v q k
      else
        let inl := if k.argref then none else some ((k.bytes.drop 0x20).take k.arglen)
        s1.launchGraph v q k (soloGraph (k.dw 8)) [({ d with arg := k.dw 0x20, arglen := k.arglen }, gangs)] m true inl

def execGraphLaunch (s : State) : Outcome State Fault Refusal := .next (s.packetEvent 1 State.graphPacket)

def execNodeLaunch (s : State) : Outcome State Fault Refusal := .next (s.packetEvent 2 State.nodePacket)

/-- A launch that waits at its queue's head is admitted, in the order in which launches reached the check
(R104).  The focus names VF and queue. -/
def execGraphAdmission (s : State) : Outcome State Fault Refusal :=
  let x := s.queue s.cur.site s.cur.core
  if x.turn.isNone then .next s
  else
    match (s.parse s.cur.site s.cur.core).1 with
    | .ok p => if p.typ = 1 then .next (s.packetEvent 1 State.graphPacket) else .next (s.packetEvent 2 State.nodePacket)
    | _ => .next s

/-! Buffers and grants (05 R109) -/

/-- `BUF_CREATE`. -/
def execBufCreate (s : State) : Outcome State Fault Refusal :=
  .next (s.packetEvent 3 fun v q k s =>
    let attr := numAt k.bytes 0x10 4
    let r := s.newBuf (k.dw 8) attr (fld k.spec 16 1 == 1)
    ((r.2.setCap (s.partOf v) (fld k.spec 0 16) (.cap r.1 true (attr % 2 == 0))).start v q k (some 0)).2)

/-- `BUF_RELEASE`. -/
def execBufRelease (s : State) : Outcome State Fault Refusal :=
  .next (s.packetEvent 4 fun v q k s =>
    let p := s.partOf v
    let slot := fld k.spec 0 16
    match s.cap p slot with
    | some (.cap b _ _) => (((s.clearCap p slot).dropRef b).start v q k (some 0)).2
    | _ => s)

/-- `CAP_GRANT`: at once within the package; to a peer, pending until the peer fills its slot. -/
def execCapGrant (s : State) : Outcome State Fault Refusal :=
  .next (s.packetEvent 5 fun v q k s =>
    let p := s.partOf v
    let tp := numAt k.bytes 8 1
    let ts := numAt k.bytes 0x0A 2
    let rights := numAt k.bytes 0x0C 4
    let peer := numAt k.bytes 0x10 2
    match s.validCap p (fld k.spec 0 16) with
    | none => s
    | some (b, _, _) =>
      let s1 := s.addRef b
      if peer = 0xFFFF then ((s1.setCap tp ts (.cap b (rights % 2 == 1) (decide (2 ≤ rights)))).start v q k (some 0)).2
      else
        let x := s.queue v q
        let st := s1.start v q k none
        let g : PeerGrant := ⟨v, q, st.1, x.readIdx, peer, b, false⟩
        let u := s.buf b
        ({ st.2 with grants := st.2.grants ++ [g] }).send (.peerGrant peer b tp ts rights u.size u.attr.toNat))

/-! Signals and waits (03 R71) -/

/-- A SIGNAL's device target: where it may be written (R513). -/
def State.signalTarget (s : State) (p v a : Nat) : Option Nat :=
  match s.validCap p (slotOf a) with
  | none => none
  | some (b, _, w) =>
    if !w || (s.buf b).readOnly || decide ((s.buf b).size < offOf a + 8) || (s.vf v).flrbusy then none else some b

/-- A packet starts and is done once what the device wrote before has performed (R69, R73). -/
def State.startAfter (s : State) (v q : Nat) (k : Pkt) : State :=
  let r := s.start v q k none
  r.2.afterHome (.finish v q r.1 0)

/-- `SIGNAL` (R71): one write with release order at system scope, behind every device write that waits at its home (10
R231); an addition waits until it can read and write at once.  What may not be written is lost (R513). -/
def execSignal (s : State) : Outcome State Fault Refusal :=
  .next (s.packetEvent 6 fun v q k s =>
    let p := s.partOf v
    let a := k.dw 8
    if fld k.spec 2 1 = 0 then (s.outWrite p v a false (leBytes 8 (k.dw 0x10))).startAfter v q k
    else
      match s.signalTarget p v a with
      | none => s.startAfter v q k
      | some b =>
        if fld k.spec 0 2 = 0 then (s.outWrite p v a true (leBytes 8 (k.dw 0x10))).startAfter v q k
        else
          let me : Actor := ⟨v, q, 8⟩
          let sp := [(b, offOf a, 8)]
          if !s.homeTurn (· == me) true sp || s.homeLate then s.waitHome me true sp
          else
            let s1 := s.leaveHome (· == me) true sp
            (s1.inTurn fun s => s.outWrite p v a true (leBytes 8 ((s.buf b).mem.nat (offOf a) 8 + k.dw 0x10))).startAfter v q k)

/-- A test of a WAIT: an error code, a wait for recalls of a lent line, or whether the condition holds. -/
def State.waitTest (s : State) (v q : Nat) (k : Pkt) : Except Nat (Option Bool × State) :=
  let a := k.dw 8
  let cond (x : Nat) : Bool :=
    let m := k.dw 0x18
    let l := x &&& m
    let r := k.dw 0x10 &&& m
    match fld k.spec 0 3 with
    | 0 => l == r
    | 1 => l != r
    | 2 => decide (r ≤ l)
    | _ => decide (l < r)
  if fld k.spec 3 1 = 0 then
    if s.hostFails a 8 then .error 6 else .ok (some (cond (Memory.nat s.host a 8)), s)
  else
    match s.capRead (s.partOf v) a 8 with
    | .ok r => .ok (some (cond (leNat r.1)), r.2)
    | .error (.wait b off n) => .ok (none, s.readWait ⟨v, q, 8⟩ (.wait b off n))
    | .error (.code c) => .error c

/-- `WAIT`: completed when its condition holds at its first test; else the queue waits, and keeps the packet (R71, R75). -/
def execWaitPacket (s : State) : Outcome State Fault Refusal :=
  .next (s.packetEvent 7 fun v q k s =>
    match s.waitTest v q k with
    | .error c => s.queueError v q c
    | .ok (none, s1) => s1
    | .ok (some true, s1) => (s1.start v q k (some 0)).2
    | .ok (some false, s1) =>
      let x := s1.queue v q
      (s1.setQueue v q { x with tested := s.time, head := some k }).queueState v q 3)

/-- A waiting queue tests its WAIT again (R71): a host word every 4,096 cycles. -/
def execWaitTest (s : State) : Outcome State Fault Refusal :=
  let v := s.cur.site
  let q := s.cur.core
  let x := s.queue v q
  if x.st ≠ 3 ∨ !s.resident (s.partOf v) ∨ (s.vf v).flrbusy then .next s
  else
    match x.head with
    | none => .next s
    | some k =>
      if fld k.spec 3 1 = 0 ∧ s.time < x.tested + 4096 then .next s
      else
        let s1 := s.setQueue v q { x with tested := s.time }
        match s1.waitTest v q k with
        | .error c => .next (s1.queueError v q c)
        | .ok (some true, s2) => .next (s2.start v q k (some 0)).2
        | .ok (_, s2) => .next s2

/-! Measurement and energy -/

/-- `MEASURE_OPEN` (07 R153, R154): it starts once nothing measured runs in its context. -/
def execMeasureOpen (s : State) : Outcome State Fault Refusal :=
  .next (s.packetEvent 8 fun v q k s =>
    let p := s.partOf v
    let c := fld k.spec 0 4
    if s.graphs.any fun g => g.2.part == p && g.2.meas == some c then s
    else
      let magic : List Byte := [0x44, 0x45, 0x58, 0x53, 0x4F, 0x4C, 0x2D, 0x4D, 0x43]
      let c0 := sha512 (magic ++ leBytes 1 p ++ leBytes 1 c ++ (k.bytes.drop 8).take 32)
      ((s.setCtx p c { Ctx.closed with isOpen := true, chain := c0 }).start v q k (some 0)).2)

/-- `RECEIPT`: the request goes to Markhor (07 R164). -/
def execReceipt (s : State) : Outcome State Fault Refusal :=
  .next (s.packetEvent 9 fun v q k s =>
    let n := fld k.spec 4 3
    let st := s.start v q k none
    let r : Receipt :=
      { part := s.partOf v, vf := v, q := q, pkt := st.1, ctx := fld k.spec 0 4, close := fld k.spec 7 1 == 1, dest := k.dw 8
        gid := k.dw 0x10, slots := (List.range n).map fun i => numAt k.bytes (0x18 + 2 * i) 2
        names := (List.range n).map fun i => (k.bytes.drop (0x20 + 8 * i)).take 8, taken := false, body := [], log := [], status := none }
    { st.2 with receipts := st.2.receipts ++ [r] })

/-- `ENERGY_SET` (R71, 06 R142): done at the next refill tick, at which the new rate applies (R69). -/
def execEnergySet (s : State) : Outcome State Fault Refusal :=
  .next (s.packetEvent 10 fun v q k s =>
    let p := s.partn (s.partOf v)
    ((s.setPart (s.partOf v) { p with reqMw := some (numAt k.bytes 8 4), reqUj := some (numAt k.bytes 0x0C 4) }).start v q k none).2)

end Sys2Proof.Machine
end

