-- ==== Sys2Proof/Machine/Markhor.lean ====
section
/-! DEFINITION. Receipts and certificates (07 R163 to R170). -/

namespace Sys2Proof.Machine

open Host (Outcome)

/-- The 96 bytes of a log record (R167). -/
def LogRec.bytes (r : LogRec) : List Byte :=
  leBytes 8 r.rsn ++ leBytes 8 r.gid ++ leBytes 2 r.node ++ leBytes 1 r.kind ++ leBytes 1 r.bind ++ leBytes 1 r.cls ++ leBytes 3 0 ++
    leBytes 8 r.len ++ r.dig

/-- A result entry (R166). -/
def State.resultEntry (s : State) (p c slot : Nat) (name : List Byte) : List Byte :=
  let size := match s.cap p slot with | some (.cap b _ _) => (s.buf b).size | _ => 0
  let fd : Nat × List Byte := match s.validCap p slot with
    | some (b, true, _) =>
      (match (s.buf b).mrec with
        | some m => if m.part = p ∧ m.ctx = c then (match m.root with | some d => (0, d) | none => (3, [])) else (2, [])
        | none => (2, []))
    | _ => (1, [])
  name ++ leBytes 6 size ++ leBytes 1 fd.1 ++ leBytes 1 0 ++ (if fd.2.isEmpty then List.replicate 64 0 else fd.2)

/-- The STATUS that a receipt takes (R165, R167): none where nothing can be written at DEST. -/
def State.receiptStatus (s : State) (r : Receipt) (nrec : Nat) : Option Nat :=
  match s.validCap r.part (slotOf r.dest) with
  | none => none
  | some (b, _, w) =>
    let u := s.buf b
    let fits (n : Nat) : Bool := decide (offOf r.dest + n ≤ u.size)
    if !w || !fits 1024 then none
    else if !(s.ctx r.part r.ctx).isOpen then some 2
    else if fits (1024 + 96 * nrec) then some 0
    else some 1

/-- The package receipt counter advances, its block recorded in the secure store (R169). -/
def Pkg.countReceipt (k : Pkg) : Pkg := { k with counter := k.counter + 1, block := (k.counter + 1) / 4096 }

/-- The 512 bytes that are signed (R165). -/
def State.receiptBody (s : State) (r : Receipt) (status : Nat) : List Byte :=
  let x := s.ctx r.part r.ctx
  let live := status ≠ 2
  let n (k : Nat) : Nat := if live then k else 0
  let closes := status = 0 ∧ r.close
  let flags := (if status = 0 ∧ x.lost then 2 else 0) + if closes then 1 else 0
  let res := (r.slots.zip r.names).flatMap fun y => s.resultEntry r.part r.ctx y.1 y.2
  leBytes 4 0x43525A4F ++ leBytes 2 1 ++ leBytes 1 status ++ leBytes 1 flags ++ leBytes 1 r.part ++ leBytes 1 r.ctx ++
    leBytes 1 r.slots.length ++ leBytes 1 0 ++ leBytes 4 (n x.recs.length) ++ leBytes 4 (n x.ridx) ++ leBytes 4 0 ++ leBytes 8 r.gid ++
    leBytes 8 s.pkg.counter ++ leBytes 8 s.time ++ leBytes 8 (n x.extcount) ++ leBytes 8 (n x.rsnlast) ++ s.pkg.meas ++
    (if live then x.chain else List.replicate 64 0) ++ res ++ List.replicate (320 - res.length) 0

/-- A context after a receipt with STATUS 0: its records are cleared, and it closes when the packet asks for that
(R163, R167). -/
def Ctx.issued (x : Ctx) (close : Bool) : Ctx :=
  if close then Ctx.closed else { x with ridx := x.ridx + 1, recs := [], lost := false }

/-- Markhor takes the snapshot of the oldest request that has none, for a token (R164).  The counter, the records
and the closing go with it. -/
def execReceiptSnapshot (s : State) : Outcome State Fault Refusal :=
  match s.receipts.find? fun r => !r.taken with
  | none => .next s
  | some r =>
    if s.pkg.tokens = 0 then .next s
    else
      let x := s.ctx r.part r.ctx
      let k := s.pkg
      let status := s.receiptStatus r x.recs.length
      let done (r' : Receipt) (s : State) : State :=
        { s with receipts := s.receipts.map fun y => if y = r then r' else y }
      let s1 := s.setPkg { k with tokens := k.tokens - 1 }
      match status with
      | none => .next (done { r with taken := true } s1)
      | some st =>
        let body := s.receiptBody r st
        let log := if st = 0 then x.recs.flatMap LogRec.bytes else []
        let s2 := s1.setPkg s1.pkg.countReceipt
        let s3 := if st = 0 then s2.setCtx r.part r.ctx (x.issued r.close) else s2
        .next (done { r with taken := true, body := body, log := log, status := some st } s3)

/-- Prime i of the attestation key: 2,048 bits, the two highest set, so that the modulus has 4,096 (R168, log 10). -/
def attPrime (i : Nat) : Nat := 3 * 2 ^ 2046 + 2 * (Config.attPrime i).toNat + 1

/-- The modulus of the attestation key (R168). -/
def attModulus : Nat := attPrime 0 * attPrime 1

/-- The private exponent that belongs to the primes and the public exponent e = 65,537: the d with e d = 1 modulo
L = lcm(p - 1, q - 1), which is (1 + k L) / e for the k with k L = -1 modulo the prime e (R168). -/
def privateExponent (p q : Nat) : Nat :=
  let l := Nat.lcm (p - 1) (q - 1)
  let k := 65537 - modPow 17 (l % 65537) 65535 65537
  (1 + k * l) / 65537

/-- The signature of a receipt's 512 bytes (R168): the primes in the secure store and the salt are free values (log 10). -/
def receiptSig (body : List Byte) : List Byte :=
  pssSign attModulus (privateExponent (attPrime 0) (attPrime 1)) body (beStr 64 (Config.salt (numAt body 0x20 8)).toNat)

/-- The oldest request with a snapshot is signed and written, its log after it, and its packet completes once they
have performed (R164, R165, R168). -/
def execReceiptWritten (s : State) : Outcome State Fault Refusal :=
  match s.receipts with
  | [] => .next s
  | r :: rest =>
    if !r.taken then .next s
    else
      let s1 : State := { s with receipts := rest }
      match r.status with
      | none => .next (s1.afterHome (.finish r.vf r.q r.pkt 0))
      | some st =>
        let s2 := s1.capWrite r.part r.vf r.dest (r.body ++ receiptSig r.body) true
        let s3 := if r.log.isEmpty then s2 else s2.capWrite r.part r.vf (r.dest + 1024) r.log true
        let s4 := s3.frontEvent r.part 0x09 (numAt r.body 0x20 8) (r.ctx + st * 256) 0
        .next (s4.afterHome (.finish r.vf r.q r.pkt 0))

/-- A token every 625,000 cycles, at most 16 (R164). -/
def execReceiptTokenRefill (s : State) : Outcome State Fault Refusal :=
  let k := s.pkg
  if s.time % 625000 = 0 then .next (s.setPkg { k with tokens := min 16 (k.tokens + 1) }) else .next s

/-- CSEL selects a certificate and sets COFF to 0 (R170). -/
def execCselWrite (v : Nat) (s : State) : Outcome State Fault Refusal :=
  s.config 0 <|
  let k := s.pkg
  .next (s.setPkg { k with csel := v % 4, coff := 0 })

/-- CLEN (R170). -/
def certLength (csel : Nat) : Nat := if csel < 2 then Config.certLen csel else 0

/-- CDATA at an offset: bytes from CLEN on read zero (R170). -/
def certData (csel off : Nat) : Word :=
  let n := min 4 (certLength csel - off)
  if csel < 2 then BitVec.ofNat 32 ((Config.certificate csel off).toNat % 2 ^ (8 * n)) else 0

/-- A read of CDATA returns four bytes and advances COFF by 4 (R170). -/
def execCdataRead (s : State) : Outcome State Fault Refusal :=
  s.config 0 <|
  let k := s.pkg
  .next ((s.setPkg { k with coff := (k.coff + 4) % 2 ^ 32 }).send (.word (certData k.csel k.coff)))

end Sys2Proof.Machine
end

