-- ==== Sys2Proof/Machine/Tenants.lean ====
section
/-! DEFINITION. Energy refill and stretching, time slices and the switch of tenants, suspension, and the policy
registers with an effect of their own (06 R125, R126, R139 to R151, 11 R248, R249). -/

namespace Sys2Proof.Machine

open Host (Outcome)

/-! Energy (06 R141 to R144) -/

/-- An attempt that runs: its gangs hold clusters. -/
def Attempt.placed (t : Attempt) : Bool := !t.parked && !t.insts.isEmpty

/-- The numbers of the attempts that run. -/
def State.running (s : State) : List Nat := (s.atts.filter fun x => x.2.placed).map (·.1)

/-- The excess of M over H that a tick debits, as it stands (R141). -/
def State.debitExcess (s : State) (a : Nat) : State :=
  let t := s.attempt a
  let ex := t.metered - t.hold
  let p := s.partn t.part
  (s.setAttempt a { t with debited := ex }).setPart t.part { p with reserve := p.reserve - ((ex : Int) - t.debited) }

/-- The partitions that refill: those bound (R142). -/
def State.boundParts (s : State) : List Nat := (List.range 64).filter s.bound

/-- The rate of a partition whose request is r, among requests that sum to total (R142). -/
def refillRate (r total rate : Nat) : Nat := if total ≤ rate then r else r * rate / total

/-- Refill every bound partition, its limit as it now stands, and note whether its reserve is negative at this tick (R142,
R143). -/
def State.refill (s : State) : State :=
  let ps := s.boundParts
  let total := ps.foldl (fun n p => n + (s.partn p).request) 0
  ps.foldl
    (fun s p =>
      let x := s.partn p
      let r := refillRate x.request total s.pkg.rate
      let left := min (x.reserve + r) (x.limit * 1000)
      s.setPart p { x with rate := r, lim := x.limit, reserve := left, slow := decide (left < 0) })
    s

/-- The package guard (R144): on above what PKG_RATE allows over the last 1,000 ticks, off below 95 % of it. -/
def State.guard (s : State) : State :=
  let k := s.pkg
  let base := if k.spent.length < 1000 then 0 else k.spent.getLastD 0
  let used := k.metered - base
  let lim := k.rate * 1000
  s.setPkg { k with
    spent := (k.metered :: k.spent).take 1000
    guard := if k.guard then !decide (used * 100 < lim * 95) else decide (lim < used) }

/-- The first timebase multiple of 16 at least 64 cycles ahead; R140 allows a later one.  DESIGN CHOICE (log 82). -/
def levelTime (t : Nat) : Nat := (t + 64 + 15) / 16 * 16

/-- A message that changes an instance's level, where it differs from the one it has or is about to have. -/
def Inst.toLevel (i : Inst) (time lvl : Nat) : Inst :=
  let next := match i.change with | some c => c.2 | none => i.level
  if next = lvl then i else { i with change := some (levelTime time, lvl) }

/-- Change every running gang's level to what it has to be (R140). -/
def State.stretch (s : State) : State :=
  s.running.foldl
    (fun s a =>
      let t := s.attempt a
      s.setAttempt a { t with insts := t.insts.map fun i => i.toLevel s.time (s.levelOf t.part) })
    s

/-- The events of a tick for the partitions whose reserve changed its sign (R143). -/
def State.signEvents (s : State) (old : State) : State :=
  s.boundParts.foldl
    (fun s p =>
      if decide ((old.partn p).reserve < 0) != decide ((s.partn p).reserve < 0) then
        (s.vfsOf p).foldl (fun s v => s.vfIrq v 30) s
      else s)
    s

/-- The new rates apply: the ENERGY_SET packets that asked for them are done (03 R69). -/
def Queue.rated (x : Queue) : Queue :=
  { x with packets := x.packets.map fun p => if p.rate && p.fin.isNone then { p with fin := some 0 } else p }

def State.rated (s : State) : State :=
  { s with vfs := s.vfs.map fun f => (f.1, { f.2 with queues := f.2.queues.map fun q => (q.1, q.2.rated) }) }

/-- Every 1,250 cycles (R142): metered energy accrues and its excess is debited, a suspended attempt's too, bound partitions refill, the guard
is set, and gangs change their levels. -/
def execEnergyRefillTick (s : State) : Outcome State Fault Refusal :=
  if s.time % 1250 ≠ 0 then .next s
  else
    let as := s.running
    let s1 := as.foldl State.meter s
    let s2 := ((Tab.keys s.atts).foldl State.debitExcess s1).refill.rated
    .next ((s2.signEvents s).guard).stretch

/-- A level change takes effect at the count it names (R140), with its event (14 R318).  The focus names the
attempt and its instance. -/
def execStretchLevelApply (s : State) : Outcome State Fault Refusal :=
  let t := s.attempt s.cur.site
  let i := t.insts.getD s.cur.core Inst.empty
  match i.change with
  | none => .next s
  | some (at_, lvl) =>
    if s.time < at_ then .next s
    else
      let s1 := s.setAttempt s.cur.site { t with insts := t.insts.set s.cur.core { i with level := lvl, change := none } }
      if s.cur.core = 0 then .next (s1.frontEvent t.part 0x07 (s.graphOf t).gid lvl t.key) else .next s1

/-- Firmware lowers PKG_RATE for coolant conditions, or restores it (01 R42, R144). -/
def execCoolantConditionChange (rate : Nat) (s : State) : Outcome State Fault Refusal :=
  let k := s.pkg
  .next (s.setPkg { k with rate := min k.cap rate, thermal := decide (rate < k.cap) })

/-! Suspension (06 R148, R150, 13 R307 to R309) -/

/-- The place of a core's checkpoint in its attempt. -/
def Core.ckKey (c : Core) : Nat := match c.job with | some j => Sys2Proof.Machine.ckKey j.inst j.grank | none => 0

/-- An attempt whose every job has stopped at a yield or ended becomes suspended once its writes have performed (R148 step
2, R150): it keeps its records, gives its clusters back, and stands at the head of its queue's order. -/
def State.suspend (s : State) (a : Nat) : State :=
  let t := s.attempt a
  let ids := s.coresOf a
  let done := ids.all fun id => (Tab.get Core.idle s.cores id).done
  if t.parked || t.ckpts.isEmpty || ids.isEmpty || !done || s.writesOpen a then s
  else
    let s1 := s.meter a
    let recs := ids.foldl
      (fun (r : Tab (List Byte)) id =>
        let c := Tab.get Core.idle s.cores id
        if (Tab.find r c.ckKey).isSome then r
        else Tab.set r c.ckKey ({ c with streams := [] }.checkpoint t (match c.job with | some j => j.grank | none => 0) 0))
      t.ckpts
    let s2 := s1.frontEvent t.part 0x04 (s1.graphOf t).gid 0 t.key
    let s3 := (s2.settleWrites a).freeCores a
    let nd := s3.node t.node
    let t1 := { s3.attempt a with insts := [], ckpts := recs, parked := true, preempt := false }
    let s4 : State := s3.setAttempt a t1
    { s4.setNode t.node { nd with phase := .suspended a } with runq := t.node :: s4.runq }

/-! Time slices (06 R145 to R149) -/

/-- The partitions of a group. -/
def State.partsOf (s : State) (g : Nat) : List Nat := (List.range 64).filter fun p => (s.partn p).group == g

/-- A partition has queued packets or ready nodes (R146). -/
def State.wants (s : State) (p : Nat) : Bool :=
  ((s.vfsOf p).any fun v => (s.vf v).queues.any fun x => x.2.st ≠ 0 && x.2.widx != x.2.readIdx) ||
    s.runq.any fun n => (s.node n).candidate && (s.graph (s.node n).graph).part == p

/-- The next partition of a list after p that has work, in ascending number, wrapping round (R146). -/
def State.nextWanting (s : State) (ps : List Nat) (p : Nat) : Option Nat :=
  (ps.filter (p < ·) ++ ps.filter (· < p)).find? s.wants

/-- Running attempts of partitions on the sites of a group. -/
def State.attemptsIn (s : State) (g : Nat) (ps : List Nat) : List Nat :=
  let sites := (s.group g).sites
  s.running.filter fun a =>
    let t := s.attempt a
    ps.contains t.part && t.insts.any fun i => sites.testBit i.site

/-- Pre-emption is pending in attempts, or no longer. -/
def State.setPreempt (s : State) (as : List Nat) (x : Bool) : State :=
  as.foldl (fun s a => s.setAttempt a { s.attempt a with preempt := x }) s

/-- A switch of tenants begins (R148 step 1). -/
def State.beginSwitch (s : State) (g : Nat) (out : List Nat) (next : Nat) : State :=
  let x := s.group g
  (s.setGroup g { x with switch := some ⟨s.time, out, next, false⟩ }).setPreempt (s.attemptsIn g out) true

/-- The event of a change of residency (14 R318). -/
def State.residentEvent (s : State) (p g : Nat) (on : Bool) : State := s.frontEvent p (if on then 0x05 else 0x06) g 0 0

/-- The queues of a partition are fetched again from their read indices, and stop where a peer refused a grant meanwhile
(R148 step 5, R149). -/
def State.loadPart (s : State) (p : Nat) : State :=
  let s1 := (s.vfsOf p).foldl
    (fun s v => (Tab.keys (s.vf v).queues).foldl
      (fun s q =>
        let x := s.queue v q
        (s.setQueue v q { x with reread := x.widxOn }).kick v q)
      s)
    s
  (s1.grants.filter fun g => g.refused && s1.partOf g.vf == p).foldl State.refuseGrant s1

/-- A partition stops being resident: no class holds a node of it any more (R130). -/
def State.unload (s : State) (p g : Nat) : State :=
  let s1 : State := { s with held := s.held.filter fun h => (s.graph (s.node h.2).graph).part != p }
  s1.residentEvent p g false

/-- A partition becomes resident in a sliced group and its slice begins (R147, R148 step 5). -/
def State.enter (s : State) (g next : Nat) : State :=
  let x := s.group g
  ((s.setGroup g { x with resident := some next, began := s.time, switch := none }).residentEvent next g true).loadPart next

/-- A slice ends G_SLICE after it began (R146): a switch begins, or the slice is renewed.  The focus names the
group. -/
def execSliceExpiry (s : State) : Outcome State Fault Refusal :=
  let g := s.cur.site
  let x := s.group g
  if !x.sliced || x.switch.isSome then .next s
  else
    match x.resident with
    | none =>
      (match (s.partsOf g).find? s.wants with
        | some b => .next (s.enter g b)
        | none => .next s)
    | some a =>
      if s.time < x.began + x.slice * 1250 then .next s
      else
        match s.nextWanting (s.partsOf g) a with
        | some b => .next (s.beginSwitch g [a] b)
        | none => .next (s.setGroup g { x with began := s.time })

/-- Saving begins once no attempt of the outgoing partitions runs in the group (R148 steps 3 and 4). -/
def State.settleSwitch (s : State) (g : Nat) : State :=
  let x := s.group g
  match x.switch with
  | none => s
  | some w => if w.saving || !(s.attemptsIn g w.out).isEmpty then s else s.setGroup g { x with switch := some { w with saving := true } }

/-- S + G_GRACE: every attempt of the outgoing partitions that still runs is aborted and queued again (R148
step 3), the last in the order first, so that each stands at the head. -/
def execGraceExpiry (s : State) : Outcome State Fault Refusal :=
  let g := s.cur.site
  match (s.group g).switch with
  | none => .next s
  | some w =>
    if w.saving || decide (s.time < w.at_ + (s.group g).grace * 1250) then .next s
    else .next (((s.attemptsIn g w.out).reverse.foldl (fun s a => if (Tab.find s.atts a).isSome then s.requeue a else s) s).settleSwitch g)

/-- The outgoing partitions' state has been saved; the next one becomes resident (R148 steps 4 and 5). -/
def execTenantSwitchSaveComplete (s : State) : Outcome State Fault Refusal :=
  let g := s.cur.site
  let s0 := s.settleSwitch g
  match (s0.group g).switch with
  | none => .next s
  | some w => if !w.saving then .next s else .next ((w.out.foldl (fun s p => s.unload p g) s0).enter g w.next)

/-! Policy registers with effects (06 R125, R126, R147, R152) -/

/-- G_SLICED of the group that GSEL names (R147). -/
def execGSlicedWrite (v : Nat) (s : State) : Outcome State Fault Refusal :=
  s.config 0 <|
  let g := s.pkg.gsel
  let x := s.group g
  let on := v % 2 == 1
  if on = x.sliced then .next s
  else
    let ps := s.partsOf g
    if on then
      let s1 := s.setGroup g { x with sliced := true, resident := none, switch := none, began := s.time }
      match (ps.find? s.wants).or ps.head? with
      | none => .next s1
      | some b => .next (s1.beginSwitch g (ps.filter (· ≠ b)) b)
    else
      let was := ps.filter s.resident
      let s1 := (s.setGroup g { x with sliced := false, resident := none, switch := none }).setPreempt (s.attemptsIn g ps) false
      .next (ps.foldl (fun s p => if was.contains p then s.loadPart p else (s.residentEvent p g true).loadPart p) s1)

/-- A partition leaves a sliced group (R147): where it was resident, or about to be, another one takes its
place at once. -/
def State.leaveGroup (s : State) (p g : Nat) : State :=
  let x := s.group g
  if !x.sliced then s
  else
    let ps := s.partsOf g
    let next := (s.nextWanting ps p).or ((ps.filter (p < ·) ++ ps.filter (· < p)).head?)
    let go (s : State) : State := match next with
      | some b => s.enter g b
      | none => s.setGroup g { s.group g with resident := none, switch := none }
    match x.switch with
    | none => if x.resident = some p then go s else s
    | some w =>
      let out := w.out.filter (· ≠ p)
      if w.next = p then
        (match next with
          | some b => s.setGroup g { x with switch := some { w with next := b, out := out.filter (· ≠ b) } }
          | none => s.setGroup g { x with resident := none, switch := none })
      else if out.isEmpty && w.out.contains p then s.enter g w.next
      else s.setGroup g { x with switch := some { w with out := out } }

/-- P_GROUP of the partition that PSEL names (R126, R147). -/
def execPGroupWrite (v : Nat) (s : State) : Outcome State Fault Refusal :=
  s.config 0 <|
  let p := s.pkg.psel
  let x := s.partn p
  let new := v % 16
  if new = x.group then .next s
  else
    let was := s.resident p
    let mine := s.attemptsIn x.group [p]
    let s1 := ((s.setPart p { x with group := new }).setPreempt mine false).leaveGroup p x.group
    let is := s1.resident p
    if was && !is then .next (s1.unload p x.group)
    else if !was && is then .next ((s1.residentEvent p new true).loadPart p)
    else .next s1

/-- G_SITES of the group that GSEL names: a site belongs to at most one group (R126). -/
def execGSitesWrite (v : Nat) (s : State) : Outcome State Fault Refusal :=
  s.config 0 <|
  let g := s.pkg.gsel
  let mask := v % 2 ^ 24
  let others := (List.range 16).filter (· ≠ g)
  let s1 := others.foldl (fun s k => let x := s.group k; s.setGroup k { x with sites := x.sites &&& (2 ^ 24 - 1 - mask) }) s
  .next (s1.setGroup g { s1.group g with sites := mask })

/-- P_PLUGIN of the partition that PSEL names (R152). -/
def execPPluginWrite (v : Nat) (s : State) : Outcome State Fault Refusal :=
  s.config 0 <|
  let p := s.pkg.psel
  .next (s.setPart p { s.partn p with plugin := v % 256, plugOff := false, plugLate := false })

/-- An NF descriptor that the device takes (11 R249): its width, and its positive finite values within FP32. -/
def nfOk (w : Word) : Bool :=
  let e := descE w
  let m := descM w
  let n := descWidth w
  let b := descBias w
  let top := 2 ^ (e + m) - 1 - (if descNanf w then 1 else 0)
  let sig := if top / 2 ^ m = 0 then top % 2 ^ m else 2 ^ m + top % 2 ^ m
  let x : Int := if e = 0 then -b else (max (top / 2 ^ m) 1 : Nat) - b - m
  let big := if x < 0 then true else decide (sig * 2 ^ x.toNat ≤ (2 ^ 24 - 1) * 2 ^ 104)
  decide (2 ≤ n) && decide (n ≤ 8) && decide (m ≤ 8) && decide (0 < top) &&
    (if e = 0 then decide (m ≠ 0) && decide (b ≤ 149) && (decide (x < 0) || decide (sig * 2 ^ x.toNat < 2 ^ 128))
     else big && decide (-149 ≤ 1 - b - m))

/-- A descriptor word that FDESC takes (R248, R249). -/
def fdescOk (w : Word) : Bool :=
  let k := descKind w
  if k = 11 then nfOk w else decide (k < 11) && decide (fld w.toNat 4 21 = 0)

/-- FDESC: descriptor FSEL of the partition that PSEL names (R249); its reserved bits read zero. -/
def execFdescWrite (v : Nat) (s : State) : Outcome State Fault Refusal :=
  s.config 0 <|
  let w := BitVec.ofNat 32 v &&& 0x01FFFF0F
  let k := s.pkg
  let p := s.partn k.psel
  if k.fsel < 16 ∨ !fdescOk (if descKind w = 11 then w else BitVec.ofNat 32 v &&& 0x01FFFFFF) then .next s
  else .next (s.setPart k.psel { p with fdesc := Tab.set p.fdesc k.fsel w })

end Sys2Proof.Machine
end

