-- ==== Sys2Proof/Machine/Home.lean ====
section
/-! DEFINITION. Lent extents at their homes: host requests, the directory and its recalls, isolation, and the
commands that add and release extents (04 R79 to R96). -/

namespace Sys2Proof.Machine

open Host (Outcome)

/-! Places -/

/-- The MEM sites a SKU fits, whether in service or not (01 R12, R80). -/
def fittedMem (sku : Nat) : Nat := if sku = 3 then 6 else 8

/-- Extents of the package (R80). -/
def extentCount (sku : Nat) : Nat := 384 * fittedMem sku

/-- The DPA of a host address on a link; none outside the range or while memory is off (R80, R81). -/
def State.dpaOf (s : State) (l addr : Nat) : Option Nat :=
  let k := s.link l
  if k.trained && k.cxl && k.memEnable && decide (k.base ≤ addr) && decide (addr < k.base + extentCount s.pkg.sku * 2 ^ 28) then
    some (addr - k.base)
  else none

/-- A link is isolated (R87). -/
def State.isolated (s : State) (l : Nat) : Bool := s.pkg.iso.testBit l

/-- The extent view of a link shows an extent: it is LENT to the link, or its RELEASE has not come to its last step (R80,
R86). -/
def State.viewed (s : State) (e l : Nat) : Bool :=
  ((s.ext e).st == 2 || (s.ext e).st == 3) && (s.ext e).links.testBit l

/-- An extent serves a link: it is LENT to it. -/
def State.lentTo (s : State) (e l : Nat) : Bool := (s.ext e).st == 2 && (s.ext e).links.testBit l

/-- The directory entry of a line changes; one that nobody holds goes. -/
def State.setLine (s : State) (l : Nat) (d : DirLine) : State :=
  { s with lines := if d.mask = 0 then Tab.erase s.lines l else Tab.set s.lines l d }

/-- A line is taken away from links. -/
def State.dropHolder (s : State) (l link : Nat) : State :=
  let d := s.line l
  if d.mask.testBit link then s.setLine l { d with mask := d.mask - 2 ^ link, excl := false } else s

/-- The extent of a line. -/
def lineExt (l : Nat) : Nat := l / 2 ^ 20

/-- Bytes of an extent at a DPA. -/
def State.extBytes (s : State) (dpa n : Nat) : List Byte := (s.buf (s.ext (extOf dpa)).buf).mem.bytes (dpaOff dpa) n

/-- An access by engine 9 hits watchpoints: every attempt that holds a binding to the buffer has the control
streams of its cores stopped (14 R333, R334). -/
def State.hostHit (s : State) (b off n : Nat) : State :=
  s.running.foldl
    (fun s a =>
      let t := s.attempt a
      match t.binds.findIdx? (fun x => x.buf == b), s.watchAt t b off n true with
      | some k, some (num, o) =>
        (s.coresOf a).foldl
          (fun s id =>
            let c := Tab.get Core.idle s.cores id
            let h : WatchHit := ⟨9, num, (0xFFE0 + k) * 2 ^ 48 + o, (Tab.get Stream.absent c.streams 0).ncmd⟩
            { s with cores := Tab.set s.cores id { c with hits := c.hits ++ [h] } })
          s
      | _, _ => s)
    s

/-- Bytes written at an extent's home. -/
def State.homeWrite (s : State) (dpa : Nat) (bs : List Byte) : State :=
  let b := (s.ext (extOf dpa)).buf
  (s.writeBuf b (dpaOff dpa) bs).hostHit b (dpaOff dpa) bs.length

/-! Serving requests (R88) -/

/-- The directory set of a line: one of the 262,144 of its memory chiplet (R88; which one is left open, log 1). -/
def dirSet (l : Nat) : Nat := Config.dirSet l % 262144

/-- The entries of a line's directory set, by line (R88). -/
def State.setMates (s : State) (l : Nat) : List (Nat × DirLine) :=
  s.lines.filter fun x => extSite (lineExt x.1) == extSite (lineExt l) && dirSet x.1 == dirSet l

/-- The oldest entry of a full set that has to go before a line gets one. -/
def State.victim (s : State) (l : Nat) : Option Nat :=
  if (s.line l).mask ≠ 0 then none
  else
    let m := s.setMates l
    if m.length < 16 then none
    else (m.foldl (fun (o : Option (Nat × DirLine)) x => match o with | none => some x | some y => if x.2.born < y.2.born then some x else o) none).map (·.1)

/-- Recall the oldest entry of a full set, counted once (R88). -/
def State.evict (s : State) (v : Nat) : State :=
  if s.recalls.any fun r => r.line == v && r.inv then s
  else
    let k := s.pkg
    (s.setPkg { k with evicts := satAdd k.evicts 1 }).recallMask v (s.line v).mask true

/-- A link is added to a line, which may get an entry. -/
def State.holdLine (s : State) (l link : Nat) (own : Bool) : State :=
  let d := s.line l
  let born := if d.mask = 0 then s.time else d.born
  s.setLine l ⟨if own then 2 ^ link else d.mask ||| 2 ^ link, own || (d.excl && d.mask == 2 ^ link), born⟩

/-- The holders that a host request has to recall, and whether they lose the line. -/
def DirLine.against (d : DirLine) (link : Nat) (own : Bool) : Nat :=
  let others := if d.mask.testBit link then d.mask - 2 ^ link else d.mask
  if own then others else if d.excl then others else 0

/-- Try a request that is first at its lines: done, or its recalls sent.  A line read before the release point of
its extent is recalled again at once (R86). -/
def State.tryHome (s : State) (r : HomeReq) : State × Bool :=
  match r with
  | .hostRead link dpa own =>
    let l := dpa / 256
    let m := (s.line l).against link own
    if m ≠ 0 then (s.recallMask l m own, false)
    else
      match s.victim l with
      | some v => (s.evict v, false)
      | none =>
        let x := s.ext (extOf dpa)
        let off := dpaOff dpa / 64 * 64
        let s1 := (s.holdLine l link own).send (.data link dpa ((s.buf x.buf).mem.bytes off 64) ((s.buf x.buf).badAt off 64))
        (if x.st = 3 then s1.recall l link true else s1, true)
  | .hostWrite link dpa bs =>
    let l := dpa / 256
    let m := (s.line l).against link true
    if m ≠ 0 then (s.recallMask l m true, false) else ((s.homeWrite dpa bs).send (.done link dpa), true)
  | .devWrite b off bs _ _ =>
    if (s.linesAt b off bs.length).any fun l => (s.line l).blocks true then (s.homeRecall b off bs.length true, false)
    else (s.writeBuf b off bs, true)
  | .devAdd b off =>
    if (s.linesAt b off 8).any fun l => (s.line l).blocks true then (s.homeRecall b off 8 true, false) else (s.addOne b off, true)
  | .devFence _ => (s, true)
  | .after x => (s.doAfter x, true)
  | .devWait _ sp wr => (s.recallSpans wr sp, false)

/-- The agent that holds a place at a home still wants its access: a core's load, the head of a loader's or storer's
queue, a stage transfer, a packet or a write-index word of a queue, a node's dispatch or check, or a peer's request. -/
def State.stillWaits (s : State) (who : Actor) : Bool :=
  let c := Tab.get Core.idle s.cores who.id
  let q := s.queue who.site who.core
  match who.eng with
  | 0 => c.load.any fun r => !r.arrived
  | 4 => !c.laq.items.isEmpty
  | 5 => !c.saq.items.isEmpty
  | 6 => (Tab.get [] s.stage who.site).any fun x => x.core == who.core
  | 8 => q.st == 1 || q.st == 2 || q.st == 3
  | 9 => s.inputs.any fun x => x.2.1 == who
  | 10 => q.widxOn && (q.st == 1 || q.st == 2)
  | 11 => (Tab.find s.nodes who.site).any fun n => n.phase == .ready
  | 12 => (Tab.find s.nodes who.site).any fun n => n.phase == .posted
  | _ => (Tab.find s.graphs who.site).isSome

/-- A request that waits for every device write before it: one with release order, a fence, and what follows writes (R96,
10 R231, 02 R53). -/
def HomeReq.last (r : HomeReq) : Bool :=
  match r with
  | .hostRead _ _ _ | .hostWrite _ _ _ | .devWait _ _ _ => false
  | .devWrite _ _ _ rel _ => rel
  | .devAdd _ _ | .devFence _ | .after _ => true

/-- The place of an agent that does not want its access any more. -/
def State.leftPlace (s : State) (r : HomeReq) : Bool :=
  match r with
  | .devWait who _ _ => !s.stillWaits who
  | _ => false

/-- Serve one of the waiting requests, after those before it: the state, the lines at which one of them still waits, and
whether one of the device's does. -/
def State.serveHome (ids : HomeReq → List Nat) (acc : State × List Nat × Bool) (r : HomeReq) : State × List Nat × Bool :=
  let keep (s : State) : State × List Nat × Bool :=
    ({ s with homeq := s.homeq ++ [r] }, acc.2.1 ++ ids r, acc.2.2 || r.dev)
  if (ids r).any acc.2.1.contains || (r.last && acc.2.2) then keep acc.1
  else
    let x := acc.1.tryHome r
    if x.2 then (x.1, acc.2) else keep x.1

/-- Serve the waiting requests in their order: none before an earlier one of the same line (R88, 01 R27), and one that
comes last before no device request that was made earlier. -/
def State.drainHome (s : State) : State :=
  ((s.homeq.filter fun r => !s.leftPlace r).foldl (State.serveHome s.reqIds) ({ s with homeq := [] }, [], false)).1

/-- A request reaches the home. -/
def State.atHome (s : State) (r : HomeReq) : State := { s with homeq := s.homeq ++ [r] }.drainHome

/-- A host's read from a link. -/
def State.hostRead (s : State) (addr : Nat) (own : Bool) : State :=
  let l := s.cur.site
  match s.dpaOf l addr with
  | none => s.send (.unsupported l addr)
  | some dpa =>
    if s.isolated l || !s.lentTo (extOf dpa) l then s.send (.unsupported l dpa) else s.atHome (.hostRead l dpa own)

/-- A host reads for sharing (R88).  The focus names the link. -/
def execHostReadShared (addr : Nat) (s : State) : Outcome State Fault Refusal := .next (s.hostRead addr false)

/-- A host reads for ownership (R88). -/
def execHostReadOwnership (addr : Nat) (s : State) : Outcome State Fault Refusal := .next (s.hostRead addr true)

/-- The bytes of a write that lie in the line of its address. -/
def inLine (dpa : Nat) (bs : List Byte) : List Byte := bs.take (256 - dpa % 256)

/-- A host write that is dropped: isolated, to a LOST extent, or to one that is not lent to the link (R86, R87,
R93, R94); otherwise what serves it.  One outside the CXL range is unsupported, whether the link is isolated or not
(log 65). -/
def State.hostStore (s : State) (addr : Nat) (bs : List Byte) (held : Bool) (serve : State → Nat → State) : State :=
  let l := s.cur.site
  match s.dpaOf l addr with
  | none => s.send (.unsupported l addr)
  | some dpa =>
    let e := extOf dpa
    if s.isolated l then s.logLine dpa 4 l (some e)
    else if (s.ext e).st = 4 then s.logLine dpa 5 l (some e)
    else if s.lentTo e l || (held && (s.ext e).st = 3) then (if bs.isEmpty then s else serve s dpa)
    else s.logLine dpa 3 l (some e)

/-- A host writes back a line it holds exclusive: memory takes the data and the line becomes invalid, or shared
when keep says so (R88); a writeback of a line it does not hold is a plain write (R86). -/
def execHostWriteback (addr : Nat) (data : List Byte) (keep : Bool) (s : State) : Outcome State Fault Refusal :=
  let l := s.cur.site
  let dpa := (s.dpaOf l addr).getD 0
  let d := s.line (dpa / 256)
  let held := d.excl && d.mask == 2 ^ l
  .next (s.hostStore addr data held fun s dpa =>
    if held then
      let s1 := s.homeWrite dpa (inLine dpa data)
      let s2 := if keep then s1.setLine (dpa / 256) { d with excl := false } else s1.dropHolder (dpa / 256) l
      (s2.send (.done l dpa)).drainHome
    else s.atHome (.hostWrite l dpa (inLine dpa data)))

/-- A host writes without holding the line (R86, R88): other holders are recalled first. -/
def execHostMemWrite (addr : Nat) (data : List Byte) (s : State) : Outcome State Fault Refusal :=
  let l := s.cur.site
  .next (s.hostStore addr data false fun s dpa => s.atHome (.hostWrite l dpa (inLine dpa data)))

/-! Recalls (R88, R90) -/

/-- The recall of a line from a link that is on its way. -/
def State.recallOf (s : State) (l link : Nat) : Option Recall := s.recalls.find? fun r => r.line == l && r.link == link

/-- The oldest recall of a line from a link ends. -/
def State.endRecall (s : State) (l link : Nat) : State :=
  match s.recallOf l link with
  | some r => { s with recalls := s.recalls.erase r }
  | none => s

/-- A host answers a recall (R88): the line's 256 bytes where it held them modified, or nothing; it keeps a shared
copy of a line recalled with BISnpData.  The focus names link and line. -/
def execBisnpResponse (data : List Byte) (s : State) : Outcome State Fault Refusal :=
  let link := s.cur.site
  let l := s.cur.core
  match s.recallOf l link with
  | none => .next s
  | some r =>
    let d := s.line l
    let s1 := s.endRecall l link
    let s2 := if d.excl && d.mask == 2 ^ link && data.length == 256 then s1.homeWrite (l * 256) data else s1
    let s3 := if r.inv then s2.dropHolder l link else if d.mask = 0 then s2 else s2.setLine l { d with excl := false }
    .next s3.drainHome

/-- A recall is not answered within 10 ms (R90): the line reverts to its last written-back contents, is logged
with cause 2, and the holder is dropped. -/
def execRecallTimeout (s : State) : Outcome State Fault Refusal :=
  let link := s.cur.site
  let l := s.cur.core
  match s.recallOf l link with
  | none => .next s
  | some r =>
    if s.time < r.at_ + 12500000 then .next s
    else .next ((((s.endRecall l link).dropHolder l link).logLine (l * 256) 2 link (some (lineExt l))).drainHome)

/-! Isolation (R87, R92) -/

/-- The directory drops a link (R92). -/
def State.isolate (s : State) (link : Nat) : State :=
  let s1 := s.lines.foldl
    (fun s x =>
      if !x.2.mask.testBit link then s
      else
        let s2 := s.dropHolder x.1 link
        if x.2.excl then s2.logLine (x.1 * 256) 1 link (some (lineExt x.1)) else s2)
    s
  let gone (r : HomeReq) : Bool := match r with | .hostRead l _ _ => l == link | .hostWrite l _ _ => l == link | _ => false
  { s1 with
    recalls := s1.recalls.filter fun r => r.link != link
    homeq := s1.homeq.filter fun r => !gone r }.drainHome

/-- HOST_ISO takes new bits: each one that becomes set isolates its link. -/
def State.setIso (s : State) (v : Nat) : State :=
  let k := s.pkg
  let new := (List.range 4).filter fun l => v.testBit l && !k.iso.testBit l
  new.foldl State.isolate (s.setPkg { k with iso := v % 16 })

/-- HOST_ISO is written by the PF (R87). -/
def execHostIsoWrite (v : Nat) (s : State) : Outcome State Fault Refusal :=
  s.pfBar <| .next (s.setIso v)

/-! Extents (R83 to R86, R93) -/

/-- An even sequence counter becomes odd: what it counts changes (01 R18); an odd one becomes even again once that is
stable. -/
def oddGen (g : Word) : Word := g ||| 1
def evenGen (g : Word) : Word := if g.getLsbD 0 then g + 1 else g

/-- VGEN of the links in a mask: the view changes (R80). -/
def State.bumpViews (s : State) (mask : Nat) : State :=
  (List.range 4).foldl
    (fun s l => if mask.testBit l then s.setLink l { s.link l with vgen := oddGen (s.link l).vgen } else s)
    s

/-- An extent command ends: BUSY 0, RESULT and vector 2, behind the writes before it (R83, 02 R53). -/
def State.extEnd (s : State) (result : Nat) : State :=
  let k := s.pkg
  (s.setPkg { k with extBusy := false, extRes := result }).afterHome (.pfIrq 2)

/-- A device chunk lies in an extent. -/
def State.extUsed (s : State) (e : Nat) : Bool :=
  (s.taken (extSite e)).any fun r => overlaps r.1 r.2 (extBase e) (2 ^ 28)

/-- EXT_CMD is written with a command that is not RELEASE (R83, R85): an ADD starts, or ends at once; one that names no
slot of a partition ends with RESULT 3 (log 65). -/
def execExtAdd (cmd : Nat) (s : State) : Outcome State Fault Refusal :=
  s.pfBar <|
  let k := s.pkg
  let e := fld cmd 4 12
  let x := s.ext e
  let owner := fld cmd 32 6
  let slot := fld cmd 16 16
  if k.extBusy ∨ fld cmd 0 4 = 2 then .next s
  else
    let s1 := s.setPkg { k with extCmd := BitVec.ofNat 64 cmd }
    if fld cmd 0 4 ≠ 1 then .next (s1.extEnd 1)
    else if extentCount k.sku ≤ e then .next (s1.extEnd 4)
    else if x.st ≠ 0 then .next (s1.extEnd 1)
    else if s.extUsed e then .next (s1.extEnd 2)
    else if !s.bound owner ∨ 0xFFE0 ≤ slot ∨ (s.cap owner slot).isSome then .next (s1.extEnd 3)
    else
      let s2 := s1.setPkg { s1.pkg with extBusy := true, extAt := s.time }
      .next (s2.setExt e
        { x with st := 1, owner := owner, slot := slot, links := fld cmd 40 4, notify := k.notify.toNat, owned := true })

/-- The extent of the command that runs. -/
def Pkg.cmdExt (k : Pkg) : Nat := fld k.extCmd.toNat 4 12

/-- ADD is done (R85): the buffer stands in its slot, the extent is LENT, the views show it and the owner is
notified.  Where another change has filled the slot meanwhile, the extent goes back to the pool with RESULT 3 (log 65). -/
def execExtAddComplete (s : State) : Outcome State Fault Refusal :=
  let e := s.pkg.cmdExt
  let x := s.ext e
  if !s.pkg.extBusy ∨ x.st ≠ 1 then .next s
  else if (s.cap x.owner x.slot).isSome then .next ((s.setExt e Extent.pool).extEnd 3)
  else
    let u : Buffer :=
      { Buffer.none with
        size := 2 ^ 28
        big := true
        refs := 1
        chunks := (List.range 128).map fun k => (k, extSite e * 2 ^ 40 + extBase e + k * 2 ^ 21)
        ext := some e }
    let s1 : State := { s.setBuf s.nextBuf u with nextBuf := s.nextBuf + 1 }
    let s2 := (s1.setCap x.owner x.slot (.cap s.nextBuf true true)).setExt e { x with st := 2, buf := s.nextBuf }
    .next (((s2.bumpViews x.links).notifyOwner e).extEnd 0)

/-- EXT_CMD is written with RELEASE (R86): the release point; the buffer's capability is revoked and every line of
the extent recalled. -/
def execExtRelease (cmd : Nat) (s : State) : Outcome State Fault Refusal :=
  s.pfBar <|
  let k := s.pkg
  let e := fld cmd 4 12
  let x := s.ext e
  if k.extBusy ∨ fld cmd 0 4 ≠ 2 then .next s
  else
    let s1 := s.setPkg { k with extCmd := BitVec.ofNat 64 cmd }
    if extentCount k.sku ≤ e then .next (s1.extEnd 4)
    else if x.st ≠ 2 then .next (s1.extEnd 1)
    else
      let s2 := (s1.setPkg { s1.pkg with extBusy := true, reltime := BitVec.ofNat 64 s.time }).setExt e { x with st := 3 }
      let s3 := s2.revoke x.buf
      .next (s3.lines.foldl (fun s y => if lineExt y.1 = e then s.recallMask y.1 y.2.mask true else s) s3)

/-- A load or atomic of a core that was accepted before and has not performed reads a buffer. -/
def State.loadsOf (s : State) (b : Nat) : Bool :=
  s.cores.any fun c => match c.2.load with
    | some r => !r.arrived && (match r.at_ with | .buf b' _ => b' == b | .args _ => false)
    | none => false

/-- Nothing of an extent is held by a host, waits at its home or is on its way there (R86). -/
def State.extQuiet (s : State) (e : Nat) : Bool :=
  (s.lines.all fun x => lineExt x.1 != e) && (s.homeq.all fun r => (s.reqSpans r).all fun x => (s.buf x.1).ext != some e) &&
    !s.loadsOf (s.ext e).buf

/-- RELEASE is done (R86): the extent is zero and in the pool again. -/
def execExtReleaseComplete (s : State) : Outcome State Fault Refusal :=
  let e := s.pkg.cmdExt
  let x := s.ext e
  if !s.pkg.extBusy ∨ x.st ≠ 3 ∨ !s.extQuiet e then .next s
  else
    let u := s.buf x.buf
    let s1 := (s.setBuf x.buf { u with mem := [], bad := [], chunks := [], ext := none }).bumpViews x.links
    let s2 := s1.notifyOwner e
    .next ((s2.setExt e { x with st := 0, owned := false }).extEnd 0)

/-- An extent of a MEM site that goes out of service becomes LOST (R93); its buffer's capability is revoked, and
the owner of one that was LENT, ADDING or RELEASING is notified. -/
def State.extLost (s : State) (e : Nat) : State :=
  let x := s.ext e
  let s1 := s.setExt e { x with st := 4 }
  if x.st = 0 ∨ x.st = 4 then s1
  else
    let s2 := if x.st = 1 then s1 else s1.revoke x.buf
    ((s2.bumpViews x.links).notifyOwner e).afterHome (.pfIrq 2)

/-- The extents of a site become LOST; the directory is gone, waiting host requests end, and device writes that waited
there fail their nodes (R93, 01 R20). -/
def State.siteLost (s : State) (site : Nat) : State :=
  let mine (l : Nat) : Bool := extSite (lineExt l) == site
  let answers := s.homeq.filterMap fun r => match r with
    | .hostRead l dpa _ => if mine (dpa / 256) then some (Sent.unsupported l dpa) else none
    | _ => none
  let gone (r : HomeReq) : Bool := (s.reqSpans r).any fun x =>
    (s.buf x.1).ext.any (fun e => extSite e == site) || s.lostAt x.1 x.2.1 x.2.2
  let failed := (s.homeq.filter gone).filterMap fun r => match r with | .devWrite _ _ _ _ a => a | _ => none
  let busy := s.pkg.extBusy && extSite s.pkg.cmdExt == site
  let s1 : State :=
    { s with
      lines := s.lines.filter fun x => !mine x.1
      recalls := s.recalls.filter fun r => !mine r.line
      homeq := s.homeq.filter fun r => !gone r
      sent := s.sent ++ answers }
  let s2 := failed.foldl (fun s a => s.raise s.cur (.attemptFailure a 7 0 0)) s1
  let s3 := ((List.range 384).map fun i => (site - 1) * 384 + i).foldl State.extLost s2
  if busy then s3.extEnd 1 else s3

end Sys2Proof.Machine
end

