-- ==== Sys2Proof/Machine/Functions.lean ====
section
/-! DEFINITION. Virtual functions: binding, enabling, function-level reset, and the migration commands (02 R48 to
R61, 03 R75). -/

namespace Sys2Proof.Machine

open Host (Outcome)

/-! Binding and enabling (R45, R46, R48) -/

/-- VF_BIND (R48): it takes effect only while the VF is disabled.  The focus names the VF. -/
def execVfBindWrite (v : Nat) (s : State) : Outcome State Fault Refusal :=
  s.pfBar <|
  let f := s.vf s.cur.site
  if f.enabled then .next (s.setVf s.cur.site { f with binderr := true })
  else
    let l := fld v 22 2
    let k := s.link l
    .next (s.setVf s.cur.site { f with valid := fld v 31 1 == 1, link := l, part := fld v 0 6, enabled := k.trained && k.vfEnable })

/-- The VFs whose binding names a link (R46). -/
def State.vfsAt (s : State) (l : Nat) : List Nat := (List.range 384).filter fun v => (s.vf v).link == l

/-- VF Enable is set at a link's function 0 (R48).  The focus names the link. -/
def execVfEnableSet (s : State) : Outcome State Fault Refusal :=
  s.config s.cur.site <|
  let l := s.cur.site
  let k := s.link l
  if !k.trained || k.vfEnable then .next s
  else
    let s1 := s.setLink l { k with vfEnable := true }
    .next ((s1.vfsAt l).foldl (fun s v => s.setVf v { s.vf v with enabled := true }) s1)

/-! Function-level reset (R55) -/

/-- Steps 1 to 4 (R55): nothing is fetched any more, the queues' state is discarded, and every node of the VF's
queues is aborted, its graph ending with STATUS 4 and CAUSE 8. -/
def State.functionReset (s : State) (v : Nat) : State :=
  let f := s.vf v
  if f.flrbusy then s
  else
    let s1 := s.setVf v { f with flrbusy := true, msix := { f.msix with pending := 0 } }
    let gs := (s.graphs.filter fun g => g.2.vf == v).map (·.1)
    let s2 := gs.foldl (fun s g => if (Tab.find s.graphs g).isSome then s.abortGraph g 4 8 else s) s1
    let x := s2.vf v
    let s3 := s2.setVf v { x with queues := x.queues.map fun q => (q.1, q.2.cleared) }
    { s3 with receipts := s3.receipts.filter fun r => r.vf != v }

/-- A function-level reset of a VF that exists (R55).  The focus names the VF. -/
def execFunctionLevelReset (s : State) : Outcome State Fault Refusal :=
  s.config (s.vf s.cur.site).link <|
  if (s.vf s.cur.site).enabled then .next (s.functionReset s.cur.site) else .next s

/-- A function-level reset of a link function resets every VF under it (R55). -/
def execLinkFunctionReset (s : State) : Outcome State Fault Refusal :=
  s.config s.cur.site <|
  .next ((s.vfsAt s.cur.site).foldl (fun s v => if (s.vf v).enabled then s.functionReset v else s) s)

/-- VF Enable is cleared (R55): each VF of the link is reset and no longer exists. -/
def execVfEnableClear (s : State) : Outcome State Fault Refusal :=
  s.config s.cur.site <|
  let l := s.cur.site
  let k := s.link l
  if !k.vfEnable then .next s
  else
    let s1 := s.setLink l { k with vfEnable := false }
    .next ((s1.vfsAt l).foldl
      (fun s v =>
        if !(s.vf v).enabled then s
        else
          let s2 := s.functionReset v
          s2.setVf v { s2.vf v with enabled := false })
      s1)

/-- The VF's writes have completed (R55 steps 4 and 5): its BAR is as at reset, FLRBUSY is 0 and vector 5
fires.  DEDUCED (log 76): its configuration words stay. -/
def execFlrCompletion (s : State) : Outcome State Fault Refusal :=
  let v := s.cur.site
  let f := s.vf v
  if !f.flrbusy || s.homeq.any HomeReq.dev then .next s
  else
    let qs := f.queues.map fun q => (q.1, { Queue.reset with nextNum := q.2.nextNum })
    .next ((s.setVf v { f with flrbusy := false, msix := Msix.reset, queues := qs }).pfIrq 5)

/-! Migration (R57 to R61) -/

/-- A migration command ends; its message follows the writes before it (R53, R58). -/
def State.migEnd (s : State) (v result : Nat) : State :=
  let f := s.vf v
  (s.setVf v { f with mig := { f.mig with busy := false, result := result } }).afterHome (.pfIrq 4)

/-- The queues of a mask. -/
def maskQueues (m : Nat) : List Nat := (List.range 16).filter fun q => m.testBit q

/-- QMASK of the command written last. -/
def Mig.qmask (m : Mig) : Nat := fld m.ctl 4 16

/-- A queue counts as quiesced (R58, R75). -/
def Queue.quiet (x : Queue) : Bool := x.st == 0 || x.st == 5 || (x.st == 6 && x.packets.isEmpty)

/-- QUIESCE ends when every queue it names has quiesced. -/
def State.checkQuiesce (s : State) (v : Nat) : State :=
  let f := s.vf v
  if f.mig.busy && (maskQueues f.mig.qmask).all fun q => (s.queue v q).quiet then
    (s.setVf v { f with quiesced := true }).migEnd v 0
  else s

/-- The canonical record of a queue (R60). -/
def Queue.record (x : Queue) (q time : Nat) : List Byte :=
  let st := if x.st = 6 then 2 else if x.st = 0 then 0 else 1
  let b (y : Bool) (k : Nat) : Nat := if y then 2 ^ k else 0
  leBytes 4 0x53515A4F ++ leBytes 2 1 ++ leBytes 1 q ++ leBytes 1 st ++ leBytes 8 x.base ++ leBytes 4 x.slots ++
    leBytes 4 (b x.loc 0 + b x.widxOn 1 + x.prio * 4 + x.vec * 16) ++ leBytes 4 x.readIdx ++ leBytes 4 x.widx ++
    leBytes 8 (if x.widxOn then x.widxAddr else 0) ++ leBytes 8 (x.statAddr + b x.sloc 0) ++ leBytes 2 x.lastSeq ++ leBytes 2 x.weight ++
    leBytes 4 0 ++ leBytes 8 (if st = 2 then x.err else 0) ++ leBytes 8 time ++ List.replicate 184 0

/-- A queue loaded from its record; none when the record breaks R60. -/
def queueFrom (r : List Byte) (q next : Nat) : Option Queue :=
  let st := numAt r 7 1
  let slots := numAt r 0x10 4
  let flags := numAt r 0x14 4
  let log2 := Nat.log2 slots
  let ok :=
    numAt r 0 4 == 0x53515A4F && numAt r 4 2 == 1 && numAt r 6 1 == q && decide (st ≤ 2) && decide (16 ≤ slots) &&
      decide (slots ≤ 65536) && slots == 2 ^ log2 && decide (numAt r 0x18 4 < slots) && decide (numAt r 0x1C 4 < slots) &&
      decide (fld flags 4 5 ≤ 29) && decide (flags < 512) && numAt r 0x32 2 != 0 && zeroAt r 0x34 4 && decide (numAt r 0x38 8 < 2 ^ 36) &&
      zeroAt r 0x48 184
  if ok then
    some { Queue.reset with
      base := numAt r 8 8 / 1024 * 1024, log2 := log2, vec := fld flags 4 5, prio := fld flags 2 2, widxOn := flags.testBit 1, loc := flags.testBit 0
      weight := numAt r 0x32 2, widxAddr := numAt r 0x20 8 / 8 * 8, statAddr := numAt r 0x28 8 / 64 * 64, sloc := numAt r 0x28 1 % 2 == 1
      readIdx := numAt r 0x18 4, widx := numAt r 0x1C 4, lastSeq := numAt r 0x30 2, st := if st = 0 then 0 else if st = 1 then 5 else 6
      err := if st = 2 then numAt r 0x38 8 else 0, nextNum := next }
  else none

/-- IMPORT of one queue: the state after it and the RESULT of its record: 0, 2 where it breaks R60, 3 where the
host fails its read (R57).  A record of STATE 0 is loaded and its queue stays disabled. -/
def State.importQueue (s : State) (v q : Nat) : State × Nat :=
  let a := (s.vf v).mig.xfer + q * 256
  if s.hostFails a 256 then (s, 3)
  else
    match queueFrom (Memory.bytes s.host a 256) q (s.queue v q).nextNum with
    | none => (s, 2)
    | some x =>
      let s1 := s.setQueue v q x
      (if x.st = 0 then s1 else s1.statusBlock v q, 0)

/-- A write of MIG_CTL with a command (R58); a VF that does not exist imports nothing (R48).  DEDUCED (log 75): one that is
written while BUSY is 1 does not change what MIG_CTL reads as. -/
def State.migCommand (s : State) (v qmask cmd : Nat) : State :=
  let f := s.vf v
  if f.mig.busy then s
  else
    let m : Mig := { f.mig with ctl := qmask % 65536 * 16 + cmd % 16 }
    let qs := maskQueues qmask
    let s0 := s.setVf v { f with mig := m }
    match cmd with
    | 1 => (s.setVf v { f with mig := { m with filter := [], logidx := 0, ovf := false, track := true } }).migEnd v 0
    | 2 => (s.setVf v { f with mig := { m with track := false } }).migEnd v 0
    | 3 =>
      let s1 := s.setVf v { f with mig := { m with busy := true }, quiesced := false }
      let stop (s : State) (q : Nat) : State :=
        let x := s.queue v q
        if x.st = 1 ∨ x.st = 2 ∨ x.st = 3 then (s.setQueue v q { x with turn := none, head := none }).queueState v q 4 else s
      (qs.foldl stop s1).checkQuiesce v
    | 4 =>
      if qs.all fun q => let x := s.queue v q; x.st = 0 || x.st = 5 || x.st = 6 then
        let put (s : State) (q : Nat) : State :=
          s.hostPut (m.xfer + q * 256) ((s.queue v q).record q s.time)
        (qs.foldl put s0).migEnd v (if qs.any fun q => s.hostFails (m.xfer + q * 256) 256 then 3 else 0)
      else s0.migEnd v 1
    | 5 =>
      if f.enabled && f.valid && qs.all fun q => (s.queue v q).st == 0 then
        let r := qs.foldl (fun (a : State × Nat) q => let y := a.1.importQueue v q; (y.1, max a.2 y.2)) (s0, 0)
        r.1.migEnd v r.2
      else s0.migEnd v 1
    | 6 =>
      let go (s : State) (q : Nat) : State :=
        let x := s.queue v q
        if x.st = 5 then (s.setQueue v q { x with reread := x.widxOn }).queueState v q x.awake else s
      (qs.foldl go s0).migEnd v 0
    | 7 => (s.setVf v { f with mig := { m with filter := [] } }).migEnd v 0
    | _ => s0.migEnd v 1

/-- TRACK_START (R58).  The focus of a migration command names the VF and QMASK. -/
def execMigTrackStart (s : State) : Outcome State Fault Refusal :=
  s.pfBar <| .next (s.migCommand s.cur.site s.cur.core 1)

/-- TRACK_STOP (R58). -/
def execMigTrackStop (s : State) : Outcome State Fault Refusal :=
  s.pfBar <| .next (s.migCommand s.cur.site s.cur.core 2)

/-- QUIESCE (R58, R75). -/
def execMigQuiesce (s : State) : Outcome State Fault Refusal :=
  s.pfBar <| .next (s.migCommand s.cur.site s.cur.core 3)

/-- EXPORT (R58, R60). -/
def execMigExport (s : State) : Outcome State Fault Refusal :=
  s.pfBar <| .next (s.migCommand s.cur.site s.cur.core 4)

/-- IMPORT (R58, R60). -/
def execMigImport (s : State) : Outcome State Fault Refusal :=
  s.pfBar <| .next (s.migCommand s.cur.site s.cur.core 5)

/-- RESUME (R58). -/
def execMigResume (s : State) : Outcome State Fault Refusal :=
  s.pfBar <| .next (s.migCommand s.cur.site s.cur.core 6)

/-- HARVEST (R58). -/
def execMigHarvest (s : State) : Outcome State Fault Refusal :=
  s.pfBar <| .next (s.migCommand s.cur.site s.cur.core 7)

/-- Every fetched packet of a quiescing queue has completed (R75); QUIESCED may set (R50).  The focus names VF and
queue. -/
def execQueueQuiesced (s : State) : Outcome State Fault Refusal :=
  let v := s.cur.site
  let x := s.queue v s.cur.core
  let s1 := if x.st = 4 ∧ x.packets.isEmpty then s.queueState v s.cur.core 5 else s
  .next (s1.checkQuiesce v)

end Sys2Proof.Machine
end

