-- ==== Sys2Proof/Machine/Package.lean ====
section
/-! DEFINITION. The package: resets and boot, health events and the discovery table's generation, UCIe modules,
peer ports and what peers do, scrubbing (01 R18 to R42, 05 R109, R113, 09 R223 to R226, 10 R245). -/

namespace Sys2Proof.Machine

open Host (Outcome)

/-! Resets (R38, R78) -/

/-- What follows a reset of any kind but a function-level one: the receipt counter at its next block (07 R169),
and what is outside the package. -/
def State.restart (s : State) (straps : Nat) (links : Tab HostLink) : State :=
  let k := s.pkg
  { State.fresh k.sku k.form straps (k.block + 1) k.keyed links s.host with
    inputs := s.inputs
    replies := s.replies
    hostBad := s.hostBad
    freeIdx := s.freeIdx
    sent := s.sent }

/-- Power-on (R38): the straps are sampled (02 R44). -/
def execColdReset (straps : Nat) (s : State) : Outcome State Fault Refusal := .next (s.restart (straps % 4) [])

/-- PERST# (R38). -/
def execWarmReset (straps : Nat) (s : State) : Outcome State Fault Refusal := .next (s.restart (straps % 4) [])

/-- Host links keep their training through a package reset, not their functions' configuration. -/
def HostLink.kept (k : HostLink) : HostLink := { HostLink.reset with trained := k.trained, cxl := k.cxl, width := k.width, rate := k.rate }

/-- Each enabled queue reports the reset as a fetch error before it is cleared (03 R78); a block in host memory is written
at once, whatever still waits at the homes that the reset clears. -/
def State.reportReset (s : State) : State :=
  s.vfs.foldl
    (fun s f =>
      f.2.queues.foldl
        (fun s x =>
          if x.2.st = 0 then s
          else
            let y : Queue := { x.2 with st := 6, err := 6 * 2 ^ 32 + x.2.readIdx, since := 0 }
            let s1 := s.setQueue f.1 x.1 y
            if f.2.flrbusy then s
            else if y.sloc then s1.capWrite f.2.part f.1 y.statAddr (y.block s.time)
            else s1.hostPut y.statAddr (y.block s.time))
        s)
    s

/-- A package reset (R38): the host links stay up. -/
def State.resetPackage (s : State) : State :=
  let s1 := s.reportReset
  s1.restart s1.pkg.straps (s1.links.map fun k => (k.1, k.2.kept))

/-- A write of PKG_RESET: 0xD5 starts a package reset (R38). -/
def execPackageReset (value : Nat) (s : State) : Outcome State Fault Refusal :=
  s.pfBar <|
  if value % 256 = 0xD5 then .next s.resetPackage else .next s

/-- A function-level reset of the PF performs a package reset (R38, 02 R55). -/
def execPfFunctionLevelReset (s : State) : Outcome State Fault Refusal :=
  s.config 0 <| .next s.resetPackage

/-! Boot (R39 to R41) -/

/-- The measurement before any image (R39). -/
def bootMeasure0 : List Byte := sha512 [0x44, 0x45, 0x58, 0x53, 0x4F, 0x4C, 0x2D, 0x42, 0x4F, 0x4F, 0x54]

/-- The measurement extended over image i (R39). -/
def bootExtend (m : List Byte) (i : Nat) (image : List Byte) : List Byte := sha512 (m ++ leBytes 1 i ++ sha512 image)

/-- The CAUSE with which the boot ROM stops at an image in a slot, 0 where it takes it (R39, R40): the key, a modulus in
big-endian bytes, has to be the fused one. -/
def imageCause (x : FlashImage) (key : List Byte) (slot : Nat) : Nat :=
  if !x.ok then 3
  else if beNum (sha512 key) ≠ Config.fuseKey.toNat ∨ !pssVerify (beNum key) x.bytes x.sig then 1
  else if x.version < Config.fuseMin slot then 2
  else 0

/-- The boot ROM goes through the images in order, each loaded, verified, compared and measured (R39; log 71): the
measurement as far as it got, and the image at which it stopped, with the CAUSE.  A missing image is a read error. -/
def bootImages (key : List Byte) : Nat → Nat → List Byte → List FlashImage → List Byte × Option (Nat × Nat)
  | 0, _, m, _ => (m, none)
  | _ + 1, i, m, [] => (m, some (i, 3))
  | n + 1, i, m, x :: xs =>
    if imageCause x key i = 0 then bootImages key n (i + 1) (bootExtend m i x.bytes) xs else (m, some (i, imageCause x key i))

/-- A module that has trained with a number of lanes (R29): none, 32 or 64. -/
def UcieModule.up (m : UcieModule) (lanes : Nat) : UcieModule :=
  if lanes = 0 then { m with state := 0, lanes := 0, rate := 0 }
  else { m with state := if lanes = 64 then 2 else 3, lanes := if lanes = 64 then 64 else 32, rate := 32 }

/-- Some module of a site is down or active-degraded (R19). -/
def Site.degraded (x : Site) : Bool := x.mods.any fun m => m.2.state == 0 || m.2.state == 3

/-- D2DDEG and STATE follow the modules (R19, R20). -/
def Site.moduled (x : Site) : Site := { x with d2ddeg := x.degraded, st := if x.degraded then max x.st 1 else x.st }

/-- A site as boot leaves it (R19, R20, R39): the lanes that its modules trained with, 64 where none is named; out of
service where its test failed or every module of it is down. -/
def Site.booted (x : Site) (k : Nat) (lanes : List (Nat × Nat × Nat)) (failed : Bool) : Site :=
  let n (m : Nat) : Nat := ((lanes.find? fun y => y.1 == k && y.2.1 == m).map (·.2.2)).getD 64
  let y := Site.moduled { x with mods := x.mods.map fun m => (m.1, m.2.up (n m.1)) }
  if y.cls ≠ 0 ∧ (failed ∨ (!y.mods.isEmpty && y.mods.all fun m => m.2.state == 0)) then { y with cls := 0, st := 2 } else y

/-- The extents of the MEM sites that a boot does not take into service are LOST (04 R93). -/
def State.bootLost (s : State) : State :=
  ((List.range 9).filter fun k => fittedClass s.pkg.sku k == 5 && !(s.site k).inService).foldl
    (fun s k => (List.range 384).foldl (fun s i => s.setExt ((k - 1) * 384 + i) { Extent.pool with st := 4 }) s) s

/-- HOSTCFG as the links stand at boot (R15, 02 R44). -/
def State.bootLinks (s : State) : Nat :=
  (if s.pkg.straps = 3 then 0 else s.pkg.straps) * 16 + (s.links.filter fun l => l.2.trained).length % 16

/-- The boot ROM's sequence (R39, R40): it stops at an image and leaves only the recovery mailbox, or at training
(test 4) or at the scheduler chiplet's self-test (test 5); otherwise the modules train, the chiplets are tested, the
table's GEN is 2, PHASE is 3, and a first boot generates the attestation key (R41).  images and key are what the flash
holds, found is what training and the tests find. -/
def execBootReady (images : List FlashImage) (key : List Byte) (found : BootTest) (s : State) : Outcome State Fault Refusal :=
  let k := s.pkg
  if k.phase = 3 ∨ k.cause ≠ 0 then .next s
  else
    let r := bootImages key 5 0 bootMeasure0 images
    match r.2 with
    | some (i, c) => .next ((s.setPkg { k with phase := 1, image := i, cause := c, meas := r.1 }).pfIrq 1)
    | none =>
      if found.cause = 4 ∨ found.cause = 5 then .next ((s.setPkg { k with phase := 2, image := 0xF, cause := found.cause, meas := r.1 }).pfIrq 1)
      else
        let s1 := s.setPkg { k with phase := 3, image := 0xF, cause := 0, meas := r.1, gen := 2, hostcfg := s.bootLinks, keyed := true }
        let s2 : State := { s1 with sites := s1.sites.map fun x => (x.1, x.2.booted x.1 found.lanes (found.failed.contains x.1)) }
        .next ((s2.bootLost).pfIrq 1)

/-- A configuration request before PHASE 3 (R41).  The focus names the link. -/
def execConfigRequestRetry (s : State) : Outcome State Fault Refusal :=
  if s.pkg.phase = 3 then .next s else .next (s.send (.configRetry s.cur.site))

/-! Health events (R18, R20, R21) -/

/-- The table changes (R18, R20, 06 R131): GEN is odd until the change is over, and waiting nodes choose their classes
anew. -/
def State.tableChanged (s : State) : State :=
  let k := s.pkg
  (s.setPkg { k with gen := oddGen k.gen }).rechoose

/-- The changes of a cycle are over: an odd GEN is even again and the package-health vector and every VF's vector 31 fire
(R18, R20, 02 R52); so is an odd VGEN (04 R80). -/
def State.settleGen (s : State) : State :=
  let k := s.pkg
  let s1 : State := { s with links := s.links.map fun l => (l.1, { l.2 with vgen := evenGen l.2.vgen }) }
  if k.gen.getLsbD 0 then ((s1.setPkg { k with gen := k.gen + 1 }).pfIrq 0).allVfIrq 31 else s1

/-- A cluster is retired (R20).  The focus names site and cluster. -/
def State.retireCluster (s : State) (site k : Nat) : State :=
  let x := s.site site
  if !x.inService || !x.clmask.testBit k then s
  else
    let s1 := s.setSite site { x with clmask := x.clmask - 2 ^ k, retcl := min 255 (x.retcl + 1), st := 1 }
    (s1.tableChanged).failSite site (some [k])

/-- A site goes out of service (R20): a compute chiplet's caches are gone, a MEM site's extents become LOST (04 R93). -/
def State.failChiplet (s : State) (site : Nat) : State :=
  let x := s.site site
  if !x.inService then s
  else
    let s1 := s.setSite site { x with cls := 0, st := 2 }
    let s2 := if x.cls = 5 then s1.siteLost site else s1.wipeSite site
    (s2.tableChanged).failSite site none

/-- The package stops and reports surprise link down to every host (R20): its links are down. -/
def State.stopPackage (s : State) : State :=
  s.links.foldl
    (fun s k => if k.2.trained then (s.send (.linkDown k.1)).setLink k.1 { k.2 with trained := false } else s) { s with stopped := true }

def execClusterRetire (s : State) : Outcome State Fault Refusal := .next (s.retireCluster s.cur.site s.cur.core)

/-- An uncorrectable error in a compute chiplet's shared logic (R20). -/
def execChipletSharedLogicFailure (s : State) : Outcome State Fault Refusal :=
  let c := (s.site s.cur.site).cls
  if 1 ≤ c ∧ c ≤ 4 then .next (s.failChiplet s.cur.site) else .next s

/-- A MEM chiplet loses a stack or its directory (R20). -/
def execMemChipletFailure (s : State) : Outcome State Fault Refusal :=
  if (s.site s.cur.site).cls = 5 then .next (s.failChiplet s.cur.site) else .next s

/-- Every module of a chiplet is down (R20). -/
def execAllUcieModulesDown (s : State) : Outcome State Fault Refusal :=
  let x := s.site s.cur.site
  if x.mods.isEmpty || x.mods.any fun m => m.2.state ≠ 0 then .next s
  else if x.cls = 6 then .next s.stopPackage
  else .next (s.failChiplet s.cur.site)

/-- SCH failure (R20). -/
def execSchFailure (s : State) : Outcome State Fault Refusal := .next s.stopPackage

/-! UCIe modules (R29 to R31) -/

/-- UCIe modules that are up (R16). -/
def Site.modulesUp (x : Site) : Nat := (x.mods.filter fun m => m.2.state == 2 || m.2.state == 3).length

/-- A module of a site; the focus of a module's event names site and module. -/
def State.module_ (s : State) : UcieModule := Tab.get UcieModule.reset (s.site s.cur.site).mods s.cur.core

/-- The site has a module of the focus. -/
def State.hasModule (s : State) : Bool := (Tab.find (s.site s.cur.site).mods s.cur.core).isSome

/-- A module changes; where D2DUP, D2DDEG or STATE of its site change with it, the table changes (R18 to R20). -/
def State.setModule (s : State) (m : UcieModule) : State :=
  let x := s.site s.cur.site
  let y := { x with mods := Tab.set x.mods s.cur.core m }.moduled
  let s1 := s.setSite s.cur.site y
  if x.modulesUp = y.modulesUp ∧ x.d2ddeg = y.d2ddeg ∧ x.st = y.st then s1 else s1.tableChanged

/-- A module starts to retrain. -/
def UcieModule.retraining (m : UcieModule) (t : Nat) : UcieModule := { m with state := 4, retrain := satAdd m.retrain 1, since := t }

/-- Active or active-degraded. -/
def UcieModule.works (m : UcieModule) : Bool := m.state == 2 || m.state == 3

/-- A lane fails (R31): a spare takes its place; without one the module retrains at 32 lanes. -/
def execUcieLaneFailure (s : State) : Outcome State Fault Refusal :=
  let m := s.module_
  if !s.hasModule || !m.works then .next s
  else if 0 < m.spare then .next (s.setModule { m with spare := m.spare - 1 })
  else .next (s.setModule { m.retraining s.time with lanes := 32 })

/-- Eight retry failures in a row on a flit (R31). -/
def execUcieRetrain (s : State) : Outcome State Fault Refusal :=
  let m := s.module_
  if s.hasModule && m.works then .next (s.setModule (m.retraining s.time)) else .next s

/-- Training or retraining ends with the module active, or active-degraded at 32 lanes (R31). -/
def execUcieRetrainComplete (lanes rate : Nat) (s : State) : Outcome State Fault Refusal :=
  let m := s.module_
  if !s.hasModule || !(m.state = 1 || m.state = 4) || (m.state = 4 && decide (m.since + 1250000 < s.time)) then .next s
  else
    let n := if lanes = 64 ∧ m.lanes ≠ 32 then 64 else 32
    let m1 := { m with state := if n = 64 then 2 else 3, lanes := n, rate := if rate = 16 then 16 else 32 }
    .next (s.setModule m1)

/-- The device addresses that a transfer still has bytes to read or write at: a decode's index table, its coded stream and
its destination, or the command's address (20 R486, R494); none once every byte has performed. -/
def Xfer.places (x : Xfer) : List Nat :=
  if x.cmd.total ≤ x.doneB then [] else if x.cmd.dec then [x.cmd.index, x.cmd.cslot * 2 ^ 48, x.cmd.maddr] else [x.cmd.maddr]

/-- Requests of an attempt that are on their way and reach or leave a chiplet: its cores' loads and its stage transfers,
from the chiplet's cores or to a chunk that it holds. -/
def State.requestsOver (s : State) (a site : Nat) : Nat :=
  let t := s.attempt a
  let holds (b : Nat) : Bool := (s.buf b).chunks.any fun c => c.2 / 2 ^ 40 == site
  let bound (addr : Nat) : Bool := match t.binds[slotOf addr - 0xFFE0]? with | some x => holds x.buf | none => false
  let loads := (s.coresOf a).filter fun id =>
    match (Tab.get Core.idle s.cores id).load with
    | some r => !r.arrived && (id / 128 == site || (match r.at_ with | .buf b _ => holds b | .args _ => false))
    | none => false
  let xfers := s.stage.flatMap fun q => q.2.filter fun x =>
    x.att == a && !x.places.isEmpty && (q.1 == site || x.places.any bound)
  loads.length + xfers.length

/-- Retraining does not end within 1 ms (R31): the module goes down.  While another module of the chiplet is not down the
link layer re-sends over it and nothing fails (R20, R28); with the last one, each request that was on its way counts in
D2D_FAIL and fails its node, and the chiplet is out of service (R20).  lost counts the requests of no node among them, such as
reads of the front end and what hosts ask: State holds none of these as on its way, so that their number is free (log 1). -/
def execUcieRetrainTimeout (lost : Nat) (s : State) : Outcome State Fault Refusal :=
  let m := s.module_
  if !s.hasModule || m.state ≠ 4 || decide (s.time < m.since + 1250000) then .next s
  else
    let down := { m with state := 0, lanes := 0, rate := 0 }
    let last := ((s.site s.cur.site).mods.filter fun y => y.1 != s.cur.core).all fun y => y.2.state == 0
    if !last then .next (s.setModule down)
    else
      let as := s.running.filter fun a => decide (0 < s.requestsOver a s.cur.site)
      let n := as.foldl (fun n a => n + s.requestsOver a s.cur.site) lost
      let s1 := s.setModule { down with fail := satAdd m.fail n }
      .next ((as.foldl (fun s a => s.raise s.cur (.attemptFailure a 7 0 0)) s1).raise s.cur .allUcieModulesDown)

/-- A flit with a CRC error is corrected by retry and counted (R29), or an error that a peer link corrected (R34).  The
focus names site and module, or 32 plus the peer port. -/
def execFlitCrcError (s : State) : Outcome State Fault Refusal :=
  if 32 ≤ s.cur.site then
    let p := s.cur.site - 32
    let x := s.port p
    if x.up && decide (p < 8) then .next (s.setPort p { x with corr := satAdd x.corr 1 }) else .next s
  else
    let m := s.module_
    if s.hasModule && m.works then .next (s.setModule { m with crc := satAdd m.crc 1 }) else .next s

/-! Peer ports (R32 to R34, 05 R109, R113, 10 R245) -/

/-- Requests of an attempt to a peer's buffers that are on their way. -/
def State.peerBusy (s : State) (a port : Nat) : Nat :=
  let t := s.attempt a
  let homed (b : Nat) : Bool := (s.buf b).peer == some port
  let bound (addr : Nat) : Bool := match t.binds[slotOf addr - 0xFFE0]? with | some x => homed x.buf | none => false
  let loads := (s.coresOf a).filter fun id =>
    match (Tab.get Core.idle s.cores id).load with
    | some r => !r.arrived && (match r.at_ with | .buf b _ => homed b | .args _ => false)
    | none => false
  let xfers := s.stage.flatMap fun q => q.2.filter fun x =>
    x.att == a && x.places.any bound
  loads.length + xfers.length

/-- A grant that waits for a peer ends: filled, or refused with queue error 0x5 (05 R109), which a partition that is not
resident takes when it is again (06 R149).  DESIGN CHOICE (log 81): the reference of one that is filled stays for the
peer's slot. -/
def State.endGrant (s : State) (g : PeerGrant) (ok : Bool) : State :=
  if ok then { s with grants := s.grants.filter (· != g) }.finishPacket g.vf g.q g.pkt 0
  else
    let s1 := s.dropRef g.buf
    if s1.resident (s1.partOf g.vf) then s1.refuseGrant g
    else { s1 with grants := s1.grants.map fun y => if y = g then { y with refused := true } else y }

/-- A peer link is lost (R33, 05 R113): what was on its way fails its nodes, each request counted (R34), and the
capabilities of buffers homed there are revoked.  The focus names the port. -/
def execPeerLinkLoss (s : State) : Outcome State Fault Refusal :=
  let p := s.cur.site
  let x := s.port p
  if x.state = 0 then .next s
  else
    let as := s.running.filter fun a => decide (0 < s.peerBusy a p)
    let n := as.foldl (fun n a => n + s.peerBusy a p) 0
    let s1 := s.setPort p { x with state := 0, lanes := 0, fail := satAdd x.fail n }
    let s2 := (Tab.keys s1.bufs).foldl (fun s b => if (s.buf b).peer = some p then s.revoke b else s) s1
    let s3 := (s2.grants.filter fun g => g.port == p && !g.refused).foldl (fun s g => s.endGrant g false) s2
    .next (as.foldl (fun s a => s.raise s.cur (.attemptFailure a 7 0 0)) s3)

/-- A peer port begins to train (no lanes), or to retrain when it was up; or it is up with 8 lanes or with 4 (R34). -/
def execPeerLinkTraining (lanes : Nat) (s : State) : Outcome State Fault Refusal :=
  let x := s.port s.cur.site
  if 8 ≤ s.cur.site then .next s
  else if lanes = 0 then
    .next (s.setPort s.cur.site
      (if x.up then { x with state := 4, retrain := satAdd x.retrain 1 } else if x.state = 4 then x else { x with state := 1, lanes := 0 }))
  else
    .next (s.setPort s.cur.site
      { x with
        state := if lanes = 8 then 2 else 3
        lanes := if lanes = 8 then 8 else 4
        retrain := if x.up then satAdd x.retrain 1 else x.retrain })

/-- A peer's access as it waits at the homes of its bytes. -/
def State.peerWho (s : State) : Actor := { s.cur with eng := 9 }

/-- A peer reaches n bytes of a buffer of this package, to read them or write them; an access that waits at the home since
before the buffer was revoked still does (04 R86). -/
def State.peerReach (s : State) (b off n : Nat) (wr : Bool) : Bool :=
  let u := s.buf b
  (Tab.find s.bufs b).isSome && (!u.revoked || s.placed (· == s.peerWho) wr (b, off, n)) && u.peer.isNone &&
    decide (off + n ≤ u.size) && !s.lostAt b off n

/-- Ask again in the next cycle: the access waits at the home of a lent line. -/
def State.peerLater (s : State) (wr : Bool) (x : Nat × Nat × Nat) (i : Instr) : State :=
  let s1 := s.waitHome s.peerWho wr [x]
  { s1 with inputs := s1.inputs ++ [(s.time + 1, s.peerWho, i)] }

/-- A stage transfer of a peer writes or reads bytes of a buffer of this package, at system scope (R32, R33). -/
def execPeerStageAccess (buf off len : Nat) (data : Option (List Byte)) (s : State) : Outcome State Fault Refusal :=
  let p := s.cur.site
  let n := match data with | some bs => bs.length | none => len
  if !(s.port p).up then .next s
  else if !s.peerReach buf off n data.isSome then .next (s.send (.peerAnswer p buf false))
  else
    match s.mapRange buf off n with
    | none => .next (s.send (.peerAnswer p buf false))
    | some s1 =>
      let wr := data.isSome
      let x := (buf, off, n)
      if !s1.homeTurn (· == s1.peerWho) wr [x] then .next (s1.peerLater wr x (.peerStageAccess buf off len data))
      else
        let s2 := s1.leaveHome (· == s1.peerWho) wr [x]
        match data with
        | some bs =>
          if (s2.buf buf).readOnly then .next (s2.send (.peerAnswer p buf false))
          else .next (((s2.writeBuf buf off bs).hostHit buf off n).send (.peerAnswer p buf true))
        | none =>
          if (s2.buf buf).badAt off n then .next (s2.send (.peerAnswer p buf false))
          else .next (s2.send (.peerData p buf off ((s2.buf buf).mem.bytes off n)))

/-- The operation of a remote atomic, by its number. -/
def amoOf (op : Nat) : AmoOp :=
  match op with
  | 0 => .add
  | 1 => .and_
  | 2 => .or_
  | 3 => .xor_
  | 4 => .min
  | 5 => .max
  | 6 => .minu
  | 7 => .maxu
  | 8 => .swap
  | _ => .cas

/-- A peer's atomic performs at the line's home (R33, 10 R245). -/
def execPeerRemoteAtomic (buf off n op arg expect : Nat) (s : State) : Outcome State Fault Refusal :=
  let p := s.cur.site
  if !(s.port p).up then .next s
  else if !s.peerReach buf off n true || (s.buf buf).readOnly || (s.buf buf).badAt off n || !(n = 4 || n = 8) || off % n ≠ 0 then
    .next (s.send (.peerAnswer p buf false))
  else
    match s.mapRange buf off n with
    | none => .next (s.send (.peerAnswer p buf false))
    | some s1 =>
      let x := (buf, off, n)
      if !s1.homeTurn (· == s1.peerWho) true [x] then .next (s1.peerLater true x (.peerRemoteAtomic buf off n op arg expect))
      else
        let old := (s1.buf buf).mem.nat off n
        let s2 := (s1.leaveHome (· == s1.peerWho) true [x]).send (.peerData p buf off (leBytes n old))
        match (amoOf op).new n old arg expect with
        | some v => .next ((s2.writeBuf buf off (leBytes n v)).hostHit buf off n)
        | none => .next s2

/-- A peer grants a capability of its buffer (05 R109): it fills the slot, or is refused. -/
def execPeerGrantRequest (part slot rights size attr : Nat) (big : Bool) (s : State) : Outcome State Fault Refusal :=
  let p := s.cur.site
  let ok := (s.port p).up && s.bound part && decide (part < 64) && decide (slot < 0xFFE0) && (s.cap part slot).isNone &&
    decide (1 ≤ rights) && decide (rights ≤ 3) && decide (1 ≤ size) && decide (size < 2 ^ 48)
  if !ok then .next (s.send (.peerAnswer p slot false))
  else
    let r := s.newBuf size (attr % 2 ^ 13) big
    let s1 := r.2.setBuf r.1 { r.2.buf r.1 with peer := some p }
    .next ((s1.setCap part slot (.cap r.1 (rights % 2 == 1) (decide (2 ≤ rights)))).send (.peerAnswer p slot true))

/-- A peer answers a grant (05 R109).  The focus names the port and the grant's place among those pending. -/
def execPeerGrantResponse (ok : Bool) (s : State) : Outcome State Fault Refusal :=
  match s.grants[s.cur.core]? with
  | none => .next s
  | some g => if g.port = s.cur.site ∧ g.refused = false then .next (s.endGrant g ok) else .next s

/-! Host links (02 R43 to R45, 04 R87) -/

/-- Links of the package's bifurcation (02 R44). -/
def linkCount (straps : Nat) : Nat := if straps = 1 then 2 else if straps = 2 then 4 else 1

/-- The lanes of a link under the bifurcation (02 R44). -/
def linkLanes (straps : Nat) : Nat := if straps = 1 then 8 else if straps = 2 then 4 else 16

/-- A width and a rate, in tenths of a GT/s, that a link supports (02 R43). -/
def linkOk (straps width rate : Nat) : Bool :=
  [16, 8, 4, 2, 1].contains width && decide (width ≤ linkLanes straps) && [1280, 640, 320, 160, 80, 50, 25].contains rate

/-- A host link trains, as PCI Express or with CXL (02 R43, R44), or does not: one that was up is down then (04 R87).  Link 0 has to train before the boot is
over: after that only a reset trains it (02 R45); once it has, it may train again. -/
def execHostLinkTraining (up cxl : Bool) (width rate : Nat) (s : State) : Outcome State Fault Refusal :=
  let l := s.cur.site
  let k := s.link l
  if linkCount s.pkg.straps ≤ l ∨ (up ∧ !linkOk s.pkg.straps width rate) ∨ (l = 0 ∧ s.pkg.phase = 3 ∧ k.width = 0) then .next s
  else if up then .next (s.setLink l { k with trained := true, cxl := cxl, width := width, rate := rate })
  else if k.trained then .next ((s.setLink l { k with trained := false, cxl := false }).setIso (s.pkg.iso ||| 2 ^ (l % 4)))
  else .next (s.setLink l { k with cxl := false })

/-- A host link goes down or enters containment (04 R87). -/
def execHostLinkDown (s : State) : Outcome State Fault Refusal :=
  let l := s.cur.site
  let k := s.link l
  .next ((s.setLink l { k with trained := false }).setIso (s.pkg.iso ||| 2 ^ (l % 4)))

/-! Soft errors (09 R223 to R226) -/

/-- What the code of a structure makes of an error (R223): of flipped bits of a SECDED word, or of 16-bit symbols of a
64-byte access in error, one is corrected and two are detected; nothing is said of more (log 70). -/
inductive EccResult
  | none
  | corrected
  | detected
  deriving DecidableEq, Repr

def eccOf (n : Nat) : EccResult := if n = 0 then .none else if n = 1 then .corrected else .detected

/-- The site in which storage lies. -/
def errSite (s : State) (e : ErrAt) : Nat :=
  match e with
  | .hbm b a => s.pa b (64 * a) / 2 ^ 40
  | .l1 c _ => c / 32
  | .l2 k _ => k
  | .job k _ => k

/-- A correctable error is corrected where it lies and counts towards ECCHI (R224, 01 R19). -/
def State.corrected (s : State) (site : Nat) : State :=
  let x := s.site site
  let y := { x with fixed := x.fixed + 1, ecchi := x.ecchi || decide (Config.eccLimit < x.fixed + 1) }
  let s1 := s.setSite site y
  if x.ecchi = y.ecchi then s1 else s1.tableChanged

/-- Attempts of a chiplet that hold a write binding to a buffer fail: its dirty bytes were lost there (R225). -/
def State.failWriters (s : State) (site b : Nat) : State :=
  (s.running.filter fun a =>
      let t := s.attempt a
      t.insts.any (fun i => i.site == site) && t.binds.any fun x => x.buf == b && x.w).foldl
    (fun s a => s.raise s.cur (.attemptFailure a 3 0 0)) s

/-- An uncorrectable error (R225): one in a 64-byte access of HBM is logged, and the access stays so until a write covers it; a clean line is discarded and
fetched again; a dirty one is discarded and fails the writers of its chiplet; one that a job reads fails its attempt. -/
def State.detected (s : State) (e : ErrAt) : State :=
  match e with
  | .hbm b a =>
    let u := s.buf b
    if (Tab.find s.bufs b).isNone || u.bad.contains a || decide (u.size ≤ a * 64) then s
    else { s.setBuf b { u with bad := u.bad ++ [a] } with scrubLog := s.scrubLog ++ [(s.time, b, a)] }
  | .l1 c key =>
    (match s.line1 c key with
      | none => s
      | some l => let s1 := s.erase1 c key; if l.dirty = 0 then s1 else s1.failWriters (c / 32) (keyBuf key))
  | .l2 k key =>
    (match s.line2 k key with
      | none => s
      | some l => let s1 := s.erase2 k key; if l.dirty = 0 then s1 else s1.failWriters k (keyBuf key))
  | .job k c =>
    match (Tab.get Core.idle s.cores (k * 128 + c)).job with
    | some j => s.raise s.cur (.attemptFailure j.att 3 0 0)
    | none => s

/-- Soft errors are found, by the patrol scrub or by the access that meets them (R223 to R225): where, and how many bits
of a SECDED word or symbols of a 64-byte access are wrong. -/
def execPatrolScrub (found : List (ErrAt × Nat)) (s : State) : Outcome State Fault Refusal :=
  .next (found.foldl
    (fun s x =>
      match eccOf x.2 with
      | .none => s
      | .corrected => s.corrected (errSite s x.1)
      | .detected => s.detected x.1)
    s)

/-- Firmware tests a location again (R226): an error that recurs is a hard fault of a cluster (kind 0), of a
chiplet (kind 1 and others; the scheduler chiplet's stops the package, 01 R20), and one that does not recur is soft.  Kind 3 is a rate of corrected errors above
the firmware's threshold (01 R19).  The focus names site and cluster. -/
def execFirmwareRetest (kind : Nat) (recurs : Bool) (s : State) : Outcome State Fault Refusal :=
  let k := s.cur.site
  let x := s.site k
  if !recurs then .next s
  else
    match kind with
    | 0 => .next (s.retireCluster k s.cur.core)
    | 3 => if x.inService then .next (s.setSite k { x with ecchi := true }).tableChanged else .next s
    | _ => if x.cls = 6 then .next s.stopPackage else .next (s.failChiplet k)

end Sys2Proof.Machine
end

