-- ==== Sys2Proof/Machine/Profile.lean ====
section
/-! DEFINITION. Sampling, counters, the rings' registers, the debugger and imprecise watchpoint stops
(14 R311 to R335). -/

namespace Sys2Proof.Machine

open Host (Outcome)

/-! PROF_CTL and the rings (R311, R312, R315) -/

/-- Zero the counters and both drop counts (R312). -/
def Partition.clear (p : Partition) : Partition :=
  { p with counters := [], sring := { p.sring with drop := 0 }, ering := { p.ering with drop := 0 } }

/-- PROF_CTL as a write leaves it (R312). -/
def profAfter (old : Word) (v : Nat) : Word :=
  let per := if fld v 20 4 = 15 then fld old.toNat 20 4 else fld v 20 4
  BitVec.ofNat 32 (fld v 24 5 * 2 ^ 24 + per * 2 ^ 20 + fld v 8 9 * 2 ^ 8 + fld v 0 3)

/-- PROF_CTL is written (R311, R312).  The focus names the VF that writes. -/
def execProfCtlWrite (v : Nat) (s : State) : Outcome State Fault Refusal :=
  s.vfBar s.cur.site <|
  let f := s.vf s.cur.site
  if !f.valid then .next s
  else
    let p := s.partn f.part
    let q : Partition := { p with prof := profAfter p.prof v, owner := some s.cur.site }
    .next (s.setPart f.part (if v.testBit 31 then q.clear else q))

/-- The effect of CLR alone (R312).  The focus names the VF. -/
def execProfCtlClr (s : State) : Outcome State Fault Refusal :=
  s.vfBar s.cur.site <|
  let f := s.vf s.cur.site
  if !f.valid then .next s else .next (s.setPart f.part (s.partn f.part).clear)

/-- BASE with LOC, or LOG2SLOTS, of a ring is written while the ring is off (R315): records that still wait at their homes
belong to the ring as it was (R316). -/
def Ring.configure (r : Ring) (off v : Nat) : Ring :=
  if off = 0 then { r with base := v % 2 ^ 64 / 64 * 64, loc := v.testBit 0, widx := 0, ridx := 0, pend := 0, gen := r.gen + 1 }
  else if off = 8 ∧ 8 ≤ v % 32 ∧ v % 32 ≤ 20 then { r with log2 := v % 32, widx := 0, ridx := 0, pend := 0, gen := r.gen + 1 }
  else r

/-- A ring's BASE or LOG2SLOTS is written: ring 0 is the sample ring, ring 1 the event ring (R315).  The focus
names the VF. -/
def execRingConfigWrite (ring off v : Nat) (s : State) : Outcome State Fault Refusal :=
  s.vfBar s.cur.site <|
  let f := s.vf s.cur.site
  let p := s.partn f.part
  if !f.valid then .next s
  else if ring = 0 then
    if p.sampOn then .next s else .next (s.setPart f.part { p with sring := p.sring.configure off v })
  else if ring = 1 then
    if p.evOn then .next s else .next (s.setPart f.part { p with ering := p.ering.configure off v })
  else .next s

/-! Sampling (R313, R314) -/

/-- The sample period of a partition (R312). -/
def Partition.period (p : Partition) : Nat := 2 ^ (10 + fld p.prof.toNat 20 4)

/-- The SSTREAMS bit of an engine (R312). -/
def sampleBit (eng : Nat) : Nat :=
  match eng with
  | 0 => 24
  | 1 => 25
  | 4 => 27
  | 5 => 28
  | _ => 26

/-- A sample record of a stream of the core in focus, its CLASS and OBJ zero (R314). -/
def State.sampleOf (s : State) (eng : Nat) (t : Stream) : List Byte :=
  let l := s.core.loops.head?
  leBytes 8 s.time ++ leBytes 4 t.pc ++ leBytes 4 ((l.map (·.iter)).getD 0) ++ leBytes 4 s.att.key.toNat ++
    leBytes 1 s.cur.site ++ leBytes 1 s.cur.core ++ leBytes 1 eng ++ leBytes 2 0 ++ leBytes 1 ((l.map (·.id)).getD 0) ++
    leBytes 1 ((l.map (·.mask)).getD 0) ++ leBytes 1 s.core.loops.length ++
    leBytes 4 (if eng = 2 ∨ eng = 7 then t.ncmd - 1 else 0)

/-- At the start of a sampled cycle the core in focus keeps what its samples will hold (R313, R314). -/
def State.captureSamples (s : State) : State :=
  let p := s.partn s.att.part
  let c := s.core
  if p.sampOn && s.inst.gclk != 0 && s.inst.gclk % p.period == 0 then
    s.setCore { c with
      samp := (c.live.filter fun x => p.prof.getLsbD (sampleBit x.1)).map fun x => s.sampleOf x.1 x.2 }
  else s

/-- The stall class and object of an engine's stream in the cycle that ends (R201, R313). -/
def Core.stallOf (c : Core) (eng : Nat) : Nat :=
  if c.halted && !c.step then 0x3F3 else if c.frozen then 0x3F2 else (Tab.get Stream.absent c.streams eng).stall.toNat

/-- A captured record with its CLASS and OBJ. -/
def Core.sampled (c : Core) (r : List Byte) : List Byte :=
  let w := c.stallOf (r.getD 0x16 0).toNat
  r.take 0x17 ++ leBytes 1 (w / 256) ++ leBytes 1 (w % 256) ++ r.drop 0x19

/-- The samples of a core's cycle take the classes that the cycle gave its streams, and their writing is due (R313). -/
def State.raiseSamples (s : State) : State :=
  let c := s.core
  if c.samp.isEmpty then s else (s.setCore { c with samp := c.samp.map c.sampled }).raise s.cur .pcSample

/-- The samples of a core's cycle are written (R313, R314).  The focus names the core. -/
def execPcSample (s : State) : Outcome State Fault Refusal :=
  let c := s.core
  .next (c.samp.foldl (fun s r => s.samplePut s.att.part r) (s.setCore { c with samp := [] }))

/-! Counters (R321) -/

/-- Every 1,048,576 cycles each core of a running attempt adds its counts to its partition's totals (R321).  The shared
units keep counters 96 to 111 where they count (Cache.lean). -/
def execCounterFlush (s : State) : Outcome State Fault Refusal :=
  let flush (s : State) (a : Nat) : State := (s.coresOf a).foldl (fun s id => s.flushCore (s.attempt a).part id) s
  .next (s.running.foldl flush s)

/-! The debugger (R326 to R331) -/

/-- A core leaves a debug halt: it runs on unless a trap of it still waits (R300). -/
def Core.leaveHalt (c : Core) : Core := { c with halted := false, step := false, frozen := !c.traps.isEmpty }

/-- Every core of a partition in debug halt resumes (R327). -/
def State.resumeAll (s : State) (p : Nat) : State :=
  { s with
    cores := s.cores.map fun x =>
      match x.2.job with
      | some j => if (s.attempt j.att).part = p && x.2.halted then (x.1, x.2.leaveHalt) else x
      | none => x }

/-- Where a change of ATTACH or P_DBGEN detached the debugger, the halted cores resume (R327). -/
def State.detached (s : State) (p : Nat) : State := if s.attached p then s else s.resumeAll p

/-- DBG_CTL is written (R327, R328).  The focus names the VF. -/
def execDebugAttachWrite (v : Nat) (s : State) : Outcome State Fault Refusal :=
  s.vfBar s.cur.site <|
  let f := s.vf s.cur.site
  let p := s.partn f.part
  if !f.valid then .next s
  else
    let a := v.testBit 0
    let q : Partition := { p with attach := a, nobudget := v.testBit 1, nstop := if a && !p.attach then 0 else p.nstop }
    .next ((s.setPart f.part q).detached f.part)

/-- P_DBGEN of the partition PSEL names is written by the PF (R326, R327). -/
def execPDbgenWrite (v : Nat) (s : State) : Outcome State Fault Refusal :=
  s.config 0 <|
  let k := s.pkg.psel
  let p := s.partn k
  .next ((s.setPart k { p with dbgen := v.testBit 0 }).detached k)

/-- The engine identifiers that class 3 of ITEM takes (R330). -/
def pcEngine (n : Nat) : Bool := n == 0 || n == 1 || n == 2 || n == 4 || n == 5 || n == 7

/-- READ of a state item of the core in focus; none for a bad item (R330). -/
def State.readItem (s : State) (item : Nat) : Option Nat :=
  let c := s.core
  let n := item % 2 ^ 28
  match item / 2 ^ 28 with
  | 0 => if n < 64 then some (s.sreg (BitVec.ofNat 6 n)).toNat else none
  | 1 => if n < 8 then some (s.ireg (BitVec.ofNat 3 n)) else none
  | 2 => if n < 192 then some ((s.preg (n / 16)).extractLsb' (64 * (n % 16)) 64).toNat else none
  | 3 => if pcEngine n then some (Tab.get Stream.absent c.streams n).pc else none
  | 4 => if n < 2 ^ 18 then some ((c.vrow (n / 64)).extractLsb' (32 * (n % 64)) 32).toNat else none
  | 5 => if n < 2 ^ 16 then some ((Tab.get 0 c.acc (n / 128)).extractLsb' (32 * (n % 128)) 32).toNat else none
  | 6 => (s.sysReg n).map (·.toNat)
  | 7 => if n < 64 ∧ n % 32 ≠ 0 then some (Tab.get 0 c.x ((4 + n / 32) * 32 + n % 32)).toNat else none
  | _ => none

/-- w bits of a row from bit lo on replaced. -/
def putBits (r : BitVec k) (lo w v : Nat) : BitVec k :=
  (r &&& ~~~(BitVec.ofNat k (2 ^ w - 1) <<< lo)) ||| (BitVec.ofNat k (v % 2 ^ w) <<< lo)

/-- WRITE of a state item; none for a bad item or a system register (R330). -/
def Core.writeItem (c : Core) (item v : Nat) : Option Core :=
  let n := item % 2 ^ 28
  match item / 2 ^ 28 with
  | 0 => if n < 64 then some (if n = 0 then c else { c with s := Tab.set c.s n (BitVec.ofNat 32 v) }) else none
  | 1 => if n < 8 then some (if n = 0 then c else { c with ix := Tab.set c.ix n (BitVec.ofNat 12 v) }) else none
  | 2 => if n < 192 then some { c with p := Tab.upd 0 c.p (n / 16) fun r => putBits r (64 * (n % 16)) 64 v } else none
  | 3 =>
    if pcEngine n then
      some { c with streams := Tab.upd Stream.absent c.streams n fun t => { t with pc := v % 2 ^ 32 } }
    else none
  | 4 => if n < 2 ^ 18 then some { c with v := Tab.upd 0 c.v (n / 64) fun r => putBits r (32 * (n % 64)) 32 v } else none
  | 5 =>
    if n < 2 ^ 16 then some { c with acc := Tab.upd 0 c.acc (n / 128) fun r => putBits r (32 * (n % 128)) 32 v } else none
  | 7 =>
    if n < 64 ∧ n % 32 ≠ 0 then some { c with x := Tab.set c.x ((4 + n / 32) * 32 + n % 32) (BitVec.ofNat 32 v) } else none
  | _ => none

/-- What a debug command does to the core in focus: the core, the DATA it leaves and the RESULT, after the
checks that its partition passed (R328, R329).  A job that has stopped at a yield runs no more (13 R310). -/
def State.debugOn (s : State) (p cmd item : Nat) : State × Nat :=
  let c := s.core
  if c.job.isNone || s.att.part != p || (c.done && !c.live.isEmpty) then (s, 1)
  else if cmd = 1 then
    if c.halted then (s, 0) else (s.debugStop (s.plainRec 0 0 0 (Tab.get Stream.absent c.streams 0).pc) false, 0)
  else if !c.halted then (s, 2)
  else
    match cmd with
    | 2 => (s.setCore c.leaveHalt, 0)
    | 3 => (s.setCore { c with step := true }, 0)
    | 4 =>
      match s.readItem item with
      | none => (s, 4)
      | some v =>
        let t := s.partn p
        (s.setPart p { t with dbgdata := BitVec.ofNat 64 v }, 0)
    | _ =>
      if s.att.meas.isSome then (s, 3)
      else
        match c.writeItem item (s.partn p).dbgdata.toNat with
        | none => (s, 4)
        | some c1 => (s.setCore c1, 0)

/-- A command of a partition's debugger runs (R328: BUSY): the core of a STEP has not run its cycle yet. -/
def State.dbgBusy (s : State) (p : Nat) : Bool :=
  let w := (s.partn p).dbgcmd.toNat
  w % 16 == 3 && (Tab.get Core.idle s.cores (fld w 24 8 * 128 + fld w 16 8)).step

/-- A write of the debug command register by a VF; without effect while a command runs (R328). -/
def State.debugCommand (s : State) (v w : Nat) : State :=
  let f := s.vf v
  if !f.valid || s.dbgBusy f.part then s
  else
    let p := s.partn f.part
    let s1 := s.setPart f.part { p with dbgcmd := BitVec.ofNat 64 (w / 65536 * 65536 + w % 16) }
    let cmd := w % 16
    let r : State × Nat :=
      if cmd = 0 ∨ 5 < cmd then (s1, 4)
      else if !s1.attached f.part then (s1, 5)
      else
        let x := State.debugOn { s1 with cur := ⟨fld w 24 8, fld w 16 8, 0⟩ } f.part cmd (fld w 32 32)
        ({ x.1 with cur := s.cur }, x.2)
    let q := r.1.partn f.part
    r.1.setPart f.part { q with dbgres := r.2 }

/-- HALT (R329).  The focus of a debug command names the VF, and its core number is the 64 bits written, whose
CMD field the command replaces. -/
def execDebugHalt (s : State) : Outcome State Fault Refusal :=
  s.vfBar s.cur.site <| .next (s.debugCommand s.cur.site (s.cur.core / 16 * 16 + 1))

/-- RESUME (R329). -/
def execDebugResume (s : State) : Outcome State Fault Refusal :=
  s.vfBar s.cur.site <| .next (s.debugCommand s.cur.site (s.cur.core / 16 * 16 + 2))

/-- STEP (R329): the core runs its next core cycle and is halted again. -/
def execDebugStep (s : State) : Outcome State Fault Refusal :=
  s.vfBar s.cur.site <| .next (s.debugCommand s.cur.site (s.cur.core / 16 * 16 + 3))

/-- READ (R329, R330). -/
def execDebugRead (s : State) : Outcome State Fault Refusal :=
  s.vfBar s.cur.site <| .next (s.debugCommand s.cur.site (s.cur.core / 16 * 16 + 4))

/-- WRITE (R329, R330). -/
def execDebugWrite (s : State) : Outcome State Fault Refusal :=
  s.vfBar s.cur.site <| .next (s.debugCommand s.cur.site (s.cur.core / 16 * 16 + 5))

/-- A core is frozen, and no STEP is to run its next cycle. -/
def Core.stands (c : Core) : Bool := c.frozen && !(c.halted && c.step && c.traps.isEmpty)

/-- The control stream of the core in focus stops for a stage or host write that hit a watchpoint (R334); one that has
ended, or whose job has stopped at a yield, takes no stop (13 R310). -/
def execWatchpointImpreciseStop (s : State) : Outcome State Fault Refusal :=
  let c := s.core
  match c.hits with
  | [] => .next s
  | h :: rest =>
    let t := Tab.get Stream.absent c.streams 0
    let s1 := s.setCore { c with hits := rest }
    if c.job.isNone || c.done || t.ended || !s.attached s.att.part then .next s1
    else if c.stands then .next s
    else
      let r := s.trapRec ⟨0x17, h.num, h.eng, t.pc, 0, 0, h.addr, none, none⟩ false (s.wordAt 0 t.pc)
      .next (s1.debugStop { r with prec := false } false)

end Sys2Proof.Machine
end

