-- ==== Sys2Proof/Machine/RegRead.lean ====
section
/-! DEFINITION. What every register reads as: the discovery table, the PF's and the VFs' register blocks, the
extent table and extent view, and the Farxus DVSECs (01 R14 to R40, 02 R47 to R58, 03 R62, 04 R80 to R87, 06
R125, 07 R170, 11 R249, 14 R311 to R332). -/

namespace Sys2Proof.Machine

/-- The low and high words of a 64-bit register at an even and an odd word offset. -/
def half (v off : Nat) : Nat := if off % 8 = 0 then v % 2 ^ 32 else v / 2 ^ 32 % 2 ^ 32

/-- The value of a register address of four bytes as a word. -/
def wordOf (n : Nat) : Word := BitVec.ofNat 32 n

/-! The discovery table (R14 to R19) -/

/-- CAPS of a class (R17). -/
def classCaps (cls : Nat) : Nat :=
  match cls with
  | 1 => 0x6D
  | 2 => 0x6F
  | 3 => 0x48
  | 4 => 0x58
  | 5 => 0x380
  | 6 => 0xC00
  | _ => 0

/-- The class-dependent words of a class (R16). -/
def classWord (cls k : Nat) : Nat :=
  if cls = 0 ∨ 6 < cls ∨ 2 < k then 0
  else if cls ≤ 4 then [64, 256, 16].getD k 0
  else if cls = 5 then [2, 98304, 384].getD k 0
  else [4, 1024, 8192].getD k 0

/-- HEALTH (R19). -/
def Site.health (x : Site) : Nat :=
  min x.retcl 255 * 256 + (if x.ecchi then 32 else 0) + (if x.d2ddeg then 16 else 0) + x.st

/-- A site out of service reports class 0 and no cores (R20). -/
def Site.shown (x : Site) : Nat := if x.inService then x.cls else 0

/-- A word of a site's entry (R16); CLMASK, CAPS and the class-dependent words of a failed site read as those of an empty
one (log 72). -/
def Site.entry (x : Site) (k off : Nat) : Nat :=
  let c := x.shown
  match off with
  | 0x00 => k + c * 256 + x.cores * 65536
  | 0x04 => if c = 0 ∨ 4 < c then 0 else x.clmask % 2 ^ 24
  | 0x08 => classCaps c
  | 0x0C => x.health + x.modulesUp * 65536 + x.mods.length * 2 ^ 24
  | 0x10 => classWord c 0
  | 0x14 => classWord c 1
  | 0x18 => classWord c 2
  | _ => 0

/-- A word of the discovery table (R15, R16). -/
def State.discovery (s : State) (off : Nat) : Nat :=
  if 0x40 ≤ off then if off < 0x340 then (s.site ((off - 0x40) / 32)).entry ((off - 0x40) / 32) ((off - 0x40) % 32) else 0
  else
    match off with
    | 0x00 => 0x54445A4F
    | 0x04 => 1 + 24 * 2 ^ 16 + 32 * 2 ^ 24
    | 0x08 => s.pkg.gen.toNat
    | 0x0C => s.pkg.sku + s.pkg.form * 2 ^ 8 + 0xFF * 2 ^ 16 + s.pkg.hostcfg * 2 ^ 24
    | 0x10 => 1250
    | 0x14 => 64
    | 0x18 => 384
    | _ => 0

/-! The package register block (02 R47) -/

/-- A word of an MSI-X table (log 4). -/
def Msix.word (m : Msix) (off : Nat) : Nat :=
  let e := Tab.get MsixEntry.reset m.table (off / 16)
  match off % 16 with
  | 0 => e.addr % 2 ^ 32
  | 4 => e.addr / 2 ^ 32
  | 8 => e.data.toNat
  | _ => if e.mask then 1 else 0

/-- A word of a UCIe module's status group (R29). -/
def UcieModule.word (m : UcieModule) (off : Nat) : Nat :=
  match off with
  | 0 => m.state * 2 ^ 24 + m.lanes * 2 ^ 16 + m.spare * 2 ^ 8 + m.rate
  | 4 => m.crc.toNat
  | 8 => m.retrain.toNat
  | _ => m.fail.toNat

/-- A word of a peer port's status group (R34). -/
def PeerPort.word (p : PeerPort) (off : Nat) : Nat :=
  match off with
  | 0 => p.state * 2 ^ 24 + p.lanes * 2 ^ 16
  | 4 => p.corr.toNat
  | 8 => p.retrain.toNat
  | 0xC => p.fail.toNat
  | _ => 0

/-- A word of a VF control group (02 R48, R50, R54, R57). -/
def Vf.control (f : Vf) (off : Nat) : Nat :=
  let b (x : Bool) (k : Nat) : Nat := if x then 2 ^ k else 0
  let m := f.mig
  match off with
  | 0x00 => b f.valid 31 + f.link * 2 ^ 22 + f.part
  | 0x04 => f.ways
  | 0x08 => b f.binderr 4 + b f.flrbusy 3 + b f.quiesced 2 + b f.enabled 1 + b f.valid 0
  | 0x10 => m.ctl
  | 0x14 => b m.busy 31 + m.result * 256 + b m.ovf 0
  | 0x18 => half m.log 0
  | 0x1C => half m.log 4
  | 0x20 => m.logsz
  | 0x24 => m.logidx
  | 0x28 => half m.xfer 0
  | 0x2C => half m.xfer 4
  | 0x30 => m.logrd
  | _ => 0

/-- A word of the PF's BAR0 (02 R47); after a boot that failed only BOOT_STAT and BOOT_MEAS stand beside the recovery
mailbox (01 R40; log 71). -/
def State.pfWord (s : State) (off : Nat) : Nat :=
  let k := s.pkg
  if k.cause ≠ 0 ∧ off ≠ 0x1010 ∧ !(0x1040 ≤ off ∧ off < 0x1080) then 0
  else if off < 0x340 then s.discovery off
  else if off = 0x1000 ∨ off = 0x1004 then half s.time off
  else if off = 0x1010 then k.image * 2 ^ 12 + k.cause * 2 ^ 8 + k.phase
  else if 0x1040 ≤ off ∧ off < 0x1080 then leNat ((k.meas.drop (off - 0x1040)).take 4)
  else if 0x2000 ≤ off ∧ off < 0x5000 then
    match Tab.find (s.site ((off - 0x2000) / 0x200)).mods ((off - 0x2000) % 0x200 / 16) with
    | some m => m.word (off % 16)
    | none => 0
  else if 0x6000 ≤ off ∧ off < 0x6100 then (s.port ((off - 0x6000) / 32)).word (off % 32)
  else if 0x10000 ≤ off ∧ off < 0x16000 then (s.vf ((off - 0x10000) / 64)).control (off % 64)
  else if 0x20000 ≤ off ∧ off < 0x20080 then s.pfMsix.word (off - 0x20000)
  else if off = 0x20800 then s.pfMsix.pending
  else 0

/-! The PF's BAR2 (04 R82 to R87) -/

/-- Directory entries of an extent that hosts hold (R84). -/
def State.heldLines (s : State) (e : Nat) : Nat := (s.lines.filter fun l => lineExt l.1 == e && l.2.mask != 0).length

/-- An extent table entry (R84). -/
def State.extEntry (s : State) (e : Nat) : Nat :=
  let x := s.ext e
  min (s.heldLines e) 0xFFFFFFFF * 2 ^ 32 + x.slot * 2 ^ 16 + x.owner * 2 ^ 8 + x.links * 16 + x.st

/-- A word of a CXL RAS capability structure that nothing has changed (CXL 3.1, log 69): the masks, the severities and
the capability word. -/
def rasDefault (o : Nat) : Nat :=
  if o = 4 ∨ o = 8 then 0x1CFFF else if o = 0x10 then 0x7F else if o = 0x14 then 0x200 else 0

/-- A word of the PF's BAR2 (R82). -/
def State.extWord (s : State) (off : Nat) : Nat :=
  let k := s.pkg
  if off < 0x1000 then (Tab.get (BitVec.ofNat 32 (rasDefault (off % 0x400))) s.ras (off / 4)).toNat
  else if 0x8000 ≤ off ∧ off < 0x10000 then
    if (off - 0x8000) / 8 < extentCount k.sku then half (s.extEntry ((off - 0x8000) / 8)) off else 0
  else
    match off with
    | 0x1000 => half (fld k.extCmd.toNat 0 38 + fld k.extCmd.toNat 40 4 * 2 ^ 40) 0
    | 0x1004 => half (fld k.extCmd.toNat 0 38 + fld k.extCmd.toNat 40 4 * 2 ^ 40) 4
    | 0x1008 => (if k.extBusy then 2 ^ 31 else 0) + k.extRes * 256
    | 0x1010 => half k.notify.toNat 0
    | 0x1014 => half k.notify.toNat 4
    | 0x1018 => half k.reltime.toNat 0
    | 0x101C => half k.reltime.toNat 4
    | 0x1020 => k.iso
    | 0x1028 => half k.llogB 0
    | 0x102C => half k.llogB 4
    | 0x1030 => k.llogI.toNat
    | 0x1034 => k.llogR.toNat
    | 0x1038 => k.llogO.toNat
    | 0x1040 => k.recalls.toNat
    | 0x1044 => k.evicts.toNat
    | _ => 0

/-- A word of a link's extent view: its DVSEC ID, VGEN, and VMAP from 0x14 on (R80). -/
def State.viewWord (s : State) (l off : Nat) : Nat :=
  if off = 0x08 then 0x0080
  else if off = 0x0C then (s.link l).vgen.toNat
  else if 0x14 ≤ off ∧ off < 0x214 then
    (List.range 32).foldl (fun w i => if s.viewed ((off - 0x14) * 8 + i) l then w + 2 ^ i else w) 0
  else 0

/-! A VF's BAR0 (02 R51, 03 R62, 14 R311) -/

/-- A word of a queue's register group (03 R62). -/
def Queue.word (x : Queue) (off : Nat) : Nat :=
  let b (y : Bool) (k : Nat) : Nat := if y then 2 ^ k else 0
  let stat := x.statAddr + b x.sloc 0
  match off with
  | 0x00 => half x.base 0
  | 0x04 => half x.base 4
  | 0x08 => x.log2 * 2 ^ 16 + x.vec * 2 ^ 6 + x.prio * 16 + b x.widxOn 2 + b x.loc 1 + b (x.st != 0) 0
  | 0x0C => x.weight
  | 0x10 => half x.widxAddr 0
  | 0x14 => half x.widxAddr 4
  | 0x18 => half stat 0
  | 0x1C => half stat 4
  | 0x30 => x.lastSeq * 2 ^ 16 + x.st
  | 0x34 => x.readIdx
  | 0x38 => half x.err 0
  | 0x3C => half x.err 4
  | 0x40 => x.widx
  | _ => 0

/-- A word of a ring's registers (14 R315). -/
def Ring.word (r : Ring) (off : Nat) : Nat :=
  match off with
  | 0x00 => half r.base 0 + if r.loc then 1 else 0
  | 0x04 => half r.base 4
  | 0x08 => r.log2
  | 0x0C => r.widx.toNat
  | 0x10 => r.ridx.toNat
  | 0x14 => r.drop.toNat
  | _ => 0

/-- A word of a watchpoint's registers (14 R332). -/
def WatchReg.word (w : WatchReg) (off : Nat) : Nat :=
  match off with
  | 0x00 => half w.addr 0
  | 0x04 => half w.addr 4
  | 0x08 => half w.mask 0
  | 0x0C => half w.mask 4
  | 0x10 => (if w.r then 1 else 0) + if w.w then 2 else 0
  | _ => 0

/-- A word of the profiling and debug group of a partition, whose debugger's command runs or not (14 R311, R328). -/
def Partition.profWord (p : Partition) (busy : Bool) (off : Nat) : Nat :=
  if off = 0x4000 then p.prof.toNat
  else if off = 0x4004 then p.evmask.toNat
  else if 0x4010 ≤ off ∧ off < 0x4030 then p.sring.word (off - 0x4010)
  else if 0x4030 ≤ off ∧ off < 0x4050 then p.ering.word (off - 0x4030)
  else if 0x4100 ≤ off ∧ off < 0x4500 then half (Tab.get 0 p.counters ((off - 0x4100) / 8)).toNat off
  else if 0x4600 ≤ off ∧ off < 0x4680 then (Tab.get WatchReg.reset p.watch ((off - 0x4600) / 32)).word (off % 32)
  else
    match off with
    | 0x4500 => (if p.attach then 1 else 0) + if p.nobudget then 2 else 0
    | 0x4508 => half p.dbgcmd.toNat 0
    | 0x450C => half p.dbgcmd.toNat 4
    | 0x4510 => half p.dbgdata.toNat 0
    | 0x4514 => half p.dbgdata.toNat 4
    | 0x4518 => p.dbgres * 2 ^ 12 + if busy then 2 ^ 31 else 0
    | 0x4520 => p.nstop.toNat
    | _ => 0

/-- A word of a VF's BAR0 (02 R51); zero while the VF is being reset (R56). -/
def State.vfWord (s : State) (v off : Nat) : Nat :=
  let f := s.vf v
  if f.flrbusy then 0
  else if off < 0x1000 then (s.queue v (off / 256)).word (off % 256)
  else if off < 0x1340 then s.discovery (off - 0x1000)
  else if off = 0x2000 then v % 512 + (if f.valid then f.part else 0xFF) * 2 ^ 16
  else if off = 0x2004 then f.ways
  else if 0x3000 ≤ off ∧ off < 0x3200 then f.msix.word (off - 0x3000)
  else if off = 0x3800 then f.msix.pending
  else if 0x4000 ≤ off ∧ off < 0x4700 then if f.valid then (s.partn f.part).profWord (s.dbgBusy f.part) off else 0
  else 0

/-! The DVSECs of the PF (06 R125, 07 R170, 11 R249, 14 R326) -/

/-- A word of the partition-policy DVSEC. -/
def State.policyWord (s : State) (off : Nat) : Nat :=
  let k := s.pkg
  let p := s.partn k.psel
  let g := s.group k.gsel
  let reserve : Nat := ((p.reserve / 1000) % (2 ^ 64 : Nat)).toNat
  match off with
  | 0x08 => 0x0081
  | 0x0C => k.psel
  | 0x10 => p.ceilMw
  | 0x14 => p.ceilUj
  | 0x18 => p.weight
  | 0x1C => p.group * 256 + p.plugin
  | 0x20 => p.rate
  | 0x28 => half reserve 0
  | 0x2C => half reserve 4
  | 0x30 => half (p.metered / 1000) 0
  | 0x34 => half (p.metered / 1000) 4
  | 0x38 => k.gsel
  | 0x3C => g.sites
  | 0x40 => if g.sliced then 1 else 0
  | 0x44 => g.slice
  | 0x48 => g.grace
  | 0x4C => k.cap
  | 0x50 => k.rate
  | 0x54 => (if k.thermal then 1 else 0) + if k.guard then 2 else 0
  | 0x58 => half (k.metered / 1000) 0
  | 0x5C => half (k.metered / 1000) 4
  | 0x60 => k.fsel
  | 0x64 => (if k.fsel < 16 then fixedDesc k.fsel else Tab.get 0 p.fdesc k.fsel).toNat
  | 0x68 => if p.dbgen then 1 else 0
  | _ => 0

/-- A word of the attestation DVSEC; the read of CDATA is an event of its own (`cdataRead`). -/
def State.attestWord (s : State) (off : Nat) : Nat :=
  match off with
  | 0x08 => 0x0082
  | 0x0C => s.pkg.csel
  | 0x10 => certLength s.pkg.csel
  | 0x14 => s.pkg.coff
  | 0x18 => (certData s.pkg.csel s.pkg.coff).toNat
  | _ => 0

/-- A word of the CXL DVSEC of a link's function 0 (R80; log 12): the range's base at 0, Mem_Enable at 8, at 0xC
Mem_Capable in bit 2 and HDM_Count in bits [5:4], and the range's size at 0x10. -/
def State.cxlWord (s : State) (l off : Nat) : Nat :=
  let x := s.link l
  if !x.cxl then 0
  else
    match off with
    | 0x00 | 0x04 => half x.base off
    | 0x08 => if x.memEnable then 1 else 0
    | 0x0C => 4 + 16
    | 0x10 | 0x14 => half (extentCount s.pkg.sku * 2 ^ 28) off
    | _ => 0

/-- A word of the SR-IOV capability of a link's function 0, at its offset in PCI Express (02 R43, R46): VF Enable,
InitialVFs and TotalVFs, First VF Offset and VF Stride. -/
def State.sriovWord (s : State) (l off : Nat) : Nat :=
  let n := (s.vfsAt l).length
  match off with
  | 0x08 => if (s.link l).vfEnable then 1 else 0
  | 0x0C => n + n * 2 ^ 16
  | 0x14 => 1 + 2 ^ 16
  | _ => 0

/-- The power of two of a payload or request size of at least 128 bytes. -/
def sizeCode (n : Nat) : Nat := Nat.log2 (n / 128)

/-- A word of a function's configuration (02 R43; log 12): PowerState at 0, the payload size in bits [7:5] and the read
request size in bits [14:12] at 4, the enables of 10-bit and 14-bit tags in bits 0 and 1 at 8, and from 0x10 on AER's
uncorrectable status, mask and severity and correctable status and mask. -/
def FnCfg.word (x : FnCfg) (off : Nat) : Nat :=
  match off with
  | 0x00 => if x.d3 then 3 else 0
  | 0x04 => sizeCode x.mps * 32 + sizeCode x.mrrs * 4096
  | 0x08 => (if x.tag10 then 1 else 0) + if x.tag14 then 2 else 0
  | 0x10 => x.uncSt.toNat
  | 0x14 => x.uncMk.toNat
  | 0x18 => x.uncSv.toNat
  | 0x1C => x.corSt.toNat
  | 0x20 => x.corMk.toNat
  | _ => 0

/-- A function whose configuration space answers: the VFs that exist on a link that is up and the function 0 of each
trained link. -/
def State.fnUp (s : State) (f : Nat) : Bool :=
  if f < 384 then (s.vf f).enabled && (s.link (s.vf f).link).trained else (s.link (f - 384)).trained

/-- A virtual function that is being reset: it takes no write and reads as zero (02 R56). -/
def State.fnReset (s : State) (f : Nat) : Bool := decide (f < 384) && (s.vf f).flrbusy

/-- What a register of a space reads as: 0 the PF's BAR0, 1 its BAR2, 2 the BAR0 of VF fn, 3 the partition-policy DVSEC, 4
the attestation DVSEC, 5 the MSI-X control of function fn (384 is the PF), 6 the CXL DVSEC of link fn, 7 the extent view
of link fn, 8 the SR-IOV capability of link fn, 9 the configuration of function fn, a link's function under 384 plus the
link (log 12). -/
def State.regValue (s : State) (space fn off : Nat) : Nat :=
  match space with
  | 0 => s.pfWord off
  | 1 => if s.pkg.cause ≠ 0 then 0 else s.extWord off
  | 2 => s.vfWord fn off
  | 3 => s.policyWord off
  | 4 => s.attestWord off
  | 5 =>
    let m := if fn = 384 then s.pfMsix else (s.vf fn).msix
    if s.fnReset fn then 0 else (if m.enable then 2 ^ 15 else 0) + if m.fmask then 2 ^ 14 else 0
  | 6 => s.cxlWord fn off
  | 7 => s.viewWord fn off
  | 8 => s.sriovWord fn off
  | 9 => if s.fnReset fn then 0 else (s.fn fn).word off
  | _ => 0

/-- A read of a register is answered: the PF through link 0 (02 R45), a VF that exists (R48), in D0 where it goes to a BAR
(R43), and the configuration space of a function that is there; otherwise it is an unsupported request.  A package that
has stopped serves nothing (01 R20). -/
def State.answers (s : State) (space fn : Nat) : Bool :=
  let pf := (s.link 0).trained
  !s.stopped && (match space with
    | 0 | 1 => pf && !(s.fn 384).d3
    | 2 => s.fnUp fn && !(s.fn fn).d3
    | 3 | 4 => pf
    | 5 | 9 => s.fnUp fn
    | 6 | 7 | 8 => (s.link fn).trained
    | _ => false)

/-- What a read of a register returns; none is an unsupported request.  Before PHASE 3 configuration requests get the
retry status (01 R41, `configRequestRetry`). -/
def State.regRead (s : State) (space fn off : Nat) : Option Word :=
  if s.answers space fn && (s.pkg.phase == 3 || space ≤ 2) then some (wordOf (s.regValue space fn off)) else none

end Sys2Proof.Machine
end

