-- ==== Sys2Proof/Machine/Regs.lean ====
section
/-! DEFINITION. A write of any register, under its access codes (00 R10, R11): every writable field of the PF's and
the VFs' register blocks and of the DVSECs. -/

namespace Sys2Proof.Machine

open Host (Outcome)

/-- The state after an event of its own that a register write brings about. -/
def State.follow (s : State) (f : State → Outcome State Fault Refusal) : State :=
  match f s with
  | .next t => t
  | _ => s

/-- Such an event at a place. -/
def State.followAt (s : State) (a : Actor) (f : State → Outcome State Fault Refusal) : State := s.at_ a fun s => s.follow f

/-- A 64-bit register with one of its words replaced. -/
def mergeHalf (old off v : Nat) : Nat :=
  if off % 8 = 0 then old / 2 ^ 32 * 2 ^ 32 + v % 2 ^ 32 else v % 2 ^ 32 * 2 ^ 32 + old % 2 ^ 32

/-! MSI-X (02 R53; log 4) -/

/-- A write of a word of an MSI-X table. -/
def Msix.write (m : Msix) (off v : Nat) : Msix :=
  let e := Tab.get MsixEntry.reset m.table (off / 16)
  let e' : MsixEntry :=
    match off % 16 with
    | 0 => { e with addr := mergeHalf e.addr 0 v / 4 * 4 }
    | 4 => { e with addr := mergeHalf e.addr 4 v }
    | 8 => { e with data := wordOf v }
    | _ => { e with mask := v.testBit 0 }
  { m with table := Tab.set m.table (off / 16) e' }

/-- The vectors whose pending event is no longer masked, and the messages they send. -/
def Msix.release (m : Msix) (n : Nat) : Msix × List Sent :=
  (List.range n).foldl
    (fun (a : Msix × List Sent) k =>
      let e := Tab.get MsixEntry.reset a.1.table k
      if a.1.pending.testBit k && a.1.enable && !a.1.fmask && !e.mask then
        ({ a.1 with pending := a.1.pending - 2 ^ k }, a.2 ++ [.msix e.addr e.data.toNat])
      else a)
    (m, [])

/-- The PF's MSI-X state changes. -/
def State.setPfMsix (s : State) (m : Msix) : State :=
  let r := m.release 8
  { s with pfMsix := r.1, sent := s.sent ++ r.2 }

/-- A VF's MSI-X state changes. -/
def State.setVfMsix (s : State) (v : Nat) (m : Msix) : State :=
  let f := s.vf v
  let r := m.release 32
  { s.setVf v { f with msix := r.1 } with sent := s.sent ++ r.2 }

/-! The PF's blocks -/

/-- A word of a VF control group is written (02 R48, R50, R54, R57). -/
def State.controlWrite (s : State) (v off w : Nat) : State :=
  let f := s.vf v
  let m := f.mig
  let put (m : Mig) : State := s.setVf v { f with mig := m }
  match off with
  | 0x00 => s.followAt ⟨v, 0, 0⟩ (execVfBindWrite w)
  | 0x04 => s.setVf v { f with ways := w % 2 ^ 16, waysOld := f.ways, waysAt := s.time }
  | 0x08 => if w.testBit 4 then s.setVf v { f with binderr := false } else s
  | 0x10 => s.migCommand v (fld w 4 16) (fld w 0 4)
  | 0x18 => put { m with log := mergeHalf m.log 0 w / 4096 * 4096 }
  | 0x1C => put { m with log := mergeHalf m.log 4 w }
  | 0x20 => if 512 ≤ w % 2 ^ 17 ∧ w % 2 ^ 17 ≤ 65536 ∧ 2 ^ Nat.log2 (w % 2 ^ 17) = w % 2 ^ 17 then put { m with logsz := w % 2 ^ 17 } else s
  | 0x28 => put { m with xfer := mergeHalf m.xfer 0 w / 4096 * 4096 }
  | 0x2C => put { m with xfer := mergeHalf m.xfer 4 w }
  | 0x30 => put { m with logrd := w % 2 ^ 32 }
  | _ => s

/-- A word of a UCIe module's counters is written (01 R30). -/
def State.moduleWrite (s : State) (site mod_ off w : Nat) : State :=
  let x := s.site site
  match Tab.find x.mods mod_ with
  | none => s
  | some m =>
    let m' : UcieModule :=
      match off with
      | 4 => { m with crc := wordOf w }
      | 8 => { m with retrain := wordOf w }
      | 0xC => { m with fail := wordOf w }
      | _ => m
    s.setSite site { x with mods := Tab.set x.mods mod_ m' }

/-- A word of a peer port's counters is written (01 R34). -/
def State.portWrite (s : State) (port off w : Nat) : State :=
  let p := s.port port
  match off with
  | 4 => s.setPort port { p with corr := wordOf w }
  | 8 => s.setPort port { p with retrain := wordOf w }
  | 0xC => s.setPort port { p with fail := wordOf w }
  | _ => s

/-- A word of the PF's BAR0 is written (02 R47). -/
def State.pfWrite (s : State) (off w : Nat) : State :=
  if off = 0x1008 then s.follow (execPackageReset (w % 256))
  else if 0x2000 ≤ off ∧ off < 0x5000 then s.moduleWrite ((off - 0x2000) / 0x200) ((off - 0x2000) % 0x200 / 16) (off % 16) w
  else if 0x6000 ≤ off ∧ off < 0x6100 then s.portWrite ((off - 0x6000) / 32) (off % 32) w
  else if 0x10000 ≤ off ∧ off < 0x16000 then s.controlWrite ((off - 0x10000) / 64) (off % 64) w
  else if 0x20000 ≤ off ∧ off < 0x20080 then s.setPfMsix (s.pfMsix.write (off - 0x20000) w)
  else s

/-- A write of EXT_CMD starts its command (04 R83). -/
def State.extCommand (s : State) (v : Nat) : State :=
  if fld v 0 4 = 2 then s.follow (execExtRelease v) else s.follow (execExtAdd v)

/-- A word of a CXL RAS capability structure is written (CXL 3.1, log 69): the status words are cleared by ones, the masks
and severities take their implemented bits. -/
def State.rasWrite (s : State) (off w : Nat) : State :=
  let old := Tab.get (BitVec.ofNat 32 (rasDefault (off % 0x400))) s.ras (off / 4)
  let put (v : Word) : State := { s with ras := Tab.set s.ras (off / 4) v }
  match off % 0x400 with
  | 0x00 | 0x0C => put (old &&& ~~~(BitVec.ofNat 32 w))
  | 0x04 | 0x08 => put (BitVec.ofNat 32 w &&& 0x1CFFF)
  | 0x10 => put (BitVec.ofNat 32 w &&& 0x7F)
  | _ => s

/-- A word of the PF's BAR2 is written (04 R82): the high word of EXT_CMD is only held for the command that the
low word starts. -/
def State.extWrite (s : State) (off w : Nat) : State :=
  let k := s.pkg
  if off < 0x1000 then s.rasWrite off w
  else
  match off with
  | 0x1000 => s.extCommand (mergeHalf k.extCmd.toNat 0 w)
  | 0x1004 => if k.extBusy then s else s.setPkg { k with extCmd := BitVec.ofNat 64 (mergeHalf k.extCmd.toNat 4 w) }
  | 0x1010 => s.setPkg { k with notify := BitVec.ofNat 64 (mergeHalf k.notify.toNat 0 w / 8 * 8) }
  | 0x1014 => s.setPkg { k with notify := BitVec.ofNat 64 (mergeHalf k.notify.toNat 4 w) }
  | 0x1020 => s.setIso (w % 16)
  | 0x1028 => s.setPkg { k with llogB := mergeHalf k.llogB 0 w / 4096 * 4096 }
  | 0x102C => s.setPkg { k with llogB := mergeHalf k.llogB 4 w }
  | 0x1034 => s.setPkg { k with llogR := wordOf w }
  | 0x1038 => s.setPkg { k with llogO := wordOf w }
  | 0x1040 => s.setPkg { k with recalls := wordOf w }
  | 0x1044 => s.setPkg { k with evicts := wordOf w }
  | _ => s

/-- A word of the partition-policy DVSEC is written (06 R125, 11 R249, 14 R326). -/
def State.policyWrite (s : State) (off w : Nat) : State :=
  let k := s.pkg
  let p := s.partn k.psel
  let g := s.group k.gsel
  match off with
  | 0x0C => s.setPkg { k with psel := w % 64 }
  | 0x10 => if w ≤ 2200000 then s.setPart k.psel { p with ceilMw := w } else s
  | 0x14 => s.setPart k.psel { p with ceilUj := w }
  | 0x18 => if w % 2 ^ 16 = 0 then s else s.setPart k.psel { p with weight := w % 2 ^ 16 }
  | 0x1C => (s.follow (execPGroupWrite (fld w 8 4))).follow (execPPluginWrite (fld w 0 8))
  | 0x38 => s.setPkg { k with gsel := w % 16 }
  | 0x3C => s.follow (execGSitesWrite w)
  | 0x40 => s.follow (execGSlicedWrite w)
  | 0x44 => if 100 ≤ w ∧ w ≤ 10000000 then s.setGroup k.gsel { g with slice := w } else s
  | 0x48 => if 1 ≤ w ∧ w ≤ 1000000 then s.setGroup k.gsel { g with grace := w } else s
  | 0x4C => if w ≤ 2200000 then s.setPkg { k with cap := w, rate := if k.thermal then min k.rate w else w } else s
  | 0x60 => s.setPkg { k with fsel := w % 64 }
  | 0x64 => s.follow (execFdescWrite w)
  | 0x68 => s.follow (execPDbgenWrite w)
  | _ => s

/-- A word of the attestation DVSEC is written (07 R170). -/
def State.attestWrite (s : State) (off w : Nat) : State :=
  match off with
  | 0x0C => s.follow (execCselWrite w)
  | 0x14 => s.setPkg { s.pkg with coff := w / 4 * 4 }
  | _ => s

/-! A VF's BAR0 -/

/-- Q_CFG is written (03 R62, R63). -/
def State.cfgWrite (s : State) (v q w : Nat) : State :=
  let x := s.queue v q
  if x.st = 0 then
    if w.testBit 0 then s.followAt ⟨v, q, 0⟩ (execQueueEnable w)
    else
      s.setQueue v q
        { x with log2 := fld w 16 5, vec := fld w 6 5, prio := fld w 4 2, widxOn := w.testBit 2, loc := w.testBit 1 }
  else if w.testBit 0 then s
  else s.followAt ⟨v, q, 0⟩ execQueueDisable

/-- A word of a queue's register group is written (03 R62). -/
def State.queueWrite (s : State) (v q off w : Nat) : State :=
  let x := s.queue v q
  let put (y : Queue) : State := if x.st = 0 then s.setQueue v q y else s
  match off with
  | 0x00 => put { x with base := mergeHalf x.base 0 w / 1024 * 1024 }
  | 0x04 => put { x with base := mergeHalf x.base 4 w }
  | 0x08 => s.cfgWrite v q w
  | 0x0C => if w % 2 ^ 16 = 0 then s else s.setQueue v q { x with weight := w % 2 ^ 16 }
  | 0x10 => put { x with widxAddr := mergeHalf x.widxAddr 0 w / 8 * 8 }
  | 0x14 => put { x with widxAddr := mergeHalf x.widxAddr 4 w }
  | 0x18 => put { x with statAddr := mergeHalf x.statAddr 0 w / 64 * 64, sloc := w.testBit 0 }
  | 0x1C => put { x with statAddr := mergeHalf x.statAddr 4 w }
  | 0x20 => s.followAt ⟨v, q, 0⟩ (execQueueNotify w)
  | 0x28 => s.followAt ⟨v, q, 0⟩ (execQueueResume w)
  | _ => s

/-- A word of a ring's registers is written (14 R315). -/
def State.ringWrite (s : State) (v ring off w : Nat) : State :=
  let f := s.vf v
  let p := s.partn f.part
  let r := if ring = 0 then p.sring else p.ering
  match off with
  | 0x00 => s.followAt ⟨v, 0, 0⟩ (execRingConfigWrite ring 0 (mergeHalf r.base 0 w))
  | 0x04 => s.followAt ⟨v, 0, 0⟩ (execRingConfigWrite ring 0 (mergeHalf r.base 4 w + if r.loc then 1 else 0))
  | 0x08 => s.followAt ⟨v, 0, 0⟩ (execRingConfigWrite ring 8 w)
  | 0x10 =>
    let r' : Ring := { r with ridx := wordOf w }
    s.setPart f.part (if ring = 0 then { p with sring := r' } else { p with ering := r' })
  | _ => s

/-- A word of a watchpoint's registers is written (14 R332). -/
def WatchReg.write (x : WatchReg) (off w : Nat) : WatchReg :=
  match off with
  | 0x00 => { x with addr := mergeHalf x.addr 0 w / 64 * 64 }
  | 0x04 => { x with addr := mergeHalf x.addr 4 w }
  | 0x08 => { x with mask := mergeHalf x.mask 0 w }
  | 0x0C => { x with mask := mergeHalf x.mask 4 w }
  | 0x10 => { x with r := w.testBit 0, w := w.testBit 1 }
  | _ => x

/-- A word of the profiling and debug group is written by a bound VF (14 R311): the high word of the debug
command is only held for the command that the low word starts. -/
def State.profWrite (s : State) (v off w : Nat) : State :=
  let f := s.vf v
  let p := s.partn f.part
  if !f.valid then s
  else if off = 0x4000 then s.followAt ⟨v, 0, 0⟩ (execProfCtlWrite w)
  else if off = 0x4004 then s.setPart f.part { p with evmask := wordOf (w % 128) }
  else if 0x4010 ≤ off ∧ off < 0x4030 then s.ringWrite v 0 (off - 0x4010) w
  else if 0x4030 ≤ off ∧ off < 0x4050 then s.ringWrite v 1 (off - 0x4030) w
  else if 0x4600 ≤ off ∧ off < 0x4680 then
    s.setPart f.part { p with watch := Tab.upd WatchReg.reset p.watch ((off - 0x4600) / 32) fun x => x.write (off % 32) w }
  else
    match off with
    | 0x4500 => s.followAt ⟨v, 0, 0⟩ (execDebugAttachWrite w)
    | 0x4508 => s.debugCommand v (mergeHalf p.dbgcmd.toNat 0 w)
    | 0x450C => if s.dbgBusy f.part then s else s.setPart f.part { p with dbgcmd := BitVec.ofNat 64 (mergeHalf p.dbgcmd.toNat 4 w) }
    | 0x4510 => s.setPart f.part { p with dbgdata := BitVec.ofNat 64 (mergeHalf p.dbgdata.toNat 0 w) }
    | 0x4514 => s.setPart f.part { p with dbgdata := BitVec.ofNat 64 (mergeHalf p.dbgdata.toNat 4 w) }
    | _ => s

/-- A word of a VF's BAR0 is written: a VF that does not exist or is being reset takes no write (02 R48, R56). -/
def State.vfWrite (s : State) (v off w : Nat) : State :=
  let f := s.vf v
  if !s.vfTakes v then s
  else if off < 0x1000 then s.queueWrite v (off / 256) (off % 256) w
  else if 0x3000 ≤ off ∧ off < 0x3200 then s.setVfMsix v (f.msix.write (off - 0x3000) w)
  else if 0x4000 ≤ off ∧ off < 0x4700 then s.profWrite v off w
  else s

/-! Any register -/

/-- A word of a function's configuration is written (02 R43; log 12): sizes that the device does not support leave their
field as it was. -/
def FnCfg.write (x : FnCfg) (off w : Nat) : FnCfg :=
  match off with
  | 0x00 => if w % 4 = 0 then { x with d3 := false } else if w % 4 = 3 then { x with d3 := true } else x
  | 0x04 =>
    { x with
      mps := if fld w 5 3 ≤ 2 then 128 * 2 ^ fld w 5 3 else x.mps
      mrrs := if fld w 12 3 ≤ 5 then 128 * 2 ^ fld w 12 3 else x.mrrs }
  | 0x08 => { x with tag10 := w.testBit 0, tag14 := w.testBit 1 }
  | 0x10 => { x with uncSt := x.uncSt &&& ~~~(wordOf w) }
  | 0x14 => { x with uncMk := wordOf w }
  | 0x18 => { x with uncSv := wordOf w }
  | 0x1C => { x with corSt := x.corSt &&& ~~~(wordOf w) }
  | 0x20 => { x with corMk := wordOf w }
  | _ => x

/-- A word of the CXL DVSEC of a link that trained as CXL is written (04 R80). -/
def State.cxlWrite (s : State) (l off w : Nat) : State :=
  let x := s.link l
  if !x.cxl then s
  else
    match off with
    | 0 => s.setLink l { x with base := mergeHalf x.base 0 w / 2 ^ 28 * 2 ^ 28 }
    | 4 => s.setLink l { x with base := mergeHalf x.base 4 w }
    | 8 => s.setLink l { x with memEnable := w.testBit 0 }
    | _ => s

/-- A word of the MSI-X control of a function is written (02 R53). -/
def State.msixWrite (s : State) (fn w : Nat) : State :=
  if fn = 384 then s.setPfMsix { s.pfMsix with enable := w.testBit 15, fmask := w.testBit 14 }
  else
    let f := s.vf fn
    if f.enabled && !f.flrbusy then s.setVfMsix fn { f.msix with enable := w.testBit 15, fmask := w.testBit 14 } else s

/-- The link whose function a configuration write reaches. -/
def State.linkOf (s : State) (space fn : Nat) : Nat :=
  match space with
  | 3 | 4 => 0
  | 5 | 9 => if fn < 384 then (s.vf fn).link else fn - 384
  | _ => fn

/-- A write of one word (R10): the spaces are those of `regValue`.  The BARs of the PF take it where `pfTakes` says so, and
configuration space from PHASE 3 on (01 R41). -/
def State.wordWrite (s : State) (space fn off w : Nat) : State :=
  let cfg (t : State) : State := s.follow fun s => s.config (s.linkOf space fn) (.next t)
  match space with
  | 0 => if s.pfTakes then s.pfWrite off w else s
  | 1 => if s.pfTakes then s.extWrite off w else s
  | 2 => s.vfWrite fn off w
  | 3 => cfg (s.policyWrite off w)
  | 4 => cfg (s.attestWrite off w)
  | 5 => cfg (if s.fnReset fn then s else s.msixWrite fn w)
  | 6 => cfg (s.cxlWrite fn off w)
  | 9 => cfg (if s.fnUp fn && !s.fnReset fn then s.setFn fn ((s.fn fn).write off w) else s)
  | _ => s

/-- The registers of 64 bits that act when they are written: EXT_CMD, the debug command. -/
def startsAt (space off : Nat) : Bool := (space == 1 && off == 0x1000) || (space == 2 && off == 0x4508)

/-- A write of four or eight bytes at an offset that is a multiple of four; of a command register of 64 bits the
high word is taken first (log 12).  The focus is not used. -/
def execRegisterWrite (space fn off size v : Nat) (s : State) : Outcome State Fault Refusal :=
  if off % 4 ≠ 0 then .next s
  else if size = 4 then .next (s.wordWrite space fn off (v % 2 ^ 32))
  else if size = 8 then
    let lo := v % 2 ^ 32
    let hi := v / 2 ^ 32 % 2 ^ 32
    if startsAt space off then .next ((s.wordWrite space fn (off + 4) hi).wordWrite space fn off lo)
    else .next ((s.wordWrite space fn off lo).wordWrite space fn (off + 4) hi)
  else .next s

end Sys2Proof.Machine
end

