-- ==== Sys2Proof/Machine/VectorData.lean ====
section
/-! DEFINITION. The vector stream's data movement and narrow-format instructions (18 R420 to R439). -/

namespace Sys2Proof.Machine

open Host (Outcome)

/-- The descriptor-format fault of an instruction that needs an element format from VFMT (R422). -/
def State.formatFault (s : State) : State := s.trap 0x09 0

/-- The descriptor VFMT names. -/
def State.vfmtDesc (s : State) : Word := s.desc (s.core.vfmt.toNat % 64)

/-- An 8-bit element format (R421). -/
def eightBit (w : Word) : Bool :=
  [5, 6, 9].contains (descKind w) || (descKind w == 11 && decide (5 ≤ descWidth w))

/-- A source format of `vcvt` for a type (R431). -/
def cvtSource (w : Word) (ty : Nat) : Bool :=
  (descFmt w).isSome && descKind w != 8 && (decide (ty < 3) || !([1, 4, 10] : List Nat).contains (descKind w))

/-- `.f32` at EW 8 needs an 8-bit format (R421, R422). -/
def State.widthOk (s : State) (ty : BitVec 4) : Bool :=
  !(ty == 2 && s.core.ewBits == 8) || eightBit s.vfmtDesc

/-- Entries of a queue access: the bytes of ROWS rows over 256, rounded up (R423). -/
def Core.queueEntries (c : Core) : Nat := ((c.vshape.toNat % 16 + 1) * (8 * c.ewBits) + 255) / 256

/-- `vpop` (R423): waits until every entry stood at the start of the cycle, and takes them whatever the
guard is. -/
def execVpop (v : VArg) (s : State) : Outcome State Fault Refusal :=
  let c := s.core
  let q := v.va.toNat % 4
  match (Tab.get .empty c.lq q).pop c.queueEntries with
  | none => .next (s.stalled 1 (0x30 + q))
  | some (es, f) =>
    let s1 := s.setCore { c with lq := Tab.set c.lq q f }
    .next (s1.vstart { s1.vop (.vpop v) v with ents := es } (vextLen v.ext))

/-- `vpush` (R424): waits until the queue has room for every entry; the room is kept until they enter. -/
def execVpush (v : VArg) (s : State) : Outcome State Fault Refusal :=
  let c := s.core
  let q := v.vd.toNat % 4
  if 16 < c.sqTaken q + c.queueEntries then .next (s.stalled 1 (0x34 + q))
  else .next ((s.setCore (c.sqReserve q c.queueEntries)).vissue (.vpush v) v)

/-- `vlds` (R425). -/
def execVlds (v : VImm) (s : State) : Outcome State Fault Refusal :=
  if !s.widthOk v.ty then .next s.formatFault else .next (s.vissueImm (.vlds v) v)

/-- `vsts` (R426). -/
def execVsts (v : VImm) (s : State) : Outcome State Fault Refusal :=
  if !s.widthOk v.ty then .next s.formatFault else .next (s.vissueImm (.vsts v) v)

/-- `vgath`: gather from operand SRAM (R428). -/
def execVgath (v : VArg) (s : State) : Outcome State Fault Refusal := .next (s.vissue (.vgath v) v)

/-- `vscat`: scatter to operand SRAM (R428). -/
def execVscat (v : VArg) (s : State) : Outcome State Fault Refusal := .next (s.vissue (.vscat v) v)

/-- `vperm`: lanes picked by index (R429). -/
def execVperm (v : VArg) (s : State) : Outcome State Fault Refusal := .next (s.vissue (.vperm v) v)

/-- `vxpose`: transposes of 16-lane blocks (R429). -/
def execVxpose (v : VArg) (s : State) : Outcome State Fault Refusal := .next (s.vissue (.vxpose v) v)

/-- `vbcast`: one lane to every lane (R429). -/
def execVbcast (v : VArg) (s : State) : Outcome State Fault Refusal := .next (s.vissue (.vbcast v) v)

/-- `vmovs`: rows copied (R429). -/
def execVmovs (v : VArg) (s : State) : Outcome State Fault Refusal := .next (s.vissue (.vmovs v) v)

/-- `vpart`: both lists of a guard (R430). -/
def execVpart (v : VArg) (s : State) : Outcome State Fault Refusal := .next (s.vissue (.vpart v) v)

/-- `vcompact`: the list of a guard (R430). -/
def execVcompact (v : VArg) (s : State) : Outcome State Fault Refusal := .next (s.vissue (.vcompact v) v)

/-- `unpk3`: ternary bytes unpacked (R434, R435). -/
def execUnpk3 (v : VArg) (s : State) : Outcome State Fault Refusal := .next (s.vissue (.unpk3 v) v)

/-- `vdot4`: packed dot products (R436). -/
def execVdot4 (v : VArg) (s : State) : Outcome State Fault Refusal := .next (s.vissue (.vdot4 v) v)

/-- `vpack`: codes packed (R439). -/
def execVpack (v : VArg) (s : State) : Outcome State Fault Refusal := .next (s.vissue (.vpack v) v)

/-- `vunpk`: codes unpacked (R439). -/
def execVunpk (v : VArg) (s : State) : Outcome State Fault Refusal := .next (s.vissue (.vunpk v) v)

/-- `vcvt` (R431). -/
def execVcvt (v : VArg) (s : State) : Outcome State Fault Refusal :=
  if !cvtSource s.vfmtDesc v.ty.toNat then .next s.formatFault else .next (s.vissue (.vcvt v) v)

/-- `vqnt` (R432). -/
def execVqnt (v : VArg) (s : State) : Outcome State Fault Refusal :=
  if !q2lTarget s.vfmtDesc then .next s.formatFault else .next (s.vissue (.vqnt v) v)

/-- `vdqnt` (R433). -/
def execVdqnt (v : VArg) (s : State) : Outcome State Fault Refusal :=
  if !q2lTarget s.vfmtDesc then .next s.formatFault else .next (s.vissue (.vdqnt v) v)

/-- `vpatx` (R438). -/
def execVpatx (v : VImm) (s : State) : Outcome State Fault Refusal := .next (s.vissueImm (.vpatx v) v)

end Sys2Proof.Machine
end

