-- ==== Sys2Proof/Machine/Dispatch.lean ====
section
/-! DEFINITION. One arm per row of the opcode table. -/

namespace Sys2Proof.Machine

/-- The meaning of an instruction or event in the stream or at the place that the state's focus names. -/
def exec (i : Instr) (s : State) : Host.Outcome State Fault Refusal :=
  match i with
  | .add d a b => Sys2Proof.Machine.execAdd d a b s
  | .sub d a b => Sys2Proof.Machine.execSub d a b s
  | .and d a b => Sys2Proof.Machine.execAnd d a b s
  | .or d a b => Sys2Proof.Machine.execOr d a b s
  | .xor d a b => Sys2Proof.Machine.execXor d a b s
  | .andn d a b => Sys2Proof.Machine.execAndn d a b s
  | .orn d a b => Sys2Proof.Machine.execOrn d a b s
  | .sll d a b => Sys2Proof.Machine.execSll d a b s
  | .srl d a b => Sys2Proof.Machine.execSrl d a b s
  | .sra d a b => Sys2Proof.Machine.execSra d a b s
  | .ror d a b => Sys2Proof.Machine.execRor d a b s
  | .mul d a b => Sys2Proof.Machine.execMul d a b s
  | .mulh d a b => Sys2Proof.Machine.execMulh d a b s
  | .mulhu d a b => Sys2Proof.Machine.execMulhu d a b s
  | .div d a b => Sys2Proof.Machine.execDiv d a b s
  | .divu d a b => Sys2Proof.Machine.execDivu d a b s
  | .rem d a b => Sys2Proof.Machine.execRem d a b s
  | .remu d a b => Sys2Proof.Machine.execRemu d a b s
  | .min d a b => Sys2Proof.Machine.execMin d a b s
  | .max d a b => Sys2Proof.Machine.execMax d a b s
  | .minu d a b => Sys2Proof.Machine.execMinu d a b s
  | .maxu d a b => Sys2Proof.Machine.execMaxu d a b s
  | .slt d a b => Sys2Proof.Machine.execSlt d a b s
  | .sltu d a b => Sys2Proof.Machine.execSltu d a b s
  | .clz d a => Sys2Proof.Machine.execClz d a s
  | .ctz d a => Sys2Proof.Machine.execCtz d a s
  | .popc d a => Sys2Proof.Machine.execPopc d a s
  | .brev d a => Sys2Proof.Machine.execBrev d a s
  | .addi d a imm => Sys2Proof.Machine.execAddi d a imm s
  | .andi d a imm => Sys2Proof.Machine.execAndi d a imm s
  | .ori d a imm => Sys2Proof.Machine.execOri d a imm s
  | .xori d a imm => Sys2Proof.Machine.execXori d a imm s
  | .slli d a sh => Sys2Proof.Machine.execSlli d a sh s
  | .srli d a sh => Sys2Proof.Machine.execSrli d a sh s
  | .srai d a sh => Sys2Proof.Machine.execSrai d a sh s
  | .slti d a imm => Sys2Proof.Machine.execSlti d a imm s
  | .sltiu d a imm => Sys2Proof.Machine.execSltiu d a imm s
  | .mini d a imm => Sys2Proof.Machine.execMini d a imm s
  | .maxi d a imm => Sys2Proof.Machine.execMaxi d a imm s
  | .padd d a b => Sys2Proof.Machine.execPadd d a b s
  | .psub d a b => Sys2Proof.Machine.execPsub d a b s
  | .paddw d a b => Sys2Proof.Machine.execPaddw d a b s
  | .pmov d a => Sys2Proof.Machine.execPmov d a s
  | .paddi d a imm => Sys2Proof.Machine.execPaddi d a imm s
  | .li d imm => Sys2Proof.Machine.execLi d imm s
  | .ldB m => Sys2Proof.Machine.execLdB m s
  | .ldBu m => Sys2Proof.Machine.execLdBu m s
  | .ldH m => Sys2Proof.Machine.execLdH m s
  | .ldHu m => Sys2Proof.Machine.execLdHu m s
  | .ldW m => Sys2Proof.Machine.execLdW m s
  | .ldD m => Sys2Proof.Machine.execLdD m s
  | .stB m => Sys2Proof.Machine.execStB m s
  | .stH m => Sys2Proof.Machine.execStH m s
  | .stW m => Sys2Proof.Machine.execStW m s
  | .stD m => Sys2Proof.Machine.execStD m s
  | .amoadd wide m => Sys2Proof.Machine.execAmoadd wide m s
  | .amoand wide m => Sys2Proof.Machine.execAmoand wide m s
  | .amoor wide m => Sys2Proof.Machine.execAmoor wide m s
  | .amoxor wide m => Sys2Proof.Machine.execAmoxor wide m s
  | .amomin wide m => Sys2Proof.Machine.execAmomin wide m s
  | .amomax wide m => Sys2Proof.Machine.execAmomax wide m s
  | .amominu wide m => Sys2Proof.Machine.execAmominu wide m s
  | .amomaxu wide m => Sys2Proof.Machine.execAmomaxu wide m s
  | .amoswp wide m => Sys2Proof.Machine.execAmoswp wide m s
  | .cas m => Sys2Proof.Machine.execCas m s
  | .casp m => Sys2Proof.Machine.execCasp m s
  | .acq m => Sys2Proof.Machine.execAcq m s
  | .rel m => Sys2Proof.Machine.execRel m s
  | .fence m => Sys2Proof.Machine.execFence m s
  | .beq a b off => Sys2Proof.Machine.execBeq a b off s
  | .bne a b off => Sys2Proof.Machine.execBne a b off s
  | .blt a b off => Sys2Proof.Machine.execBlt a b off s
  | .bge a b off => Sys2Proof.Machine.execBge a b off s
  | .bltu a b off => Sys2Proof.Machine.execBltu a b off s
  | .bgeu a b off => Sys2Proof.Machine.execBgeu a b off s
  | .jmp off => Sys2Proof.Machine.execJmp off s
  | .jal a off => Sys2Proof.Machine.execJal a off s
  | .jr a => Sys2Proof.Machine.execJr a s
  | .loop a bodyw stg id max => Sys2Proof.Machine.execLoop a bodyw stg id max s
  | .loopw a bodyw stg id max => Sys2Proof.Machine.execLoopw a bodyw stg id max s
  | .rend num fin => Sys2Proof.Machine.execRend num fin s
  | .setf flag => Sys2Proof.Machine.execSetf flag s
  | .clrf flag => Sys2Proof.Machine.execClrf flag s
  | .waitf flag clear => Sys2Proof.Machine.execWaitf flag clear s
  | .tkpost tok a => Sys2Proof.Machine.execTkpost tok a s
  | .tkwait tok a => Sys2Proof.Machine.execTkwait tok a s
  | .yield num => Sys2Proof.Machine.execYield num s
  | .nestw idx tbl a => Sys2Proof.Machine.execNestw idx tbl a s
  | .nestgo tbl => Sys2Proof.Machine.execNestgo tbl s
  | .launch d a => Sys2Proof.Machine.execLaunch d a s
  | .launchContinuation d a => Sys2Proof.Machine.execLaunchContinuation d a s
  | .capgive d a k => Sys2Proof.Machine.execCapgive d a k s
  | .capdrop d k => Sys2Proof.Machine.execCapdrop d k s
  | .capqry d k part => Sys2Proof.Machine.execCapqry d k part s
  | .stg a => Sys2Proof.Machine.execStg a s
  | .stgdec a => Sys2Proof.Machine.execStgdec a s
  | .trap code => Sys2Proof.Machine.execTrap code s
  | .rdsys d n => Sys2Proof.Machine.execRdsys d n s
  | .wrsys a n => Sys2Proof.Machine.execWrsys a n s
  | .rdtime d => Sys2Proof.Machine.execRdtime d s
  | .brk code => Sys2Proof.Machine.execBrk code s
  | .vshape v => Sys2Proof.Machine.execVshape v s
  | .vfmt n => Sys2Proof.Machine.execVfmt n s
  | .pand pd pa pb => Sys2Proof.Machine.execPand pd pa pb s
  | .por pd pa pb => Sys2Proof.Machine.execPor pd pa pb s
  | .pxor pd pa pb => Sys2Proof.Machine.execPxor pd pa pb s
  | .pandn pd pa pb => Sys2Proof.Machine.execPandn pd pa pb s
  | .pnot pd pa => Sys2Proof.Machine.execPnot pd pa s
  | .pmovPredicate pd pa => Sys2Proof.Machine.execPmovPredicate pd pa s
  | .pset pd => Sys2Proof.Machine.execPset pd s
  | .pclr pd => Sys2Proof.Machine.execPclr pd s
  | .pcnt ix pa => Sys2Proof.Machine.execPcnt ix pa s
  | .vseq nm1 tbl => Sys2Proof.Machine.execVseq nm1 tbl s
  | .vSetf flag => Sys2Proof.Machine.execVSetf flag s
  | .vClrf flag => Sys2Proof.Machine.execVClrf flag s
  | .vWaitf flag clear => Sys2Proof.Machine.execVWaitf flag clear s
  | .vTkpost tok n => Sys2Proof.Machine.execVTkpost tok n s
  | .vTkwait tok n => Sys2Proof.Machine.execVTkwait tok n s
  | .vRend num fin => Sys2Proof.Machine.execVRend num fin s
  | .vadd v => Sys2Proof.Machine.execVadd v s
  | .vsub v => Sys2Proof.Machine.execVsub v s
  | .vmul v => Sys2Proof.Machine.execVmul v s
  | .vmad v => Sys2Proof.Machine.execVmad v s
  | .vmin v => Sys2Proof.Machine.execVmin v s
  | .vmax v => Sys2Proof.Machine.execVmax v s
  | .vabs v => Sys2Proof.Machine.execVabs v s
  | .vneg v => Sys2Proof.Machine.execVneg v s
  | .vand v => Sys2Proof.Machine.execVand v s
  | .vor v => Sys2Proof.Machine.execVor v s
  | .vxor v => Sys2Proof.Machine.execVxor v s
  | .vshl v => Sys2Proof.Machine.execVshl v s
  | .vshr v => Sys2Proof.Machine.execVshr v s
  | .vsra v => Sys2Proof.Machine.execVsra v s
  | .vrcp v => Sys2Proof.Machine.execVrcp v s
  | .vrsq v => Sys2Proof.Machine.execVrsq v s
  | .vexp2 v => Sys2Proof.Machine.execVexp2 v s
  | .vlog2 v => Sys2Proof.Machine.execVlog2 v s
  | .vtanh v => Sys2Proof.Machine.execVtanh v s
  | .vcmp v => Sys2Proof.Machine.execVcmp v s
  | .vredsum v => Sys2Proof.Machine.execVredsum v s
  | .vredmax v => Sys2Proof.Machine.execVredmax v s
  | .vredmin v => Sys2Proof.Machine.execVredmin v s
  | .vperm v => Sys2Proof.Machine.execVperm v s
  | .vxpose v => Sys2Proof.Machine.execVxpose v s
  | .vbcast v => Sys2Proof.Machine.execVbcast v s
  | .vmovs v => Sys2Proof.Machine.execVmovs v s
  | .vpart v => Sys2Proof.Machine.execVpart v s
  | .vcompact v => Sys2Proof.Machine.execVcompact v s
  | .vgath v => Sys2Proof.Machine.execVgath v s
  | .vscat v => Sys2Proof.Machine.execVscat v s
  | .vpop v => Sys2Proof.Machine.execVpop v s
  | .vpush v => Sys2Proof.Machine.execVpush v s
  | .vcvt v => Sys2Proof.Machine.execVcvt v s
  | .vqnt v => Sys2Proof.Machine.execVqnt v s
  | .vdqnt v => Sys2Proof.Machine.execVdqnt v s
  | .unpk3 v => Sys2Proof.Machine.execUnpk3 v s
  | .vdot4 v => Sys2Proof.Machine.execVdot4 v s
  | .vpack v => Sys2Proof.Machine.execVpack v s
  | .vunpk v => Sys2Proof.Machine.execVunpk v s
  | .vlds v => Sys2Proof.Machine.execVlds v s
  | .vsts v => Sys2Proof.Machine.execVsts v s
  | .vfill v => Sys2Proof.Machine.execVfill v s
  | .vrng v => Sys2Proof.Machine.execVrng v s
  | .vpatx v => Sys2Proof.Machine.execVpatx v s
  | .mseq tbl => Sys2Proof.Machine.execMseq tbl s
  | .mstep h a b t => Sys2Proof.Machine.execMstep h a b t s
  | .mspz h a b t => Sys2Proof.Machine.execMspz h a b t s
  | .mbsp h a b t => Sys2Proof.Machine.execMbsp h a b t s
  | .mzero acc lvlen lvl iter => Sys2Proof.Machine.execMzero acc lvlen lvl iter s
  | .mscl acc a => Sys2Proof.Machine.execMscl acc a s
  | .mdtab addr tslot => Sys2Proof.Machine.execMdtab addr tslot s
  | .mdrain o => Sys2Proof.Machine.execMdrain o s
  | .mSetf flag => Sys2Proof.Machine.execMSetf flag s
  | .mClrf flag => Sys2Proof.Machine.execMClrf flag s
  | .mWaitf flag clear => Sys2Proof.Machine.execMWaitf flag clear s
  | .mTkpost tok n => Sys2Proof.Machine.execMTkpost tok n s
  | .mTkwait tok n => Sys2Proof.Machine.execMTkwait tok n s
  | .mRend num fin => Sys2Proof.Machine.execMRend num fin s
  | .ksort k => Sys2Proof.Machine.execKsort k s
  | .kmerge k => Sys2Proof.Machine.execKmerge k s
  | .ktopk k => Sys2Proof.Machine.execKtopk k s
  | .khist k => Sys2Proof.Machine.execKhist k s
  | .kroute k => Sys2Proof.Machine.execKroute k s
  | .kSetf flag => Sys2Proof.Machine.execKSetf flag s
  | .kClrf flag => Sys2Proof.Machine.execKClrf flag s
  | .kWaitf flag clear => Sys2Proof.Machine.execKWaitf flag clear s
  | .kTkpost tok n => Sys2Proof.Machine.execKTkpost tok n s
  | .kTkwait tok n => Sys2Proof.Machine.execKTkwait tok n s
  | .kRend num fin => Sys2Proof.Machine.execKRend num fin s
  | .aqPush rs1 => Sys2Proof.Machine.execAqPush rs1 s
  | .aqStat rd rs1 => Sys2Proof.Machine.execAqStat rd rs1 s
  | .tkPost tok rs1 => Sys2Proof.Machine.execTkPost tok rs1 s
  | .tkWait tok rs1 => Sys2Proof.Machine.execTkWait tok rs1 s
  | .cycRd rd hi => Sys2Proof.Machine.execCycRd rd hi s
  | .lqCfg q rs1 => Sys2Proof.Machine.execLqCfg q rs1 s
  | .stgIssue rs1 => Sys2Proof.Machine.execStgIssue rs1 s
  | .stgDec rs1 => Sys2Proof.Machine.execStgDec rs1 s
  | .ebreak compressed => Sys2Proof.Machine.execEbreak compressed s
  | .illegalEncoding sub => Sys2Proof.Machine.execIllegalEncoding sub s
  | .rv32imcBaseInstruction compressed op => Sys2Proof.Machine.execRv32imcBaseInstruction compressed op s
  | .coldReset straps => Sys2Proof.Machine.execColdReset straps s
  | .warmReset straps => Sys2Proof.Machine.execWarmReset straps s
  | .packageReset value => Sys2Proof.Machine.execPackageReset value s
  | .bootReady images key found => Sys2Proof.Machine.execBootReady images key found s
  | .ucieRetrainTimeout lost => Sys2Proof.Machine.execUcieRetrainTimeout lost s
  | .peerStageAccess buf off len data => Sys2Proof.Machine.execPeerStageAccess buf off len data s
  | .peerRemoteAtomic buf off n op arg expect => Sys2Proof.Machine.execPeerRemoteAtomic buf off n op arg expect s
  | .peerGrantRequest part slot rights size attr big => Sys2Proof.Machine.execPeerGrantRequest part slot rights size attr big s
  | .peerGrantResponse ok => Sys2Proof.Machine.execPeerGrantResponse ok s
  | .coolantConditionChange rate => Sys2Proof.Machine.execCoolantConditionChange rate s
  | .hostLinkTraining up cxl width rate => Sys2Proof.Machine.execHostLinkTraining up cxl width rate s
  | .hostIsoWrite v => Sys2Proof.Machine.execHostIsoWrite v s
  | .vfBindWrite v => Sys2Proof.Machine.execVfBindWrite v s
  | .queueEnable cfg => Sys2Proof.Machine.execQueueEnable cfg s
  | .queueNotify v => Sys2Proof.Machine.execQueueNotify v s
  | .queueResume v => Sys2Proof.Machine.execQueueResume v s
  | .extAdd cmd => Sys2Proof.Machine.execExtAdd cmd s
  | .extRelease cmd => Sys2Proof.Machine.execExtRelease cmd s
  | .hostReadShared addr => Sys2Proof.Machine.execHostReadShared addr s
  | .hostReadOwnership addr => Sys2Proof.Machine.execHostReadOwnership addr s
  | .hostWriteback addr data keep => Sys2Proof.Machine.execHostWriteback addr data keep s
  | .hostMemWrite addr data => Sys2Proof.Machine.execHostMemWrite addr data s
  | .bisnpResponse data => Sys2Proof.Machine.execBisnpResponse data s
  | .gSlicedWrite v => Sys2Proof.Machine.execGSlicedWrite v s
  | .pGroupWrite v => Sys2Proof.Machine.execPGroupWrite v s
  | .gSitesWrite v => Sys2Proof.Machine.execGSitesWrite v s
  | .pPluginWrite v => Sys2Proof.Machine.execPPluginWrite v s
  | .fdescWrite v => Sys2Proof.Machine.execFdescWrite v s
  | .attemptFailure att cause tcause eng => Sys2Proof.Machine.execAttemptFailure att cause tcause eng s
  | .patrolScrub found => Sys2Proof.Machine.execPatrolScrub found s
  | .firmwareRetest kind recurs => Sys2Proof.Machine.execFirmwareRetest kind recurs s
  | .cselWrite v => Sys2Proof.Machine.execCselWrite v s
  | .profCtlWrite v => Sys2Proof.Machine.execProfCtlWrite v s
  | .ringConfigWrite ring off v => Sys2Proof.Machine.execRingConfigWrite ring off v s
  | .debugAttachWrite v => Sys2Proof.Machine.execDebugAttachWrite v s
  | .pDbgenWrite v => Sys2Proof.Machine.execPDbgenWrite v s
  | .registerWrite space fn off size v => Sys2Proof.Machine.execRegisterWrite space fn off size v s
  | .ucieRetrainComplete lanes rate => Sys2Proof.Machine.execUcieRetrainComplete lanes rate s
  | .peerLinkTraining lanes => Sys2Proof.Machine.execPeerLinkTraining lanes s
  | .bar => Sys2Proof.Machine.execBar s
  | .halt => Sys2Proof.Machine.execHalt s
  | .nop => Sys2Proof.Machine.execNop s
  | .vHalt => Sys2Proof.Machine.execVHalt s
  | .vNop => Sys2Proof.Machine.execVNop s
  | .mend => Sys2Proof.Machine.execMend s
  | .mHalt => Sys2Proof.Machine.execMHalt s
  | .mnop => Sys2Proof.Machine.execMnop s
  | .kHalt => Sys2Proof.Machine.execKHalt s
  | .ecall => Sys2Proof.Machine.execEcall s
  | .pfFunctionLevelReset => Sys2Proof.Machine.execPfFunctionLevelReset s
  | .configRequestRetry => Sys2Proof.Machine.execConfigRequestRetry s
  | .clusterRetire => Sys2Proof.Machine.execClusterRetire s
  | .chipletSharedLogicFailure => Sys2Proof.Machine.execChipletSharedLogicFailure s
  | .memChipletFailure => Sys2Proof.Machine.execMemChipletFailure s
  | .allUcieModulesDown => Sys2Proof.Machine.execAllUcieModulesDown s
  | .schFailure => Sys2Proof.Machine.execSchFailure s
  | .ucieLaneFailure => Sys2Proof.Machine.execUcieLaneFailure s
  | .ucieRetrain => Sys2Proof.Machine.execUcieRetrain s
  | .peerLinkLoss => Sys2Proof.Machine.execPeerLinkLoss s
  | .hostLinkDown => Sys2Proof.Machine.execHostLinkDown s
  | .vfEnableSet => Sys2Proof.Machine.execVfEnableSet s
  | .vfEnableClear => Sys2Proof.Machine.execVfEnableClear s
  | .functionLevelReset => Sys2Proof.Machine.execFunctionLevelReset s
  | .linkFunctionReset => Sys2Proof.Machine.execLinkFunctionReset s
  | .flrCompletion => Sys2Proof.Machine.execFlrCompletion s
  | .migTrackStart => Sys2Proof.Machine.execMigTrackStart s
  | .migTrackStop => Sys2Proof.Machine.execMigTrackStop s
  | .migQuiesce => Sys2Proof.Machine.execMigQuiesce s
  | .queueQuiesced => Sys2Proof.Machine.execQueueQuiesced s
  | .migExport => Sys2Proof.Machine.execMigExport s
  | .migImport => Sys2Proof.Machine.execMigImport s
  | .migResume => Sys2Proof.Machine.execMigResume s
  | .migHarvest => Sys2Proof.Machine.execMigHarvest s
  | .queueDisable => Sys2Proof.Machine.execQueueDisable s
  | .writeIndexWordRead => Sys2Proof.Machine.execWriteIndexWordRead s
  | .nopPacket => Sys2Proof.Machine.execNopPacket s
  | .graphLaunch => Sys2Proof.Machine.execGraphLaunch s
  | .nodeLaunch => Sys2Proof.Machine.execNodeLaunch s
  | .bufCreate => Sys2Proof.Machine.execBufCreate s
  | .bufRelease => Sys2Proof.Machine.execBufRelease s
  | .capGrant => Sys2Proof.Machine.execCapGrant s
  | .signal => Sys2Proof.Machine.execSignal s
  | .waitPacket => Sys2Proof.Machine.execWaitPacket s
  | .waitTest => Sys2Proof.Machine.execWaitTest s
  | .measureOpen => Sys2Proof.Machine.execMeasureOpen s
  | .receipt => Sys2Proof.Machine.execReceipt s
  | .receiptSnapshot => Sys2Proof.Machine.execReceiptSnapshot s
  | .receiptWritten => Sys2Proof.Machine.execReceiptWritten s
  | .receiptTokenRefill => Sys2Proof.Machine.execReceiptTokenRefill s
  | .energySet => Sys2Proof.Machine.execEnergySet s
  | .reservedPacketType => Sys2Proof.Machine.execReservedPacketType s
  | .packetCompletion => Sys2Proof.Machine.execPacketCompletion s
  | .extAddComplete => Sys2Proof.Machine.execExtAddComplete s
  | .extReleaseComplete => Sys2Proof.Machine.execExtReleaseComplete s
  | .recallTimeout => Sys2Proof.Machine.execRecallTimeout s
  | .graphAdmission => Sys2Proof.Machine.execGraphAdmission s
  | .dispatchDecision => Sys2Proof.Machine.execDispatchDecision s
  | .pluginTimeout => Sys2Proof.Machine.execPluginTimeout s
  | .pluginFault => Sys2Proof.Machine.execPluginFault s
  | .coreReadyReport => Sys2Proof.Machine.execCoreReadyReport s
  | .streamStart => Sys2Proof.Machine.execStreamStart s
  | .slipFault => Sys2Proof.Machine.execSlipFault s
  | .stretchLevelApply => Sys2Proof.Machine.execStretchLevelApply s
  | .energyRefillTick => Sys2Proof.Machine.execEnergyRefillTick s
  | .sliceExpiry => Sys2Proof.Machine.execSliceExpiry s
  | .graceExpiry => Sys2Proof.Machine.execGraceExpiry s
  | .tenantSwitchSaveComplete => Sys2Proof.Machine.execTenantSwitchSaveComplete s
  | .attemptRetirement => Sys2Proof.Machine.execAttemptRetirement s
  | .launchedDescriptorCheck => Sys2Proof.Machine.execLaunchedDescriptorCheck s
  | .deadlineFault => Sys2Proof.Machine.execDeadlineFault s
  | .tahrTakeTrap => Sys2Proof.Machine.execTahrTakeTrap s
  | .trapResolved => Sys2Proof.Machine.execTrapResolved s
  | .scalarLoadArrival => Sys2Proof.Machine.execScalarLoadArrival s
  | .loaderDescriptorIssue => Sys2Proof.Machine.execLoaderDescriptorIssue s
  | .lqRowArrival => Sys2Proof.Machine.execLqRowArrival s
  | .storerDescriptorIssue => Sys2Proof.Machine.execStorerDescriptorIssue s
  | .sideCoreHeldRelease => Sys2Proof.Machine.execSideCoreHeldRelease s
  | .stageLoad => Sys2Proof.Machine.execStageLoad s
  | .stageStore => Sys2Proof.Machine.execStageStore s
  | .stageQnt => Sys2Proof.Machine.execStageQnt s
  | .stageHash => Sys2Proof.Machine.execStageHash s
  | .stageScl => Sys2Proof.Machine.execStageScl s
  | .stageDecode => Sys2Proof.Machine.execStageDecode s
  | .stageTransferComplete => Sys2Proof.Machine.execStageTransferComplete s
  | .cdataRead => Sys2Proof.Machine.execCdataRead s
  | .profCtlClr => Sys2Proof.Machine.execProfCtlClr s
  | .pcSample => Sys2Proof.Machine.execPcSample s
  | .counterFlush => Sys2Proof.Machine.execCounterFlush s
  | .reuseRegisterExpiry => Sys2Proof.Machine.execReuseRegisterExpiry s
  | .debugHalt => Sys2Proof.Machine.execDebugHalt s
  | .debugResume => Sys2Proof.Machine.execDebugResume s
  | .debugStep => Sys2Proof.Machine.execDebugStep s
  | .debugRead => Sys2Proof.Machine.execDebugRead s
  | .debugWrite => Sys2Proof.Machine.execDebugWrite s
  | .watchpointImpreciseStop => Sys2Proof.Machine.execWatchpointImpreciseStop s
  | .flitCrcError => Sys2Proof.Machine.execFlitCrcError s

end Sys2Proof.Machine
end

