-- ==== Sys2Proof/Machine/Cycle.lean ====
section
/-! DEFINITION. The course of a core's cycle and of a timebase cycle: held effects, what each stream does, traps
of a cycle, rendezvous, clocks, and the events that are due or may happen (06 R136 to R140, 08 R176 to R201, 13
R298, R299, R307). -/

namespace Sys2Proof.Machine

open Host (Outcome)

/-! Effects that come due (08 R185) -/

/-- A held write takes effect at the start of a core cycle. -/
def State.applyWrite (s : State) (a : PAct) : State :=
  let c := s.core
  match a with
  | .sreg r v => s.setCore { c with s := Tab.set c.s r v }
  | .ireg x v => s.setCore { c with ix := Tab.set c.ix x v }
  | .preg p mask val => s.setCore { c with p := Tab.upd 0 c.p p fun o => (o &&& ~~~mask) ||| (val &&& mask) }
  | .vreg r mask val => s.setCore { c with v := Tab.upd 0 c.v r fun o => (o &&& ~~~mask) ||| (val &&& mask) }
  | .vctl v => s.setCore { c with vctlV := v }
  | .vstat b => s.setCore (c.setVstat b)
  | .accRow acc row mask val =>
    s.setCore { c with acc := Tab.upd 0 c.acc (acc * 128 + row) fun o => (o &&& ~~~mask) ||| (val &&& mask) }
  | .accKind acc int => s.setCore { c with accKind := Tab.set c.accKind acc int }
  | .accZero acc =>
    let b := bit32 acc &&& ~~~c.accFresh
    s.setCore { c with acc := c.acc.filter (fun x => x.1 / 128 ≠ acc), accflags := c.accflags &&& ~~~b }
  | .accFlag acc => s.setCore (c.setAccFlag acc)
  | .scale h v => s.setCore { c with scale := Tab.set c.scale h v }
  | .sram cells g => s.setInst (s.inst.write cells g)
  | .go tab => s.setCore { c with go := c.go ||| BitVec.ofNat 4 (2 ^ tab), goPend := c.goPend &&& ~~~BitVec.ofNat 4 (2 ^ tab) }
  | .table slot fs => s.setCore { c with ctab := Tab.set c.ctab slot fs }
  | .push q r =>
    s.setCore { c with
      sq := Tab.upd Fifo.empty c.sq q fun f => { f with items := f.items ++ [r] }
      sqHold := Tab.upd 0 c.sqHold q (· - 1) }
  | .qpush q rows => s.setCore { c with sqWait := c.sqWait ++ rows.map fun r => (q, r) }
  | .decoded cells mark => s.setCore { c with decB := Memory.putCells c.decB cells, markidx := mark }
  | _ => s

/-- A held read, with what follows from it, takes place in a core cycle, after the writes that it sees. -/
def State.applyRead (s : State) (a : PAct) : State :=
  match a with
  | .vrow op => s.vrowStep op
  | .mread op => s.mreadStep op
  | .mfin op => s.mfinStep op
  | .mload op => s.mloadStep op
  | .drain op k => s.drainStep op k
  | .resid op k row kind => s.residStep op k row kind
  | .kread op => s.kreadStep op
  | _ => s

/-- The beginning of an entry of an `mbsp`, which comes in the matrix stream's turn. -/
def PAct.isEntry (a : PAct) : Bool := match a with | .mbsp _ => true | _ => false

/-- A core cycle opens: what comes due takes effect (R185). -/
def State.openCycle (s : State) : State :=
  let c := s.core
  let now := (c.pend.filter fun p => decide (p.at_ ≤ c.clk)).map (·.act)
  let s1 := s.setCore
    { c with
      vsFresh := 0, accFresh := 0, efClaim := 0, blocked := none, scaleNew := 0
      pend := c.pend.filter fun p => decide (c.clk < p.at_) || p.act.isEntry }
  now.foldl State.applyRead (now.foldl State.applyWrite s1)

/-! What a stream does in a cycle (08 R176 to R201) -/

/-- The V64 or stride-form fields of a vector instruction. -/
def vargOf (i : Instr) : Option VArg :=
  match i with
  | .vadd v | .vsub v | .vmul v | .vmad v | .vmin v | .vmax v | .vabs v | .vneg v | .vand v | .vor v | .vxor v | .vshl v
  | .vshr v | .vsra v | .vrcp v | .vrsq v | .vexp2 v | .vlog2 v | .vtanh v | .vcmp v | .vredsum v | .vredmax v
  | .vredmin v | .vperm v | .vxpose v | .vbcast v | .vmovs v | .vpart v | .vcompact v | .vgath v | .vscat v | .vpop v
  | .vpush v | .vcvt v | .vqnt v | .vdqnt v | .unpk3 v | .vdot4 v | .vpack v | .vunpk v => some v
  | _ => none

/-- The iteration flag of an instruction and the level it is taken at, if one is named (R195, 15 R348, R350). -/
def iterOf (i : Instr) : BitVec 2 × Option Nat :=
  let lvl (en : Bool) (l : BitVec 3) : Option Nat := if en then some l.toNat else none
  match i with
  | .vlds v | .vsts v | .vfill v | .vrng v | .vpatx v => (v.iter, none)
  | .mstep h _ _ _ | .mspz h _ _ _ | .mbsp h _ _ _ => (h.iter, lvl h.lvlen h.lvl)
  | .mzero _ en l it => (it, lvl en l)
  | .mdrain o => (o.iter, lvl o.lvlen o.lvl)
  | i =>
    match vargOf i with
    | some v => (match v.ext with | .v64 it => (it, none) | .v96 _ _ _ l it => (it, some l.toNat))
    | none => (0, none)

/-! Iterations in which nothing issues (R194, R195) -/

/-- The iteration flags and levels of the words of a body. -/
def wordFlags (eng : Nat) : Nat → List Byte → List (Nat × Option Nat)
  | 0, _ => []
  | n + 1, bs =>
    match decodeFor eng bs with
    | .overrun => []
    | .word i len => ((iterOf i).1.toNat, (iterOf i).2) :: wordFlags eng n (bs.drop len)

/-- Iterations of the levels below one. -/
def Core.span (c : Core) (tab l : Nat) : Nat := (List.range l).foldl (fun n k => n * c.trips tab k) 1

/-- The least number from g on whose digit of span p and t trips is its first, or its last. -/
def nextDigit (p t : Nat) (last : Bool) (g : Nat) : Nat :=
  if g / p % t = (if last then t - 1 else 0) then g
  else if last then g / (p * t) * (p * t) + (t - 1) * p
  else (g / (p * t) + 1) * (p * t)

/-- The least flat iteration from g on in which a word with a flag and level issues. -/
def Core.flagNext (c : Core) (tab g : Nat) (f : Nat × Option Nat) : Option Nat :=
  match f with
  | (1, none) => if g = 0 then some 0 else none
  | (2, none) => some (c.span tab 6 - 1)
  | (k, some l) =>
    if (k = 1 ∨ k = 2) ∧ l < 6 then some (nextDigit (c.span tab l) (c.trips tab l) (decide (k = 2)) g) else some g
  | _ => some g

/-- The counters of a flat iteration. -/
def Core.digits (c : Core) (tab g : Nat) : List Nat := (List.range 6).map fun l => g / c.span tab l % c.trips tab l

/-- The replay in focus stands at the start of an iteration in which no word of its body issues: it goes on with the
next iteration in which one does, or after the last. -/
def State.jumpIter (s : State) (r : Replay) (flags : List (Nat × Option Nat)) : State :=
  let c := s.core
  let g := s.flat + 1
  let next := ((flags.filterMap (c.flagNext r.tab g)).filter fun n => decide (g ≤ n) && decide (n < c.span r.tab 6)).min?
  match next with
  | some n => s.setStm { s.stm with replay := some { r with j := c.digits r.tab n } }
  | none => s.setStm { s.stm with pc := r.after, replay := if s.cur.eng = 1 then none else some { r with j := [] } }

/-- A word that does not issue is passed; at the start of a body of which no word issues, the whole iteration is. -/
def State.skipWord (s : State) (len : Nat) : State :=
  match s.stm.replay with
  | none => s.passWord len
  | some r =>
    if s.stm.pc ≠ r.first then s.passWord len
    else
      let flags := wordFlags s.cur.eng 256 (((s.section_ s.cur.eng).drop r.first).take (r.after - r.first))
      if flags.any fun f => s.issues (BitVec.ofNat 2 f.1) f.2 then s.passWord len else s.jumpIter r flags

/-- The instruction in focus that issues next: words of a replay that do not issue in this iteration are passed and
take no cycle (R194, R195); a fetch beyond the section traps (R196, 15 R336), and one below a side core's instruction store
(log 30).  At most the
rest of a body, a jump and a whole body are passed before a word issues. -/
def State.fetchNext : Nat → State → Except State (State × Instr)
  | 0, s => .error s
  | fuel + 1, s =>
    let eng := s.cur.eng
    let pc := s.stm.pc
    if (eng = 4 ∨ eng = 5) ∧ pc < 0x80000000 then .error (s.trap 0x13 1 pc)
    else
      match decodeFor eng ((s.section_ eng).drop (sectOff eng pc)) with
      | .overrun => .error (s.trap 0x12 0)
      | .word i len =>
        let f := iterOf i
        if s.issues f.1 f.2 then .ok (s, i) else State.fetchNext fuel (s.skipWord len)

/-- Turns of `loopw` loops whose last word's occupancy has ended (16 R384). -/
def State.turnLoops : Nat → State → State
  | 0, s => s
  | n + 1, s =>
    if s.stm.turn && decide (s.stm.free ≤ s.core.clk) && !s.trapped then State.turnLoops n s.loopwTurn else s

/-- Data of a scalar load is written to its register at the end of this core cycle, after the writes of earlier
instructions that complete in it; the next instruction issues in the cycle after (R185, R186). -/
def State.takeLoad (s : State) (r : LoadRec) : State :=
  let c := s.core
  let s1 := (s.setCore { c with load := none }).wr 1 (BitVec.ofNat 6 r.d) (r.v.extractLsb' 0 32)
  let s2 := if r.wide then s1.wr 1 (BitVec.ofNat 6 (r.d + 1)) (r.v.extractLsb' 32 32) else s1
  s2.setStm { s2.stm with free := c.clk + 1, stall := 0x13F }

/-- What stands in the way of a started stream that is at no rendezvous: a barrier, a load, its issue slot, or room
that the matrix stream's drain waits for; then what it issues. -/
def State.toIssue (s : State) : Except State (State × Instr) :=
  let t := s.stm
  let c := s.core
  let go (s : State) : Except State (State × Instr) :=
    if c.clk < s.stm.free then
      match s.cur.eng, c.blocked with
      | 2, some o => .error (s.stalled 1 o)
      | _, _ => .error (s.stalled 0 0)
    else
      match s.cur.eng, c.blocked with
      | 2, some o => .error (s.stalled 1 o)
      | _, _ => s.fetchNext 2048
  match (if s.cur.eng = 0 then c.load else none) with
  | some r => .error (if r.arrived then s.takeLoad r else s.stalled 1 0x3F)
  | none =>
    match t.latch with
    | some k =>
      if barLatch 0 ≤ k then
        if s.barOpen (k - barLatch 0) then go (s.setStm { t with latch := none, stall := 0 }) else .error (s.stalled 1 0x3E)
      else go s
    | none => go s

/-- A stream's place at a rendezvous first: it waits, ends, or continues (R176, R177). -/
def State.fromMeet (s : State) : Except State (State × Instr) :=
  let t := s.stm
  match t.meet with
  | .away => s.toIssue
  | .withheld => .error (s.stalled 1 0x3D)
  | .arrived _ _ _ _ => .error (s.stalled 1 0x3D)
  | .leaving n fin _ =>
    if s.core.clk < n then .error (s.stalled 1 0x3D)
    else if fin then .error (s.setStm { t with ended := true, meet := .away, latch := none, stall := 0x3F1 })
    else State.toIssue (s.setStm { t with meet := .away, stall := 0 })

/-- What the stream in focus does in the core cycle: the state in which it issues an instruction, or the state it
leaves without. -/
def State.streamPlan (s : State) : Except State (State × Instr) :=
  let t := s.stm
  if !t.present || t.ended then .error s
  else
    let s1 := if t.started then s else match execStreamStart s with | .next u => u | _ => s
    if !s1.stm.started then .error (s1.setStm { s1.stm with stall := 0x3F0 })
    else
      let s2 := s1.turnLoops 5
      if s2.trapped then .error s2 else s2.fromMeet

/-- The matrix stream before it issues: the entries that wait in its drains come to their queues, and unless one of them
finds no room, the entry of an `mbsp` that is due begins (R188, R455, R461). -/
def State.matrixOpens (s : State) : State :=
  let s1 := s.pushWaiting 2
  let c := s1.core
  let due (p : Pend) : Bool := p.act.isEntry && decide (p.at_ ≤ c.clk)
  match c.pend.find? due with
  | some p =>
    match p.act with
    | .mbsp op => (s1.setCore { c with pend := c.pend.erase p }).bspRun op
    | _ => s1
  | none => s1

/-- A stream's turn. -/
def State.streamTurn (s : State) : Outcome State Fault Refusal :=
  let o := if s.cur.eng = 2 then s.matrixOpens else s
  if o.trapped then .next o
  else
  match o.streamPlan with
  | .error t => .next t
  | .ok (t, i) => exec i t

/-! The end of a core cycle -/

/-- Posts of the cycle apply in order (R189): one that would overflow leaves the count and traps. -/
def State.applyPosts (s : State) : State :=
  let c := s.core
  c.posts.foldl
    (fun s p =>
      let c := s.core
      let n := Tab.get 0 c.tk p.tok + p.n
      if 0xFFFF < n then s.takeTrap ⟨0x0D, p.tok, p.eng, p.pc, p.cmd, 0, 0, none, p.replay⟩
      else s.setCore { c with tk := Tab.set c.tk p.tok n })
    (s.setCore { c with posts := [] })

/-- The queues as the next cycle finds them, and the flags (R188, R190): a set wins over a clear; stage commands pushed in
one cycle enter in ascending engine order (20 R480). -/
def Core.settle (c : Core) : Core :=
  { c with
    lq := c.lq.map fun q => (q.1, q.2.settle)
    sq := c.sq.map fun q => (q.1, q.2.settle)
    scaleQ := c.scaleQ.settle
    laq := c.laq.settle
    saq := c.saq.settle
    stgq := ({ c.stgq with inc := c.stgq.inc.mergeSort fun a b => decide (a.eng ≤ b.eng) } : Fifo StgCmd).settle
    ef := (c.ef &&& ~~~c.efClr) ||| c.efSet
    efSet := 0
    efClr := 0 }

/-- The queues and paths that have to be empty for a stop at a yield are empty (13 R307). -/
def State.quietJob (s : State) : Bool :=
  let c := s.core
  c.lq.all (fun q => q.2.size == 0) && c.sq.all (fun q => q.2.size == 0) && c.sqWait.isEmpty && c.scaleQ.size == 0 && c.laq.size == 0 &&
    c.saq.size == 0 && c.stgq.size == 0 && c.lflight.isEmpty && c.held.isEmpty &&
    [4, 5].all (fun e => Tab.get 0 c.doneN e == Tab.get 0 c.pushedN e) && s.openXfers.isEmpty

/-- A rendezvous completes once every stream that is present and has not ended has arrived (R176): the streams
continue 4 core cycles later, or the job will stop at its `yield` then (13 R307); arrivals that disagree trap. -/
def State.meetAll (s : State) : State :=
  let c := s.core
  let live := c.live
  let arrived (x : Nat × Stream) : Option (Nat × Bool × Bool) :=
    match x.2.meet with
    | .arrived _ n f y => some (n, f, y)
    | _ => none
  match live.map arrived with
  | [] => s
  | a :: as =>
    if (a :: as).any Option.isNone then s
    else
      let key (x : Option (Nat × Bool × Bool)) : Nat × Bool := match x with | some (n, f, _) => (n, f) | none => (0, false)
      let at0 : Nat := match (Tab.get Stream.absent c.streams 0).meet with
        | .arrived pc _ _ _ => pc
        | _ => (Tab.get Stream.absent c.streams 0).pc
      if as.any fun x => key x ≠ key a then s.takeTrap ⟨0x0E, 0, 0, at0, 0, 0, 0, none, none⟩
      else
        let yld := (a :: as).any fun x => match x with | some (_, _, y) => y | none => false
        let stop := yld && s.att.preempt && s.att.restart && s.quietJob
        let leave (x : Nat × Stream) : Nat × Stream :=
          if x.2.present && !x.2.ended then (x.1, { x.2 with meet := .leaving (c.clk + 4) (key a).2 stop }) else x
        s.setCore { c with streams := c.streams.map leave }

/-- The counter of a stream's cycle in a stall class (14 R321). -/
def stallCounter (eng : Nat) (w : BitVec 10) : Nat :=
  let obj := w.toNat % 256
  match w.toNat / 256 with
  | 0 => if eng = 7 then 3 else eng
  | 1 => 16 + obj
  | 2 => 82
  | _ => 83 + (obj - 0xF0)

/-- One more of a core's counter. -/
def Core.count (c : Core) (k : Nat) : Core := { c with counters := Tab.upd 0 c.counters k (· + 1) }

/-- Every present stream's cycle is counted (R201, 14 R321). -/
def Core.countStalls (c : Core) : Core :=
  (c.streams.filter (·.2.present)).foldl (fun c x => c.count (stallCounter x.1 (BitVec.ofNat 10 (c.stallOf x.1)))) c

/-- A core cycle closes: posts, flags, queues, a rendezvous, the end of the job, the clock. -/
def State.closeCycle (s : State) : State :=
  let s1 := s.applyPosts
  let s2 := (s1.setCore s1.core.settle).meetAll
  let c := s2.core
  let c1 := c.countStalls
  let spent (x : Nat × Stream) : Nat × Stream := if x.2.ended then (x.1, { x.2 with stall := 0x3F1 }) else x
  let s3 := s2.setCore { c1 with clk := c.clk + 1, done := c.done || c.live.isEmpty }
  let s4 := s3.raiseSamples
  s4.setCore { s4.core with streams := s4.core.streams.map spent }

/-! A core's turn -/

/-- A whole core cycle: what the engines would do in it, each stream but one that trapped (13 R298, R299). -/
def State.runStream (s : State) (eng : Nat) : State :=
  let f : State := { s with cur := { s.cur with eng := eng } }
  if f.trapped then s
  else
    match f.streamTurn with
    | .next t => t
    | _ => s

/-- The engines that a core's streams have, in the order of service (00 R6). -/
def Core.engines (c : Core) : List Nat := Tab.keys c.streams

/-- The state that a core cycle would leave, and with it the traps of that cycle. -/
def State.trial (s : State) : State := (s.core.engines.foldl State.runStream s.openCycle).closeCycle

/-- The traps of one core in one cycle, by engine identifier (13 R299). -/
def byEngine (xs : List TrapRec) : List TrapRec := (List.range 16).flatMap fun e => xs.filter fun x => x.engine == e

/-- The control stream's loops in a cycle that freezes: a `loopw` test that is due is made, and nothing issues. -/
def State.loopsNow (s : State) : List LoopRec :=
  let o := s.openCycle
  (State.turnLoops 5 { o with cur := { o.cur with eng := 0 } }).core.loops

/-- The walk of an access of the core in focus that its TLB does not hold and that trapped at once (09 R219). -/
def State.trapWalk (s : State) (r : TrapRec) : State :=
  match r.chunk with
  | some (b, k) => if r.cause = 6 ∧ r.sub = 1 then s.walkFor s.cur.cluster s.att.part b k (s.vfOf s.att) else s
  | none => s

/-- The core in focus freezes from this cycle on with the traps that the trial met; nothing else of the cycle takes
effect (13 R298), but for a ternary code's sticky bit (18 R435) and the walk of a store (09 R219), and a command that stops
gives back what it and later ones took (R297).  A STEP runs its cycle once the Tahr has resolved them (14 R329). -/
def State.freezeWith (s : State) (new : List TrapRec) : State :=
  let ls := s.loopsNow
  let rs := (byEngine new).map fun r => { r with loops := ls }
  let c := rs.foldl (fun c r => if r.cmdb && r.engine != 7 then (c.undoStep r.cmdidx).undoDrain r.cmdidx else c) s.core
  let t3 : Word := if rs.any fun r => r.cause == 0x14 then 1 else 0
  let step := c.step && rs.all fun r => r.cause == 6 && r.sub == 1
  let s1 := s.setCore { c with frozen := true, step := step, traps := rs, vstat := c.vstat ||| t3 }
  rs.foldl (fun s r => (s.trapWalk r).toTahr r) s1

/-- A gang cycle of a core that is frozen (13 R298, 14 R321). -/
def State.frozenCycle (s : State) : State :=
  let c := s.core
  (s.setCore (c.countStalls.count 6)).raiseSamples

/-- Every live stream has come to the stop at its `yield` (13 R307). -/
def Core.stopsNow (c : Core) : Bool :=
  !c.live.isEmpty && c.live.all fun x => match x.2.meet with
    | .leaving n _ stop => stop && decide (n ≤ c.clk)
    | _ => false

/-- The job stops at its `yield` and writes its checkpoint record (13 R307, R308). -/
def State.stopJob (s : State) : State :=
  let s1 := s.openCycle
  let c := s1.core
  let a := s1.att
  let b := c.checkpoint a s1.job.grank s1.inst.gclk
  let s2 := s1.setAtt { a with ckpts := Tab.set a.ckpts (ckKey s1.job.inst s1.job.grank) b }
  s2.setCore { c with done := true, pend := [] }

/-- A gang cycle of the core in focus (R137, R139, R200, 13 R298).  A STEP does not take the stop at a `yield` (13 R310; log
33). -/
def State.gangCycle (s : State) : State :=
  let c := s.core
  if c.done then (if c.live.isEmpty then s.setCore c.countStalls else s)
  else if !s.att.nobudget && decide (c.budget ≤ s.inst.gclk) then (match execDeadlineFault s with | .next t => t | _ => s)
  else
    let s0 := s.captureSamples
    let forced := match c.hits with
      | h :: _ => decide (h.ncmd + 32 ≤ (Tab.get Stream.absent c.streams 0).ncmd)
      | [] => false
    let s0 := if forced && !c.stands then (match execWatchpointImpreciseStop s0 with | .next t => t | _ => s0) else s0
    if s0.core.stands then s0.frozenCycle
    else if c.stopsNow then
      if c.step then (s0.debugStop (s0.plainRec 0 0 0 (Tab.get Stream.absent c.streams 0).pc) false).frozenCycle
      else s0.stopJob.raiseSamples
    else
      let s1 := s0.setCore { s0.core with frozen := false }
      let new := s1.trial.core.traps
      if new.isEmpty then
        let id := s.cur.id
        let s2 := s1.openCycle
        { s2 with turns := c.engines.map (Turn.stream id) ++ [.fin id] ++ s2.turns }
      else (s0.freezeWith new).frozenCycle

/-- Levels skip timebase cycles (06 R139). -/
def skips (level time : Nat) : Bool :=
  match level with
  | 4 => time % 4 == 3
  | 8 => time % 2 == 1
  | 12 => time % 4 != 0
  | _ => false

/-- A core's turn of a timebase cycle from its T0 on: it may slip at T0 (06 R138), skips the cycle (R139), or has a
gang cycle. -/
def State.coreTurn (s : State) : State :=
  let c := s.core
  let i := s.inst
  match i.t0 with
  | none => s
  | some t0 =>
    if c.job.isNone || decide (s.time < t0) then s
    else
      let r := if s.time = t0 then s.choose 2 else (0, s)
      let sub := if c.halted then 2 else r.1
      let s1 : State := r.2
      if s.time = t0 ∧ sub ≠ 0 then
        match execSlipFault { s1 with cur := { s.cur with eng := sub } } with
        | .next t => t
        | _ => s1
      else if skips i.level s.time then s1.setCore (if c.done && !c.live.isEmpty then c else c.count 7)
      else s1.gangCycle

/-! A timebase cycle -/

/-- The gang clocks of the cycle that ends (06 R137). -/
def Inst.advance (i : Inst) (time : Nat) : Inst :=
  match i.t0 with
  | none => i
  | some t0 => if t0 ≤ time && !skips i.level time then { i with gclk := i.gclk + 1 } else i

/-- The event that acts on a stage transfer of an operation, or admits one; a peer's answer comes from outside. -/
def stageInstr (op : Nat) : Instr :=
  match op with
  | 0 => .stageLoad
  | 1 => .stageStore
  | 2 => .stageQnt
  | 3 => .stageHash
  | 4 => .stageScl
  | _ => .stageDecode

/-- The event of a packet type. -/
def packetInstr (typ : Nat) : Instr :=
  match typ with
  | 0 => .nopPacket
  | 1 => .graphLaunch
  | 2 => .nodeLaunch
  | 3 => .bufCreate
  | 4 => .bufRelease
  | 5 => .capGrant
  | 6 => .signal
  | 7 => .waitPacket
  | 8 => .measureOpen
  | 9 => .receipt
  | 10 => .energySet
  | _ => .reservedPacketType

/-- What the clock brings about at the cycle that begins (06 R140, R142, R146, R148, 04 R85, R90, 01 R31, 03 R65, R71, 07
R164, 14 R321, R324). -/
def State.timed (s : State) : List (Actor × Instr) :=
  let a (x y : Nat) : Actor := ⟨x, y, 0⟩
  let t := s.time
  (if t % 1250 = 0 then [(a 0 0, .energyRefillTick)] else []) ++
  (if t % 625000 = 0 then [(a 0 0, .receiptTokenRefill)] else []) ++
  (if t % 1048576 = 0 then [(a 0 0, .counterFlush)] else []) ++
  (s.atts.flatMap fun x => x.2.insts.zipIdx.flatMap fun i =>
    match i.1.change with
    | some (n, _) => if n ≤ t then [(a x.1 i.2, Instr.stretchLevelApply)] else []
    | none => []) ++
  (s.groups.flatMap fun g =>
    (if g.2.sliced && g.2.switch.isNone && (g.2.resident.isNone || decide (g.2.began + g.2.slice * 1250 ≤ t)) then
      [(a g.1 0, Instr.sliceExpiry)] else []) ++
    (match g.2.switch with
      | some w => if !w.saving && decide (w.at_ + g.2.grace * 1250 ≤ t) then [(a g.1 0, Instr.graceExpiry)] else []
      | none => [])) ++
  (if s.pkg.extBusy && decide (s.pkg.extAt + 1250000 ≤ t) then [(a 0 0, .extAddComplete)] else []) ++
  ((s.recalls.filter fun r => decide (r.at_ + 12500000 ≤ t)).map fun r => (a r.link r.line, Instr.recallTimeout)) ++
  (s.sites.flatMap fun x =>
    ((x.2.mods.filter fun m => m.2.state == 4 && decide (m.2.since + 1250000 ≤ t)).map fun m =>
      (a x.1 m.1, Instr.ucieRetrainTimeout (Config.freeWord (s.freeIdx + m.1)).toNat)) ++
    ((x.2.tags.filter fun r => decide (2 ^ 20 ≤ r.2.d)).map fun r => (a x.1 r.1, Instr.reuseRegisterExpiry))) ++
  (s.vfs.flatMap fun f => f.2.queues.flatMap fun q =>
    (if q.2.widxOn && (q.2.st == 1 || q.2.st == 2) && decide (q.2.tested + 1000 ≤ t) then [(a f.1 q.1, Instr.writeIndexWordRead)] else []) ++
    (if q.2.st == 3 && decide (q.2.tested + 1000 ≤ t) then [(a f.1 q.1, Instr.waitTest)] else []))

/-- Tenants' switches and suspensions that have what they need move on (06 R148). -/
def State.settleTenants (s : State) : State :=
  let s1 := s.running.foldl State.suspend s
  (Tab.keys s1.groups).foldl State.settleSwitch s1

/-- What the memory system does in a cycle: a walk of each chiplet may end (09 R219), a line may be replaced, requests
that wait at their homes are tried again (04 R88), and sequence counters of what changed become even (01 R18). -/
def State.memoryTurn (s : State) : State := ((Tab.keys s.walks).foldl State.walkTurn s).replace.drainHome.settleGen

/-- A peer package's answer has a request of the core it names that waits for it; one without is dropped. -/
def State.awaits (s : State) (x : PeerAnswer) : Bool :=
  match x.addr with
  | none => match (Tab.get Core.idle s.cores (x.site * 128 + x.core)).load with | some r => r.asked && !r.arrived | none => false
  | some a => (Tab.get [] s.stage x.site).any fun y => y.core == x.core && y.asked.any (·.2 == a)

/-- A core that a STEP let run one cycle is halted again (14 R329). -/
def State.endSteps (s : State) : State :=
  (s.cores.filter fun x => x.2.step && !x.2.frozen).foldl
    (fun s x => s.at_ (coreAt x.1) fun s =>
      s.debugStop (s.plainRec 0 0 0 (Tab.get Stream.absent s.core.streams 0).pc) false)
    s

/-- The timebase counts one: what the cycle reported is written, gang clocks count it, and the next cycle begins with
what is due in it and a turn for every core.  The one count serves every chiplet: the skew of up to 2 cycles that R3
allows between chiplets is zero in the model (log 2). -/
def State.tick (s : State) : State :=
  let s1 := s.endSteps.drainEvents.memoryTurn
  let adv (x : Nat × Attempt) : Nat × Attempt := (x.1, { x.2 with insts := x.2.insts.map fun i => i.advance s.time })
  let s2 := { s1 with
    atts := s1.atts.map adv
    time := s.time + 1
    replies := s1.replies.filter fun x => decide (s.time < x.at_) || s1.awaits x }.settleTenants
  { s2 with
    due := s2.due ++ s2.timed
    turns := (Tab.keys s2.cores).map Turn.core
    freeIdx := s2.freeIdx + 1 }

/-! What may happen next -/

/-- The packet event of a queue that fetches (03 R70), and its other events. -/
def State.queueEvents (s : State) (v q : Nat) (x : Queue) : List (Actor × Instr) :=
  let a : Actor := ⟨v, q, 0⟩
  let head : List (Actor × Instr) :=
    if x.st ≠ 2 then []
    else
      match x.head with
      | some p => if x.turn.isSome then [(a, .graphAdmission)] else if s.fenced v q p then [] else [(a, packetInstr p.typ)]
      | none =>
        match (s.fetchPacket v q).1 with
        | .ok p => [(a, packetInstr p.typ)]
        | _ => [(a, .reservedPacketType)]
  head ++ (if x.st = 3 then [(a, .waitTest)] else []) ++
    (if x.widxOn && (x.st == 1 || x.st == 2) then [(a, Instr.writeIndexWordRead)] else []) ++
    (if x.st = 4 then [(a, .queueQuiesced)] else []) ++
    ((x.packets.filter (·.fin.isSome)).map fun p => (⟨v, q, p.num⟩, Instr.packetCompletion))

/-- The events of a core and of the engines beside it. -/
def State.coreEvents (s : State) (id : Nat) (c : Core) : List (Actor × Instr) :=
  let p := coreAt id
  let e (k : Nat) : Actor := { p with eng := k }
  (match c.load with | some r => if r.arrived then [] else [(e 0, Instr.scalarLoadArrival)] | none => []) ++
    (if c.laq.items.isEmpty then [] else [(e 4, .loaderDescriptorIssue)]) ++
    (if c.lflight.isEmpty then [] else [(e 4, .lqRowArrival)]) ++
    (if c.saq.items.isEmpty then [] else [(e 5, .storerDescriptorIssue)]) ++
    ([4, 5].filterMap fun k => if c.held.any fun h => h.eng == k then some (e k, Instr.sideCoreHeldRelease) else none) ++
    (match c.stgq.items with | q :: _ => [(e 0, stageInstr q.op)] | [] => []) ++
    (if c.hits.isEmpty then [] else [(e 0, .watchpointImpreciseStop)]) ++
    (match c.job with
      | some j => if (((s.attempt j.att).insts.getD j.inst Inst.empty).t0).isNone then [(e 0, Instr.coreReadyReport)] else []
      | none => [])

/-- The events that may happen now and that no rule puts in order (log 1).  One whose condition does not hold changes
nothing. -/
def State.enabled (s : State) : List (Actor × Instr) :=
  let a (x y : Nat) : Actor := ⟨x, y, 0⟩
  (s.vfs.flatMap fun f =>
    (if f.2.flrbusy then [(a f.1 0, Instr.flrCompletion)] else []) ++ (if f.2.mig.busy then [(a f.1 0, Instr.queueQuiesced)] else []) ++
    f.2.queues.flatMap fun q => s.queueEvents f.1 q.1 q.2) ++
  (if s.receipts.isEmpty then [] else [(a 0 0, .receiptSnapshot), (a 0 0, .receiptWritten)]) ++
  (if s.runq.isEmpty then [] else [(a 0 0, .dispatchDecision)]) ++
  ((s.parts.filter fun p => p.2.plugged).flatMap fun p => [(a p.1 0, Instr.pluginTimeout), (a p.1 0, .pluginFault)]) ++
  (s.running.map fun n => (a n 0, Instr.attemptRetirement)) ++
  ((s.nodes.filter fun n => n.2.phase == .posted).map fun n => (a n.1 0, Instr.launchedDescriptorCheck)) ++
  ((s.tahr.filter fun q => !q.2.isEmpty).flatMap fun q => [(a (q.1 / 32) (q.1 % 32), Instr.tahrTakeTrap), (a (q.1 / 32) (q.1 % 32), .trapResolved)]) ++
  (s.cores.flatMap fun c => s.coreEvents c.1 c.2) ++
  (s.stage.flatMap fun x => x.2.zipIdx.flatMap fun y =>
    [(⟨x.1, y.1.core, y.2 + 1⟩, stageInstr y.1.cmd.op), (⟨x.1, y.1.core, y.2 + 1⟩, Instr.stageTransferComplete)]) ++
  (if s.pkg.extBusy then [(a 0 0, .extAddComplete), (a 0 0, .extReleaseComplete)] else []) ++
  ((s.groups.filter fun g => g.2.switch.isSome).map fun g => (a g.1 0, Instr.tenantSwitchSaveComplete))

/-- The first thing from the outside that is due by now, and the rest (log 12). -/
def nextInput (time : Nat) : List (Nat × Actor × Instr) → Option (Actor × Instr × List (Nat × Actor × Instr))
  | [] => none
  | x :: xs => if x.1 ≤ time then some (x.2.1, x.2.2, xs) else (nextInput time xs).map fun r => (r.1, r.2.1, x :: r.2.2)

/-- A reset from the outside, which a package that has stopped still takes (01 R38). -/
def isReset (i : Instr) : Bool :=
  match i with
  | .coldReset _ | .warmReset _ => true
  | _ => false

/-- The first reset among what the outside will do. -/
def nextReset : List (Nat × Actor × Instr) → Option (Actor × Instr × List (Nat × Actor × Instr))
  | [] => none
  | x :: xs => if isReset x.2.2 then some (x.2.1, x.2.2, xs) else nextReset xs

/-- What runs between the turns of a cycle: an event that is due, then something from the outside. -/
def State.pendingEvent (s : State) : Option (Instr × State) :=
  match s.due with
  | (a, i) :: rest => some (i, { s with cur := a, due := rest })
  | [] =>
    match nextInput s.time s.inputs with
    | some (a, i, rest) => some (i, { s with cur := a, inputs := rest })
    | none => none

/-- Nothing is left of the cycle: an event that may happen now, or the next cycle (log 1). -/
def State.freeTurn (s : State) : Outcome State Fault Refusal :=
  let es := s.enabled
  let r := s.choose (es.length + 1)
  match es[r.1]? with
  | some (a, i) => exec i { r.2 with cur := a }
  | none => .next r.2.tick

/-- A step of a package in service: a turn of a core cycle that is under way, then what is due or comes from outside,
then the next core's turn, then what else may happen. -/
def State.turnStep (s : State) : Outcome State Fault Refusal :=
  match s.turns with
  | .stream id eng :: rest => State.streamTurn { s with cur := { coreAt id with eng := eng }, turns := rest }
  | .fin id :: rest => .next (State.closeCycle { s with cur := coreAt id, turns := rest })
  | .core id :: rest =>
    match s.pendingEvent with
    | some (i, t) => exec i t
    | none => .next (State.coreTurn { s with cur := coreAt id, turns := rest })
  | [] =>
    match s.pendingEvent with
    | some (i, t) => exec i t
    | none => s.freeTurn

/-- A package that an SCH failure has stopped takes nothing but a reset (01 R20, R38). -/
def State.stoppedStep (s : State) : Outcome State Fault Refusal :=
  match nextReset s.inputs with
  | some (a, i, rest) => exec i { s with cur := a, inputs := rest }
  | none => .fault .packageStopped

/-! Placing an instruction -/

/-- The class and site of the core that a placed word runs on, by its engine: a sparse core for a matrix word, a sort
core for a sort word. -/
def placeSite (eng : Nat) : Nat × Nat :=
  match eng with
  | 2 => (2, 17)
  | 7 => (4, 21)
  | _ => (1, 9)

/-- An attempt of one gang of one core whose section of an engine holds the bytes. -/
def placedAttempt (eng : Nat) (bs : List Byte) (time : Nat) : Attempt :=
  let k := placeSite eng
  { Attempt.empty with
    cls := k.1
    codeCls := k.1
    gang := 1
    budget := 0xFFFFFFFF
    limit := 2 ^ 26
    code := [(eng, bs)]
    insts := [{ Inst.empty with site := k.2, clusters := [0], t0 := some time, ready := [(0, time)] }] }

/-- The core that runs it, its one stream about to issue the first word. -/
def placedCore (eng att : Nat) (bs : List Byte) (time : Nat) : Core :=
  let c := Core.begin (placedAttempt eng bs time) ⟨att, 0, 0⟩ 1
  { c with streams := [(eng, { Stream.begin eng 0 with started := true })] }

/-- The state with the bytes in the place of an engine's next instruction (log 13). -/
def State.placeWord (s : State) (eng : Nat) (bs : List Byte) : State :=
  let k := placeSite eng
  let id := k.2 * 128
  { s with
    stopped := false
    atts := Tab.set s.atts s.nextAtt (placedAttempt eng bs s.time)
    cores := Tab.set s.cores id (placedCore eng s.nextAtt bs s.time)
    turns := [.stream id eng, .fin id] }

end Sys2Proof.Machine
end

