-- ==== Sys2Proof/Machine/Step.lean ====
section
/-! DEFINITION. The step of the machine, and the placing of an instruction word where the step fetches. -/

namespace Sys2Proof.Machine

/-- One step. -/
def step (s : State) : Host.Outcome State Fault Refusal := if s.stopped then s.stoppedStep else s.turnStep

/-- The state with a word of the opcode table, the bits above nbits zero, as the only section of the stream that
decodes it, on a core whose turn is next (log 13). -/
def State.withFetchWord (s : State) (nbits w : Nat) : State := s.placeWord (tableEngine nbits w) (leBytes 24 (w % 2 ^ nbits))

end Sys2Proof.Machine
end

