-- ==== Sys2Proof/Safety.lean ====
section
/-! DEFINITION. What counts as a safe step, and the words the statements use: results that are due, where a stream
stands after an instruction, what an instruction leaves alone, and the invariants. -/

namespace Sys2Proof

/-- A step that neither faults nor is refused. -/
def Safe (s : Machine.State) : Prop := ∃ t, Machine.step s = .next t

namespace Machine

/-! Results that are due (R185, R367) -/

/-- The held write of a scalar register: none for `s0`, whose writes are discarded. -/
def sregDue (n : Nat) (d : BitVec 6) (v : Word) : List Pend := if d = 0 then [] else [⟨n, .sreg d.toNat v⟩]

/-- The held writes of a register pair: the low word to d, the high word to d + 1. -/
def pairDue (n : Nat) (d : BitVec 6) (v : DWord) : List Pend :=
  sregDue n d (v.extractLsb' 0 32) ++ sregDue n (d + 1) (v.extractLsb' 32 32)

/-! Where a stream stands after an instruction -/

/-- A control instruction of len bytes has issued with results ps: nothing changes but the results on their way, the
loops, which turn at the end of a body, and the stream, which goes on in the next core cycle. -/
def State.ctlDone (s : State) (len : Nat) (ps : List Pend) : State :=
  let r := loopTurn s.core.loops (s.stm.pc + len)
  s.setCore { s.core with
    pend := s.core.pend ++ ps
    loops := r.1
    streams := Tab.set s.core.streams s.cur.eng
      { s.stm with
        pc := r.2.1, free := s.core.clk + 1, latch := none, ncmd := s.stm.ncmd + 1, stall := 0, turn := r.2.2 } }

/-- A taken branch or jump to tgt has issued with results ps: the loops that R385 keeps remain, and the target issues
two cycles later. -/
def State.jumpDone (s : State) (tgt : Nat) (ps : List Pend) : State :=
  s.setCore { s.core with
    pend := s.core.pend ++ ps
    loops := branchLoops s.core.loops s.stm.pc tgt
    streams := Tab.set s.core.streams s.cur.eng
      { s.stm with pc := tgt, free := s.core.clk + 2, latch := none, ncmd := s.stm.ncmd + 1, stall := 0 } }

/-- A side-core instruction has issued and goes on at npc in the next cycle. -/
def State.sideDone (s : State) (npc : Nat) : State :=
  s.setCore { s.core with
    streams := Tab.set s.core.streams s.cur.eng
      { s.stm with pc := npc, free := s.core.clk + 1, latch := none, ncmd := s.stm.ncmd + 1, stall := 0 } }

/-- A vector, matrix or sort word of len bytes has issued outside a replay and holds the slot for occ cycles. -/
def State.wordDone (s : State) (len occ : Nat) : State :=
  s.setCore { s.core with
    streams := Tab.set s.core.streams s.cur.eng
      { s.stm with
        pc := s.stm.pc + len, free := s.core.clk + occ, latch := none, ncmd := s.stm.ncmd + 1, stall := 0 } }

/-- The results ps are on their way. -/
def State.withDue (s : State) (ps : List Pend) : State := s.setCore { s.core with pend := s.core.pend ++ ps }

/-- The stream waits in this cycle with a stall word and issues nothing. -/
def State.waits (s : State) (cls obj : Nat) : State :=
  s.setCore { s.core with
    streams := Tab.set s.core.streams s.cur.eng { s.stm with stall := BitVec.ofNat 10 (cls * 256 + obj) } }

/-- A control-stream target that a branch may go to (R381, R385 step 4): inside the section, and in no mapped body
whose loop does not stay active. -/
def State.canLand (s : State) (target : Int) : Bool :=
  let code := s.section_ 0
  decide (0 ≤ target) && decide (target < code.length) &&
    !(loopMap code.length 0 code).any fun m =>
      decide (m.2.1 ≤ target.toNat) && decide (target.toNat ≤ m.2.2) &&
        !((branchLoops s.core.loops s.stm.pc target.toNat).any fun l => l.start == m.2.1)

/-- n words of a stream's code from pc on: the offset after them, and what they decode to; none where the code ends
first. -/
def codeWords (eng : Nat) : Nat → Nat → List Byte → Option (Nat × List Instr)
  | 0, pc, _ => some (pc, [])
  | n + 1, pc, bs =>
    match decodeFor eng bs with
    | .overrun => none
    | .word i len => (codeWords eng n (pc + len) (bs.drop len)).map fun r => (r.1, i :: r.2)

/-! Rows of the vector stream -/

/-- What row k of a vector instruction reads. -/
def State.vrowIn (s : State) (op : VOp) : VIn :=
  let k := op.got.length
  ⟨s.core.vrow (tileRow op.va op.sa k), s.core.vrow (tileRow op.vb op.sb k), s.core.vrow (tileRow op.vd op.sd k),
    s.guardRow op.guard k⟩

/-- The state in which a row of a vector instruction has left the effects ps on their way, and its next row is read in
the next cycle. -/
def State.rowDone (s : State) (op : VOp) (ps : List Pend) : State :=
  let k := op.got.length
  s.withDue (ps ++
    if k + 1 < op.rows then [⟨op.t + k + 1, .vrow { op with got := op.got ++ [s.vrowIn op] }⟩] else [])

/-- A held write of a row of the lane registers: lane l takes f l where that is a value and is not written elsewhere. -/
def Pend.IsRow (p : Pend) (n row : Nat) (f : Nat → Option Nat) : Prop :=
  ∃ m w : Row, p = ⟨n, .vreg row m w⟩ ∧ ∀ l < 64,
    (f l = none → laneN m l = 0) ∧ ∀ v, f l = some v → laneN m l = 0xFFFFFFFF ∧ laneN w l = v % 2 ^ 32

/-- The value v for the active and guarded lanes of a row. -/
def VOp.guarded (op : VOp) (x : VIn) (v : Nat → Nat) (l : Nat) : Option Nat :=
  if l < op.lanes ∧ x.g.getLsbD l = true then some (v l) else none

/-! What an instruction leaves alone -/

/-- Every byte of memory reads as before: buffers at their homes and in every cache, host memory, operand SRAM of the
instance in focus, the side cores' data stores and the argument block. -/
structure State.SameMemory (s t : State) : Prop where
  buffers : ∀ b off, Memory.byte (t.buf b).mem off = Memory.byte (s.buf b).mem off
  caches  : t.l1 = s.l1 ∧ t.l2 = s.l2
  host    : ∀ a, Memory.byte t.host a = Memory.byte s.host a
  window  : ∀ a, Memory.byte t.inst.sram a = Memory.byte s.inst.sram a
  stores  : ∀ e a, Memory.byte (Tab.get [] t.core.dstore e) a = Memory.byte (Tab.get [] s.core.dstore e) a
  args    : t.att.args = s.att.args

/-- A byte of a buffer as a cluster finds it: in its L1, in its chiplet's L2, at the home (09 R206). -/
def State.views (s : State) (c b a : Nat) : List Byte := [s.seen1 c b a, s.seen2 (c / 32) b a, Memory.byte (s.buf b).mem a]

/-- No byte of a buffer, but those that out names, takes a new value: in each place where a cluster finds it, it reads
as it read before in one of these places.  The caches of other clusters and chiplets are as before. -/
structure State.KeepsBytes (s t : State) (c : Nat) (out : Nat → Nat → Prop) : Prop where
  bytes  : ∀ b a, a < 2 ^ 48 → ¬ out b a → ∀ x ∈ t.views c b a, x ∈ s.views c b a
  others : (∀ k, k ≠ c → Tab.find t.l1 k = Tab.find s.l1 k) ∧ (∀ k, k ≠ c / 32 → Tab.find t.l2 k = Tab.find s.l2 k)

/-- The n bytes of a buffer from an offset on. -/
def bytesFrom (b off n b' a : Nat) : Prop := b' = b ∧ off ≤ a ∧ a < off + n

/-- Every register of the core reads as before: scalar, index, predicate and lane registers, the vector and status
registers, accumulators with their kinds and scale banks, nest tables, side-core registers, tokens and flags. -/
structure Core.SameRegs (c d : Core) : Prop where
  scalar  : ∀ r, Tab.get 0 d.s r = Tab.get 0 c.s r
  index   : ∀ x, Tab.get 0 d.ix x = Tab.get 0 c.ix x
  pred    : ∀ p, Tab.get 0 d.p p = Tab.get 0 c.p p
  lanes   : ∀ r, d.vrow r = c.vrow r
  vshape  : d.vshape = c.vshape
  vfmt    : d.vfmt = c.vfmt
  vctl    : d.vctl = c.vctl ∧ d.vctlV = c.vctlV
  vstat   : d.vstat = c.vstat
  accs    : ∀ k, Tab.get 0 d.acc k = Tab.get 0 c.acc k
  kinds   : ∀ a, Tab.get false d.accKind a = Tab.get false c.accKind a
  flags   : d.accflags = c.accflags
  scales  : ∀ h, Tab.get 0 d.scale h = Tab.get 0 c.scale h
  markidx : d.markidx = c.markidx
  side    : ∀ k, Tab.get 0 d.x k = Tab.get 0 c.x k
  nest    : ∀ t k i, d.nestWord t k i = c.nestWord t k i
  tokens  : ∀ t, Tab.get 0 d.tk t = Tab.get 0 c.tk t
  events  : d.ef = c.ef

/-- Every other core, and everything outside the cores, is as before. -/
structure State.OnlyCore (s t : State) : Prop where
  others : ∀ k, k ≠ s.cur.id → Tab.find t.cores k = Tab.find s.cores k
  rest   : t = s.setCore t.core

/-! Invariants -/

/-- Every memory of the machine is in its canonical form: buffers, host memory, operand SRAM, data stores, decode
buffers. -/
structure State.MemoriesWf (s : State) : Prop where
  host   : Memory.wf s.host = true
  bufs   : ∀ b ∈ s.bufs, Memory.wf b.2.mem = true
  sram   : ∀ a ∈ s.atts, ∀ i ∈ a.2.insts, Memory.wf i.sram = true
  stores : ∀ c ∈ s.cores, (∀ m ∈ c.2.dstore, Memory.wf m.2 = true) ∧ Memory.wf c.2.decB = true

/-- The loop stack of the core in focus is well nested and holds at most four loops (R386). -/
def Core.LoopsOk (c : Core) : Prop :=
  c.loops.length ≤ 4 ∧ List.Pairwise (fun a b : LoopRec => a.stop ≤ b.stop) c.loops

end Machine

end Sys2Proof
end

