-- ==== Sys2Proof/Certificates/Slice0/Obligations.lean ====
section
/-! DEFINITION. The statements about the model that the provers are asked to settle: what each instruction, event and
packet does, what it leaves alone, and what holds of the whole machine. -/

open Sys2Proof Sys2Proof.Machine

/-! The machine, its decoder and its step -/

/-- The values that the specification gives for reset: TIMEBASE 0 (R36), BOOT_STAT.PHASE 0 (R40), no buffer, capability,
graph, node, attempt or core in use (R38), GEN 0 (R18), each fitted module in training, with no lane active, four lanes
spare and no rate, and no module beyond those fitted (R29), the package's energy registers at their reset values (R125),
and for every partition, group, queue and virtual function the reset values of R48, R62, R125 and R312. -/
def Obligations.ResetGivesTheSpecifiedValues : Prop :=
  let s := State.reset
  s.time = 0 ∧ s.stopped = false ∧ s.pkg.phase = 0 ∧ s.pkg.gen = 0 ∧ s.bufs = [] ∧ s.caps = [] ∧ s.graphs = [] ∧ s.nodes = [] ∧
    s.atts = [] ∧ s.cores = [] ∧ s.runq = [] ∧ s.pkg.cap = 2200000 ∧ s.pkg.rate = 2200000 ∧ s.pkg.iso = 0 ∧
    (∀ k < 24, ∀ m,
      (m < classModules (fittedClass s.pkg.sku k) → ∃ u, Tab.find (s.site k).mods m = some u ∧
        u.state = 1 ∧ u.lanes = 0 ∧ u.spare = 4 ∧ u.rate = 0) ∧
      (classModules (fittedClass s.pkg.sku k) ≤ m → Tab.find (s.site k).mods m = none)) ∧
    (∀ v, (s.vf v).valid = false ∧ (s.vf v).enabled = false ∧ (s.vf v).ways = 0xFFFF) ∧
    (∀ v q, (s.queue v q).st = 0 ∧ (s.queue v q).weight = 1 ∧ (s.queue v q).log2 = 4) ∧
    (∀ p, (s.partn p).ceilMw = 34375 ∧ (s.partn p).ceilUj = 1000000 ∧ (s.partn p).weight = 1 ∧ (s.partn p).group = 0 ∧
      (s.partn p).prof = 0x1F600000) ∧
    (∀ g, (s.group g).sites = (if g = 0 then 0xFFFFFF else 0) ∧ (s.group g).slice = 10000 ∧ (s.group g).grace = 1000)

/-- Every memory is in its canonical form at reset (the model's form of a memory, log 5). -/
def Obligations.ResetMemoriesAreCanonical : Prop :=
  State.reset.MemoriesWf

/-- Decoding the encoding of a well-formed instruction of a stream gives that instruction, with every operand, and its
length; a compressed side-core word is given as the instruction it expands to (R196). -/
def Obligations.DecodeOfEncodeIsTheInstruction : Prop :=
  ∀ (i : Instr) (e : Nat), i.family = some e → i.WellFormed = true →
    ∀ rest : List Byte, decodeFor e (encode i ++ rest) = .word i.spelled (encode i).length

/-- Words written out from the encoding tables of chapter 15 and their instructions, one or more for each stream. -/
def Obligations.WrittenWordsDecode : Prop :=
  decodeFor 0 [0x04, 0x8A, 0xB2, 0x00] = .word (.add 10 10 11) 4 ∧
  decodeFor 0 [0x08, 0xCB, 0x12, 0x00] = .word (.addi 11 11 1) 4 ∧
  decodeFor 0 [0x06, 0x05, 0x00, 0x00, 0, 0, 0, 0, 4, 0, 0, 0] = .word (.li 5 4) 12 ∧
  decodeFor 0 [0x0A, 0x40, 0x01, 0x00, 0x03, 0x00, 0x00, 0x07, 0x10, 0, 0, 0] = .word (.loop 5 3 0 7 16) 12 ∧
  decodeFor 0 [0x54, 0x0A, 0x13, 0x00] = .word (.bgeu 10 12 1) 4 ∧
  decodeFor 0 [0x68, 0x00, 0x00, 0x01] = .word (.rend 0 true) 4 ∧
  decodeFor 0 [0xFC, 0, 0, 0] = .word (.illegalEncoding 1) 4 ∧
  decodeFor 1 (leBytes 8 (1 + 4 * 2 ^ 2 + 12 * 2 ^ 8 + 2 * 2 ^ 12 + 16 * 2 ^ 16 + 32 * 2 ^ 28 + 48 * 2 ^ 40 + 1 * 2 ^ 52 + 2 * 2 ^ 55 +
    3 * 2 ^ 58 + 1 * 2 ^ 61)) = .word (.vmad ⟨12, 2, 16, 32, 48, 1, 2, 3, .v64 1⟩) 8 ∧
  decodeFor 2 (leBytes 24 (2 + 1 * 2 ^ 6 + 5 * 2 ^ 14 + 6 * 2 ^ 20 + 1 * 2 ^ 29 + (0x100 + 1 * 2 ^ 20) * 2 ^ 32 +
    (0x200 + 3 * 2 ^ 22) * 2 ^ 64 + (1 + 2 * 2 ^ 2) * 2 ^ 96)) =
    .word (.mstep ⟨true, 0, false, 6, 5, false, 0, 0, 1⟩ ⟨0, 1, 0x100⟩ ⟨3, 0, 0x200⟩ ⟨0, 0, false, 2, 1⟩) 24 ∧
  decodeFor 7 (leBytes 8 (1 + 1 * 2 ^ 6 + 1 * 2 ^ 10 + 1 * 2 ^ 11 + 4 * 2 ^ 12 + 7 * 2 ^ 19 + 9 * 2 ^ 37)) =
    .word (.ksort ⟨0, 9, 7, 4, true, true, 1⟩) 8 ∧
  decodeFor 4 [0x73, 0x00, 0x00, 0x00] = .word .ecall 4 ∧
  decodeFor 5 [0x93, 0x00, 0x10, 0x00] = .word (.rv32imcBaseInstruction false (.opImm 0 1 0 1)) 4 ∧
  decodeFor 0 [0x04, 0x8A] = .overrun

/-- When the stream whose turn it is has an instruction to issue, the step of the machine is that instruction's meaning,
on the state in which it issues, and what it issues is what its section's bytes at its PC decode to: for a stream of a
running core that is present, started, at no rendezvous and no barrier, with its issue slot free, with no loop turn, load
or drain in its way, and whose word a replay does not pass over (R174, R184, R194).  Before the matrix stream's turn the
entries that wait in its drains come to their queues, and an entry of an `mbsp` that is due begins (R188, R455, R461). -/
def Obligations.StepRunsTheDecodedInstruction : Prop :=
  ∀ (s : State) (id eng : Nat) (rest : List Turn) (i : Instr) (len : Nat),
    let g : State := { s with cur := { coreAt id with eng := eng }, turns := rest }
    let f : State := if eng = 2 then g.matrixOpens else g
    s.stopped = false → s.turns = .stream id eng :: rest → f.stm.present = true → f.stm.ended = false →
    f.stm.started = true → f.stm.turn = false → f.stm.meet = .away → (∀ k, f.stm.latch = some k → k < barLatch 0) →
    f.stm.free ≤ f.core.clk → (eng = 0 → f.core.load = none) → (eng = 2 → f.core.blocked = none) → f.trapped = false →
    (eng = 4 ∨ eng = 5 → 0x80000000 ≤ f.stm.pc) →
    decodeFor eng ((f.section_ eng).drop (sectOff eng f.stm.pc)) = .word i len →
    f.issues (iterOf i).1 (iterOf i).2 = true →
    step s = exec i f

/-- A step is never refused, and it faults only when an SCH failure has stopped the package and no reset is among what
the outside will do (R20; that of all inputs a stopped package takes only a cold or a warm reset is the model's choice, log
50). -/
def Obligations.StepFaultsOnlyWhenStopped : Prop :=
  ∀ s : State, (∀ r, step s ≠ .refused r) ∧ ((∃ f, step s = .fault f) ↔ s.stopped = true ∧ nextReset s.inputs = none)

/-- Every step keeps every memory of the machine in its canonical form: addresses strictly rising and no listed byte equal
to what an unlisted address reads as (the model's form of a memory, log 5), whatever instruction, event or input the step
takes, and in states that no run reaches as well. -/
def Obligations.StepsKeepMemoriesCanonical : Prop :=
  ∀ s t : State, s.MemoriesWf → step s = .next t → t.MemoriesWf

/-! The control stream: arithmetic (16 R367 to R372) -/

/-- The result of each register form of the ALU family, read in the issue cycle and due at issue + 1, + 3 for the
multiplies and + 18 for the divides; a result for `s0` is discarded; nothing else changes but the stream's own progress
(R367, R369).

The results of `clz`, `ctz`, `popc` and `brev` (R369). -/
def Obligations.AluRegisterFormsGiveTheirResults : Prop :=
  (∀ (s : State) (d a b : BitVec 6),
    let A := s.sreg a
    let B := s.sreg b
    let n := s.core.clk
    let out (lat : Nat) (v : Word) : Host.Outcome State Fault Refusal := .next (s.ctlDone 4 (sregDue (n + lat) d v))
    exec (.add d a b) s = out 1 (A + B) ∧
    exec (.sub d a b) s = out 1 (A - B) ∧
    exec (.and d a b) s = out 1 (A &&& B) ∧
    exec (.or d a b) s = out 1 (A ||| B) ∧
    exec (.xor d a b) s = out 1 (A ^^^ B) ∧
    exec (.andn d a b) s = out 1 (A &&& ~~~B) ∧
    exec (.orn d a b) s = out 1 (A ||| ~~~B) ∧
    exec (.sll d a b) s = out 1 (A <<< (B.toNat % 32)) ∧
    exec (.srl d a b) s = out 1 (A >>> (B.toNat % 32)) ∧
    exec (.sra d a b) s = out 1 (A.sshiftRight (B.toNat % 32)) ∧
    exec (.ror d a b) s = out 1 (A.rotateRight (B.toNat % 32)) ∧
    exec (.mul d a b) s = out 3 (A * B) ∧
    exec (.mulh d a b) s = out 3 ((A.signExtend 64 * B.signExtend 64).extractLsb' 32 32) ∧
    exec (.mulhu d a b) s = out 3 ((A.zeroExtend 64 * B.zeroExtend 64).extractLsb' 32 32) ∧
    exec (.div d a b) s = out 18 (if B = 0 then 0xFFFFFFFF else BitVec.ofInt 32 (A.toInt.tdiv B.toInt)) ∧
    exec (.divu d a b) s = out 18 (if B = 0 then 0xFFFFFFFF else BitVec.ofNat 32 (A.toNat / B.toNat)) ∧
    exec (.rem d a b) s = out 18 (if B = 0 then A else BitVec.ofInt 32 (A.toInt.tmod B.toInt)) ∧
    exec (.remu d a b) s = out 18 (if B = 0 then A else BitVec.ofNat 32 (A.toNat % B.toNat)) ∧
    exec (.min d a b) s = out 1 (if A.toInt ≤ B.toInt then A else B) ∧
    exec (.max d a b) s = out 1 (if A.toInt ≤ B.toInt then B else A) ∧
    exec (.minu d a b) s = out 1 (if A.toNat ≤ B.toNat then A else B) ∧
    exec (.maxu d a b) s = out 1 (if A.toNat ≤ B.toNat then B else A) ∧
    exec (.slt d a b) s = out 1 (if A.toInt < B.toInt then 1 else 0) ∧
    exec (.sltu d a b) s = out 1 (if A.toNat < B.toNat then 1 else 0)) ∧
  (∀ (s : State) (d a : BitVec 6),
    let A := s.sreg a
    let out (v : Word) : Host.Outcome State Fault Refusal := .next (s.ctlDone 4 (sregDue (s.core.clk + 1) d v))
    (∃ n ≤ 32, exec (.clz d a) s = out (BitVec.ofNat 32 n) ∧ (∀ k < n, A.getLsbD (31 - k) = false) ∧
      (n < 32 → A.getLsbD (31 - n) = true)) ∧
    (∃ n ≤ 32, exec (.ctz d a) s = out (BitVec.ofNat 32 n) ∧ (∀ k < n, A.getLsbD k = false) ∧ (n < 32 → A.getLsbD n = true)) ∧
    exec (.popc d a) s = out (BitVec.ofNat 32 ((List.range 32).countP fun k => A.getLsbD k)) ∧
    (∃ v, exec (.brev d a) s = out v ∧ ∀ k < 32, v.getLsbD k = A.getLsbD (31 - k)))

/-- The immediate forms compute the register form of the same name on the sign-extended immediate, the shifts by their
five-bit amount; the pair forms work modulo 2^64; `li` is a word of 12 bytes (R370 to R372). -/
def Obligations.ImmediateAndPairFormsGiveTheirResults : Prop :=
  ∀ (s : State) (d a b : BitVec 6) (imm : BitVec 12) (sh : BitVec 5) (x : BitVec 32),
    let A := s.sreg a
    let B : Word := imm.signExtend 32
    let n := s.core.clk + 1
    let out (v : Word) : Host.Outcome State Fault Refusal := .next (s.ctlDone 4 (sregDue n d v))
    let pout (v : DWord) : Host.Outcome State Fault Refusal := .next (s.ctlDone 4 (pairDue n d v))
    exec (.addi d a imm) s = out (A + B) ∧ exec (.andi d a imm) s = out (A &&& B) ∧ exec (.ori d a imm) s = out (A ||| B) ∧
    exec (.xori d a imm) s = out (A ^^^ B) ∧
    exec (.slli d a sh) s = out (A <<< sh.toNat) ∧
    exec (.srli d a sh) s = out (A >>> sh.toNat) ∧
    exec (.srai d a sh) s = out (A.sshiftRight sh.toNat) ∧
    exec (.slti d a imm) s = out (if A.toInt < imm.toInt then 1 else 0) ∧
    exec (.sltiu d a imm) s = out (if A.toNat < B.toNat then 1 else 0) ∧
    exec (.mini d a imm) s = out (if A.toInt ≤ imm.toInt then A else B) ∧
    exec (.maxi d a imm) s = out (if A.toInt ≤ imm.toInt then B else A) ∧
    exec (.padd d a b) s = pout (s.pair a + s.pair b) ∧
    exec (.psub d a b) s = pout (s.pair a - s.pair b) ∧
    exec (.paddw d a b) s = pout (s.pair a + (s.sreg b).signExtend 64) ∧
    exec (.pmov d a) s = pout (s.pair a) ∧
    exec (.paddi d a imm) s = pout (s.pair a + imm.signExtend 64) ∧
    exec (.li d x) s = .next (s.ctlDone 12 (sregDue n d x))

/-- The frame of every control instruction that only computes: when it goes on, no byte of memory, no register, no other
core and nothing outside the cores has changed, and what it leaves on its way is at most a write of its destination
register, or of the two of its pair (R367). -/
def Obligations.ComputingInstructionsChangeOnlyTheirDestination : Prop :=
  ∀ (i : Instr) (d : BitVec 6) (wide : Bool),
    ((∃ a b, i ∈ ([.add d a b, .sub d a b, .and d a b, .or d a b, .xor d a b, .andn d a b, .orn d a b, .sll d a b, .srl d a b,
        .sra d a b, .ror d a b, .mul d a b, .mulh d a b, .mulhu d a b, .div d a b, .divu d a b, .rem d a b, .remu d a b,
        .min d a b, .max d a b, .minu d a b, .maxu d a b, .slt d a b, .sltu d a b, .clz d a, .ctz d a, .popc d a,
        .brev d a] : List Instr)) ∧ wide = false ∨
      (∃ a imm sh, i ∈ ([.addi d a imm, .andi d a imm, .ori d a imm, .xori d a imm, .slli d a sh, .srli d a sh, .srai d a sh,
        .slti d a imm, .sltiu d a imm, .mini d a imm, .maxi d a imm] : List Instr)) ∧ wide = false ∨
      (∃ x, i = .li d x) ∧ wide = false ∨
      (∃ a b imm, i ∈ ([.padd d a b, .psub d a b, .paddw d a b, .pmov d a, .paddi d a imm, .rdtime d] : List Instr)) ∧ wide = true) →
    ∀ s t : State, exec i s = .next t →
      s.SameMemory t ∧ s.core.SameRegs t.core ∧ s.OnlyCore t ∧ t.core.load = s.core.load ∧ t.core.traps = s.core.traps ∧
      (∀ e, e ≠ s.cur.eng → Tab.find t.core.streams e = Tab.find s.core.streams e) ∧
      ∃ ps : List Pend, t.core.pend = s.core.pend ++ ps ∧
        ∀ p ∈ ps, ∃ r v, p.act = .sreg r v ∧ r ≠ 0 ∧ (r = d.toNat ∨ (wide = true ∧ r = (d + 1).toNat))

/-- A result due in a core cycle is what its register holds once that cycle has opened, and every other scalar register
keeps its value unless another result for it is due (R185): for a core with that one result held.

`s0` reads zero in every state, whatever its register file lists (R179, R367). -/
def Obligations.DueScalarResultBecomesVisible : Prop :=
  (∀ (s : State) (n : Nat) (d : BitVec 6) (v : Word),
    d ≠ 0 → s.core.pend = [⟨n, .sreg d.toNat v⟩] → s.core.sqWait = [] →
    (n ≤ s.core.clk → s.openCycle.sreg d = v ∧ (∀ r, r ≠ d → s.openCycle.sreg r = s.sreg r) ∧ s.openCycle.core.pend = []) ∧
    (s.core.clk < n → (∀ r, s.openCycle.sreg r = s.sreg r) ∧ s.openCycle.core.pend = s.core.pend)) ∧
  (∀ s : State, s.sreg 0 = 0 ∧ s.ireg 0 = 0 ∧ s.xr 0 = 0 ∧ (s.setX 0 5) = s)

/-! Control flow (16 R380 to R386) -/

/-- A conditional branch that is not taken goes on; one that is taken, and a jump, whose target lies in the section and
in no body that its loop is not active in, goes there, with the loops that R385 leaves; `jal` links PC + 4 (R380, R381,
R385).

A taken branch or jump traps precisely, with no other effect: the fetch-overrun trap where its target lies outside
the section (R381), the loop-entry trap where it lies in a mapped body whose loop is not active (R385 step 4). -/
def Obligations.BranchesAndJumpsGoToTheirTarget : Prop :=
  (∀ (s : State) (a b : BitVec 6) (off : BitVec 12),
    let A := s.sreg a
    let B := s.sreg b
    let tgt : Int := s.stm.pc + 4 * off.toInt
    let branch (i : Instr) (c : Prop) : Prop :=
      (¬ c → exec i s = .next (s.ctlDone 4 [])) ∧
      (c → s.canLand tgt = true → exec i s = .next (s.jumpDone tgt.toNat []))
    branch (.beq a b off) (A = B) ∧ branch (.bne a b off) (A ≠ B) ∧
    branch (.blt a b off) (A.toInt < B.toInt) ∧ branch (.bge a b off) (B.toInt ≤ A.toInt) ∧
    branch (.bltu a b off) (A.toNat < B.toNat) ∧ branch (.bgeu a b off) (B.toNat ≤ A.toNat) ∧
    (s.canLand tgt = true → exec (.jmp off) s = .next (s.jumpDone tgt.toNat [])) ∧
    (s.canLand tgt = true →
      exec (.jal a off) s = .next (s.jumpDone tgt.toNat (sregDue (s.core.clk + 1) a (BitVec.ofNat 32 (s.stm.pc + 4))))) ∧
    (s.canLand (A.toNat / 4 * 4 : Nat) = true → exec (.jr a) s = .next (s.jumpDone (A.toNat / 4 * 4) []))) ∧
  (∀ (s : State) (a b : BitVec 6) (off : BitVec 12) (i : Instr) (tgt : Int),
    ((tgt = s.stm.pc + 4 * off.toInt ∧
        (i = .jmp off ∨ i = .jal a off ∨ (i = .beq a b off ∧ s.sreg a = s.sreg b) ∨ (i = .bne a b off ∧ s.sreg a ≠ s.sreg b) ∨
          (i = .blt a b off ∧ (s.sreg a).toInt < (s.sreg b).toInt) ∨ (i = .bge a b off ∧ (s.sreg b).toInt ≤ (s.sreg a).toInt) ∨
          (i = .bltu a b off ∧ (s.sreg a).toNat < (s.sreg b).toNat) ∨ (i = .bgeu a b off ∧ (s.sreg b).toNat ≤ (s.sreg a).toNat))) ∨
      (tgt = ((s.sreg a).toNat / 4 * 4 : Nat) ∧ i = .jr a)) →
    ((tgt < 0 ∨ ((s.section_ 0).length : Int) ≤ tgt) → exec i s = .next (s.trap 0x12 0)) ∧
    (0 ≤ tgt → tgt < ((s.section_ 0).length : Int) → s.canLand tgt = false → exec i s = .next (s.trap 0x10 0)))

/-- A loop word (R382, R384, R386): the checks in their order; a count or condition of zero skips the body; a count above
the limit traps; else the loop is pushed and its first body word is next.

After the last word of the innermost body the loop repeats while ITER + 1 < trips, at no cost, and else pops, where an
enclosing loop whose body ends with the same word turns too (R382).  A `loopw` leaves its test to the turn (R384). -/
def Obligations.LoopsAreEnteredAndTurn : Prop :=
  (∀ (s : State) (a : BitVec 6) (bodyw : BitVec 14) (stg : BitVec 3) (id : BitVec 8) (max : Word),
    let N := (s.sreg a).toNat
    let stop := s.stm.pc + 12 + 4 * bodyw.toNat - 4
    let nested : Prop := ∀ o, s.core.loops.head? = some o → stop ≤ o.stop
    let enters (l : LoopRec) : State := s.setCore { s.core with
      loops := l :: s.core.loops
      streams := Tab.set s.core.streams s.cur.eng
        { s.stm with pc := s.stm.pc + 12, free := s.core.clk + 1, latch := none, ncmd := s.stm.ncmd + 1, stall := 0 } }
    let L := exec (.loop a bodyw stg id max) s
    let W := exec (.loopw a bodyw stg id max) s
    (4 ≤ s.core.loops.length → L = .next (s.trap 0x02 0x10) ∧ W = .next (s.trap 0x02 0x10)) ∧
    (s.core.loops.length < 4 → ¬ nested → L = .next (s.trap 0x02 0x11) ∧ W = .next (s.trap 0x02 0x11)) ∧
    (s.core.loops.length < 4 → nested →
      (N = 0 → L = .next (s.ctlDone (12 + 4 * bodyw.toNat) [])) ∧
      (max.toNat < N → L = .next (s.trap 0x11 id.toNat)) ∧
      (N ≠ 0 → N ≤ max.toNat → L = .next (enters
        { cond := false, id := id.toNat, stages := stg.toNat + 1, iter := 0, limit := max.toNat, start := s.stm.pc + 12,
          stop := stop, trips := N + (stg.toNat + 1) - 1, reg := a.toNat })) ∧
      (stg ≠ 0 → W = .next (s.trap 0x02 0x12)) ∧
      (stg = 0 → N = 0 → W = .next (s.ctlDone (12 + 4 * bodyw.toNat) [])) ∧
      (stg = 0 → N ≠ 0 → W = .next (enters
        { cond := true, id := id.toNat, stages := 1, iter := 0, limit := max.toNat, start := s.stm.pc + 12, stop := stop,
          trips := 0, reg := a.toNat })))) ∧
  ((∀ npc, loopTurn [] npc = ([], npc, false)) ∧
  (∀ (l : LoopRec) (ls : List LoopRec) (npc : Nat),
    (npc ≠ l.stop + 4 → loopTurn (l :: ls) npc = (l :: ls, npc, false)) ∧
    (l.cond = false → l.iter + 1 < l.trips →
      loopTurn (l :: ls) (l.stop + 4) = ({ l with iter := l.iter + 1 } :: ls, l.start, false)) ∧
    (l.cond = false → l.trips ≤ l.iter + 1 → loopTurn (l :: ls) (l.stop + 4) = loopTurn ls (l.stop + 4)) ∧
    (l.cond = true → loopTurn (l :: ls) (l.stop + 4) = (l :: ls, l.stop + 4, true))) ∧
  (∀ (s : State) (l : LoopRec) (ls : List LoopRec), s.core.loops = l :: ls → l.reg < 64 →
    let r := s.sreg (BitVec.ofNat 6 l.reg)
    (r ≠ 0 → l.iter + 1 < l.limit →
      s.loopwTurn.core.loops = { l with iter := l.iter + 1 } :: ls ∧ s.loopwTurn.stm.pc = l.start ∧ s.loopwTurn.stm.turn = false) ∧
    (r ≠ 0 → l.limit ≤ l.iter + 1 →
      s.loopwTurn.core.frozen = true ∧ s.loopwTurn.core.loops = { l with iter := l.iter + 1 } :: ls ∧
        ∃ x, s.loopwTurn.core.traps = s.core.traps ++ [x] ∧ x.cause = 0x11 ∧ x.sub = l.id ∧ x.engine = 0 ∧ x.pc = l.start - 12) ∧
    (r = 0 → s.loopwTurn.core.loops = (loopTurn ls (l.stop + 4)).1 ∧ s.loopwTurn.stm.pc = (loopTurn ls (l.stop + 4)).2.1)))

/-- Every instruction of the control stream keeps the loop stack well nested and at most four deep (R386). -/
def Obligations.ControlInstructionsKeepLoopsNested : Prop :=
  ∀ (i : Instr) (s t : State), i.family = some 0 → exec i s = .next t → s.core.LoopsOk → t.core.LoopsOk

/-! Flags, tokens, rendezvous, barriers (08 R176 to R191, 16 R387) -/

/-- How each stream's flag instructions act: a flag is set or cleared at the end of the issue cycle; a wait goes on when
the flag was set at the cycle's start and, where it clears it, no other clearing wait took it in this cycle; otherwise the
stream stalls with the flag as its object (R190, R387, R418, R467, R477).

At the end of a core cycle a flag is set if it was set in the cycle, else clear if it was cleared, else as it was
(R190). -/
def Obligations.FlagInstructionsSetClearAndWait : Prop :=
  (∀ (s : State) (f : BitVec 5) (clear : Bool),
    let mine (eng len : Nat) (set clr wait : Instr) : Prop := s.cur.eng = eng →
      let on (c : Core) : State := if eng = 0 then (s.setCore c).ctlDone len [] else (s.setCore c).nextWord len 1
      exec set s = .next (on { s.core with efSet := s.core.efSet ||| bit32 f.toNat }) ∧
      exec clr s = .next (on { s.core with efClr := s.core.efClr ||| bit32 f.toNat }) ∧
      (s.core.ef.getLsbD f.toNat = true → clear = false → exec wait s = .next (if eng = 0 then s.ctlDone len [] else s.nextWord len 1)) ∧
      (s.core.ef.getLsbD f.toNat = true → clear = true → s.core.efClaim.getLsbD f.toNat = false →
        exec wait s = .next (on
          { s.core with efClaim := s.core.efClaim ||| bit32 f.toNat, efClr := s.core.efClr ||| bit32 f.toNat })) ∧
      ((s.core.ef.getLsbD f.toNat = false ∨ (clear = true ∧ s.core.efClaim.getLsbD f.toNat = true)) →
        exec wait s = .next (s.waits 1 f.toNat))
    mine 0 4 (.setf f) (.clrf f) (.waitf f clear) ∧ mine 1 4 (.vSetf f) (.vClrf f) (.vWaitf f clear) ∧
    mine 2 24 (.mSetf f) (.mClrf f) (.mWaitf f clear) ∧ mine 7 8 (.kSetf f) (.kClrf f) (.kWaitf f clear)) ∧
  (∀ (c : Core) (n : Nat), n < 32 →
    c.settle.ef.getLsbD n = (c.efSet.getLsbD n || (c.ef.getLsbD n && !c.efClr.getLsbD n)) ∧ c.settle.efSet = 0 ∧ c.settle.efClr = 0)

/-- Token posts and waits (R189, R387, R418, R467, R477): a post of a count that is not zero is made in the cycle; a wait
takes the count when the token holds it, and else keeps the count it read first and stalls with object 0x20 + N.

A post that would take a token above 65,535 leaves the count and takes the token-overflow trap with the token as its
subcode, at the posting word; any other adds its count (R189). -/
def Obligations.TokenInstructionsPostAndWait : Prop :=
  (∀ (s : State) (tok : BitVec 4) (a : BitVec 6) (n : BitVec 16),
    let mine (eng len : Nat) (cnt : Nat) (post wait : Instr) : Prop := s.cur.eng = eng →
      let on (u : State) : State := if eng = 0 then u.ctlDone len [] else u.nextWord len 1
      let have_ := Tab.get 0 s.core.tk tok.toNat
      let want := s.stm.latch.getD cnt
      (cnt = 0 → exec post s = .next (on s)) ∧
      (cnt ≠ 0 → exec post s = .next (on (s.setCore
        { s.core with posts := s.core.posts ++ [⟨eng, s.stm.pc, s.stm.ncmd, tok.toNat, cnt, s.stm.replay⟩] }))) ∧
      (want = 0 → exec wait s = .next (on s)) ∧
      (want ≠ 0 → want ≤ have_ →
        exec wait s = .next (on (s.setCore { s.core with tk := Tab.set s.core.tk tok.toNat (have_ - want) }))) ∧
      (have_ < want → exec wait s = .next (s.setCore { s.core with
        streams := Tab.set s.core.streams eng
          { s.stm with stall := BitVec.ofNat 10 (256 + (0x20 + tok.toNat)), latch := some want } }))
    mine 0 4 ((s.sreg a).toNat % 65536) (.tkpost tok a) (.tkwait tok a) ∧ mine 1 4 n.toNat (.vTkpost tok n) (.vTkwait tok n) ∧
    mine 2 24 n.toNat (.mTkpost tok n) (.mTkwait tok n) ∧ mine 7 8 n.toNat (.kTkpost tok n) (.kTkwait tok n)) ∧
  (∀ (s : State) (p : Post), s.core.posts = [p] →
    let n := Tab.get 0 s.core.tk p.tok + p.n
    (n ≤ 0xFFFF → s.applyPosts = s.setCore { s.core with posts := [], tk := Tab.set s.core.tk p.tok n }) ∧
    (0xFFFF < n → (∀ t, Tab.get 0 s.applyPosts.core.tk t = Tab.get 0 s.core.tk t) ∧ s.applyPosts.core.frozen = true ∧
      ∃ r, s.applyPosts.core.traps = s.core.traps ++ [r] ∧ r.cause = 0x0D ∧ r.sub = p.tok ∧ r.engine = p.eng ∧ r.pc = p.pc))

/-- Arrivals, ends and words that do nothing, on every stream (R176, R177, R307, R387, R396, R418, R467, R477).

`bar` (R178): the core's count of barriers goes up and its arrival is entered at the gang clock; its stream goes on
only once every core of the gang has arrived and 12 gang cycles have passed since the latest. -/
def Obligations.ArrivalsEndsAndIdleWords : Prop :=
  (∀ (s : State) (num : BitVec 4) (fin : Bool),
    let on (eng len : Nat) : State := if eng = 0 then s.ctlDone len [] else s.nextWord len 1
    let arrives (eng len : Nat) (i : Instr) (final yld : Bool) : Prop := s.cur.eng = eng →
      exec i s = .next ((on eng len).setCore { (on eng len).core with
        streams := Tab.set (on eng len).core.streams eng
          { (on eng len).stm with meet := .arrived s.stm.pc num.toNat final yld, stall := 0 } })
    let ends (i : Instr) : Prop :=
      exec i s = .next (s.setCore { s.core with
        streams := Tab.set s.core.streams s.cur.eng
          { s.stm with ended := true, latch := none, ncmd := s.stm.ncmd + 1, stall := 0 } })
    arrives 0 4 (.rend num fin) fin false ∧ arrives 0 4 (.yield num) false true ∧ arrives 1 4 (.vRend num fin) fin false ∧
    arrives 2 24 (.mRend num fin) fin false ∧ arrives 7 8 (.kRend num fin) fin false ∧
    ends .halt ∧ ends .vHalt ∧ ends .mHalt ∧ ends .kHalt ∧
    exec .nop s = .next (s.ctlDone 4 []) ∧ (s.cur.eng = 1 → exec .vNop s = .next (s.nextWord 4 1)) ∧
    (s.cur.eng = 2 → exec .mnop s = .next (s.nextWord 24 1))) ∧
  ((∀ s : State, s.job.inst < s.att.insts.length →
    let k := s.core.bars + 1
    ∃ t, exec .bar s = .next t ∧ t.core.bars = k ∧ t.stm.latch = some (barLatch k) ∧ t.stm.stall = 0 ∧
      Tab.get (0, 0) t.inst.bars k = ((Tab.get (0, 0) s.inst.bars k).1 + 1, s.inst.gclk) ∧
      (∀ j, j ≠ k → Tab.get (0, 0) t.inst.bars j = Tab.get (0, 0) s.inst.bars j) ∧ s.core.SameRegs t.core ∧ s.SameMemory t) ∧
  ∀ (s : State) (k : Nat), s.barOpen k = true ↔
    s.att.gang ≤ (Tab.get (0, 0) s.inst.bars k).1 ∧ (Tab.get (0, 0) s.inst.bars k).2 + 12 ≤ s.inst.gclk)

/-! Memory (09 R202 to R208, 16 R373 to R379) -/

/-- The checks of a device access in their order, the first that fails deciding (R205): alignment, the argument block's
slot, unbound slots, EMPTY and REVOKED bindings, rights, read-only buffers, SIZE, locality and translation.

The address of a load, store or atomic is the base pair's slot with its offset plus the signed immediate; a sum that
leaves the 48 bits of an offset is a BOUNDS fault (R203), before every other check (the model's choice, log 19).  The trap
that a failed check takes leaves every byte of memory as it was (R205). -/
def Obligations.AccessChecksComeInOrder : Prop :=
  (∀ (s : State) (a n align : Nat) (rd wr lcl : Bool),
    let slot := slotOf a
    let off := offOf a
    let r := s.access a n align rd wr lcl
    (align ≠ 0 → off % align ≠ 0 → r = .trap 0x03 0 none) ∧
    (align = 0 ∨ off % align = 0 →
      (slot = 0xFFFF →
        (wr = true → r = .trap 0x04 4 none) ∧ (wr = false → s.att.args.length < off + n → r = .trap 0x04 5 none) ∧
        (wr = false → off + n ≤ s.att.args.length → r = .args off)) ∧
      (slot < 0xFFE0 → r = .trap 0x04 1 none) ∧
      (0xFFE0 ≤ slot → slot < 0xFFFF → s.att.binds.length ≤ slot - 0xFFE0 → r = .trap 0x04 1 none) ∧
      (0xFFE0 ≤ slot → slot < 0xFFFF → ∀ b, s.att.binds[slot - 0xFFE0]? = some b →
        let u := s.buf b.buf
        (b.empty = true → r = .trap 0x04 2 none) ∧
        (b.empty = false → u.revoked = true → r = .trap 0x04 3 none) ∧
        (b.empty = false → u.revoked = false →
          ((rd = true ∧ b.r = false) ∨ (wr = true ∧ b.w = false) → r = .trap 0x04 4 none) ∧
          ((rd = true → b.r = true) → (wr = true → b.w = true) →
            (wr = true → u.attr.getLsbD 0 = true → r = .trap 0x04 6 none) ∧
            ((wr = true → u.attr.getLsbD 0 = false) →
              (u.size < off + n → r = .trap 0x04 5 none) ∧
              (off + n ≤ u.size →
                (lcl = true → u.peer.isSome = true → r = .trap 0x05 0 none) ∧
                (lcl = false → u.peer.isSome = true → r = .buf b.buf off) ∧
                (u.peer = none →
                  (u.unmapped off n = none → r = .buf b.buf off) ∧
                  (∀ k, u.unmapped off n = some k → r = .trap 0x06 1 (some (b.buf, k))))))))))) ∧
  (∀ (s : State) (m : MemArg) (n align : Nat) (rd wr lcl : Bool),
    let off : Int := ((s.pair m.base).toNat % 2 ^ 48 : Nat) + m.imm.toInt
    (off < 0 ∨ 2 ^ 48 ≤ off → s.memAccess m n align rd wr lcl = .trap 0x04 5 none) ∧
    (0 ≤ off → off < 2 ^ 48 → ∃ a, s.memAccess m n align rd wr lcl = s.access a n align rd wr lcl ∧
      slotOf a = (s.pair m.base).toNat / 2 ^ 48 ∧ (offOf a : Int) = off) ∧
    ∀ cause sub addr status chunk, s.SameMemory (s.trap cause sub addr status chunk))

/-- Loads, atomics and `acq` (R186, R373, R376 to R379): the checks' trap, for an unmapped chunk once its walk has found
that (R219, R221); a watchpoint's stop; the failure of an access to a MEM site out of service; else the stream waits for its data, with the recalls of other holders sent and the walks
of missing translations under way (R219), and nothing else has changed. -/
def Obligations.LoadsAndAtomicsCheckThenWait : Prop :=
  ∀ (s : State) (m : MemArg) (wide : Bool),
    let waitsFor (i : Instr) (n : Nat) (w sx : Bool) (op : AmoOp) (arg expect : Nat) (x : Access)
        (order : Nat := m.order.toNat) (mask : Option Word := none) : Prop :=
      let rec_ (p : LoadAt) : LoadRec :=
        ⟨m.d.toNat, w, p, n, sx, op, arg, expect, m.scope.toNat, order, mask, false, 0, false⟩
      let going (p : LoadAt) : State := (s.ctlDone 8 []).setCore { (s.ctlDone 8 []).core with load := some (rec_ p) }
      (∀ c sub ch, x = .trap c sub ch → ¬ (c = 0x06 ∧ sub = 1) → exec i s = .next (s.trap c sub (s.eaWrapped m) 0 ch)) ∧
      (∀ b k, x = .trap 0x06 1 (some (b, k)) →
        (s.walkFound s.cur.cluster s.att.part b k = false →
          exec i s = .next ((s.walkFor s.cur.cluster s.att.part b k (s.vfOf s.att)).waits 1 0x3F)) ∧
        (s.walkFound s.cur.cluster s.att.part b k = true →
          exec i s = .next (s.trap 0x06 1 (s.eaWrapped m) 0 (some (b, k))))) ∧
      (∀ off, x = .args off → exec i s = .next (going (.args off))) ∧
      (∀ b off, x = .buf b off →
        let wr := decide (op ≠ .read)
        (∀ k, s.watchTrap b off n wr = some k → exec i s = .next (s.trap 0x17 k (s.eaWrapped m))) ∧
        (s.watchTrap b off n wr = none → s.lostAt b off n = true →
          exec i s = .next { s with due := s.due ++ [(s.cur, .attemptFailure s.job.att 7 0 0)] }) ∧
        (s.watchTrap b off n wr = none → s.lostAt b off n = false →
          exec i s = .next (((going (.buf b off)).homeRecall b off n wr).walkAll s.cur.cluster s.att.part b off n (s.vfOf s.att))))
    let load (n : Nat) : Access := s.memAccess m n n true false true
    let k := if wide then 8 else 4
    let amo (lcl : Bool) (n : Nat) : Access := s.memAccess m n n true true lcl
    let near := decide (m.scope.toNat < 5)
    let v := if wide then (s.pair m.aux).toNat else (s.sreg m.aux).toNat
    waitsFor (.ldB m) 1 false true .read 0 0 (load 1) ∧ waitsFor (.ldBu m) 1 false false .read 0 0 (load 1) ∧
    waitsFor (.ldH m) 2 false true .read 0 0 (load 2) ∧ waitsFor (.ldHu m) 2 false false .read 0 0 (load 2) ∧
    waitsFor (.ldW m) 4 false false .read 0 0 (load 4) ∧ waitsFor (.ldD m) 8 true false .read 0 0 (load 8) ∧
    waitsFor (.acq m) 8 true false .read 0 0 (load 8) 1 (some (s.sreg m.aux)) ∧
    waitsFor (.amoadd wide m) k wide false .add v 0 (amo near k) ∧ waitsFor (.amoand wide m) k wide false .and_ v 0 (amo near k) ∧
    waitsFor (.amoor wide m) k wide false .or_ v 0 (amo near k) ∧ waitsFor (.amoxor wide m) k wide false .xor_ v 0 (amo near k) ∧
    waitsFor (.amomin wide m) k wide false .min v 0 (amo near k) ∧ waitsFor (.amomax wide m) k wide false .max v 0 (amo near k) ∧
    waitsFor (.amominu wide m) k wide false .minu v 0 (amo near k) ∧
    waitsFor (.amomaxu wide m) k wide false .maxu v 0 (amo near k) ∧
    waitsFor (.amoswp wide m) k wide false .swap v 0 (amo near k) ∧
    waitsFor (.cas m) 4 false false .cas (s.sreg m.aux).toNat (s.sreg m.d).toNat (amo near 4) ∧
    waitsFor (.casp m) 8 true false .cas (s.pair m.aux).toNat (s.pair m.d).toNat (amo near 8)

/-- Data of a scalar load, atomic or `acq` arrives (R186, R376 to R379, 09 R208, 10 R227 to R239): from the argument block,
with the acquire set that an `acq` names; or, behind a `fence` of the core and what its release waits for, once its
translation is there and its turn at the home has come (04 R88), the access performs: a relaxed load of what its cluster's
L1 sees; one with acquire order at its scope's point of coherence, with the lines of its acquire set dropped above it; an
atomic at its chiplet's L2 up to chiplet scope, and beyond it and for a lent extent at the home, where exactly its bytes
change.  An uncorrectable error fails the attempt.  An atomic on a peer's buffer is sent once, as soon as its port carries
traffic, and the answer is its data; it fails where the port is down (01 R33).

What each atomic writes over an old value of n bytes (R376, R377): sums wrap to the word, minima and maxima are
signed or unsigned at its width, a compare-and-swap writes only where the old value is the expected one.

A load's data is on its way to its register for the next core cycle, in which the stream goes on; nothing else changes
(R185, R186, R373). -/
def Obligations.ScalarDataArrivesAndAtomicsPerform : Prop :=
  (∀ (s : State) (r : LoadRec), s.core.load = some r → r.arrived = false → (∀ k, Memory.wf (s.buf k).mem = true) →
    let c := s.cur.cluster
    let A := exec .scalarLoadArrival s
    let value (old : Nat) : DWord := if r.sx then (BitVec.ofNat (8 * r.n) old).signExtend 64 else BitVec.ofNat 64 old
    let got (t : State) (v : DWord) : Prop :=
      t.core.load = some { r with v := v, arrived := true } ∧ s.core.SameRegs t.core ∧ t.core.pend = s.core.pend ∧ t.stm = s.stm
    let fails (u : State) (cause : Nat) : State := { u with due := u.due ++ [(s.cur, .attemptFailure s.job.att cause 0 0)] }
    let rel := r.op ≠ .read ∧ 2 ≤ r.order % 4
    let none_ : Nat → Nat → Prop := fun _ _ => False
    (∀ off, r.at_ = .args off → ∃ t, A = .next t ∧ got t (value (leNat ((s.att.args.drop off).take r.n))) ∧
      s.KeepsBytes t c none_ ∧ (r.order % 2 = 0 → s.SameMemory t) ∧
      (r.order % 2 = 1 → 3 ≤ r.scope → ∀ key, s.att.acquires none (r.mask.getD 0) (keyBuf key) = true →
        t.line1 c key = none ∧ (4 ≤ r.scope → t.line2 (c / 32) key = none))) ∧
    (∀ b off, r.at_ = .buf b off → s.fencedCore s.cur.id = true → A = .next s) ∧
    (∀ b off, r.at_ = .buf b off → s.fencedCore s.cur.id = false → (s.buf b).peer = none →
      let wr := decide (r.op ≠ .read)
      let me : Actor := { s.cur with eng := 0 }
      let at_ := [(b, off, r.n)]
      let late := rel ∧ r.scope = 5 ∧ s.homeLate = true
      let u := s.leaveHome (· == me) wr at_
      (late → A = .next s) ∧
      (¬ late → s.translated c s.att.part b off r.n = false →
        A = .next (s.walkAll c s.att.part b off r.n (s.vfOf s.att))) ∧
      (¬ late → s.translated c s.att.part b off r.n = true →
        (s.homeTurn (· == me) wr at_ = false → A = .next (s.waitHome me wr at_)) ∧
        (s.homeTurn (· == me) wr at_ = true →
          (u.lostAt b off r.n = true → A = .next (fails u 7)) ∧
          (u.lostAt b off r.n = false → wr = false →
            let acq := r.order % 2 = 1 ∧ 3 ≤ r.scope
            let s1 := if acq then (u.acquireAt c r.scope (u.acquiring r b)).toPoint c r.scope b off r.n else u
            let atHome := u.cached b = false ∨ (acq ∧ 4 ≤ r.scope)
            let bad := if acq ∧ 4 ≤ r.scope then (s1.buf b).badAt off r.n else s1.bad1 c b off r.n
            let bytes := if atHome then (s1.buf b).mem.bytes off r.n
              else if acq then s1.bytes2 (c / 32) b off r.n else s1.bytes1 c b off r.n
            (bad = true → A = .next (fails u 3)) ∧
            (bad = false → ∃ t, A = .next t ∧ got t (value (leNat bytes)) ∧ s.KeepsBytes t c none_ ∧
              (acq → ∀ key, s.acquiring r b (keyBuf key) = true →
                t.line1 c key = none ∧ (4 ≤ r.scope → t.line2 (c / 32) key = none)))) ∧
          (u.lostAt b off r.n = false → wr = true →
            let far := 4 ≤ r.scope ∨ u.cached b = false
            let s1 := (if rel then u.releaseAt c r.scope else u).toPoint c (if far then 4 else 3) b off r.n
            let bad := if far then (s1.buf b).badAt off r.n else s1.bad2 (c / 32) b off r.n
            let bytes := if far then (s1.buf b).mem.bytes off r.n else s1.bytes2 (c / 32) b off r.n
            let new := r.op.new r.n (leNat bytes) r.arg r.expect
            (bad = true → A = .next (fails u 3)) ∧
            (bad = false → ∃ t, A = .next t ∧ got t (value (leNat bytes)) ∧
              (new = none → s.KeepsBytes t c none_) ∧
              (∀ v, new = some v → off + r.n ≤ 2 ^ 48 → (Tab.find s.bufs b).isSome = true →
                s.KeepsBytes t c (bytesFrom b off r.n) ∧
                ∀ k < r.n, t.seen1 c b (off + k) = BitVec.ofNat 8 (v / 256 ^ k) ∧
                  (far → Memory.byte (t.buf b).mem (off + k) = BitVec.ofNat 8 (v / 256 ^ k)))))))) ∧
    (∀ b off p bs, r.at_ = .buf b off → s.fencedCore s.cur.id = false → (s.buf b).peer = some p →
      let up := (s.port p).state = 2 ∨ (s.port p).state = 3
      let down := (s.port p).state = 0
      (r.asked = true → s.reply none = none → A = .next s) ∧
      (r.asked = true → s.reply none = some none → A = .next ((s.tookReply none).peerFails p 0)) ∧
      (r.asked = true → s.reply none = some (some bs) → ∃ t, A = .next t ∧ got t (value (leNat (bs.take r.n)))) ∧
      (r.asked = false → rel → s.homeLate = true → A = .next s) ∧
      (r.asked = false → ¬ (rel ∧ s.homeLate = true) → down → A = .next (s.peerFails p 0)) ∧
      (r.asked = false → ¬ (rel ∧ s.homeLate = true) → ¬ down → ¬ up → A = .next s) ∧
      (r.asked = false → ¬ (rel ∧ s.homeLate = true) → up → ∃ t, A = .next t ∧
        t.core.load = some { r with asked := true } ∧ s.core.SameRegs t.core ∧
        t.sent = s.sent ++ [.peerAtomic p b off r.n r.op r.arg r.expect]))) ∧
  (∀ (w : Nat) (old v expect : BitVec (8 * w)),
    let new (op : AmoOp) : Option (BitVec (8 * w)) := (op.new w old.toNat v.toNat expect.toNat).map (BitVec.ofNat (8 * w))
    new .read = none ∧ new .add = some (old + v) ∧ new .and_ = some (old &&& v) ∧ new .or_ = some (old ||| v) ∧
    new .xor_ = some (old ^^^ v) ∧ new .swap = some v ∧
    new .min = some (if v.toInt < old.toInt then v else old) ∧ new .max = some (if old.toInt < v.toInt then v else old) ∧
    new .minu = some (if v.toNat < old.toNat then v else old) ∧ new .maxu = some (if old.toNat < v.toNat then v else old) ∧
    new .cas = (if old = expect then some v else none)) ∧
  (∀ (s : State) (r : LoadRec) (d : BitVec 6), r.d = d.toNat →
    let t := s.takeLoad r
    let n := s.core.clk + 1
    t.core.load = none ∧ t.stm.free = n ∧ t.stm.pc = s.stm.pc ∧ s.SameMemory t ∧ (∀ x, t.sreg x = s.sreg x) ∧
    t.core.pend = s.core.pend ++ (if r.wide then pairDue n d r.v else sregDue n d (r.v.extractLsb' 0 32)))

/-- Stores (R374, R379): the checks' trap, a watchpoint's stop, the failure of an access to a MEM site out of service,
or the store, which never waits (R186, R219): a relaxed one, or one at a scope within the cluster, writes its
cluster's L1 (R206, R207); one with release order the L2 at chiplet scope and the home beyond (10 R231); a lent extent's
bytes go to the home (04 R89), at once or queued there behind what is before them.  Exactly the low bytes of the source
at the formed address take a new value, little-endian, and no register changes.

`fence` writes back what its scope reaches and drops the lines of every binding, and at system scope waits at the homes
behind the device writes there (R237, R379). -/
def Obligations.StoresWriteExactlyTheirBytes : Prop :=
  ∀ (s : State) (m : MemArg), (∀ k, Memory.wf (s.buf k).mem = true) →
    let c := s.cur.cluster
    let sc := m.scope.toNat
    let done (i : Instr) (t : State) : Prop := exec i s = .next t ∧ t.core = (s.ctlDone 8 []).core
    let stores (i : Instr) (n v : Nat) (rel : Bool) : Prop :=
      let x := s.memAccess m n n false true true
      (∀ k sub ch, x = .trap k sub ch → exec i s = .next (s.trap k sub (s.eaWrapped m) 0 ch)) ∧
      (∀ b off, x = .buf b off →
        (∀ k, s.watchTrap b off n true = some k → exec i s = .next (s.trap 0x17 k (s.eaWrapped m))) ∧
        (s.watchTrap b off n true = none → s.lostAt b off n = true →
          exec i s = .next { s with due := s.due ++ [(s.cur, .attemptFailure s.job.att 7 0 0)] }) ∧
        (s.watchTrap b off n true = none → s.lostAt b off n = false →
          let byte (k : Nat) : Byte := BitVec.ofNat 8 (v / 256 ^ k)
          let fenced := s.fencedCore s.cur.id = true
          let outward := rel = true ∧ 3 ≤ sc
          let inL1 := ¬ fenced ∧ ¬ outward ∧ s.cached b = true ∧ s.queuedOver b off n = false
          let inL2 := ¬ fenced ∧ outward ∧ sc = 3 ∧ s.cached b = true ∧ s.queuedOver b off n = false
          let queued (late : Bool) : Prop := ∃ t, done i t ∧ s.KeepsBytes t c (fun _ _ => False) ∧
            t.homeq = s.homeq ++ [.devWrite b off (leBytes n v) late (some s.job.att)]
          let written (place : State → Nat → Byte) : Prop := ∃ t, done i t ∧ s.KeepsBytes t c (bytesFrom b off n) ∧
            t.homeq = s.homeq ∧ ∀ k < n, place t (off + k) = byte k ∧ t.seen1 c b (off + k) = byte k
          (inL1 → written fun t a => t.seen1 c b a) ∧
          (inL2 → written fun t a => t.seen2 (c / 32) b a) ∧
          (fenced → queued true) ∧
          (¬ fenced → ¬ inL1 → ¬ inL2 →
            ((s.homeBusy b off n true = true ∨ (outward ∧ sc = 5 ∧ s.homeLate = true)) → queued (decide (outward ∧ sc = 5))) ∧
            (s.homeBusy b off n true = false → ¬ (outward ∧ sc = 5 ∧ s.homeLate = true) →
              s.cached b = false ∨ outward →
              ∃ t, done i t ∧ s.KeepsBytes t c (bytesFrom b off n) ∧ t.homeq = s.homeq ∧
                ∀ k < n, Memory.byte (t.buf b).mem (off + k) = byte k))))
    let ord := decide (m.order.toNat % 4 = 2)
    stores (.stB m) 1 (s.sreg m.d).toNat ord ∧ stores (.stH m) 2 (s.sreg m.d).toNat ord ∧
    stores (.stW m) 4 (s.sreg m.d).toNat ord ∧ stores (.stD m) 8 (s.pair m.d).toNat ord ∧
    stores (.rel m) 8 (s.pair m.d).toNat true ∧
    ∃ t, done (.fence m) t ∧ s.KeepsBytes t c (fun _ _ => False) ∧
      (3 ≤ sc → ∀ key l, t.line1 c key = some l → l.dirty = 0 ∧ ∀ x ∈ s.att.binds, keyBuf key ≠ x.buf) ∧
      (4 ≤ sc → ∀ key l, t.line2 (c / 32) key = some l → l.dirty = 0 ∧ ∀ x ∈ s.att.binds, keyBuf key ≠ x.buf) ∧
      (sc < 3 → t.l1 = s.l1 ∧ t.l2 = s.l2) ∧
      t.homeq = s.homeq ++ (if sc = 5 ∧ s.homeLate = true then [.devFence s.cur.id] else [])

/-! Nest tables, launches, capabilities, stage commands, system registers, traps (16 R388 to R395, 13 R295 to R301) -/

/-- `nestw` writes one word of a table's shadow copy; `nestgo` traps on an illegal shadow, waits while the go bit is set
or about to be, and else stages the shadow and sets the go bit two cycles later (R192, R193, R388).  That an index from 25
up is reported before a table that the core does not have is the model's choice (log 22). -/
def Obligations.NestTablesAreWrittenAndStaged : Prop :=
  ∀ (s : State) (idx : BitVec 5) (tbl : BitVec 2) (a : BitVec 6),
    let T := tbl.toNat
    let W := exec (.nestw idx tbl a) s
    let G := exec (.nestgo tbl) s
    let matrix := decide (s.att.cls ≤ 2) && decide (s.att.codeCls ≤ 2)
    (25 ≤ idx.toNat → W = .next (s.trap 0x02 3)) ∧
    (idx.toNat < 25 → 2 ≤ T → matrix = false → W = .next (s.trap 0x02 0x13)) ∧
    (idx.toNat < 25 → (T < 2 ∨ matrix = true) → ∃ c, W = .next ((s.setCore c).ctlDone 4 []) ∧
      c.nestWord T 0 idx.toNat = s.sreg a ∧
      (∀ t k i, t < 4 → k < 3 → i < 32 → (t ≠ T ∨ k ≠ 0 ∨ i ≠ idx.toNat) → c.nestWord t k i = s.core.nestWord t k i) ∧
      c = { s.core with nest := c.nest }) ∧
    (2 ≤ T → matrix = false → G = .next (s.trap 0x02 0x13)) ∧
    (T < 2 ∨ matrix = true →
      (s.core.nestOk T = false → G = .next (s.trap 0x0F T)) ∧
      (s.core.nestOk T = true → (s.core.go.getLsbD T || s.core.goPend.getLsbD T) = true → G = .next (s.waits 1 (0x39 + T))) ∧
      (s.core.nestOk T = true → s.core.go.getLsbD T = false → s.core.goPend.getLsbD T = false →
        ∃ c, G = .next ((s.setCore c).ctlDone 4 []) ∧ c.pend = s.core.pend ++ [⟨s.core.clk + 2, .go T⟩] ∧
          (∀ i < 25, c.nestWord T 1 i = s.core.nestWord T 0 i ∧ c.nestWord T 0 i = s.core.nestWord T 0 i ∧
            c.nestWord T 2 i = s.core.nestWord T 2 i) ∧
          c = { s.core with nest := c.nest, pend := c.pend, goPend := c.goPend } ∧ c.goPend.getLsbD T = true))

/-- `launch` (R121 to R124, R389): a header that fails its checks traps; with no pool entry, 255 nodes posted, or a
second continuation, the status 1, 2 or 3 is due 32 cycles later and nothing is posted; else a node of the parent's group
is posted, the status is 0, and its descriptor may be read once that is written.  Of several statuses the lowest is given
(the model's choice, log 23). -/
def Obligations.LaunchPostsANodeAndReportsItsStatus : Prop :=
  ∀ (s : State) (d a : BitVec 6) (cont : Bool),
    let L := exec (if cont then .launchContinuation d a else .launch d a) s
    let addr := (s.pair a).toNat
    let t := s.att
    let status (k : Word) : Host.Outcome State Fault Refusal := .next (s.ctlDone 4 (sregDue (s.core.clk + 32) d k))
    (∀ c sub ch, s.launchAt addr = .trap c sub ch → L = .next (s.trap c sub addr 0 ch)) ∧
    ((∀ c sub ch, s.launchAt addr ≠ .trap c sub ch) →
      (s.poolEntry t.part = none → L = status 1) ∧
      (∀ pool, s.poolEntry t.part = some pool →
        (255 ≤ t.posted → L = status 2) ∧
        (t.posted < 255 → cont = true → t.cont = true → L = status 3) ∧
        (t.posted < 255 → (cont = false ∨ t.cont = false) →
          let n := s.core.clk + 32
          ∃ u, L = .next u ∧ u.core = (s.ctlDone 4 (sregDue n d 0 ++ [⟨n, .shown s.nextNode⟩])).core ∧
            u.nextNode = s.nextNode + 1 ∧ u.att.posted = t.posted + 1 ∧ u.att.cont = (t.cont || cont) ∧
            (u.node s.nextNode).phase = .posted ∧ (u.node s.nextNode).parent = some (t.node, t.posted + 1) ∧
            (u.node s.nextNode).pool = pool ∧ (u.node s.nextNode).cont = cont ∧
            (u.node s.nextNode).graph = (s.node t.node).graph ∧ s.SameMemory u)))

/-- The capability instructions (R112, R390, R391): an absent binding traps as UNBOUND; a status that says that nothing
was done; else `capgive` reserves the slot, takes a reference and empties the binding, `capdrop` empties it, and `capqry` reports the
binding's fields or its buffer's SIZE. -/
def Obligations.CapabilityInstructionsGiveDropAndReport : Prop :=
  ∀ (s : State) (d a : BitVec 6) (k : BitVec 5),
    let t := s.att
    let slot := (s.sreg a).toNat % 65536
    let G := exec (.capgive d a k) s
    let D := exec (.capdrop d k) s
    let status (x : Word) : Host.Outcome State Fault Refusal := .next (s.ctlDone 4 (sregDue (s.core.clk + 6) d x))
    (t.binds.length ≤ k.toNat → ∀ part, G = .next (s.trap 0x04 1) ∧ D = .next (s.trap 0x04 1) ∧
      exec (.capqry d k part) s = .next (s.trap 0x04 1)) ∧
    (∀ b, t.binds[k.toNat]? = some b →
      let emptied (u : State) (x : Bind) : Prop :=
        u.core = (s.ctlDone 4 (sregDue (s.core.clk + 6) d 0)).core ∧ u.att.binds = t.binds.set k.toNat x ∧ s.SameMemory u
      (b.empty = true → G = status 1 ∧ D = status 1) ∧
      (b.empty = false → (0xFFDF < slot ∨ (s.cap t.part slot).isSome = true) → G = status 2) ∧
      (b.empty = false → slot ≤ 0xFFDF → s.cap t.part slot = none →
        ∃ u, G = .next u ∧ emptied u { b with empty := true, given := true, give := some slot } ∧ u.cap t.part slot = some .reserved ∧
          (u.buf b.buf).refs = (s.buf b.buf).refs + 1) ∧
      (b.empty = false → ∃ u, D = .next u ∧ emptied u { b with empty := true } ∧ u.caps = s.caps) ∧
      exec (.capqry d k true) s =
        .next (s.ctlDone 4 (pairDue (s.core.clk + 6) d (BitVec.ofNat 64 (s.buf b.buf).size))) ∧
      (b.kind < 8 → ∃ v : DWord, exec (.capqry d k false) s = .next (s.ctlDone 4 (pairDue (s.core.clk + 6) d v)) ∧
        (v.extractLsb' 0 3).toNat = b.kind ∧ v.getLsbD 3 = b.exp ∧ v.getLsbD 4 = b.r ∧ v.getLsbD 5 = b.w ∧
        v.getLsbD 6 = b.empty ∧ v.getLsbD 7 = b.given ∧ v.getLsbD 8 = (s.buf b.buf).revoked ∧ v.extractLsb' 9 23 = 0 ∧
        v.extractLsb' 32 13 = (s.buf b.buf).attr ∧ v.extractLsb' 45 19 = 0))

/-- `stg` and `stgdec` (R392, R487, R494): a malformed command traps; a full queue stalls the stream; a decode command
with a malformed parameter block traps; else the 16 bytes of the register group enter the queue, after a release at
package scope (10 R242).

The stage engine admits the command at the head of a core's queue (R243, R488): the checks of its ranges come first, a
fence waits for the core's earlier transfers, and an admitted command becomes the site's newest transfer, with its
event.  DEDUCED (log 32): `stgdec`'s probability table is read at admission, and the event of an SCL carries destination 0. -/
def Obligations.StageCommandsArePushedAndAdmitted : Prop :=
  (∀ (s : State) (a : BitVec 6),
    let w : BitVec 128 := s.sreg (a + 3) ++ s.sreg (a + 2) ++ s.sreg (a + 1) ++ s.sreg a
    let full := decide (16 ≤ s.core.stgq.items.length + s.core.stgq.popped + s.core.stgq.inc.length)
    let pushed (q : StgCmd) (out : Nat) : Host.Outcome State Fault Refusal :=
      .next (((s.releaseAt s.cur.cluster 4).setCore { s.core with
        stgq := { s.core.stgq with inc := s.core.stgq.inc ++ [q] }
        scaleOut := s.core.scaleOut + out, scaleNew := s.core.scaleNew + out }).ctlDone 4 [])
    (∀ sub, stageBad w = some sub → exec (.stg a) s = .next (s.trap 0x01 sub)) ∧
    (∀ sub, decodeBad w = some sub → exec (.stgdec a) s = .next (s.trap 0x01 sub)) ∧
    (stageBad w = none → full = true → exec (.stg a) s = .next (s.waits 2 0x06)) ∧
    (decodeBad w = none → full = true → exec (.stgdec a) s = .next (s.waits 2 0x06)) ∧
    (stageBad w = none → full = false → exec (.stg a) s = pushed ⟨w, false, 0, []⟩ (sclEntries w)) ∧
    (decodeBad w = none → full = false →
      let b := s.decodeBlock w
      ((b ≠ [] ∧ blockBad b = true) → exec (.stgdec a) s = .next (s.trap 0x02 0x16)) ∧
      ((b = [] ∨ blockBad b = false) → exec (.stgdec a) s = pushed ⟨w, true, 0, b⟩ 0))) ∧
  (∀ (s : State) (q : StgCmd) (rest : List StgCmd), s.core.stgq.items = q :: rest → s.core.job.isSome = true →
    s.core.frozen = false → s.cur.eng = 0 →
    let c := s.core
    let admitting : Instr :=
      match q.op with
      | 0 => .stageLoad | 1 => .stageStore | 2 => .stageQnt | 3 => .stageHash
      | 4 => .stageScl | _ => .stageDecode
    let holds := q.dec = false ∧ q.len = 0 ∧ ∃ x ∈ s.xfers, x.core = s.cur.core ∧ s.xferDone x = false
    let u := s.setCore { c with stgq := { c.stgq with items := rest } }
    let tab := if q.dec then s.inst.sram.bytes q.table 512 else []
    q.op ≤ 5 →
    (holds → exec admitting s = .next s) ∧
    (¬ holds → (∀ cause sub a, s.admitFault q = some (cause, sub, a) →
        exec admitting s = .next (s.headTrap cause sub 6 (bytesOf 16 q.w.toNat) a none)) ∧
      (s.admitFault q = none → exec admitting s = .next { u with
        stage := Tab.set s.stage s.cur.site (s.xfers ++ [⟨s.job.att, s.job.inst, s.cur.core, q, 0, false, tab, false, false, none, []⟩])
        evq := s.evq ++ [⟨s.att.part, 6, 0x20, s.cur.site, 0, s.time, q.evArgs.1, q.evArgs.2, s.att.key, []⟩] })))

/-- System registers and time (R135, R260, R261, R393, R394): what each number reads; what the writable ones take; the
traps of a number that is unknown or read-only and of an illegal VCTL; `rdtime` reads both halves at one instant. -/
def Obligations.SystemRegistersReadAndWrite : Prop :=
  ∀ (s : State) (d a : BitVec 6) (n : BitVec 12),
    let c := s.core
    let t0 := s.inst.t0.getD 0
    let v := s.sreg a
    let known : List (Nat × Word) :=
      [(0x100, BitVec.ofNat 32 s.job.inst), (0x101, BitVec.ofNat 32 s.att.insts.length), (0x102, BitVec.ofNat 32 s.job.grank),
       (0x103, BitVec.ofNat 32 s.att.gang), (0x104, BitVec.ofNat 32 t0), (0x105, BitVec.ofNat 32 (t0 / 2 ^ 32)),
       (0x106, s.att.key), (0x107, c.lstat), (0x108, c.liter), (0x110, c.vctl), (0x111, c.vstat), (0x112, c.accflags),
       (0x114, c.markidx)]
    (∀ p ∈ known, n.toNat = p.1 → exec (.rdsys d n) s = .next (s.ctlDone 4 (sregDue (c.clk + 2) d p.2))) ∧
    ((∀ p ∈ known, n.toNat ≠ p.1) → exec (.rdsys d n) s = .next (s.trap 0x02 0x14) ∧
      exec (.wrsys a n) s = .next (s.trap 0x02 0x14)) ∧
    (n.toNat ∈ [0x100, 0x101, 0x102, 0x103, 0x104, 0x105, 0x106, 0x107, 0x108, 0x114] →
      exec (.wrsys a n) s = .next (s.trap 0x02 0x15)) ∧
    (n.toNat = 0x110 → (8 ≤ v.toNat ∨ v.toNat % 4 = 3) → exec (.wrsys a n) s = .next (s.trap 0x02 2)) ∧
    (n.toNat = 0x110 → v.toNat < 8 → v.toNat % 4 ≠ 3 →
      exec (.wrsys a n) s = .next ((s.setCore { c with vctl := v }).ctlDone 4 [⟨c.clk + 2, .vctl v⟩])) ∧
    (n.toNat = 0x111 → ∃ w : Word, exec (.wrsys a n) s = .next ((s.setCore { c with vstat := w }).ctlDone 4 []) ∧
      ∀ k < 32, w.getLsbD k = (c.vstat.getLsbD k && !(v.getLsbD k && !c.vsFresh.getLsbD k))) ∧
    (n.toNat = 0x112 → ∃ w : Word, exec (.wrsys a n) s = .next ((s.setCore { c with accflags := w }).ctlDone 4 []) ∧
      ∀ k < 32, w.getLsbD k = (c.accflags.getLsbD k && !(v.getLsbD k && !c.accFresh.getLsbD k))) ∧
    exec (.rdtime d) s = .next (s.ctlDone 4 (pairDue (c.clk + 2) d (BitVec.ofNat 64 s.time)))

/-- Taking a trap (R295, R298, R301): the core freezes from this cycle on; the record names cause, subcode, engine, PC,
command, word, replay, site, core, status, address, clocks and time; it enters its core's traps and its cluster's order, after
the faults detected before it, which of one cycle are those of lower cores and engines (R299); and the instruction has no
effect: no register, no byte of memory, no stream, no held result changes, and nothing outside.  That an illegal word of
the sort stream is precise (R337) and at a command boundary in one is the model's choice (log 83).

The software trap, the breakpoint and the side cores' `ebreak` take their trap at their own word; re-executed once
after a debug stop, a breakpoint raises nothing; a word that no instruction's encoding admits takes the illegal-encoding
trap with its subcode, the lowest that applies: `mspz` and `mbsp` are reserved on a DNS core, and LVL and LVLEN outside a
replay (R197, R295, R329, R337, R395, R445, R454). -/
def Obligations.TakingATrapFreezesTheCoreAndFormsItsRecord : Prop :=
  (∀ (s : State) (q : TrapReq),
    let t := s.takeTrap q
    let atCommand : Prop := q.engine = 2 ∨ q.engine = 3 ∨ q.engine = 7
    let earlier (r : TrapRec) (y : TahrItem) : Prop := y.taken = false ∧ y.rec_.time = r.time ∧
      (s.cur.id < y.core ∨ (s.cur.id = y.core ∧ r.engine < y.rec_.engine))
    ∃ r : TrapRec,
      t.core = { s.core with frozen := true, traps := s.core.traps ++ [r] } ∧
      (∃ before after, Tab.get [] s.tahr s.cur.cluster = before ++ after ∧
        Tab.get [] t.tahr s.cur.cluster = before ++ ⟨s.cur.id, r, false⟩ :: after ∧
        (∀ y ∈ before, ¬ earlier r y) ∧ (∀ y ∈ after.head?, earlier r y)) ∧
      (∀ k, k ≠ s.cur.cluster → Tab.find t.tahr k = Tab.find s.tahr k) ∧
      { t with cores := s.cores, tahr := s.tahr } = s ∧ (∀ k, k ≠ s.cur.id → Tab.find t.cores k = Tab.find s.cores k) ∧
      r.cause = q.cause ∧ r.sub = q.sub ∧ r.engine = q.engine ∧ r.pc = q.pc ∧ r.site = s.cur.site ∧ r.core = s.cur.core ∧
      r.word = s.wordAt q.engine q.pc ∧ r.status = q.status ||| s.core.kindBit q.engine r.word ∧ r.replay = q.replay ∧ r.addr = q.addr ∧ r.cclk = s.core.clk ∧ r.gclk = s.inst.gclk ∧ r.time = s.time ∧
      r.loops = s.core.loops ∧ r.qhead = false ∧ (atCommand → r.cmdb = true ∧ r.cmdidx = q.cmdidx ∧ (r.prec = true ↔ q.engine = 7 ∧ q.cause = 0x01)) ∧
      (¬ atCommand → r.cmdb = false ∧ r.prec = true ∧ r.cmdidx = 0)) ∧
  (∀ (s : State) (code sub : BitVec 8) (compressed : Bool),
    let at_ (cause sub : Nat) : Host.Outcome State Fault Refusal :=
      .next (s.takeTrap ⟨cause, sub, s.cur.eng, s.stm.pc, s.stm.ncmd, 0, 0, none, s.stm.replay⟩)
    exec (.trap code) s = at_ 0x15 code.toNat ∧ exec (.illegalEncoding sub) s = at_ 0x01 (s.lowestSub sub.toNat) ∧
    (s.cur.eng ≠ 2 → s.cur.eng ≠ 5 → s.lowestSub sub.toNat = sub.toNat) ∧
    (s.cur.eng = 2 → s.onSpr = true → s.stm.replay.isSome = true → s.lowestSub sub.toNat = sub.toNat) ∧
    (s.skipsDebug = false → exec (.brk code) s = at_ 0x16 1 ∧ exec (.ebreak compressed) s = at_ 0x16 2) ∧
    (s.skipsDebug = true → exec (.brk code) s = .next (s.ctlDone 4 []) ∧
      exec (.ebreak compressed) s = .next (s.sideDone (s.stm.pc + if compressed then 2 else 4))))

/-! The vector stream (08 R181 to R195, 17 R398 to R418, 18 R420 to R439) -/

/-- A vector, matrix or sort word moves its stream to the next word in the order of issue, and holds its slot; in a
replay, the word after the body's last one is the first of the next iteration, whose counters step from the innermost
level on, and after the last iteration the stream leaves the body, the vector stream with the word after it, the matrix
stream waiting for its `mend` (R184, R194).

`vseq` and `mseq` (R192, R194, R416, R417, R445, R446): a body that leaves its section traps, and so does one with a
word it may not hold or, on the matrix stream, of none or more than 256 words; without the table's go bit the stream
waits; else the staged table becomes the active one, its go bit clears, and the body's first word is next with all
counters zero.  `mend` goes on after the last iteration and traps where no replay stands. -/
def Obligations.WordsMoveTheirStreamOn : Prop :=
  (∀ (s : State) (len occ : Nat),
    let t := s.stm
    let moved (pc : Nat) (r : Option Replay) : State := s.setCore { s.core with
      streams := Tab.set s.core.streams s.cur.eng
        { t with pc := pc, replay := r, free := s.core.clk + occ, latch := none, ncmd := t.ncmd + 1, stall := 0 } }
    (t.replay = none → s.nextWord len occ = moved (t.pc + len) none) ∧
    (∀ r, t.replay = some r →
      (t.pc + len ≠ r.after → s.nextWord len occ = moved (t.pc + len) (some r)) ∧
      (t.pc + len = r.after → r.j.length = 6 →
        (∀ l < 6, r.j.getD l 0 + 1 < s.core.trips r.tab l → (∀ k < l, s.core.trips r.tab k ≤ r.j.getD k 0 + 1) →
          ∃ j : List Nat, s.nextWord len occ = moved r.first (some { r with j := j }) ∧ j.length = 6 ∧
            (∀ k < l, j.getD k 9 = 0) ∧ j.getD l 0 = r.j.getD l 0 + 1 ∧ (∀ k, l < k → j.getD k 0 = r.j.getD k 0)) ∧
        ((∀ k < 6, s.core.trips r.tab k ≤ r.j.getD k 0 + 1) →
          (s.cur.eng = 1 → s.nextWord len occ = moved (t.pc + len) none) ∧
          (s.cur.eng ≠ 1 → s.nextWord len occ = moved (t.pc + len) (some { r with j := [] })))))) ∧
  (∀ (s : State) (nm1 : BitVec 6) (tbl : BitVec 1),
    let pc := s.stm.pc
    let begins (tab first after : Nat) (i : Instr) : Prop :=
      ∃ c, exec i s = .next (s.setCore c) ∧
        c = { s.core with
          nest := c.nest
          go := c.go
          streams := Tab.set s.core.streams s.cur.eng
            { s.stm with
              pc := first, replay := some ⟨tab, first, after, [0, 0, 0, 0, 0, 0]⟩, free := s.core.clk + 1, latch := none,
              ncmd := s.stm.ncmd + 1, stall := 0 } } ∧
        (∀ k < 4, c.go.getLsbD k = (s.core.go.getLsbD k && decide (k ≠ tab))) ∧
        (∀ t k i, t < 4 → k < 3 → i < 32 →
          c.nestWord t k i = if t = tab ∧ k = 2 ∧ i < 25 then s.core.nestWord tab 1 i else s.core.nestWord t k i)
    (s.cur.eng = 1 → s.stm.replay = none →
      let V := exec (.vseq nm1 tbl) s
      let body := codeWords 1 (nm1.toNat + 1) (pc + 4) ((s.section_ 1).drop (pc + 4))
      (body = none → V = .next (s.trap 0x12 0)) ∧
      (∀ after is, body = some (after, is) →
        let bad : Prop := ∃ i ∈ is, i = .vHalt ∨ (∃ x y, i = .vseq x y) ∨ (∃ x y, i = .vRend x y)
        (bad → V = .next (s.trap 0x02 0x10)) ∧
        (¬ bad → s.core.go.getLsbD tbl.toNat = false → V = .next (s.waits 1 (0x39 + tbl.toNat))) ∧
        (¬ bad → s.core.go.getLsbD tbl.toNat = true → begins tbl.toNat (pc + 4) after (.vseq nm1 tbl)))) ∧
    (s.cur.eng = 2 → s.stm.replay = none →
      let M := exec (.mseq tbl) s
      let body (n : Nat) := codeWords 2 n (pc + 24) ((s.section_ 2).drop (pc + 24))
      ((∀ n after is, body n = some (after, is) → .mend ∉ is) → M = .next (s.trap 0x12 0)) ∧
      (∀ n after is, body n = some (after, is) → .mend ∉ is → body (n + 1) = some (after + 24, is ++ [.mend]) →
        let bad : Prop := n = 0 ∨ 256 < n ∨ ∃ i ∈ is, i = .mHalt ∨ (∃ x, i = .mseq x) ∨ (∃ x y, i = .mRend x y)
        (bad → M = .next (s.trap 0x02 0x10 0 (s.mStatus 0 0 0 0))) ∧
        (¬ bad → s.core.go.getLsbD (2 + tbl.toNat) = false → M = .next (s.waits 1 (0x3B + tbl.toNat))) ∧
        (¬ bad → s.core.go.getLsbD (2 + tbl.toNat) = true → begins (2 + tbl.toNat) (pc + 24) after (.mseq tbl))) ∧
      exec .mend s = .next (s.trap 0x02 0x11 0 (s.mStatus 0 0 0 0))) ∧
    (∀ r, s.cur.eng = 2 → s.stm.replay = some r →
      let t := s.setCore { s.core with
        streams := Tab.set s.core.streams 2
          { s.stm with
            pc := pc + 24, replay := none, free := s.core.clk + 1, latch := none, ncmd := s.stm.ncmd + 1, stall := 0 } }
      exec .mend s = .next (t.coreEvent 2 0x41 s.stm.ncmd 0)))

/-- `vshape`, `vfmt` and the predicate instructions (R182, R355, R403, R404, R412, R413): a shape with EW 3 or a reserved
bit traps; a predicate result covers the shape's bits and is due two cycles after issue; the count of `pcnt` after three,
and goes nowhere for `i0`.

What a vector instruction fixes as it issues (R181, R194, R399, R400, R420): the cycle, its shape, rounding mode,
format and strides, and the base rows of its tiles from index registers and nest offsets; an index register is read once,
and `i0` reads zero. -/
def Obligations.VectorSetupAndOperandsAreFixedAtIssue : Prop :=
  (∀ (s : State) (v : BitVec 14) (n : BitVec 6) (d a b : BitVec 4) (x : BitVec 3),
    let rows := s.core.vshape.toNat % 16 + 1
    let lanes := s.core.vshape.toNat / 16 % 64 + 1
    let inShape (k : Nat) : Prop := k / 64 < rows ∧ k % 64 < lanes
    let A := s.preg a.toNat
    let B := s.preg b.toNat
    let gives (i : Instr) (bit : Nat → Bool) : Prop :=
      ∃ m w : PBits, exec i s = .next ((s.withDue [⟨s.core.clk + 2, .preg d.toNat m w⟩]).nextWord 4 1) ∧
        ∀ k < 1024, (m.getLsbD k = true ↔ inShape k) ∧ w.getLsbD k = bit k
    ((v.toNat / 4096 = 3 ∨ v.toNat / 1024 % 4 ≠ 0) → exec (.vshape v) s = .next (s.trap 0x02 1)) ∧
    (v.toNat / 4096 ≠ 3 → v.toNat / 1024 % 4 = 0 →
      exec (.vshape v) s = .next ((s.setCore { s.core with vshape := v.zeroExtend 32 }).nextWord 4 1)) ∧
    exec (.vfmt n) s = .next ((s.setCore { s.core with vfmt := n.zeroExtend 32 }).nextWord 4 1) ∧
    gives (.pand d a b) (fun k => A.getLsbD k && B.getLsbD k) ∧ gives (.por d a b) (fun k => A.getLsbD k || B.getLsbD k) ∧
    gives (.pxor d a b) (fun k => A.getLsbD k ^^ B.getLsbD k) ∧ gives (.pandn d a b) (fun k => A.getLsbD k && !B.getLsbD k) ∧
    gives (.pnot d a) (fun k => !A.getLsbD k) ∧ gives (.pmovPredicate d a) (fun k => A.getLsbD k) ∧
    gives (.pset d) (fun _ => true) ∧ gives (.pclr d) (fun _ => false) ∧
    exec (.pcnt 0 a) s = .next (s.nextWord 4 1) ∧
    (x ≠ 0 → exec (.pcnt x a) s = .next ((s.withDue [⟨s.core.clk + 3, .ireg x.toNat
      (BitVec.ofNat 12 ((List.range 1024).countP fun k => A.getLsbD k && decide (k / 64 < rows ∧ k % 64 < lanes)))⟩]).nextWord 4 1))) ∧
  (∀ (s : State) (v : VArg) (w : VImm) (i : Instr),
    let c := s.core
    let base (n : BitVec 12) (ix : BitVec 3) (slot : Nat) : Nat := (((s.ireg ix + n.toNat : Nat) : Int) + s.nestOff slot).emod 4096 |>.toNat
    let shared (op : VOp) (g : BitVec 4) (ty : BitVec 4) : Prop :=
      op.i = i ∧ op.t = c.clk ∧ op.pc = s.stm.pc ∧ op.rows = c.vshape.toNat % 16 + 1 ∧ op.lanes = c.vshape.toNat / 16 % 64 + 1 ∧
      (c.vshape.toNat / 4096 % 4 ≤ 2 → op.ew = 32 / 2 ^ (c.vshape.toNat / 4096 % 4)) ∧ op.rm = c.vctlV.toNat % 4 ∧
      op.fmt = s.desc (c.vfmt.toNat % 64) ∧ op.guard = g.toNat ∧ op.ty = ty.toNat ∧ op.layer = s.stm.pc + 65536 * (s.flat % 65536) ∧
      op.got = [] ∧ op.row0 = c.vrow op.va
    s.ireg 0 = 0 ∧
    (i ∈ ([.vadd v, .vsub v, .vmul v, .vmad v, .vmin v, .vmax v, .vand v, .vor v, .vxor v, .vshl v, .vshr v, .vsra v, .vperm v,
        .vgath v, .vscat v, .vdot4 v, .vqnt v, .vdqnt v] : List Instr) →
      let op := s.vop i v
      shared op v.guard v.ty ∧ op.vd = base v.vd v.dix 0 ∧ op.va = base v.va v.aix 1 ∧ op.vb = base v.vb v.bix 2 ∧
      (∀ it, v.ext = .v64 it → op.sd = 1 ∧ op.sa = 1 ∧ op.sb = 1) ∧
      (∀ sd sa sb l it, v.ext = .v96 sd sa sb l it → op.sd = sd.toNat ∧ op.sa = sa.toNat ∧ op.sb = sb.toNat)) ∧
    (i ∈ ([.vabs v, .vneg v, .vrcp v, .vrsq v, .vexp2 v, .vlog2 v, .vtanh v, .vxpose v, .vbcast v, .vmovs v, .vpart v, .vcompact v,
        .vcvt v, .unpk3 v, .vpack v, .vunpk v, .vredsum v, .vredmax v, .vredmin v] : List Instr) →
      let op := s.vop i v
      shared op v.guard v.ty ∧ op.vd = base v.vd v.dix 0 ∧ op.va = base v.va v.aix 1) ∧
    (i ∈ ([.vlds w, .vsts w, .vfill w, .vrng w, .vpatx w] : List Instr) →
      let op := s.vopImm i w
      shared op w.guard w.ty ∧ op.vd = base w.vd w.dix 0 ∧ op.va = base w.va w.aix 1 ∧ op.vb = w.imm.toNat ∧ op.sd = 1 ∧ op.sa = 1))

/-- The element-wise instructions (R355, R398 to R401, R405 to R410, R429, R436): each issues, reads its row k in the k-th
cycle and leaves that row's active and guarded elements on their way, due after its latency: integers modulo the
element's width, floating values exact and rounded once, special functions on the FP32 value.

The special functions (R272). A NaN gives the canonical NaN, and the special inputs of each function give the result
R272 names. Elsewhere: frcp of x within one unit of 1 / x, infinite exactly up to 2^-128; frsq with its two neighbours on
both sides of 1 / sqrt x; fexp2 exact at integers and flog2 at powers of two; and fexp2, flog2 and ftanh within their bounds
of the model's fixed-point value of the function, with 2^-220 for that value's own error. Which value within the bound
comes out is free, the model's choice of log 7. -/
def Obligations.ElementwiseInstructionsGiveEveryElement : Prop :=
  (∀ (s : State) (v : VArg) (w : VImm), s.trapped = false →
    let rowsAre (i : Instr) (lat : Nat) (f : State → VOp → Nat → Nat → Nat → Nat → Nat) : Prop :=
      ∀ (u : State) (o : VOp), o.i = i →
        let x := u.vrowIn o
        let k := o.got.length
        ∃ p, u.vrowStep o = u.rowDone o [p] ∧ p.IsRow (o.t + lat + k) (tileRow o.vd o.sd k)
          (o.guarded x fun l => laneOf o.ty fun h =>
            f u o (l * halves o.ty + h) (elt o.ty (laneN x.a l) h) (elt o.ty (laneN x.b l) h) (elt o.ty (laneN x.d l) h))
    let gives (i : Instr) (lat : Nat) (f : State → VOp → Nat → Nat → Nat → Nat → Nat) : Prop :=
      exec i s = .next ((s.vrowStep (s.vop i v)).nextWord (vextLen v.ext) (s.vop i v).rows) ∧ rowsAre i lat f
    let rnd (u : State) (o : VOp) (col : Nat) (x : Val) : Nat :=
      ofEltVal o.ty o.rnd (if o.rm = 2 then rand24 u.att.key.toNat (tileRow o.vd o.sd o.got.length) col o.layer else 0) x
    let int (fi : (n : Nat) → Bool → BitVec n → BitVec n → BitVec n → BitVec n) (o : VOp) (a b d : Nat) : Nat :=
      (fi (eltW o.ty) (o.ty == 1) (BitVec.ofNat _ a) (BitVec.ofNat _ b) (BitVec.ofNat _ d)).toNat
    let arith (fi : (n : Nat) → Bool → BitVec n → BitVec n → BitVec n → BitVec n) (ff : Val → Val → Val → Val) (u : State) (o : VOp)
        (col a b d : Nat) : Nat :=
      if o.ty = 2 ∨ o.ty = 3 ∨ o.ty = 4 then rnd u o col (ff (eltVal o.ty a) (eltVal o.ty b) (eltVal o.ty d)) else int fi o a b d
    let special (f : Word → Word) (u : State) (o : VOp) (col a _b _d : Nat) : Nat :=
      let y := f (roundFp32 .rne 0 (eltVal o.ty a))
      if o.ty = 2 then y.toNat else rnd u o col (ofFp32 y)
    let below (n : Nat) (uns : Bool) (x y : BitVec n) : Bool := if uns then x.ult y else x.slt y
    gives (.vadd v) 4 (arith (fun _ _ a b _ => a + b) fun a b _ => a.add b) ∧
    gives (.vsub v) 4 (arith (fun _ _ a b _ => a - b) fun a b _ => a.add b.neg) ∧
    gives (.vmul v) 6 (arith (fun _ _ a b _ => a * b) fun a b _ => a.mul b) ∧
    gives (.vmad v) 8 (arith (fun _ _ a b d => a * b + d) fun a b d => (a.mul b).add d) ∧
    gives (.vmin v) 4 (arith (fun n t a b _ => if below n t b a then b else a) fun a b _ =>
      if a.isNan || b.isNan then .nan else if a.lt b then a else if b.lt a then b else if a.isNeg then a else b) ∧
    gives (.vmax v) 4 (arith (fun n t a b _ => if below n t a b then b else a) fun a b _ =>
      if a.isNan || b.isNan then .nan else if a.lt b then b else if b.lt a then a else if a.isNeg then b else a) ∧
    gives (.vabs v) 4 (arith (fun _ t a _ _ => if t = false ∧ a.msb = true then -a else a) fun a _ _ => a.abs) ∧
    gives (.vneg v) 4 (arith (fun _ _ a _ _ => -a) fun a _ _ => a.neg) ∧
    gives (.vand v) 4 (fun _ o _ a b d => int (fun _ _ a b _ => a &&& b) o a b d) ∧
    gives (.vor v) 4 (fun _ o _ a b d => int (fun _ _ a b _ => a ||| b) o a b d) ∧
    gives (.vxor v) 4 (fun _ o _ a b d => int (fun _ _ a b _ => a ^^^ b) o a b d) ∧
    gives (.vshl v) 4 (fun _ o _ a b d => int (fun n _ a b _ => a <<< (b.toNat % n)) o a b d) ∧
    gives (.vshr v) 4 (fun _ o _ a b d => int (fun n _ a b _ => a >>> (b.toNat % n)) o a b d) ∧
    gives (.vsra v) 4 (fun _ o _ a b d => int (fun n _ a b _ => a.sshiftRight (b.toNat % n)) o a b d) ∧
    gives (.vrcp v) 20 (special frcp) ∧ gives (.vrsq v) 20 (special frsq) ∧ gives (.vexp2 v) 20 (special fexp2) ∧
    gives (.vlog2 v) 20 (special flog2) ∧ gives (.vtanh v) 20 (special ftanh) ∧
    gives (.vmovs v) 2 (fun _ _ _ a _ _ => a) ∧
    gives (.vdot4 v) 8 (fun _ o _ a b d =>
      let B (z m : Nat) : BitVec 8 := BitVec.ofNat 8 (z / 2 ^ (8 * m))
      let p (m : Nat) : Word := (if o.ty = 0 then (B a m).signExtend 32 else (B a m).zeroExtend 32) * (B b m).signExtend 32
      (BitVec.ofNat 32 d + p 0 + p 1 + p 2 + p 3).toNat) ∧
    exec (.vfill w) s = .next ((s.vrowStep (s.vopImm (.vfill w) w)).nextWord 12 (s.vopImm (.vfill w) w).rows) ∧
    rowsAre (.vfill w) 4 (fun _ _ _ _ _ _ => w.imm.toNat)) ∧
  (let pow2 (i : Int) : Word := BitVec.ofNat 32 (if -126 ≤ i then (i + 127).toNat * 2 ^ 23 else 2 ^ (i + 149).toNat)
  let signed (neg : Bool) (a : Nat) : Int := if neg then -(a : Int) else a
  let near (ulps tol : Nat) (v : Int) (y : Word) : Prop :=
    ∃ r, ofFp32 y = .fin r ∧ ((signed r.neg (r.m * 2 ^ (r.e + 320).toNat) - v).natAbs ≤ ulps * 2 ^ (r.e + 320).toNat + 2 ^ 100 ∨
      (signed r.neg (r.m * 2 ^ (r.e + 320).toNat) - v).natAbs ≤ tol)
  (∀ w, ofFp32 w = .nan → frcp w = 0x7FC00000 ∧ frsq w = 0x7FC00000 ∧ fexp2 w = 0x7FC00000 ∧ flog2 w = 0x7FC00000 ∧ ftanh w = 0x7FC00000) ∧
  (frcp 0 = 0x7F800000 ∧ frcp 0x80000000 = 0xFF800000 ∧ frcp 0x7F800000 = 0 ∧ frcp 0xFF800000 = 0x80000000) ∧
  (frsq 0 = 0x7F800000 ∧ frsq 0x80000000 = 0xFF800000 ∧ frsq 0x7F800000 = 0) ∧
  (fexp2 0xFF800000 = 0 ∧ fexp2 0x7F800000 = 0x7F800000) ∧
  (flog2 0 = 0xFF800000 ∧ flog2 0x80000000 = 0xFF800000 ∧ flog2 0x7F800000 = 0x7F800000 ∧ flog2 0x3F800000 = 0) ∧
  (ftanh 0 = 0 ∧ ftanh 0x80000000 = 0x80000000) ∧
  (∀ w : Word, 0x80000000 < w.toNat → w.toNat ≤ 0xFF800000 → frsq w = 0x7FC00000 ∧ flog2 w = 0x7FC00000) ∧
  (∀ w : Word, (0x43000000 ≤ w.toNat → w.toNat ≤ 0x7F800000 → fexp2 w = 0x7F800000) ∧
    (0xC3160000 < w.toNat → w.toNat ≤ 0xFF800000 → fexp2 w = 0) ∧
    (0x41100000 ≤ w.toNat % 2 ^ 31 → w.toNat % 2 ^ 31 ≤ 0x7F800000 → ftanh w = if w.msb then 0xBF800000 else 0x3F800000)) ∧
  (∀ i : Int, -149 ≤ i → i < 128 → flog2 (pow2 i) = roundFp32 .rne 0 (.ofInt i) ∧
    ∀ w n, ofFp32 w = .fin n → signed n.neg (n.m * 2 ^ (n.e + 149).toNat) = i * 2 ^ 149 → fexp2 w = pow2 i) ∧
  (∀ w n, ofFp32 w = .fin n → 0 < n.m →
    (if w.toNat % 2 ^ 31 ≤ 0x200000 then frcp w = if n.neg then 0xFF800000 else 0x7F800000
    else ∃ r, ofFp32 (frcp w) = .fin r ∧ r.neg = n.neg ∧
      let k := (r.e + n.e + 298).toNat
      r.m * n.m * 2 ^ k ≤ 2 ^ 298 + n.m * 2 ^ k ∧ 2 ^ 298 ≤ r.m * n.m * 2 ^ k + n.m * 2 ^ k) ∧
    (n.neg = false → ∃ r, ofFp32 (frsq w) = .fin r ∧ r.neg = false ∧
      let k := (2 * r.e + n.e + 447).toNat
      (r.m - 1) ^ 2 * n.m * 2 ^ k ≤ 2 ^ 447 ∧ 2 ^ 447 ≤ (r.m + 1) ^ 2 * n.m * 2 ^ k) ∧
    ((w.toNat < 0x43000000 ∨ 0x80000000 ≤ w.toNat ∧ w.toNat ≤ 0xC3160000) → n.asInt = none →
      near 2 0 (exp2Fix (signed n.neg (n.m * 2 ^ (n.e + 320).toNat))) (fexp2 w)) ∧
    (n.neg = false → (∀ i, -149 ≤ i → i < 128 → w ≠ pow2 i) →
      let inner := 0x3F000000 ≤ w.toNat ∧ w.toNat ≤ 0x40000000
      near (if inner then 0 else 2) (if inner then 2 ^ 298 + 2 ^ 100 else 0) (log2Fix n.m n.e) (flog2 w)) ∧
    (w.toNat % 2 ^ 31 < 0x41100000 →
      near (if w.toNat % 2 ^ 31 < 0x3C800000 then 1 else 2) 0 (signed n.neg (tanhFix (n.m * 2 ^ (n.e + 320).toNat))) (ftanh w))))

/-- Compares, reductions and moves of lanes and rows (R355, R411, R414, R429, R430): what each leaves on its way row by row,
or for all its rows with the last one.

What the reductions compute (R414): over no elements their identity; over integers one element itself and, with one
more, the wrapped sum, the larger or the smaller; over floating elements the running value: the first element's, then
the sum rounded to FP32 to nearest even, the larger or the smaller with NaN first and -0 below +0, narrowed at the end
to the element type, a NaN to its canonical code. -/
def Obligations.ComparesReductionsAndMovesGiveTheirRows : Prop :=
  (∀ (s : State) (v : VArg), s.trapped = false →
    let gives (i : Instr) (spec : State → VOp → List VIn → Nat → List Pend → Prop) : Prop :=
      exec i s = .next ((s.vrowStep (s.vop i v)).nextWord (vextLen v.ext) (s.vop i v).rows) ∧
      ∀ (u : State) (o : VOp), o.i = i → ∃ ps, u.vrowStep o = u.rowDone o ps ∧
        spec u o (o.got ++ [u.vrowIn o]) o.got.length ps
    let each (lat : Nat) (f : VOp → VIn → Nat → Nat) (u : State) (o : VOp) (_ins : List VIn) (k : Nat) (ps : List Pend) : Prop :=
      ∃ p, ps = [p] ∧ p.IsRow (o.t + lat + k) (tileRow o.vd o.sd k) (o.guarded (u.vrowIn o) (f o (u.vrowIn o)))
    let last (spec : VOp → List VIn → List Pend → Prop) (_u : State) (o : VOp) (ins : List VIn) (k : Nat) (ps : List Pend) : Prop :=
      (k + 1 < o.rows → ps = []) ∧ (o.rows ≤ k + 1 → spec o ins ps)
    let reduces (i : Instr) (kind : Nat) : Prop :=
      gives i (last fun o ins ps => ∃ p, ps = [p] ∧ p.IsRow (o.t + (12 + o.rows - 1)) (o.vd % 4096) fun l =>
        ins[l]?.map fun x => laneOf o.ty fun h =>
          reduce kind o.ty (((List.range 64).filter fun m => decide (m < o.lanes) && x.g.getLsbD m).map fun m => elt o.ty (laneN x.a m) h))
    gives (.vcmp v) (fun u o _ k ps =>
      let x := u.vrowIn o
      let rel (l : Nat) : Bool := (List.range (halves o.ty)).all fun h =>
        eltRel (o.vd / 16 % 8) o.ty (elt o.ty (laneN x.a l) h) (elt o.ty (laneN x.b l) h)
      ∃ m yes no : PBits, ps = [⟨o.t + 4 + k, .preg (o.vd % 16) m yes⟩, ⟨o.t + 4 + k, .preg (o.vd % 16 + 1) m no⟩] ∧
        (k < 16 → ∀ n < 1024,
          (m.getLsbD n = true ↔ n / 64 = k ∧ n % 64 < o.lanes ∧ x.g.getLsbD (n % 64) = true) ∧
          (m.getLsbD n = true → yes.getLsbD n = rel (n % 64) ∧ no.getLsbD n = !rel (n % 64)))) ∧
    reduces (.vredsum v) 0 ∧ reduces (.vredmax v) 1 ∧ reduces (.vredmin v) 2 ∧
    gives (.vperm v) (each 10 fun _ x l => if laneN x.b l < 64 then laneN x.a (laneN x.b l) else 0) ∧
    gives (.vbcast v) (each 4 fun o _ _ => laneN o.row0 (o.vb % 64)) ∧
    gives (.vxpose v) (last fun o ins ps =>
      ps.length = ins.length ∧ ∀ (r : Nat) (x : VIn) (p : Pend), ins[r]? = some x → ps[r]? = some p →
        p.IsRow (o.t + (10 + o.rows - 1)) (tileRow o.vd o.sd r) fun l =>
          if l < o.lanes ∧ x.g.getLsbD l = true then ins[l % 16]?.map fun y => laneN y.a (l / 16 * 16 + r) else none) ∧
    (∀ both : Bool, gives (if both then .vpart v else .vcompact v) (last fun o ins ps =>
      let list (want : Bool) : List Nat := ins.flatMap fun x =>
        ((List.range o.lanes).filter fun l => x.g.getLsbD l == want).map fun l => laneN x.a l
      let words := if both then list true ++ list false else list true
      ps.length = o.rows ∧ ∀ (r : Nat) (p : Pend), ps[r]? = some p → p.IsRow (o.t + (10 + o.rows - 1)) (tileRow o.vd o.sd r) fun l =>
        if l < o.lanes then words[r * o.lanes + l]? else none))) ∧
  ((∀ ty, reduce 0 ty [] = 0) ∧
  (reduce 1 0 [] = 0x80000000 ∧ reduce 1 1 [] = 0 ∧ reduce 1 5 [] = 0x8000 ∧ reduce 1 2 [] = 0xFF800000 ∧ reduce 1 3 [] = 0xFF80 ∧
    reduce 1 4 [] = 0xFC00) ∧
  (reduce 2 0 [] = 0x7FFFFFFF ∧ reduce 2 1 [] = 0xFFFFFFFF ∧ reduce 2 5 [] = 0x7FFF ∧ reduce 2 2 [] = 0x7F800000 ∧
    reduce 2 3 [] = 0x7F80 ∧ reduce 2 4 [] = 0x7C00) ∧
  (∀ (ty x y : Nat) (xs : List Nat), (ty = 0 ∨ ty = 1 ∨ ty = 5) → x < 2 ^ eltW ty → y < 2 ^ eltW ty → (∀ z ∈ xs, z < 2 ^ eltW ty) →
    let pick (p : Prop) [Decidable p] (a b : Nat) : Nat := if p then a else b
    (∀ k < 3, reduce k ty [x] = x) ∧
    reduce 0 ty (x :: xs ++ [y]) = (reduce 0 ty (x :: xs) + y) % 2 ^ eltW ty ∧
    (let m := reduce 1 ty (x :: xs); reduce 1 ty (x :: xs ++ [y]) = pick (eltInt ty m < eltInt ty y) y m) ∧
    (let m := reduce 2 ty (x :: xs); reduce 2 ty (x :: xs ++ [y]) = pick (eltInt ty y < eltInt ty m) y m)) ∧
  (∀ ty : Nat, (ty = 2 ∨ ty = 3 ∨ ty = 4) →
    let larger (a b : Val) : Val :=
      if a.isNan || b.isNan then .nan else if a.lt b then b else if b.lt a then a else if a.isNeg then b else a
    let smaller (a b : Val) : Val :=
      if a.isNan || b.isNan then .nan else if a.lt b then a else if b.lt a then b else if a.isNeg then a else b
    let combine (k : Nat) (a b : Val) : Val :=
      if k = 0 then ofFp32 (roundFp32 .rne 0 (a.add b)) else if k = 1 then larger a b else smaller a b
    (∃ run : Nat → List Nat → Val, ∀ (k x : Nat) (xs : List Nat),
      run k [x] = eltVal ty x ∧ (∀ y, run k (x :: xs ++ [y]) = combine k (run k (x :: xs)) (eltVal ty y)) ∧
      reduce k ty (x :: xs) = ofEltVal ty .rne 0 (run k (x :: xs))) ∧
    ofEltVal ty .rne 0 .nan = (if ty = 2 then 0x7FC00000 else if ty = 3 then 0x7FC0 else 0x7E00)))

/-- `vpop`, `vpush`, `vlds`, `vsts`, `vgath` and `vscat` (R186, R355, R421 to R428): the waits of the queues, the format
check, a row's window fault, and the bytes each row moves, little-endian, widened into its lanes or narrowed out of them;
entries pushed hold zeros where no written element stands. -/
def Obligations.QueueAndWindowInstructionsMoveTheirBytes : Prop :=
  ∀ (s : State) (v : VArg) (w : VImm), s.cur.eng = 1 → s.trapped = false →
    let c := s.core
    let q := v.va.toNat % 4
    let fifo := Tab.get Fifo.empty c.lq q
    let n := c.queueEntries
    let popped : State := s.setCore { c with
      lq := Tab.set c.lq q { fifo with items := fifo.items.drop n, popped := fifo.popped + n } }
    let pop : VOp := { s.vop (.vpop v) v with ents := fifo.items.take n }
    let goes (i : Instr) (u : State) (op : VOp) (len : Nat) : Prop := exec i s = .next ((u.vrowStep op).nextWord len op.rows)
    let rowIs (u : State) (o : VOp) (lat : Nat) (f : Nat → Nat) : Prop :=
      ∃ p, u.vrowStep o = u.rowDone o [p] ∧
        p.IsRow (o.t + lat + o.got.length) (tileRow o.vd o.sd o.got.length) (o.guarded (u.vrowIn o) f)
    let at_ (u : State) (o : VOp) (a : Nat) : State := u.takeTrap ⟨0x07, 0, 1, o.pc, 0, BitVec.ofNat 32 o.got.length, a, none, o.replay⟩
    let spots (o : VOp) (x : VIn) : List (Nat × Nat) :=
      ((List.range 64).filter fun l => decide (l < o.lanes) && x.g.getLsbD l).flatMap fun l => (List.range (halves o.ty)).map fun h => (l, h)
    let lanesOn (o : VOp) (x : VIn) : List Nat := (List.range 64).filter fun l => decide (l < o.lanes) && x.g.getLsbD l
    let ldsAt (o : VOp) : Nat := (o.vb + 8 * o.ew * o.got.length + laneN o.row0 o.got.length / (8 * o.ew) * (8 * o.ew)) % 2 ^ 32
    let ldsFault (u : State) (o : VOp) : Option Nat := firstBeyond u.att.limit (ldsAt o) (8 * o.ew)
    let stsAt (o : VOp) : Nat := (o.vb + 8 * o.ew * o.got.length) % 2 ^ 32
    let stsFault (u : State) (o : VOp) : Option Nat :=
      u.windowFault ((lanesOn o (u.vrowIn o)).map fun l => stsAt o + l * (o.ew / 8)) (o.ew / 8)
    let width (o : VOp) : Nat := if o.ty < 3 then 4 else 2
    let eltAt (o : VOp) (x : VIn) (p : Nat × Nat) : Nat :=
      (laneN x.a p.1 + width o * elt o.ty (laneN x.b p.1) p.2) % 2 ^ 32 / width o * width o
    let eltFault (u : State) (o : VOp) : Option Nat :=
      u.windowFault ((spots o (u.vrowIn o)).map (eltAt o (u.vrowIn o))) (width o)
    (fifo.items.length < n → exec (.vpop v) s = .next (s.waits 1 (0x30 + q))) ∧
    (n ≤ fifo.items.length → goes (.vpop v) popped pop (vextLen v.ext)) ∧
    (∀ (u : State) (o : VOp) (b : VArg), o.i = .vpop b → rowIs u o 2 fun l =>
      let place := o.got.length * (8 * o.ew) + l * (o.ew / 8)
      o.inElt ((o.ents.getD (place / 256) 0).extractLsb' (8 * (place % 256)) o.ew).toNat) ∧
    (16 < c.sqTaken (v.vd.toNat % 4) + n → exec (.vpush v) s = .next (s.waits 1 (0x34 + v.vd.toNat % 4))) ∧
    (c.sqTaken (v.vd.toNat % 4) + n ≤ 16 →
      let u := s.setCore (c.sqReserve (v.vd.toNat % 4) n)
      goes (.vpush v) u (u.vop (.vpush v) v) (vextLen v.ext)) ∧
    (∀ (u : State) (o : VOp) (b : VArg), o.i = .vpush b →
      let k := o.got.length
      let per := 256 / (8 * o.ew)
      let first := k / per * per
      ∃ e : Row, u.vrowStep o =
          u.rowDone o (if (k + 1) % per = 0 ∨ k + 1 = o.rows then [⟨o.t + 1 + k, .push (o.vd % 4) e⟩] else []) ∧
        ((o.ew = 8 ∨ o.ew = 16 ∨ o.ew = 32) → o.ty = 0 → ∀ (r l : Nat) (x : VIn), first + r ≤ k → l < 64 →
          (o.got ++ [u.vrowIn o])[first + r]? = some x →
          (e.extractLsb' (8 * (r * (8 * o.ew) + l * (o.ew / 8))) o.ew).toNat =
            if l < o.lanes ∧ x.g.getLsbD l = true then laneN x.a l % 2 ^ o.ew else 0)) ∧
    (s.widthOk w.ty = false → exec (.vlds w) s = .next (s.trap 0x09 0) ∧ exec (.vsts w) s = .next (s.trap 0x09 0)) ∧
    (s.widthOk w.ty = true →
      let ld := s.vopImm (.vlds w) w
      let st := s.vopImm (.vsts w) w
      (∀ f, ldsFault s ld = some f → exec (.vlds w) s = .next (at_ s ld f)) ∧
      (ldsFault s ld = none → goes (.vlds w) s ld 12) ∧
      (∀ f, stsFault s st = some f → exec (.vsts w) s = .next (at_ s st f)) ∧
      (stsFault s st = none → goes (.vsts w) s st 12)) ∧
    (∀ (u : State) (o : VOp) (b : VImm), o.i = .vlds b →
      (∀ f, ldsFault u o = some f → u.vrowStep o = at_ u o f) ∧
      (ldsFault u o = none → rowIs u o 12 fun l => o.inElt (u.inst.sram.nat (ldsAt o + l * (o.ew / 8)) (o.ew / 8)))) ∧
    (∀ (u : State) (o : VOp) (b : VImm), o.i = .vsts b →
      let k := o.got.length
      let x := u.vrowIn o
      let out (l : Nat) : Nat × Nat := o.outElt (if o.rm = 2 then rand24 u.att.key.toNat (tileRow o.vd o.sd k) l o.layer else 0) (laneN x.d l)
      (∀ f, stsFault u o = some f → u.vrowStep o = at_ u o f) ∧
      (stsFault u o = none → ∃ fl, (fl = [] ∨ ∃ m, fl = [⟨o.t + (4 + k), .vstat m⟩]) ∧
        u.vrowStep o = u.rowDone o
          (⟨o.t + 4 + k, .sram ((lanesOn o x).flatMap fun l => cellsAt (stsAt o + l * (o.ew / 8)) (bytesOf (o.ew / 8) (out l).1)) .clear⟩ ::
            fl))) ∧
    (∀ (u : State) (o : VOp) (b : VArg), (o.i = .vgath b ∨ o.i = .vscat b) →
      let k := o.got.length
      let x := u.vrowIn o
      let cells := (spots o x).flatMap fun p => cellsAt (eltAt o x p) (bytesOf (width o) (elt o.ty (laneN x.d p.1) p.2))
      (∀ f, eltFault u o = some f → u.vrowStep o = at_ u o f) ∧
      (eltFault u o = none → o.i = .vgath b →
        rowIs u o 14 fun l => laneOf o.ty fun h => u.inst.sram.nat (eltAt o x (l, h)) (width o)) ∧
      (eltFault u o = none → o.i = .vscat b → u.vrowStep o = u.rowDone o [⟨o.t + 4 + k, .sram cells .clear⟩])) ∧
    (∀ i : Instr, (i = .vgath v ∨ i = .vscat v) →
      let op := s.vop i v
      (∀ f, eltFault s op = some f → exec i s = .next (at_ s op f)) ∧ (eltFault s op = none → goes i s op (vextLen v.ext)))

/-- The conversions, quantisations, unpacks, packs, random numbers and patterns (R259, R261, R355, R415, R422, R431 to
R439): the format check; the ternary trap, which sets T3BAD; and what each row gives: its elements and the status bits
they set, as the row completes, a bad ternary byte at the first row that uses it.  Each instruction issues on every shape, guard and operand: its first row is read in the issue cycle, and the
stream goes on after its rows. -/
def Obligations.ConversionAndPackingInstructionsGiveTheirRows : Prop :=
  ∀ (s : State) (v : VArg) (w : VImm), s.cur.eng = 1 → s.trapped = false →
    let on (o : VOp) (x : VIn) : List Nat := (List.range 64).filter fun l => decide (l < o.lanes) && x.g.getLsbD l
    let rnd (u : State) (o : VOp) (col : Nat) : Nat :=
      if o.rm = 2 then rand24 u.att.key.toNat (tileRow o.vd o.sd o.got.length) col o.layer else 0
    let sets (n bits : Nat) : List Pend := if bits = 0 then [] else [⟨n, .vstat (BitVec.ofNat 32 bits)⟩]
    -- a row that is read in state u leaves the effects that R relates it to
    let completes (i : Instr) (o : VOp) (len : Nat) (R : State → VOp → List Pend → Prop) : Prop :=
      ∃ ps, R s o ps ∧ exec i s = .next ((s.rowDone o ps).nextWord len o.rows)
    let rows (i : Instr) (R : State → VOp → List Pend → Prop) : Prop :=
      ∀ (u : State) (o : VOp), o.i = i → ∃ ps, R u o ps ∧ u.vrowStep o = u.rowDone o ps
    let row (lat : Nat) (f : Nat → Nat) (bits : Nat) (u : State) (o : VOp) (ps : List Pend) : Prop :=
      let n := o.t + lat + o.got.length
      ∃ p, ps = p :: sets n bits ∧ p.IsRow n (tileRow o.vd o.sd o.got.length) (o.guarded (u.vrowIn o) f)
    let trapped (u : State) (o : VOp) : State :=
      (u.setCore { u.core with vstat := u.core.vstat ||| 1, vsFresh := u.core.vsFresh ||| 1 }).takeTrap ⟨0x14, 0, 1, o.pc, 0, BitVec.ofNat 32 o.got.length, 0, none, o.replay⟩
    -- vcvt
    let cvt (u : State) (o : VOp) (ps : List Pend) : Prop :=
      let x := u.vrowIn o
      let one (l h : Nat) : Narrowed :=
        (cvtTarget o.ty).narrow o.rnd (rnd u o (l * halves o.ty + h)) (descWiden o.fmt (elt o.ty (laneN x.a l) h))
      row 6 (fun l => laneOf o.ty fun h => (one l h).code)
        (((on o x).flatMap fun l => (List.range (halves o.ty)).map fun h => (l, h)).foldl (fun b p => b ||| (one p.1 p.2).flags) 0) u o ps
    -- vqnt: both copies and both scale rows with the last row
    let qnt (u : State) (o : VOp) (ps : List Pend) : Prop :=
      let ins := o.got ++ [u.vrowIn o]
      let val (x : VIn) (l : Nat) : Option Nat := if l < o.lanes ∧ x.g.getLsbD l = true then some (laneN x.a l) else none
      let rowQ (x : VIn) := quantBlock o.fmt ((List.range o.lanes).map (val x))
      let column (l : Nat) : List (Option Nat) := ins.map fun x => val x l
      let colQ (l : Nat) := quantBlock o.fmt (column l)
      let colSat (k : Nat) : Bool := (List.range o.lanes).any fun l => (quantSats o.fmt (column l)).getD k false
      let done := o.t + (16 + o.rows - 1)
      (o.got.length + 1 < o.rows → ps = []) ∧
      (o.rows ≤ o.got.length + 1 →
        (∀ k x, ins[k]? = some x → (∃ p ∈ ps, p.IsRow (o.t + (16 + k)) (tileRow o.vd o.sd k)
            (o.guarded x fun l => (rowQ x).2.1.getD l 0 + (colQ l).2.1.getD k 0 * 256)) ∧
          ∀ p ∈ sets (o.t + (16 + k)) ((rowQ x).2.2 ||| if colSat k then 2 else 0), p ∈ ps) ∧
        (∃ p ∈ ps, p.IsRow done (tileRow o.vb o.sb 0) fun l => if l < o.lanes then some (colQ l).1 else none) ∧
        (∃ p ∈ ps, p.IsRow done (tileRow o.vb o.sb 1) fun k => ins[k]?.map fun x => (rowQ x).1) ∧
        ∀ p ∈ ps, (∃ r m b, p.act = .vreg r m b) ∨
          ∃ k x, ins[k]? = some x ∧ p ∈ sets (o.t + (16 + k)) ((rowQ x).2.2 ||| if colSat k then 2 else 0))
    -- vdqnt
    let code (u : State) (o : VOp) (l : Nat) : Nat := laneN (u.vrowIn o).a l % 2 ^ descBits o.fmt
    let tern (o : VOp) : Bool := descKind o.fmt == 8
    let dqntBad (u : State) (o : VOp) : Bool := tern o && (on o (u.vrowIn o)).any fun l => code u o l == 3
    let dqnt (u : State) (o : VOp) (ps : List Pend) : Prop :=
      let scale (l : Nat) : Narrowed := q2lSOf (laneN (u.vrowIn o).b l % 65536) (laneN (u.vrowIn o).b l / 65536 % 256)
      row 8
        (fun l => if tern o ∧ code u o l = 3 then 0 else
          let c := if tern o then Val.ofInt ((code u o l : Int) - 1) else descWiden o.fmt (code u o l)
          (roundFp32 o.rnd (rnd u o l) (c.mul (bs20F.widen (scale l).code))).toNat)
        ((if dqntBad u o then 1 else 0) + if (on o (u.vrowIn o)).any fun l => (scale l).sat then 2 else 0) u o ps
    -- unpk3
    let byte (u : State) (o : VOp) (l : Nat) : Nat :=
      (((o.got ++ [u.vrowIn o])[o.got.length / 5]?.map fun y => laneN y.a l % 256)).getD 0
    let unpkBad (u : State) (o : VOp) : Bool := (on o (u.vrowIn o)).any fun l => decide (243 ≤ byte u o l)
    let unpk (u : State) (o : VOp) (ps : List Pend) : Prop :=
      row 6 (fun l => (BitVec.ofInt 32 (trit (byte u o l) (o.got.length % 5))).toNat)
        (if (on o (u.vrowIn o)).any fun l => decide (243 ≤ byte u o l) &&
            !((o.got.drop (o.got.length / 5 * 5)).any fun y => decide (l < o.lanes) && y.g.getLsbD l) then 1 else 0) u o ps
    -- vpack: a result row is complete with the last row that gives it codes
    let pack (u : State) (o : VOp) (ps : List Pend) : Prop :=
      let ins := o.got ++ [u.vrowIn o]
      let k := o.got.length
      let c := 32 / o.codeW
      ((k + 1) % c ≠ 0 → k + 1 ≠ o.rows → ps = []) ∧
      ((k + 1) % c = 0 ∨ k + 1 = o.rows → ∃ p, ps = [p] ∧ ∀ x, ins[k / c]? = some x →
        let code (t : Nat) : Nat := (ins[t / 64]?.map fun y => if t % 64 < o.lanes then laneN y.a (t % 64) % 2 ^ o.codeW else 0).getD 0
        p.IsRow (o.t + (6 + k)) (tileRow o.vd o.sd (k / c))
          (o.guarded x fun l => ((List.range c).map fun i => code ((64 * (k / c) + l) * c + i) * 2 ^ (o.codeW * i)).sum))
    -- vunpk
    let unpack (u : State) (o : VOp) (ps : List Pend) : Prop :=
      let ins := o.got ++ [u.vrowIn o]
      let c := 32 / o.codeW
      row 6 (fun l =>
        let t := 64 * o.got.length + l
        let word := (ins[t / c / 64]?.map fun y => laneN y.a (t / c % 64)).getD 0
        let x := word / 2 ^ (o.codeW * (t % c)) % 2 ^ o.codeW
        if o.ty = 0 then ((BitVec.ofNat o.codeW x).signExtend 32).toNat else x) 0 u o ps
    -- vrng and vpatx
    let rng (u : State) (o : VOp) (ps : List Pend) : Prop :=
      row 10 (fun l =>
        let x := (philox (laneN (u.vrowIn o).a l) l o.got.length 0 o.vb u.att.key.toNat).word (o.got.length % 4)
        if o.ty = 2 then (roundFp32 .rne 0 (.fin ⟨false, x / 256, -24⟩)).toNat else x) 0 u o ps
    let patx (u : State) (o : VOp) (ps : List Pend) : Prop :=
      row 8 (fun l =>
        let q := pat u.att.key.toNat o.vb o.got.length (l / 8)
        let a := (u.vrowIn o).a
        if l % 8 = q.1 then laneN a (2 * (l / 8)) else if l % 8 = q.2 then laneN a (2 * (l / 8) + 1) else 0) 0 u o ps
    let len := vextLen v.ext
    (cvtSource s.vfmtDesc v.ty.toNat = false → exec (.vcvt v) s = .next (s.trap 0x09 0)) ∧
    (cvtSource s.vfmtDesc v.ty.toNat = true → completes (.vcvt v) (s.vop (.vcvt v) v) len cvt) ∧ rows (.vcvt v) cvt ∧
    (q2lTarget s.vfmtDesc = false → exec (.vqnt v) s = .next (s.trap 0x09 0) ∧ exec (.vdqnt v) s = .next (s.trap 0x09 0)) ∧
    (q2lTarget s.vfmtDesc = true → completes (.vqnt v) (s.vop (.vqnt v) v) len qnt) ∧ rows (.vqnt v) qnt ∧
    (q2lTarget s.vfmtDesc = true →
      let o := s.vop (.vdqnt v) v
      (dqntBad s o = true ∧ o.t3 = true → exec (.vdqnt v) s = .next (trapped s o)) ∧
      (¬ (dqntBad s o = true ∧ o.t3 = true) → completes (.vdqnt v) o len dqnt)) ∧
    (∀ (u : State) (o : VOp), o.i = .vdqnt v →
      (dqntBad u o = true ∧ o.t3 = true → u.vrowStep o = trapped u o) ∧
      (¬ (dqntBad u o = true ∧ o.t3 = true) → ∃ ps, dqnt u o ps ∧ u.vrowStep o = u.rowDone o ps)) ∧
    (let o := s.vop (.unpk3 v) v;
      (unpkBad s o = true ∧ o.t3 = true → exec (.unpk3 v) s = .next (trapped s o)) ∧
      (¬ (unpkBad s o = true ∧ o.t3 = true) → completes (.unpk3 v) o len unpk)) ∧
    (∀ (u : State) (o : VOp), o.i = .unpk3 v →
      (unpkBad u o = true ∧ o.t3 = true → u.vrowStep o = trapped u o) ∧
      (¬ (unpkBad u o = true ∧ o.t3 = true) → ∃ ps, unpk u o ps ∧ u.vrowStep o = u.rowDone o ps)) ∧
    completes (.vpack v) (s.vop (.vpack v) v) len pack ∧ rows (.vpack v) pack ∧
    completes (.vunpk v) (s.vop (.vunpk v) v) len unpack ∧ rows (.vunpk v) unpack ∧
    completes (.vrng w) (s.vopImm (.vrng w) w) 12 rng ∧ rows (.vrng w) rng ∧
    completes (.vpatx w) (s.vopImm (.vpatx w) w) 12 patx ∧ rows (.vpatx w) patx

/-! The matrix and sort streams (19 R440 to R469, 20 R470 to R479) -/

/-- `mstep` and `mspz` (R445, R447, R450, R453, R468): a level outside a replay is a reserved field, `mspz` needs an SPR core;
a failed check stops the stream at the command with the matrix status word, a coded tile beyond the window as Chital's
fault (R211, R285); then the scale queue pops, makes it wait, or
stops it, by its entries and those outstanding at the start of the cycle; a step that passes begins and holds the slot for
32 cycles.  The checks pass for a dense, packed or zero-suppressed A (R442, R443, R466), a dense, packed or coded B (R452)
and the header and the four times longer A of `mspz`; a bad header and a slab index above 3 stop the command. -/
def Obligations.MatrixStepsCheckThenBegin : Prop :=
  ∀ (s : State) (h : MHead) (a b : MOpd) (t : MScale) (spz : Bool), s.cur.eng = 2 →
    let X := exec (if spz then .mspz h a b t else .mstep h a b t) s
    let kind := if spz then 1 else 0
    let acc := h.acc.toNat
    let n := (if t.sca = 1 then 1 else 0) + (if t.scb = 1 then 1 else 0)
    let Q := s.core.scaleQ.items.length
    let O := s.core.scaleOut - s.core.scaleNew
    let level := s.stm.replay.isSome = true ∨ (h.lvlen = false ∧ h.lvl = 0)
    (spz = true → s.att.cls ≠ 2 → X = .next (s.trap 0x01 1)) ∧
    ((spz = true → s.att.cls = 2) →
      (¬ level → X = .next (s.trap 0x01 2)) ∧
      (level → ∀ f, s.stepCheck kind h a b t = .error f →
        (t.coded = true ∧ f.cause = 0x07 ∧ f.opnd = 2 → ∃ v, X = .next v ∧ v.core.frozen = true ∧ ∃ r,
          v.core.traps = s.core.traps ++ [r] ∧ r.cause = 0x07 ∧ r.sub = 0 ∧ r.engine = 3 ∧ r.addr = f.addr ∧
          r.pc = s.stm.pc ∧ r.cmdidx = s.stm.ncmd) ∧
        (¬ (t.coded = true ∧ f.cause = 0x07 ∧ f.opnd = 2) →
          X = .next (s.trap f.cause f.sub f.addr (s.mStatus acc 0 f.opnd 0)))) ∧
      (level → ∀ op, s.stepCheck kind h a b t = .ok op →
        (n ≤ Q → X = .next ((s.beginStep op).nextWord 24 32)) ∧
        (Q < n → n ≤ Q + O → X = .next (s.waits 1 0x38)) ∧
        (Q + O < n → X = .next (s.trap 0x0C 0 0
          (s.mStatus acc 0 6 (if t.sca = 1 ∧ 1 ≤ Q + O then 1 else if t.sca = 1 then 0 else 1)))))) ∧
    (let ua := s.unitAddr a.addr (a.agen == 1) 0
     let ub := s.unitAddr b.addr (b.agen == 1) 1
     let fa := s.desc h.fmta.toNat
     let fb := s.desc h.fmtb.toNat
     (s.inst.tag (64 * ua)).getLsbD 15 = false → (s.inst.tag (64 * ub)).getLsbD 15 = false →
     (h.fmta = 0 → s.stepCheck 0 h a b t = .error ⟨0x08, 0, 1, 0⟩) ∧
     (h.fmta ≠ 0 → h.fmtb = 0 → s.stepCheck 0 h a b t = .error ⟨0x08, 0, 2, 0⟩) ∧
     (h.fmta ≠ 0 → h.fmtb ≠ 0 → mShape fa fb h.int = none → s.stepCheck 0 h a b t = .error ⟨0x09, 0, 2, 0⟩) ∧
     (h.fmta ≠ 0 → h.fmtb ≠ 0 → ∀ sh, mShape fa fb h.int = some sh → t.coded = false →
       (∀ f, firstBeyond s.att.limit (64 * ua) sh.aBytes = some f → s.stepCheck 0 h a b t = .error ⟨0x07, 0, 1, f⟩) ∧
       (firstBeyond s.att.limit (64 * ua) sh.aBytes = none →
         (∀ f, firstBeyond s.att.limit (64 * ub) sh.bBytes = some f → s.stepCheck 0 h a b t = .error ⟨0x07, 0, 2, f⟩) ∧
         (firstBeyond s.att.limit (64 * ub) sh.bBytes = none → ∃ op, s.stepCheck 0 h a b t = .ok op ∧ op.kind = 0 ∧
           op.a = 64 * ua ∧ op.za = sh.aBytes ∧ op.b = [64 * ub] ∧ op.zb = sh.bBytes ∧ op.slab = none ∧ op.fa = fa ∧
           op.fb = [fb] ∧ op.t = s.core.clk ∧ op.h = h ∧ op.sc = t ∧ op.abuf = [] ∧ op.bbuf = [])))) ∧
    (let ua := s.unitAddr a.addr (a.agen == 1) 0
     let ub := 64 * s.unitAddr b.addr (b.agen == 1) 1
     let sram := s.inst.sram
     let tag (at_ bit : Nat) : Bool := (s.inst.tag at_).getLsbD bit
     let format (field : BitVec 6) (at_ : Nat) : Nat := if field = 0 then (s.inst.tag at_).toNat % 64 else field.toNat
     let fai := format h.fmta (64 * ua)
     let fa := s.desc fai
     let fb := s.desc (format h.fmtb ub)
     let zsA : Prop := tag (64 * ua) 15 = true ∧ tag (64 * ua) 12 = true
     let header : Prop := Memory.nat sram ub 1 = 0x2B ∧ Memory.nat sram (ub + 1) 3 = 0 ∧ ∀ i < 56, Memory.nat sram (ub + 8 + i) 1 = 0
     let mul := if spz then 4 else 1
     let start := 64 * (ua - ua % 4)
     let ba := if spz then ub + 64 else ub
     (spz = true → firstBeyond s.att.limit ub 64 = none → ¬ header → s.stepCheck kind h a b t = .error ⟨0x02, 0x12, 7, 0⟩) ∧
     ∀ sh, mShape fa fb h.int = some sh → (spz = true → firstBeyond s.att.limit ub 64 = none ∧ header) →
       (zsA → 4 < ua % 4 + mul * sh.steps → s.stepCheck kind h a b t = .error ⟨0x02, 0x15, 1, 0⟩) ∧
       ((zsA → ua % 4 + mul * sh.steps ≤ 4) → (h.fmta = 0 → tag (64 * ua) 15 = true) → (h.fmtb = 0 → tag ub 15 = true) →
        ¬ (tag (64 * ua) 15 = true ∧ tag (64 * ua) 11 = true) →
        ¬ (tag ub 15 = true ∧ (tag ub 12 = true ∨ tag ub 11 = true ∧ t.coded = false)) →
        (spz = true → sh.wb ≠ 0 ∧ t.coded = false) →
        ∀ zA zB, zA = (if zsA then max 128 (Memory.nat sram (start + 4) 4) else mul * sh.aBytes) →
          zB = (if t.coded then max (Memory.nat sram (ub + 8) 2) 32 else sh.bBytes) →
          firstBeyond s.att.limit (if zsA then start else 64 * ua) zA = none → firstBeyond s.att.limit ba zB = none →
          ∃ op, s.stepCheck kind h a b t = .ok op ∧ op.kind = kind ∧ op.a = (if zsA then start else 64 * ua) ∧ op.za = zA ∧
            op.slab = (if zsA then some (ua % 4) else none) ∧ op.b = [ba] ∧ op.zb = zB ∧ op.fa = fa ∧ op.fb = [fb] ∧ op.fai = fai ∧
            (spz = true → op.seed = Memory.nat sram (ub + 4) 4) ∧ op.t = s.core.clk ∧ op.h = h ∧ op.sc = t ∧ op.entry = 0))

/-- `mbsp` (R454, R455, R468): needs an SPR core and takes no coded operand; its first entry stops the command, or is an
empty block row of 8 cycles, or a step of 32 with the scale queue's say; unless the entry is the last, the next one
follows it, in a replay too.  An entry stops where it lies outside the window, is malformed, or names a tile that its tag,
its format or the window forbids; else it is empty or a step on the A slab at dword 1's address + 64 KB units, taken as an
operand of its own (its block's tag, no wrap of the address: the model's reading of R443 and R454, log 26). -/
def Obligations.BlockSparseStepsRunTheirEntries : Prop :=
  ∀ (s : State) (h : MHead) (a b : MOpd) (t : MScale), s.cur.eng = 2 → s.trapped = false →
    let X := exec (.mbsp h a b t) s
    let acc := h.acc.toNat
    let level := s.stm.replay.isSome = true ∨ (h.lvlen = false ∧ h.lvl = 0)
    let lbase := 64 * s.unitAddr b.addr (b.agen == 1) 1
    let e := s.bspEntry lbase 0
    let run : MBsp :=
      { h := h, sc := t, pc := s.stm.pc, cmd := s.stm.ncmd, layer := s.layer, lbase := lbase, entry := 0,
        abase := s.unitAddr a.addr (a.agen == 1) 0, bytes := e.1, bad := e.2, prev := none, replay := s.stm.replay }
    let next (occ : Nat) (ps : List Pend) : Prop :=
      ∃ u c, X = .next u ∧ u.stm.pc = s.stm.pc + 24 ∧ u.stm.free = s.core.clk + occ ∧ u.stm.ncmd = s.stm.ncmd + 1 ∧
        u.core.pend = ps ++ (if bspLast e.1 then [] else [⟨s.core.clk + occ, .mbsp { run with
          cmd := run.cmd + 1, entry := 1, bytes := (s.bspEntry lbase 1).1, bad := (s.bspEntry lbase 1).2, prev := some (bspKb e.1) }⟩]) ∧
        u = s.setCore c
    let n := (if t.sca = 1 then 1 else 0) + (if t.scb = 1 then 1 else 0)
    let Q := s.core.scaleQ.items.length
    let O := s.core.scaleOut - s.core.scaleNew
    -- an entry of occ cycles has begun in v: the next one follows it, the word moves on, and the slot is held
    let after (v : State) (occ : Nat) : Host.Outcome State Fault Refusal :=
      let w := v.holdMatrix (s.core.clk + occ)
      let w1 := if bspLast e.1 then w else w.withDue [⟨s.core.clk + occ, .mbsp { run with
        cmd := run.cmd + 1, entry := 1, bytes := (s.bspEntry lbase 1).1, bad := (s.bspEntry lbase 1).2, prev := some (bspKb e.1) }⟩]
      .next ((w1.nextWord 24 1).holdMatrix (s.core.clk + occ))
    (s.att.cls ≠ 2 → X = .next (s.trap 0x01 1)) ∧
    (s.att.cls = 2 → ¬ level → X = .next (s.trap 0x01 2)) ∧
    (s.att.cls = 2 → level → t.coded = true → X = .next (s.trap 0x02 0x15 0 (s.mStatus acc 0 0 0))) ∧
    (s.att.cls = 2 → level → t.coded = false →
      (∀ f, s.bspStep run = .error f → X = .next (s.trap f.cause f.sub f.addr (s.mStatus acc 0 f.opnd 0))) ∧
      (s.stm.replay = none → s.bspStep run = .ok none → next 8 s.core.pend) ∧
      (s.bspStep run = .ok none → X = after s 8) ∧
      (∀ op, s.bspStep run = .ok (some op) →
        (Q < n → n ≤ Q + O → X = .next (s.waits 1 0x38)) ∧
        (n ≤ Q → X = after (s.beginStep op) 32) ∧
        (s.stm.replay = none → n ≤ Q → next 32 (s.beginStep op).core.pend) ∧
        (Q + O < n → X = .next (s.trap 0x0C 0 0
          (s.mStatus acc 0 6 (if t.sca = 1 ∧ 1 ≤ Q + O then 1 else if t.sca = 1 then 0 else 1)))))) ∧
    (∀ e, let at_ := lbase + 32 * e
      (∀ f, firstBeyond s.att.limit at_ 32 = some f → s.bspEntry lbase e = ([], some f)) ∧
      (firstBeyond s.att.limit at_ 32 = none → s.bspEntry lbase e = (s.inst.sram.bytes at_ 32, none))) ∧
    (∀ m : MBsp,
      let word (i : Nat) : Nat := leNat ((m.bytes.drop (4 * i)).take 4)
      let present (c : Nat) : Bool := word 0 / 2 ^ (16 + c) % 2 == 1
      let tiles := ((List.range 4).filter present).map fun c => 64 * word (1 + c)
      let malformed : Prop := word 0 / 2 ^ 20 % 2 ^ 11 ≠ 0 ∨ (∃ i < 3, word (5 + i) ≠ 0) ∨
        (∃ c < 4, 2 ^ 20 ≤ word (1 + c) ∨ present c = false ∧ word (1 + c) ≠ 0) ∨
        (∃ k, m.prev = some k ∧ word 0 % 65536 ≤ k) ∨ m.entry = 255 ∧ word 0 < 2 ^ 31
      let ua := m.abase + 64 * (word 0 % 65536)
      let tag (at_ bit : Nat) : Bool := (s.inst.tag at_).getLsbD bit
      let format (field : BitVec 6) (at_ : Nat) : Nat := if field = 0 then (s.inst.tag at_).toNat % 64 else field.toNat
      let fa := s.desc (format m.h.fmta (64 * ua))
      let zsA : Prop := tag (64 * ua) 15 = true ∧ tag (64 * ua) 12 = true
      let start := if zsA then 64 * (ua - ua % 4) else 64 * ua
      let zA := if zsA then max 128 (Memory.nat s.inst.sram (start + 4) 4) else 4096
      let badTag (field : BitVec 6) (at_ : Nat) (coded : Prop) : Prop := (tag at_ 15 = true ∧ coded) ∨ (field = 0 ∧ tag at_ 15 = false)
      let aBad := badTag m.h.fmta (64 * ua) (tag (64 * ua) 11 = true)
      let bBad (at_ : Nat) : Prop := badTag m.h.fmtb at_ (tag at_ 11 = true ∨ tag at_ 12 = true)
      let shaped (at_ : Nat) : Prop := mShape fa (s.desc (format m.h.fmtb at_)) m.h.int = some ⟨128, 1, 8, 8⟩
      (∀ f, m.bad = some f → s.bspStep m = .error ⟨0x07, 0, 5, f⟩) ∧
      (m.bad = none → malformed → s.bspStep m = .error ⟨0x02, 0x13, 5, 0⟩) ∧
      (m.bad = none → ¬ malformed →
        (tiles = [] → s.bspStep m = .ok none) ∧
        (tiles ≠ [] →
          (aBad → s.bspStep m = .error ⟨0x08, 0, 1, 0⟩) ∧
          (¬ aBad → (∃ x ∈ tiles, bBad x) → s.bspStep m = .error ⟨0x08, 0, 2, 0⟩) ∧
          (¬ aBad → (∀ x ∈ tiles, ¬ bBad x) →
            ((∃ x ∈ tiles, ¬ shaped x) → s.bspStep m = .error ⟨0x09, 0, 2, 0⟩) ∧
            ((∀ x ∈ tiles, shaped x) →
              (∀ f, firstBeyond s.att.limit start zA = some f → s.bspStep m = .error ⟨0x07, 0, 1, f⟩) ∧
              (firstBeyond s.att.limit start zA = none →
                (∀ x, tiles.find? (fun x => (firstBeyond s.att.limit x 1024).isSome) = some x → ∀ f, firstBeyond s.att.limit x 1024 = some f →
                  s.bspStep m = .error ⟨0x07, 0, 2, f⟩) ∧
                ((∀ x ∈ tiles, firstBeyond s.att.limit x 1024 = none) → ∃ op, s.bspStep m = .ok (some op) ∧ op.kind = 2 ∧
                  op.entry = m.entry ∧ op.t = s.core.clk ∧ op.a = start ∧ op.za = zA ∧
                  op.slab = (if zsA then some (ua % 4) else none) ∧ op.b = tiles ∧ op.zb = 1024 ∧
                  op.mask = word 0 / 65536 % 16 ∧ op.fa = fa ∧ op.fb = tiles.map (fun x => s.desc (format m.h.fmtb x)) ∧
                  op.h = m.h ∧ op.sc = m.sc)))))))

/-- What a step does to its accumulator (R444, R447, R448): every operand byte is read once over the 32 cycles; in the
cycle after its reads of the accumulator, each element of each row receives its K-steps in order: the exact sum of 32
products added as an integer modulo 2^32, or multiplied by the scales of its row and its column where the step is scaled
(a zero leaving -0 as it is, R267), added exactly and rounded once, with the generator's bits under stochastic rounding;
other columns keep their words.  An entry of `mbsp` does so for the columns of its present tiles, each from its tile.
A zero-suppressed A is taken only as its checks pass, with its length check and generation numbers as at the start of
the read (R246, R465). -/
def Obligations.StepsAccumulateExactSums : Prop :=
  (∀ (m : Memory) (a z : Nat), (List.range 32).flatMap (shareOf m a z 32) = m.bytes a z) ∧
  (∀ (s : State) (op : MOp) (sh : MShape), op.kind ≠ 2 → mShape op.fa (op.fb.headD 0) op.h.int = some sh →
    let c := s.core
    let acc := op.h.acc.toNat
    let A (i q p j : Nat) : Val := aElt op.fa sh.wa op.abuf.toArray i (op.pick s.att.key.toNat q p j).1
    let B (q p j : Nat) : Val := bElt (op.fb.headD 0) sh.wb sh.cols op.bbuf.toArray (op.pick s.att.key.toNat q p j).2 j
    let word (i j : Nat) (old : Word) : Word :=
      (List.range sh.steps).foldl (fun w q => (op.accumulate s i j q (dotVal (fun p => A i q p j) fun p => B q p j) w).1) old
    ∃ front back : List Pend, s.mfinStep op = s.setCore { c with pend := front ++ c.pend ++ back } ∧ front.length = 128 ∧
      (∀ i p, front[i]? = some p → ∃ m w : AccRow, p = ⟨c.clk + 1, .accRow acc i m w⟩ ∧ ∀ j < 128,
        (sh.cols ≤ j → m.extractLsb' (32 * j) 32 = 0) ∧
        (j < sh.cols → m.extractLsb' (32 * j) 32 = BitVec.allOnes 32 ∧
          w.extractLsb' (32 * j) 32 = word i j ((Tab.get 0 c.acc (acc * 128 + i)).extractLsb' (32 * j) 32))) ∧
      ∀ p ∈ back, p = ⟨c.clk + 1, .accFlag acc⟩ ∨ p = ⟨c.clk + 1, .vstat 1⟩) ∧
  (∀ (s : State) (op : MOp) (i j q : Nat) (p : Val) (w : Word),
    (op.h.int = true → (op.accumulate s i j q p w).1 = w + BitVec.ofInt 32 p.toInt ∧
      ((op.accumulate s i j q p w).2 = true ↔ w.toInt + p.toInt < -2 ^ 31 ∨ 2 ^ 31 ≤ w.toInt + p.toInt)) ∧
    (op.h.int = false →
      let scale (src : BitVec 2) (r : AccRow) (x : Nat) : Val :=
        if src = 0 then .fin ⟨false, 1, 0⟩ else bs20F.widen (r.extractLsb' (32 * x) 20).toNat
      let whole := (p.mul (scale op.sc.sca op.sa i)).mul (scale op.sc.scb op.sb j)
      let part : Val := if op.h.scaled = false then p else if whole.isZero then .fin ⟨true, 0, 0⟩ else whole
      let rand := if op.h.round = 2 then rand24 s.att.key.toNat i (j + 128 * (q + op.entry)) op.layer else 0
      op.accumulate s i j q p w = (roundFp32 (Rnd.ofCode op.h.round.toNat) rand ((ofFp32 w).add part), false))) ∧
  (∀ (s : State) (op : MOp), op.kind = 2 → mShape op.fa (op.fb.headD 0) op.h.int = some ⟨128, 1, 8, 8⟩ →
    let c := s.core
    let acc := op.h.acc.toNat
    let tiles := (List.range 4).filter fun c => op.mask / 2 ^ c % 2 == 1
    let n := tiles.length
    op.fb.length = n →
    let B (x p jj : Nat) : Val :=
      descWiden (op.fb.getD x 0) (((op.bbuf.drop (32 * n * p + 32 * x)).take 32).getD jj 0).toNat
    ∃ front back : List Pend, s.mfinStep op = s.setCore { c with pend := front ++ c.pend ++ back } ∧ front.length = 128 ∧
      (op.bbuf.length = 1024 * n → ∀ i p, front[i]? = some p → ∃ m w : AccRow, p = ⟨c.clk + 1, .accRow acc i m w⟩ ∧ ∀ j < 128,
        (j / 32 ∉ tiles → m.extractLsb' (32 * j) 32 = 0) ∧
        (∀ x, tiles[x]? = some (j / 32) → m.extractLsb' (32 * j) 32 = BitVec.allOnes 32 ∧
          w.extractLsb' (32 * j) 32 = (op.accumulate s i j 0
            (dotVal (fun p => aElt op.fa 8 op.abuf.toArray i p) fun p => B x p (j % 32))
            ((Tab.get 0 c.acc (acc * 128 + i)).extractLsb' (32 * j) 32)).1)) ∧
      ∀ p ∈ back, p = ⟨c.clk + 1, .accFlag acc⟩ ∨ p = ⟨c.clk + 1, .vstat 1⟩) ∧
  (∀ (s : State) (op : MOp) (m : Nat), op.slab = some m → s.core.clk - op.t = 31 →
    let sram := s.inst.sram
    let marks := Memory.nat sram (op.a + 8) 2 :: (List.range (op.za / 128)).map fun i => Memory.nat sram (op.a + 128 * i + 120) 8
    let tile := op.abuf ++ shareOf sram op.a op.za 32 31
    let eb := descSlot op.fa / 8
    let bad := s.takeTrap ⟨0x0A, 6, 2, op.pc, op.cmd, s.mStatus op.h.acc.toNat op.entry 1 0, 0, none, op.replay⟩
    (op.marks ≠ marks ∨ zsDecode op.fai eb tile = none → s.mreadStep op = bad) ∧
    (∀ codes sh, op.marks = marks → zsDecode op.fai eb tile = some codes → op.sc.coded = false →
      mShape op.fa (op.fb.headD 0) op.h.int = some sh → ∃ op', op'.abuf = zsSlabs eb m ((if op.kind = 1 then 4 else 1) * sh.steps) codes ∧
        op'.slab = none ∧ s.mreadStep op = s.withDue [⟨s.core.clk + 8, .mfin op'⟩]))

/-- `mzero`, `mscl` and `mdtab` (R355, R356, R451, R456, R457): `mzero` makes its accumulator read zero as a floating one two
cycles later; the loads read their window bytes at 256 or 64 a cycle and give the scale bank its two halves after 6
cycles, or the table slot its checked table after 8. -/
def Obligations.ZeroingAndMatrixLoadsDeliver : Prop :=
  (∀ (s : State) (acc : BitVec 2) (en : Bool) (l : BitVec 3) (it : BitVec 2), s.cur.eng = 2 →
    (s.stm.replay = none → (en = true ∨ l ≠ 0) → exec (.mzero acc en l it) s = .next (s.trap 0x01 2)) ∧
    ((s.stm.replay.isSome = true ∨ (en = false ∧ l = 0)) → exec (.mzero acc en l it) s =
      .next ((s.withDue [⟨s.core.clk + 2, .accZero acc.toNat⟩, ⟨s.core.clk + 2, .accKind acc.toNat false⟩]).nextWord 24 1))) ∧
  (∀ (s : State) (acc : BitVec 2) (a : MOpd), s.cur.eng = 2 →
    let at_ := 64 * s.unitAddr a.addr (a.agen == 1) 0
    (∀ f, firstBeyond s.att.limit at_ 1024 = some f →
      exec (.mscl acc a) s = .next (s.trap 0x07 0 f (s.mStatus acc.toNat 0 6 0))) ∧
    (firstBeyond s.att.limit at_ 1024 = none → exec (.mscl acc a) s =
      .next ((s.withDue [⟨s.core.clk + 1, .mload ⟨false, acc.toNat, s.stm.pc, s.stm.ncmd, s.core.clk, at_,
        s.inst.sram.bytes at_ 256, s.stm.replay⟩⟩]).nextWord 24 4))) ∧
  (∀ (s : State) (ad : BitVec 20) (slot : BitVec 3), s.cur.eng = 2 →
    let at_ := 64 * ad.toNat
    (∀ f, firstBeyond s.att.limit at_ 512 = some f → exec (.mdtab ad slot) s = .next (s.trap 0x07 0 f (s.mStatus 0 0 5 0))) ∧
    (firstBeyond s.att.limit at_ 512 = none → exec (.mdtab ad slot) s =
      .next ((s.withDue [⟨s.core.clk + 1, .mload ⟨true, slot.toNat, s.stm.pc, s.stm.ncmd, s.core.clk, at_,
        s.inst.sram.bytes at_ 64, s.stm.replay⟩⟩]).nextWord 24 8))) ∧
  (∀ (s : State) (op : MLoad),
    let k := s.core.clk - op.t
    let n := if op.table then 64 else 256
    let buf := op.buf ++ s.inst.sram.bytes (op.a + n * k) n
    (k < (if op.table then 7 else 3) → s.mloadStep op = s.withDue [⟨s.core.clk + 1, .mload { op with buf := buf }⟩]) ∧
    (op.table = false → 3 ≤ k → s.mloadStep op = s.withDue
      [⟨s.core.clk + 3, .scale (2 * op.slot) (BitVec.ofNat 4096 (leNat (buf.take 512)))⟩,
       ⟨s.core.clk + 3, .scale (2 * op.slot + 1) (BitVec.ofNat 4096 (leNat (buf.drop 512)))⟩]) ∧
    (op.table = true → 7 ≤ k →
      (∀ fs, loadTable buf = some fs → s.mloadStep op = s.withDue [⟨s.core.clk + 1, .table op.slot fs⟩]) ∧
      (loadTable buf = none → (s.mloadStep op).core.frozen = true ∧
        ∃ r, (s.mloadStep op).core.traps = s.core.traps ++ [r] ∧ r.cause = 0x0B ∧ r.engine = 3 ∧ r.pc = op.pc ∧ r.cmdidx = op.cmd)))

/-- `mdrain` (R355, R356, R445, R458, R459, R460, R461, R468): a failed check stops the stream at the command; else row k and its kind
are read in the k-th cycle and take their residual 40 cycles later; a plain row of 32-bit words to the window is written
8 cycles after that, word j of row k in slab j / 32.  That a zero-suppressed tile which would reach beyond the window stops
with its last row at issue + 127, before any later command, and that a residual which moves the tile out after that undoes
the commands since, is the model's reading of R297 (log 24); R297 and R461 name no cycle.

The bytes of a drain (R458 to R464): each element takes its residual and its dropout; rows of 32-bit words, of narrowed
codes, or of quantised codes with their two scale words go to the window at issue + 48 + k, both quantised copies, the
column copy and a zero-suppressed tile whole at issue + 176, with the tags of R462; to an sq the same bytes go row by row
as a stream cut into entries of 256 bytes, the scales after the codes. -/
def Obligations.DrainsReadRowsAndWriteThem : Prop :=
  ((∀ (s : State) (o : MOut), s.cur.eng = 2 →
    let X := exec (.mdrain o) s
    let level := s.stm.replay.isSome = true ∨ (o.lvlen = false ∧ o.lvl = 0)
    (¬ level → X = .next (s.trap 0x01 2)) ∧
    (level → ∀ f, s.drainCheck o = .error f → X = .next (s.trap f.cause f.sub f.addr (s.mStatus o.acc.toNat 0 f.opnd 0))) ∧
    (level → ∀ op, s.drainCheck o = .ok op →
      X = .next (((s.drainStep op 0).nextWord 24 128).coreEvent 2 0x40 op.cmd (64 * op.dst))) ∧
    (level → o.pack = 0 → o.fmta = 0 → o.dual = false → o.zs = false → o.resen = false → o.dstsel = 0 →
      let dst := s.unitAddr o.dst false 2
      dst % 64 = 0 → 64 * dst + 65536 ≤ s.att.limit → ∃ op, s.drainCheck o = .ok op ∧ op.dst = dst ∧ op.o = o ∧ op.t = s.core.clk)) ∧
  (∀ (s : State) (op : DOp) (k : Nat),
    let c := s.core
    let acc := op.o.acc.toNat
    let kind := Tab.get false c.accKind acc
    let op1 : DOp := if k = 0 then { op with kind0 := kind } else op
    let row := Tab.get 0 c.acc (acc * 128 + k)
    let read := s.withDue (⟨c.clk + 40, .resid op1 k row kind⟩ :: if k < 127 then [⟨c.clk + 1, .drain op1 (k + 1)⟩] else [])
    let beyond := firstBeyond s.att.limit (64 * op.dst) (op.zsTile s (s.rowsAhead op row kind)).1.length
    let keep : Option MatMark := if op.o.resen then
        some ⟨op.cmd, c.acc, c.accKind, c.accflags, c.scale, c.ctab, c.decB, c.markidx,
          { Tab.get Stream.absent c.streams 2 with pc := op.pc, ncmd := op.cmd, free := c.clk, replay := op.replay }, []⟩
      else none
    (k < 127 ∨ op.o.zs = false ∨ op.o.dstsel ≠ 0 → s.drainStep op k = read) ∧
    (127 ≤ k → op.o.zs = true → op.o.dstsel = 0 → beyond = none →
      s.drainStep op k = read.setCore { read.core with mark := keep }) ∧
    (127 ≤ k → op.o.zs = true → op.o.dstsel = 0 → ∀ f, beyond = some f →
      s.drainStep op k = s.takeTrap ⟨0x07, 0, 2, op.pc, op.cmd, s.mStatus acc 0 4 0, f, none, op.replay⟩)) ∧
  (∀ (s : State) (op : DOp) (k : Nat) (row : AccRow) (kind : Bool), k < 128 →
    op.o.pack = 0 → op.o.zs = false → op.o.resen = false → op.o.dropen = false → op.o.dstsel = 0 →
    ∃ cells tag, (s.residStep op k row kind).core.pend = s.core.pend ++ [⟨op.t + 48 + k, .sram cells (.first tag)⟩] ∧
      ∀ a v, (a, v) ∈ cells ↔ ∃ j < 128, ∃ n < 4,
        a = 64 * op.dst + 16384 * (j / 32) + 128 * k + 4 * (j % 32) + n ∧ v = (row.extractLsb' (32 * j) 32).extractLsb' (8 * n) 8)) ∧
  (∀ (s : State) (op : DOp) (k : Nat) (row : AccRow) (kind : Bool), k < 128 →
    let key := s.att.key.toNat
    let rnd (col : Nat) : Nat := if op.o.round = 2 then rand24 key k col op.layer else 0
    let mode := Rnd.ofCode op.o.round.toNat
    let wr := descSlot op.fr
    -- steps 1 to 3 of R458 on element j
    let value (j : Nat) : Word :=
      let w := row.extractLsb' (32 * j) 32
      let at_ := op.res + 512 * wr * (j / 32) + 4 * wr * k + wr * (j % 32) / 8
      let r := descWiden op.fr (Memory.nat s.inst.sram at_ (if wr < 8 then 1 else wr / 8) / 2 ^ (wr * (j % 32) % 8) % 2 ^ wr)
      let x : Word := if op.o.resen = false then w else
        if kind then BitVec.ofInt 32 (w.toInt + r.toInt) else roundFp32 mode (rnd j) ((ofFp32 w).add r)
      if op.o.dropen = true ∧ (philox k j op.layer 0 op.seed key).c1 / 2 ^ 24 < op.o.dropth.toNat then 0 else x
    let vals := op.values s k kind row
    let exact (i : Bool) (x : Word) : Val := if i then .ofInt x.toInt else ofFp32 x
    let w := if op.o.pack = 0 then 32 else descSlot op.fa
    let base := 64 * op.dst
    let size := 2048 * w
    let t := op.t + 48 + k
    -- the bytes of a row of codes of w bits: slab m holds columns 32 m to 32 m + 31
    let packed (codes : Nat → Nat) (m n : Nat) : Byte :=
      BitVec.ofNat 8 (((List.range 32).map fun c => codes (32 * m + c) % 2 ^ w * 2 ^ (w * c)).sum / 2 ^ (8 * n))
    let rowAt (start i : Nat) (codes : Nat → Nat) (a : Nat) (v : Byte) : Prop :=
      ∃ m < 4, ∃ n < 4 * w, a = start + 512 * w * m + 4 * w * i + n ∧ v = packed codes m n
    let scaleAt (start i : Nat) (ws : List Nat) (a : Nat) (v : Byte) : Prop :=
      ∃ b n x, ws[b]? = some x ∧ n < 4 ∧ a = start + size + 4 * (128 * b + i) + n ∧ v = BitVec.ofNat 8 (x / 2 ^ (8 * n))
    let scales (xs : List Val) : List Nat := (q2l op.fa xs).ss.map fun ss => q2lS (q2l op.fa xs).sr ss
    let stick (xs : List Val) : Nat := (if (q2l op.fa xs).sat then 2 else 0) + if (q2l op.fa xs).nan then 4 else 0
    let line (r : AccRow × Bool) : List Val := (List.range 128).map fun j => exact r.2 (r.1.extractLsb' (32 * j) 32)
    let cut (bytes : List Byte) : List Row :=
      (List.range ((bytes.length + 255) / 256)).map fun e => BitVec.ofNat 2048 (leNat ((bytes.drop (256 * e)).take 256))
    let rowBytes (codes : Nat → Nat) : List Byte := (List.range (16 * w)).map fun n => packed codes (n / (4 * w)) (n % (4 * w))
    let copy (codes : Nat → Nat → Nat) (ws : Nat → List Nat) : List Byte :=
      ((List.range 128).flatMap fun i => rowBytes (codes i)) ++
      (List.range 2).flatMap fun b => (List.range 128).flatMap fun x => bytesOf 4 ((ws x).getD b 0)
    let sets (n bits : Nat) : List Pend := if bits = 0 then [] else [⟨n, .vstat (BitVec.ofNat 32 bits)⟩]
    let c := s.core
    let early := if k = 0 then [] else c.dbytes
    let kept := if k = 0 then [] else c.dvals
    -- a byte stream goes out to an sq: its whole entries leave at cycle n, the rest is kept
    let streams (u : State) (n : Nat) (whole left : List Byte) : Prop :=
      u.core.dbytes = left ∧ (whole = [] → ∀ p ∈ u.core.pend, p ∈ c.pend ∨ ∃ b, p.act = .vstat b) ∧
      (whole ≠ [] → ⟨n + (c.lag - op.lag), .qpush (op.o.dstsel.toNat - 4) (cut whole)⟩ ∈ u.core.pend)
    (∀ j < 128, vals.extractLsb' (32 * j) 32 = value j) ∧
    -- PACK 0 and 1
    (op.o.zs = false → op.o.pack.toNat < 2 →
      let f := (descFmt op.fa).getD (.flt fp32F)
      let narrowed (j : Nat) : Narrowed := f.narrow mode (rnd (j + 128)) (exact kind (vals.extractLsb' (32 * j) 32))
      let code (j : Nat) : Nat := if op.o.pack = 0 then (vals.extractLsb' (32 * j) 32).toNat else (narrowed j).code
      let bits := if op.o.pack = 0 then 0 else (List.range 128).foldl (fun b j => b ||| (narrowed j).flags) 0
      (op.o.pack = 1 → (descFmt op.fa).isSome = true) →
      (op.o.dstsel = 0 → ∃ cells tag, (s.residStep op k row kind).core.pend = c.pend ++ sets t bits ++ [⟨t, .sram cells (.first tag)⟩] ∧
        (∀ a v, (a, v) ∈ cells ↔ rowAt base k code a v) ∧
        tag = BitVec.ofNat 16 (0x8000 + if op.o.pack = 0 then (if op.kind0 then 4 else 1) else op.o.fmta.toNat)) ∧
      (op.o.dstsel ≠ 0 →
        let all := early ++ rowBytes code
        let n := if k = 127 then all.length else all.length / 256 * 256
        streams (s.residStep op k row kind) t (all.take n) (all.drop n))) ∧
    -- PACK 2 without DUAL
    (op.o.zs = false → op.o.pack = 2 → op.o.dual = false →
      let xs := line (vals, kind)
      let code (j : Nat) : Nat := (q2l op.fa xs).codes.getD j 0
      (op.o.dstsel = 0 → ∃ cells words, (s.residStep op k row kind).core.pend = c.pend ++ sets t (stick xs) ++
          [⟨t, .sram cells (.first (BitVec.ofNat 16 (0x8100 + op.o.fmta.toNat)))⟩, ⟨t, .sram words (.first 0x800A)⟩] ∧
        (∀ a v, (a, v) ∈ cells ↔ rowAt base k code a v) ∧ ∀ a v, (a, v) ∈ words ↔ scaleAt base k (scales xs) a v) ∧
      (op.o.dstsel ≠ 0 →
        let two := BitVec.ofNat 4096 ((scales xs).getD 0 0 + (scales xs).getD 1 0 * 2 ^ 32)
        let sc := (kept ++ [(two, kind)]).map fun r => r.1.toNat
        let all := early ++ rowBytes code
        let n := all.length / 256 * 256
        let u := s.residStep op k row kind
        u.core.dvals = kept ++ [(two, kind)] ∧
        (k < 127 → streams u t (all.take n) (all.drop n)) ∧
        (k = 127 → streams u t (all.drop n ++ (sc.flatMap (bytesOf 4) ++ sc.flatMap fun x => bytesOf 4 (x / 2 ^ 32))) [] ∧
          (n ≠ 0 → ⟨t + (c.lag - op.lag), .qpush (op.o.dstsel.toNat - 4) (cut (all.take n))⟩ ∈ u.core.pend)))) ∧
    -- PACK 3, DUAL and ZS: nothing leaves before the last row
    ((op.o.zs = true ∨ op.o.pack = 2 ∧ op.o.dual = true ∨ op.o.pack = 3) → k < 127 →
      (s.residStep op k row kind).core.pend = c.pend ∧ (s.residStep op k row kind).core.dvals = kept ++ [(vals, kind)]) ∧
    (op.o.zs = false → (op.o.pack = 2 ∧ op.o.dual = true ∨ op.o.pack = 3) → k = 127 →
      let lines := (kept ++ [(vals, kind)]).map line
      let column (j : Nat) : List Val := lines.filterMap fun l => l[j]?
      let second := if op.o.dual then base + size + 4096 else base
      lines.length = 128 →
      (op.o.dstsel ≠ 0 → streams (s.residStep op k row kind) (op.t + 176)
        (early ++ ((if op.o.pack = 2 ∨ op.o.dual = true then
            copy (fun i j => (q2l op.fa (lines.getD i [])).codes.getD j 0) fun i => scales (lines.getD i []) else []) ++
          copy (fun i j => (q2l op.fa (column j)).codes.getD i 0) fun j => scales (column j))) []) ∧
      (op.o.dstsel = 0 → ∃ front back, (s.residStep op k row kind).core.pend = c.pend ++ front ++ back ∧ front.length ≤ 1 ∧
        (∀ p ∈ front, p.at_ = op.t + 176 ∧ ∃ b, p.act = .vstat b) ∧
        (∀ p ∈ back, ∃ cells tag, p = ⟨op.t + 176, .sram cells (.every tag)⟩ ∧
          ((tag = BitVec.ofNat 16 (0x8100 + op.o.fmta.toNat) ∧ (op.o.pack = 2 ∨ op.o.dual = true) ∧
              ∀ a v, (a, v) ∈ cells ↔ ∃ i l, lines[i]? = some l ∧ rowAt base i (fun j => (q2l op.fa l).codes.getD j 0) a v) ∨
           (tag = 0x800A ∧ (op.o.pack = 2 ∨ op.o.dual = true) ∧
              ∀ a v, (a, v) ∈ cells ↔ ∃ i l, lines[i]? = some l ∧ scaleAt base i (scales l) a v) ∨
           (tag = BitVec.ofNat 16 (0x8500 + op.o.fmta.toNat) ∧
              ∀ a v, (a, v) ∈ cells ↔ ∃ i < 128, rowAt second i (fun j => (q2l op.fa (column j)).codes.getD i 0) a v) ∨
           (tag = 0x800A ∧ ∀ a v, (a, v) ∈ cells ↔ ∃ j < 128, scaleAt second j (scales (column j)) a v))) ∧
        back.length = if op.o.dual then 4 else 2)) ∧
    (op.o.zs = true → k = 127 →
      let fmt := if op.o.pack = 0 then (if op.kind0 then 4 else 1) else op.o.fmta.toNat
      let rows := kept ++ [(vals, kind)]
      let codes := rows.zipIdx.map fun r => (op.rowCodes s r.2 r.1.2 (accLanes r.1.1)).1
      let tile := zsEncode fmt (w / 8) op.gen codes
      (op.o.dstsel ≠ 0 → streams (s.residStep op k row kind) (op.t + 176) (early ++ tile) []) ∧
      (op.o.dstsel = 0 → firstBeyond s.att.limit base tile.length = none → ∃ front cells,
        (s.residStep op k row kind).core.pend = c.pend ++ front ++ [⟨op.t + 176, .sram cells (.every (BitVec.ofNat 16 (0x9000 + fmt)))⟩] ∧
        (∀ p ∈ front, p.at_ = op.t + 176 ∧ ∃ b, p.act = .vstat b) ∧
        ∀ a v, (a, v) ∈ cells ↔ ∃ n, tile[n]? = some v ∧ a = base + n) ∧
      (op.o.dstsel = 0 → ∀ f, firstBeyond s.att.limit base tile.length = some f →
        ∃ u : State, u = s.setCore ({ c with dvals := rows, dbytes := early }.undoDrain op.cmd) ∧
        s.residStep op k row kind = u.takeTrap ⟨0x07, 0, 2, op.pc, op.cmd, u.mStatus op.o.acc.toNat 0 4 0, f, none, op.replay⟩)) ∧
    -- a zero-suppressed tile: sectors of 120 data bytes and the generation, over the header, the map and the values (R463)
    (∀ (fmt eb gen : Nat) (codes : List (List Nat)), fmt < 64 → eb < 5 → gen < 2 ^ 64 → codes.length = 128 → (∀ r ∈ codes, r.length = 128) →
      let tile := zsEncode fmt eb gen codes
      let values := codes.flatten.filter (· != 0)
      let n := (2064 + eb * values.length + 119) / 120
      let sum := 128 * n % 65536 + 128 * n / 65536 + gen % 65536 + gen / 2 ^ 16 % 65536 + gen / 2 ^ 32 % 65536 + gen / 2 ^ 48
      tile.length = 128 * n ∧ (∀ i < n, leNat ((tile.drop (128 * i + 120)).take 8) = gen) ∧
      let data := (List.range n).flatMap fun i => (tile.drop (128 * i)).take 120
      data.take 8 = [0xE5, BitVec.ofNat 8 fmt, BitVec.ofNat 8 eb, 0] ++ bytesOf 4 (128 * n) ∧
      leNat ((data.drop 8).take 2) = (sum % 65536) ^^^ 0xFFFF ∧ leNat ((data.drop 10).take 6) = 0 ∧
      (∀ i < 128, ∀ j < 128, leNat ((data.drop (16 + 16 * i)).take 16) / 2 ^ j % 2 = if (codes.getD i []).getD j 0 = 0 then 0 else 1) ∧
      (data.drop 2064).take (eb * values.length) = values.flatMap (bytesOf eb) ∧
      ∀ b ∈ data.drop (2064 + eb * values.length), b = 0))

/-- Sort commands (R357, R470, R473 to R475, R478, R479): an illegal operand or a row group outside the window stops the
command with its status; else one key row, and value row, is read a cycle, the slot is held for the command's occupancy,
and all its destination rows are written 4 cycles after it. -/
def Obligations.SortCommandsCheckReadAndWrite : Prop :=
  (∀ (s : State) (k : SArg), s.cur.eng = 7 →
    let N := k.nm1.toNat + 1
    let P := k.param.toNat
    let stop (sub opnd : Nat) : Host.Outcome State Fault Refusal := .next (s.trap 0x02 sub 0 (BitVec.ofNat 32 (opnd * 256)))
    let both (n : Nat) : Nat := if k.vals then 2 * n else n
    let cmd (i : Instr) (bad : Prop) (sub rows occ : Nat) : Prop :=
      let keys := 256 * (k.addra.toNat + N) ≤ s.att.limit
      let vals := k.vals = true → 256 * (k.addra.toNat + N + N) ≤ s.att.limit
      let dest := 256 * (k.addrd.toNat + rows) ≤ s.att.limit
      (bad → exec i s = stop sub 0) ∧
      (¬ bad → ¬ keys → exec i s = stop 0x14 1) ∧
      (¬ bad → keys → ¬ vals → exec i s = stop 0x14 2) ∧
      (¬ bad → keys → vals → ¬ dest → exec i s = stop 0x14 3) ∧
      (¬ bad → keys → vals → dest → exec i s = .next ((s.kreadStep ⟨i, s.core.clk, [], []⟩).nextWord 8 occ))
    cmd (.ksort k) False 0 (both N) (16 * N + 16) ∧
    cmd (.kmerge k) (N ≤ P % 128 + 1) 0x10 (both N) (2 * N + 8) ∧
    cmd (.ktopk k) (P < 256 ∧ 64 * N < P + 1) 0x11 (both (if P < 256 then (P + 1 + 63) / 64 else N)) (N + 24) ∧
    cmd (.khist k) (12 < P / 32) 0x12 ((2 ^ (P / 32) + 63) / 64) (N + 8) ∧
    cmd (.kroute k) False 0 (both N + (P + 1 + 1 + 63) / 64) (2 * N + 16)) ∧
  (∀ (s : State) (op : KOp) (k : SArg), op.i ∈ ([.ksort k, .kmerge k, .ktopk k, .khist k, .kroute k] : List Instr) →
    let N := k.nm1.toNat + 1
    let q := op.keys.length
    let keys := op.keys ++ [s.sortRow (k.addra.toNat + q)]
    let vals := if k.vals then op.vals ++ [s.sortRow (k.addra.toNat + N + q)] else []
    (q + 1 < N → s.kreadStep op = s.withDue [⟨s.core.clk + 1, .kread { op with keys := keys, vals := vals }⟩]) ∧
    (N ≤ q + 1 → s.kreadStep op = s.withDue [⟨op.t + sortOcc op.i + 4,
      .sram ((sortResult op.i keys vals).zipIdx.flatMap fun r =>
        cellsAt (256 * (k.addrd.toNat + r.2)) (r.1.flatMap (bytesOf 4))) .clear⟩]))

/-- What the sort commands put in order (R471, R473): a sort gives its keys with their values again, each as often as
before, none before one that comes strictly earlier, and equal keys as they stood; a merge of two sorted runs is the
sort of both, run A first among equals; ascending or descending in the order value, which is the key word's as each
format gives it and ranks numbers as the format does.

What the sort commands write, from the N key rows, and value rows, they have read (R472 to R476): `ksort` its items
sorted, `kmerge` the merge of its first 64 M items with the rest, `ktopk` the first k of the sorted items or of each
row's, `khist` the count, or the sum of values, of each bucket, and `kroute` the items of the experts in order, then the
others as they came, and the number of keys below each expert; rows are filled up with zeros. -/
def Obligations.SortsAreStableAndMergesAgree : Prop :=
  ((∀ (desc : Bool) (xs : List KItem),
    let ys := sortItems desc xs
    ys.Perm xs ∧ List.Pairwise (fun a b => before desc b.o a.o = false) ys ∧
      ∀ o, ys.filter (fun x => x.o == o) = xs.filter fun x => x.o == o) ∧
  (∀ (desc : Bool) (as bs : List KItem), List.Pairwise (fun a b => before desc b.o a.o = false) as →
    List.Pairwise (fun a b => before desc b.o a.o = false) bs →
    mergeItems desc (as ++ bs).length as bs = sortItems desc (as ++ bs)) ∧
  (∀ a b : Nat, (before false a b = true ↔ a < b) ∧ (before true a b = true ↔ b < a)) ∧
  (∀ w : Word,
    let o (k : Nat) : Word := BitVec.ofNat 32 (orderVal k w.toNat)
    let h : BitVec 16 := w.extractLsb' 0 16
    (∀ k < 4, orderVal k w.toNat < 2 ^ 32) ∧ o 0 = w ^^^ 0x80000000 ∧ o 1 = w ∧
    o 2 = (if (fp32F.widen w.toNat).isNan then 0xFFFFFFFF else if w.getLsbD 31 then ~~~w else w ||| 0x80000000) ∧
    o 3 = BitVec.zeroExtend 32 (if (bf16F.widen h.toNat).isNan then 0xFFFF else if h.getLsbD 15 then ~~~h else h ||| 0x8000)) ∧
  (∀ x y : Word,
    (orderVal 0 x.toNat < orderVal 0 y.toNat ↔ x.toInt < y.toInt) ∧ (orderVal 1 x.toNat < orderVal 1 y.toNat ↔ x.toNat < y.toNat) ∧
    ((fp32F.widen x.toNat).isNan = false → (fp32F.widen y.toNat).isNan = false → (fp32F.widen x.toNat).lt (fp32F.widen y.toNat) = true →
      orderVal 2 x.toNat < orderVal 2 y.toNat))) ∧
  (∀ (k : SArg) (keys vals : List Row),
    let N := k.nm1.toNat + 1
    let P := k.param.toNat
    let word (rows : List Row) (t : Nat) : Nat := laneN (rows.getD (t / 64) 0) (t % 64)
    keys.length = N → (k.vals = true → vals.length = N) →
    let items : List KItem := (List.range (64 * N)).map fun t =>
      ⟨orderVal k.kfmt.toNat (word keys t), word keys t, if k.vals then word vals t else 0⟩
    let fill (rows : Nat) (ws : List Nat) : List Nat := ws ++ List.replicate (64 * rows - ws.length) 0
    let both (rows : Nat) (xs : List KItem) : List Nat := fill rows (xs.map (·.k)) ++ if k.vals then fill rows (xs.map (·.v)) else []
    let writes (i : Instr) (ws : List Nat) : Prop := (sortResult i keys vals).flatten = ws ∧ ∀ r ∈ sortResult i keys vals, r.length = 64
    let top (xs : List KItem) (n : Nat) : List KItem := (sortItems k.desc xs).take n
    let B := 2 ^ (P / 32)
    let E := P + 1
    writes (.ksort k) (both N (sortItems k.desc items)) ∧
    (let m := 64 * (P % 128 + 1); writes (.kmerge k) (both N (mergeItems k.desc (64 * N) (items.take m) (items.drop m)))) ∧
    (P < 256 → P + 1 ≤ 64 * N → writes (.ktopk k) (both ((P + 1 + 63) / 64) (top items (P + 1)))) ∧
    (256 ≤ P →
      let row (f : KItem → Nat) (q : Nat) : List Nat := fill 1 ((top ((items.drop (64 * q)).take 64) (P % 64 + 1)).map f)
      writes (.ktopk k) ((List.range N).flatMap (row (·.k)) ++ if k.vals then (List.range N).flatMap (row (·.v)) else [])) ∧
    (P / 32 ≤ 12 → writes (.khist k) (fill ((B + 63) / 64) ((List.range B).map fun x =>
      ((items.filter fun y => y.o / 2 ^ (P % 32) % B == x).map fun y => if k.vals then y.v else 1).sum % 2 ^ 32))) ∧
    writes (.kroute k)
      (both N (sortItems false (items.filter fun x => decide (x.k < E)) ++ items.filter fun x => decide (E ≤ x.k)) ++
        fill ((E + 1 + 63) / 64) ((List.range (E + 1)).map fun n => (items.filter fun x => decide (x.k < n)).length)) ∧
    (∀ (desc : Bool) (n : Nat) (a b : KItem) (as bs : List KItem),
      mergeItems desc (n + 1) (a :: as) (b :: bs) =
        (if before desc b.o a.o then b :: mergeItems desc n (a :: as) bs else a :: mergeItems desc n as (b :: bs)) ∧
      mergeItems desc n as [] = as ∧ mergeItems desc n [] bs = bs))

/-! The side cores (08 R196, R197, 09 R244, 20 R480 to R483) -/

/-- The RV32IM instructions of a side core, plain and compressed (R196, R197): each goes on after its own length, branches
and jumps at their targets, with the result in rd alone; `x0` reads zero and takes no write; `fence` and `fence.i` do
nothing.  That each takes one core cycle, with its result there for the next, is the model's choice of log 11.

Loads and stores of a side core (R196): the map's faults, the lowest subcode first, precise and with no effect; else the
bytes of the data store, and behind it the argument block, little-endian; a store changes its own bytes alone. -/
def Obligations.SideCoreInstructionsCompute : Prop :=
  (∀ (s : State) (compressed : Bool) (rd rs1 rs2 sh : BitVec 5) (i12 : BitVec 12) (i20 : BitVec 20),
    let len := if compressed then 2 else 4
    let X (op : RvOp) := exec (.rv32imcBaseInstruction compressed op) s
    let A := s.xr rs1
    let B := s.xr rs2
    let I : Word := i12.signExtend 32
    let PC : Word := BitVec.ofNat 32 s.stm.pc
    let goes (op : RvOp) (v : Word) : Prop := X op = .next ((s.setX rd v).sideDone (s.stm.pc + len))
    let bit (p : Prop) [Decidable p] : Word := if p then 1 else 0
    let alu (f : BitVec 3 → RvOp) (y : Word) : Prop :=
      goes (f 0) (A + y) ∧ goes (f 1) (A <<< (y.toNat % 32)) ∧ goes (f 2) (bit (A.toInt < y.toInt)) ∧
      goes (f 3) (bit (A.toNat < y.toNat)) ∧ goes (f 4) (A ^^^ y) ∧ goes (f 5) (A >>> (y.toNat % 32)) ∧ goes (f 6) (A ||| y) ∧
      goes (f 7) (A &&& y)
    let branch (f3 : BitVec 3) (c : Prop) : Prop :=
      (c → X (.branch f3 rs1 rs2 i12) = .next (s.sideDone (PC + 2 * I).toNat)) ∧
      (¬ c → X (.branch f3 rs1 rs2 i12) = .next (s.sideDone (s.stm.pc + len)))
    (∀ v, (s.setX 0 v = s) ∧ (rd ≠ 0 → (s.setX rd v).xr rd = v) ∧ (∀ r, r ≠ rd → (s.setX rd v).xr r = s.xr r) ∧ s.xr 0 = 0 ∧
      ∃ x, s.setX rd v = s.setCore { s.core with x := x }) ∧
    goes (.lui rd i20) (i20 ++ (0 : BitVec 12)) ∧ goes (.auipc rd i20) (PC + (i20 ++ (0 : BitVec 12))) ∧
    X (.jal rd i20) = .next ((s.setX rd (PC + BitVec.ofNat 32 len)).sideDone (PC + 2 * i20.signExtend 32).toNat) ∧
    X (.jalr rd rs1 i12) = .next ((s.setX rd (PC + BitVec.ofNat 32 len)).sideDone ((A + I) &&& 0xFFFFFFFE).toNat) ∧
    branch 0 (A = B) ∧ branch 1 (A ≠ B) ∧ branch 4 (A.toInt < B.toInt) ∧ branch 5 (B.toInt ≤ A.toInt) ∧
    branch 6 (A.toNat < B.toNat) ∧ branch 7 (B.toNat ≤ A.toNat) ∧
    alu (fun f3 => .op f3 rd rs1 rs2) B ∧ alu (fun f3 => .opImm f3 rd rs1 i12) I ∧
    goes (.sub rd rs1 rs2) (A - B) ∧ goes (.sra rd rs1 rs2) (A.sshiftRight (B.toNat % 32)) ∧
    goes (.slli rd rs1 sh) (A <<< sh.toNat) ∧ goes (.srli rd rs1 sh) (A >>> sh.toNat) ∧
    goes (.srai rd rs1 sh) (A.sshiftRight sh.toNat) ∧
    goes (.mulDiv 0 rd rs1 rs2) (A * B) ∧
    goes (.mulDiv 1 rd rs1 rs2) ((A.signExtend 64 * B.signExtend 64).extractLsb' 32 32) ∧
    goes (.mulDiv 2 rd rs1 rs2) ((A.signExtend 64 * B.zeroExtend 64).extractLsb' 32 32) ∧
    goes (.mulDiv 3 rd rs1 rs2) ((A.zeroExtend 64 * B.zeroExtend 64).extractLsb' 32 32) ∧
    goes (.mulDiv 4 rd rs1 rs2) (if B = 0 then 0xFFFFFFFF else BitVec.ofInt 32 (A.toInt.tdiv B.toInt)) ∧
    goes (.mulDiv 5 rd rs1 rs2) (if B = 0 then 0xFFFFFFFF else BitVec.ofNat 32 (A.toNat / B.toNat)) ∧
    goes (.mulDiv 6 rd rs1 rs2) (if B = 0 then A else BitVec.ofInt 32 (A.toInt.tmod B.toInt)) ∧
    goes (.mulDiv 7 rd rs1 rs2) (if B = 0 then A else BitVec.ofNat 32 (A.toNat % B.toNat)) ∧
    X .fence = .next (s.sideDone (s.stm.pc + len)) ∧ X .fenceI = .next (s.sideDone (s.stm.pc + len))) ∧
  (∀ (s : State) (compressed : Bool) (rd rs1 rs2 : BitVec 5) (imm : BitVec 12),
    let len := if compressed then 2 else 4
    let X (op : RvOp) := exec (.rv32imcBaseInstruction compressed op) s
    let a := (s.xr rs1 + imm.signExtend 32).toNat
    let faults (op : RvOp) (n : Nat) (wr : Bool) (ok : Prop) : Prop :=
      let data := a + n ≤ 0x4000
      let code := 0x80000000 ≤ a ∧ a + n ≤ 0x80008000
      let args := wr = true ∧ data ∧ 0x3F00 < a + n
      (¬ data → ¬ code → X op = .next (s.trap 0x13 1 a)) ∧
      (args → X op = .next (s.trap 0x13 2 a)) ∧
      (code → X op = .next (s.trap 0x13 3 a)) ∧
      (data → ¬ args → a % n ≠ 0 → X op = .next (s.trap 0x13 4 a)) ∧
      (data → ¬ args → a % n = 0 → ok)
    let B (k : Nat) : Byte :=
      if a + k < 0x3F00 then Memory.byte (Tab.get [] s.core.dstore s.cur.eng) (a + k) else s.att.args.getD (a + k - 0x3F00) 0
    let loads (f3 : BitVec 3) (n : Nat) (v : Word) : Prop :=
      faults (.load f3 rd rs1 imm) n false (X (.load f3 rd rs1 imm) = .next ((s.setX rd v).sideDone (s.stm.pc + len)))
    let stores (f3 : BitVec 3) (n : Nat) : Prop :=
      faults (.store f3 rs1 rs2 imm) n true (∃ m : Memory,
        X (.store f3 rs1 rs2 imm) =
          .next ((s.setCore { s.core with dstore := Tab.set s.core.dstore s.cur.eng m }).sideDone (s.stm.pc + len)) ∧
        (Memory.wf (Tab.get [] s.core.dstore s.cur.eng) = true → Memory.wf m = true ∧
          (∀ k < n, Memory.byte m (a + k) = (s.xr rs2).extractLsb' (8 * k) 8) ∧
          ∀ x, x < a ∨ a + n ≤ x → Memory.byte m x = Memory.byte (Tab.get [] s.core.dstore s.cur.eng) x))
    loads 0 1 ((B 0).signExtend 32) ∧ loads 1 2 ((B 1 ++ B 0).signExtend 32) ∧ loads 2 4 (B 3 ++ B 2 ++ B 1 ++ B 0) ∧
    loads 4 1 ((B 0).zeroExtend 32) ∧ loads 5 2 ((B 1 ++ B 0).zeroExtend 32) ∧ stores 0 1 ∧ stores 1 2 ∧ stores 2 4)

/-- The queue extension and `ecall` (R176, R186, R197, R244, R480, R481, R483, R487, R494): operand blocks come from the data
store under its faults; a malformed descriptor or command traps; a full queue makes the side core wait; a post, an
arrival or a stage command is held back while descriptors are open, a stage command also behind one held before it.  One
core cycle for each instruction is the model's choice of log 11, and that `aq.stat` looks at no rs1 its reading of log 22. -/
def Obligations.SideCoreExtensionActs : Prop :=
  ∀ (s : State) (rd rs1 : BitVec 5) (tok : BitVec 4) (q : BitVec 2), (s.cur.eng = 4 ∨ s.cur.eng = 5) →
    let c := s.core
    let e := s.cur.eng
    let a := (s.xr rs1).toNat
    let next (u : State) : Host.Outcome State Fault Refusal := .next (u.sideDone (s.stm.pc + 4))
    let isOpen := Tab.get 0 c.doneN e < Tab.get 0 c.pushedN e
    let hold (x : HeldAct) : State := s.setCore { c with held := c.held ++ [⟨e, Tab.get 0 c.pushedN e, x⟩] }
    let block (i : Instr) (f : BitVec 128 → Prop) : Prop :=
      (∀ sub, sideAccess a 16 false = some sub → exec i s = .next (s.trap 0x13 sub a)) ∧
      (sideAccess a 16 false = none → f (BitVec.ofNat 128 (leNat (s.sideBytes a 16))))
    let Q := if e = 4 then c.laq else c.saq
    block (.aqPush rs1) (fun w =>
      let X := exec (.aqPush rs1) s
      (∀ sub, descBad (e == 5) w = some sub → X = .next (s.trap 0x01 sub)) ∧
      (descBad (e == 5) w = none → 64 ≤ Q.taken → X = .next (s.waits 1 (if e = 4 then 0x40 else 0x41))) ∧
      (descBad (e == 5) w = none → Q.taken < 64 →
        let d : Desc := ⟨w, (Tab.get 0 c.lqcfg (fld w.toNat 104 2)).toNat % 64⟩
        let c1 : Core := { c with pushedN := Tab.upd 0 c.pushedN e (· + 1) }
        (e = 4 → X = next (s.setCore { c1 with
          laq := c.laq.push [d], scaleOut := c.scaleOut + (if descScale w then descRows w else 0)
          scaleNew := c.scaleNew + (if descScale w then descRows w else 0) })) ∧
        (e = 5 → X = next (s.setCore { c1 with saq := c.saq.push [d] })))) ∧
    exec (.aqStat rd rs1) s = next (s.setX rd (BitVec.ofNat 32 (Q.size * 256 + (64 - Q.size)))) ∧
    (let n := (s.xr rs1).toNat % 65536
     (isOpen → exec (.tkPost tok rs1) s = next (hold (.post tok.toNat n s.stm.pc))) ∧
     (¬ isOpen → exec (.tkPost tok rs1) s = next (if n = 0 then s else s.setCore
        { c with posts := c.posts ++ [⟨e, s.stm.pc, s.stm.ncmd, tok.toNat, n, s.stm.replay⟩] })) ∧
     (let want := s.stm.latch.getD n
      let have_ := Tab.get 0 c.tk tok.toNat
      (want ≤ have_ → exec (.tkWait tok rs1) s =
        next (if want = 0 then s else s.setCore { c with tk := Tab.set c.tk tok.toNat (have_ - want) })) ∧
      (have_ < want → exec (.tkWait tok rs1) s = .next (s.setCore { c with
        streams := Tab.set c.streams e
          { s.stm with stall := BitVec.ofNat 10 (256 + (0x20 + tok.toNat)), latch := some want } })))) ∧
    exec (.cycRd rd true) s = next (s.setX rd (Tab.get 0 c.cycHi e)) ∧
    exec (.cycRd rd false) s = next ((s.setCore
      { c with cycHi := Tab.set c.cycHi e (BitVec.ofNat 32 (s.time / 2 ^ 32)) }).setX rd (BitVec.ofNat 32 s.time)) ∧
    (e = 5 → exec (.lqCfg q rs1) s = .next (s.trap 0x01 1)) ∧
    (e = 4 → exec (.lqCfg q rs1) s = next (s.setCore { c with lqcfg := Tab.set c.lqcfg q.toNat (s.xr rs1 &&& 0x3F) })) ∧
    (∀ dec : Bool, block (if dec then .stgDec rs1 else .stgIssue rs1) (fun w =>
      let X := exec (if dec then .stgDec rs1 else .stgIssue rs1) s
      let bad := if dec then decodeBad w else stageBad w
      let full := 16 ≤ c.stgq.items.length + c.stgq.popped + c.stgq.inc.length
      let behind := isOpen ∨ ∃ h ∈ c.held, h.eng = e
      (∀ sub, bad = some sub → X = .next (s.trap 0x01 sub)) ∧
      (bad = none → full → X = .next (s.waits 2 0x06)) ∧
      (bad = none → ¬ full → behind → X = next (hold (.stage (bytesOf 16 w.toNat) dec s.stm.pc))) ∧
      (bad = none → ¬ full → ¬ behind → dec = false → X = next ((s.releaseAt s.cur.cluster 4).setCore { c with
        stgq := { c.stgq with inc := c.stgq.inc ++ [⟨w, false, e, []⟩] }, scaleOut := c.scaleOut + sclEntries w, scaleNew := c.scaleNew + sclEntries w })) ∧
      (bad = none → ¬ full → ¬ behind → dec = true → (s.decodeBlock w = [] ∨ blockBad (s.decodeBlock w) = false) →
        X = next ((s.releaseAt s.cur.cluster 4).setCore { c with stgq := { c.stgq with inc := c.stgq.inc ++ [⟨w, true, e, s.decodeBlock w⟩] } })) ∧
      (bad = none → ¬ full → ¬ behind → dec = true → s.decodeBlock w ≠ [] → blockBad (s.decodeBlock w) = true →
        ∃ r, X = next (s.headFail r) ∧ r.cause = 0x02 ∧ r.sub = 0x16 ∧ r.engine = e ∧ r.pc = s.stm.pc ∧ r.qhead = true))) ∧
    (let a0 := (s.xr 10).toNat
     let at_ (m : Meet) (u : State) : State := u.setCore { u.core with
       streams := Tab.set u.core.streams e { (s.sideDone (s.stm.pc + 4)).stm with meet := m } }
     (isOpen → exec .ecall s = .next (at_ .withheld (hold (.arrive (a0 % 16) (a0 / 16 % 2 == 1))))) ∧
     (¬ isOpen → exec .ecall s = .next (at_ (.arrived s.stm.pc (a0 % 16) (a0 / 16 % 2 == 1) false) s)))

/-! Events of a running core: arming, data paths, the stage engine, the Tahr (06, 08, 13, 20) -/

/-- Arming, slips, deadlines and levels (R136 to R138, R140, R200, R306): the last core of a gang to report ready gives T0,
64 cycles after the latest report; a stream starts at its offset; a core not started at T0, or held in a halt, slips and a
core past its budget misses its deadline, each with its record and the attempt's failure; a level change takes effect at
its count.  That slips and deadlines write trap events, and that a level event is written for the first instance alone, is
the model's reading (log 40). -/
def Obligations.GangsAreArmedStartedAndStretched : Prop :=
  ∀ s : State,
    let c := s.core
    let i := s.inst
    let ready := Tab.set i.ready s.cur.core s.time
    let fails (r : TrapRec) : Host.Outcome State Fault Refusal :=
      let u := (s.trapEvent s.att r false).keepRec s.att r
      .next { u with due := u.due ++ [(s.cur, .attemptFailure s.job.att 2 0 0)] }
    (c.job.isSome = true → i.t0 = none → Tab.find i.ready s.cur.core = none →
      (ready.length ≠ s.att.gang → exec .coreReadyReport s = .next (s.setInst { i with ready := ready })) ∧
      (ready.length = s.att.gang → ∃ t0, exec .coreReadyReport s = .next (s.setInst { i with ready := ready, t0 := some t0 }) ∧
        s.time + 64 ≤ t0 ∧ (∀ x ∈ i.ready, x.2 + 64 ≤ t0) ∧ (t0 = s.time + 64 ∨ ∃ x ∈ i.ready, t0 = x.2 + 64))) ∧
    (s.stm.present = true → s.stm.started = false → s.stm.ended = false →
      (c.clk < s.stm.start → exec .streamStart s = .next s) ∧
      (s.stm.start ≤ c.clk →
        exec .streamStart s = .next (s.setStm { s.stm with started := true, free := max s.stm.free c.clk, stall := 0 }))) ∧
    (i.t0 = some s.time → c.job.isSome = true → (∀ x ∈ c.streams, x.2.started = false) →
      (s.cur.eng = 1 ∨ s.cur.eng = 2 ∧ c.halted = true) →
      ∃ r : TrapRec, exec .slipFault s = fails r ∧ r.cause = 0x19 ∧ r.sub = s.cur.eng ∧ r.qhead = false ∧
        r.site = s.cur.site ∧ r.core = s.cur.core ∧
        (∀ x ∈ c.streams, ∃ y ∈ c.streams, y.1 = r.engine ∧ y.2.pc = r.pc ∧ y.2.start ≤ x.2.start)) ∧
    (c.job.isSome = true → c.done = false → s.att.nobudget = false → i.t0.isSome = true → c.budget ≤ i.gclk →
      ∃ r : TrapRec, exec .deadlineFault s = fails r ∧ r.cause = 0x18 ∧ r.sub = 0 ∧ r.engine = 0 ∧
        r.pc = (Tab.get Stream.absent c.streams 0).pc) ∧
    (i.gclk < c.budget → exec .deadlineFault s = .next s) ∧
    (∀ at_ lvl, ((s.attempt s.cur.site).insts.getD s.cur.core Inst.empty).change = some (at_, lvl) →
      let t := s.attempt s.cur.site
      let x := t.insts.getD s.cur.core Inst.empty
      let u := s.setAttempt s.cur.site { t with insts := t.insts.set s.cur.core { x with level := lvl, change := none } }
      (s.time < at_ → exec .stretchLevelApply s = .next s) ∧
      (at_ ≤ s.time → s.cur.core = 0 →
        exec .stretchLevelApply s = .next (u.frontEvent t.part 0x07 (s.graphOf t).gid lvl t.key)) ∧
      (at_ ≤ s.time → s.cur.core ≠ 0 → exec .stretchLevelApply s = .next u))

/-- The loader and storer data paths (R198, R199, R304, R482, R484, R485; 09 R206, R207): the head descriptor of a queue
waits behind its own fault and for room or rows, else issues: the loader's rows as its cluster's L1 sees them, or a lent
extent's at its home; a row that arrives enters its queue; a storer's rows are written whole there, the last of
overlapping ones remaining, and no other byte takes a new value.  A decode-on descriptor's rows are widened from the
buffer's format, or taken from its zero-suppressed tile once that passes the checks of R465 (R222, R484); that the rows of
a descriptor, whole rows of a decode-on one too, are read or written in one event is the model's reading (log 61).  Rows
that have to wait for lent lines wait at their homes together.

A side core's oldest held-back item (R244) stays until its earlier descriptors have performed, and then posts its
token, arrives at its rendezvous, or enters the stage queue where that has room. -/
def Obligations.DataPathsMoveRowsInOrder : Prop :=
  (∀ s : State, s.core.job.isSome = true → s.core.frozen = false → (∀ k, Memory.wf (s.buf k).mem = true) →
    let c := s.core
    let waits (eng : Nat) : Prop :=
      ∃ i ∈ Tab.get [] s.tahr s.cur.cluster, i.core = s.cur.id ∧ i.rec_.qhead = true ∧ i.rec_.engine = eng
    (waits 4 → exec .loaderDescriptorIssue s = .next s) ∧ (waits 5 → exec .storerDescriptorIssue s = .next s) ∧
    (∀ d rest, c.laq.items = d :: rest → ¬ waits 4 →
      let n := descRows d.w
      let at_ (r : Nat) : Int := d.off + r * d.stride
      let bytes := if descScale d.w then 512 else 256
      let room := if descScale d.w then decide (c.scaleQ.size + c.onWay true 0 + n ≤ 32)
        else decide ((Tab.get Fifo.empty c.lq d.q).size + c.onWay false d.q + n ≤ 16)
      let coming (row : Nat → AccRow) : Prop := ∃ t, exec .loaderDescriptorIssue s = .next t ∧
        t.core = { c with
          laq := { c.laq with items := rest }
          lflight := c.lflight ++ (List.range n).map fun r => ⟨descScale d.w, d.q, row r, decide (r + 1 = n)⟩ } ∧
        s.KeepsBytes t s.cur.cluster fun _ _ => False
      (∀ f, s.loaderRows d = .error f → exec .loaderDescriptorIssue s = .next (s.headFaulted 4 d.w f false)) ∧
      (∀ x : Nat → Access, (descScale d.w = true ∨ d.dec = false) →
        (∀ r < n, s.pathCheck false d.slot (at_ r) bytes false = .ok (x r)) →
        (room = false → exec .loaderDescriptorIssue s = .next s) ∧
        (room = true → coming fun r => BitVec.ofNat 4096 (leNat (s.seenAt false (x r) bytes)))) ∧
      (∀ (x : Nat → Access) (u : Buffer), descScale d.w = false → d.dec = true → s.slotBuf d.slot = some u →
        attrZs u.attr.toNat = false →
        let idx := if attrFmt u.attr.toNat = 0 then d.fmt else attrFmt u.attr.toNat
        let f := s.desc idx
        let w := if descSlot f = 0 then 32 else descSlot f
        d.formatBad u.attr.toNat idx f = false → (∀ r < n, s.pathCheck false d.slot (at_ r) (8 * w) false = .ok (x r)) → room = true →
        coming fun r =>
          (rowOf ((List.range 64).map fun l => widenWord f (packedAt (s.seenAt false (x r) (8 * w)) w l))).setWidth 4096) ∧
      (∀ (x y : Access) (u : Buffer), descScale d.w = false → d.dec = true → s.slotBuf d.slot = some u → attrZs u.attr.toNat = true →
        let idx := if attrFmt u.attr.toNat = 0 then d.fmt else attrFmt u.attr.toNat
        let f := s.desc idx
        let len := leNat (((s.seenAt false x 128).drop 4).take 4)
        let sane : Prop := len % 128 = 0 ∧ 128 ≤ len ∧ len ≤ 128 * zsSectors 4 16384
        let first := fld d.w.toNat 64 8
        s.pathCheck false d.slot d.off 128 false = .ok x → (sane → s.pathCheck false d.slot d.off len false = .ok y) →
        (d.formatBad u.attr.toNat idx f = true →
          exec .loaderDescriptorIssue s = .next (s.headFaulted 4 d.w (.trap 0x09 0 0 none) false)) ∧
        (d.formatBad u.attr.toNat idx f = false →
          (¬ sane ∨ zsDecode idx (descSlot f / 8) (s.seenAt false y len) = none →
            exec .loaderDescriptorIssue s = .next (s.headFaulted 4 d.w (.trap 0x0A 6 0 none) false)) ∧
          (∀ codes, sane → zsDecode idx (descSlot f / 8) (s.seenAt false y len) = some codes →
            (room = false → exec .loaderDescriptorIssue s = .next s) ∧
            (room = true → coming fun r =>
              let at_ := 128 * ((first + r) / 2) + 64 * ((first + r) % 2)
              (rowOf (((codes.drop at_).take 64).map (widenWord f))).setWidth 4096))))) ∧
    (∀ b off k, s.seenAt false (.buf b off) k =
      if s.cached b then (List.range k).map fun i => s.seen1 s.cur.cluster b (off + i) else (s.buf b).mem.bytes off k) ∧
    (∀ x rest, c.lflight = x :: rest → ∃ e, exec .lqRowArrival s = .next (s.setCore e) ∧ e.lflight = rest ∧
      (x.scale = false → (Tab.get Fifo.empty e.lq x.q).items = (Tab.get Fifo.empty c.lq x.q).items ++ [x.row.setWidth 2048] ∧
        (∀ q, q ≠ x.q → Tab.get Fifo.empty e.lq q = Tab.get Fifo.empty c.lq q) ∧ e.scaleQ = c.scaleQ ∧ e.scaleOut = c.scaleOut) ∧
      (x.scale = true → e.scaleQ = { c.scaleQ with items := c.scaleQ.items ++ [x.row] } ∧ e.scaleOut = c.scaleOut - 1 ∧ e.lq = c.lq) ∧
      Tab.get 0 e.doneN 4 = Tab.get 0 c.doneN 4 + (if x.last then 1 else 0) ∧
      e = { c with lflight := e.lflight, lq := e.lq, scaleQ := e.scaleQ, scaleOut := e.scaleOut, doneN := e.doneN }) ∧
    (∀ d rest, c.saq.items = d :: rest → ¬ waits 5 →
      let n := descRows d.w
      let q := Tab.get Fifo.empty c.sq d.q
      let checked (b off : Nat → Nat) : Prop := ∀ r < n, s.pathCheck false d.slot (d.off + r * d.stride) 256 true = .ok (.buf (b r) (off r))
      (∀ f, s.pathCheck false d.slot (d.off + (0 : Nat) * d.stride) 256 true = .error f → (∀ sp, f ≠ .wait sp) →
        exec .storerDescriptorIssue s = .next (s.headFaulted 5 d.w f true)) ∧
      (∀ sp, s.pathCheck false d.slot (d.off + (0 : Nat) * d.stride) 256 true = .error (.wait sp) →
        exec .storerDescriptorIssue s = .next (s.waitHome { s.cur with eng := 5 } true (s.rowSpans d n 256 true))) ∧
      (∀ b off, checked b off → q.items.length < n → exec .storerDescriptorIssue s = .next s) ∧
      (∀ b off, checked b off → n ≤ q.items.length → (∀ r < n, (Tab.find s.bufs (b r)).isSome = true ∧ off r + 256 ≤ 2 ^ 48) →
        ∃ t, exec .storerDescriptorIssue s = .next t ∧
          t.core = { c with
            saq := { c.saq with items := rest }
            sq := Tab.set c.sq d.q { q with items := q.items.drop n }
            doneN := Tab.upd 0 c.doneN 5 (· + 1) } ∧
          (∀ r < n, ∀ k < 256, (∀ r' < n, r < r' → b r' = b r → off r + k < off r' ∨ off r' + 256 ≤ off r + k) →
            (if s.cached (b r) then t.seen1 s.cur.cluster (b r) (off r + k) else Memory.byte (t.buf (b r)).mem (off r + k)) =
              BitVec.ofNat 8 ((q.items.getD r 0).toNat / 256 ^ k)) ∧
          s.KeepsBytes t s.cur.cluster fun e o => ∃ r < n, bytesFrom (b r) (off r) 256 e o))) ∧
  (∀ (s : State) (h : Held), s.core.job.isSome = true → s.core.frozen = false →
    s.core.held.find? (fun x => x.eng == s.cur.eng) = some h →
    let c := s.core
    let freed (u : State) : Host.Outcome State Fault Refusal := .next (u.setCore { u.core with held := u.core.held.erase h })
    (Tab.get 0 c.doneN h.eng < h.after → exec .sideCoreHeldRelease s = .next s) ∧
    (h.after ≤ Tab.get 0 c.doneN h.eng →
      (∀ tok n pc, h.act = .post tok n pc → n ≠ 0 → exec .sideCoreHeldRelease s =
        freed (s.setCore { c with posts := c.posts ++ [⟨h.eng, pc, 0, tok, n, none⟩] })) ∧
      (∀ num fin, h.act = .arrive num fin → exec .sideCoreHeldRelease s =
        freed (s.setStm { s.stm with meet := .arrived (s.stm.pc - 4) num fin false })) ∧
      (∀ cmd dec pc, h.act = .stage cmd dec pc →
        let w := BitVec.ofNat 128 (leNat cmd)
        let full := decide (16 ≤ c.stgq.items.length + c.stgq.popped + c.stgq.inc.length)
        (full = true → exec .sideCoreHeldRelease s = .next s) ∧
        (full = false → dec = false → exec .sideCoreHeldRelease s = freed (s.pushStage ⟨w, false, s.cur.eng, []⟩)) ∧
        (full = false → dec = true → (s.decodeBlock w = [] ∨ blockBad (s.decodeBlock w) = false) →
          exec .sideCoreHeldRelease s = freed (s.pushStage ⟨w, true, s.cur.eng, s.decodeBlock w⟩)))))

/-- The Tahr (R294, R299, R300, R304, R305): a trap that nothing resolves fails its attempt with cause 1; a breakpoint or
watchpoint of an attached debugger halts its core; a translation fault is taken, and once its chunk is mapped its core
runs on, or its attempt fails where no site has room.  A trap is taken once its cycle is over, so that the order of R299 is
that of all the traps of the cycle. -/
def Obligations.TheTahrTakesTrapsInOrder : Prop :=
  ∀ (s : State) (i : TahrItem) (rest : List TahrItem), s.tahrQ = i :: rest →
    let a := coreAt i.core
    let f : State := { s with cur := a }
    let back (u : State) : Host.Outcome State Fault Refusal := .next { u with cur := s.cur }
    let all := if i.rec_.qhead then [i.rec_] else f.core.traps
    (s.time ≤ i.rec_.time → exec .tahrTakeTrap s = .next s) ∧
    (i.taken = false → i.rec_.time < s.time → f.core.job = none → exec .tahrTakeTrap s = .next (s.setTahrQ rest)) ∧
    (i.taken = false → i.rec_.time < s.time → f.core.job.isSome = true →
      (∀ r, all.find? (fun r => !s.resolvable f.att r) = some r →
        exec .tahrTakeTrap s =
          let u := (State.trapEvent { s.setTahrQ (rest.filter fun x => x.core ≠ i.core) with cur := a } f.att r false).keepRec f.att r
          back { u with due := u.due ++ [(a, .attemptFailure f.job.att 1 (r.cause * 256 + r.sub) r.engine)] }) ∧
      ((∀ r ∈ all, s.resolvable f.att r = true) → i.rec_.debug = false →
        exec .tahrTakeTrap s = .next (s.setTahrQ ({ i with taken := true } :: rest))) ∧
      ((∀ r ∈ all, s.resolvable f.att r = true) → i.rec_.debug = true →
        exec .tahrTakeTrap s = back ((State.debugStop { s.setTahrQ rest with cur := a } i.rec_ true).settleTrap i.rec_))) ∧
    (i.taken = false → exec .trapResolved s = .next s) ∧
    (i.taken = true → ∀ b k, i.rec_.chunk = some (b, k) →
      (∀ u, (s.setTahrQ rest).mapChunk b k = some u →
        exec .trapResolved s = back (State.settleTrap { u with cur := a } i.rec_) ∧
        (Tab.find (u.buf b).chunks k).isSome = true ∧
        (i.rec_.qhead = false → f.core.halted = false → f.core.traps = [i.rec_] → ∀ t, exec .trapResolved s = .next t →
          (Tab.get Core.idle t.cores a.id).frozen = false)) ∧
      ((s.setTahrQ rest).mapChunk b k = none → exec .trapResolved s =
        back (State.failTrap { s.setTahrQ rest with cur := a } { i.rec_ with sub := 2 })))

/-- The acts of a transfer (R489, R491 to R494, R291, R292; 09 R206, 10 R242, 01 R33): a granule of a LOAD enters the
window and one of a STORE is written at its home; a row of a QNT is quantised; a HASH leaves its root; an SCL entry enters
the scale queue; a decoded segment is written whole.  Reads give what the chiplet's L2 sees, and each act moves the
transfer on by what it did.  A peer's bytes are asked for once, on a port that carries traffic; its answer is what is
read, its refusal fails the node; a port that trains again keeps the request back.  A LOAD sets the tags of the blocks it
writes from ATTR (R213), a QNT those of R491, beside its codes and scale words.  DEDUCED (log 61): the acts, a granule up to
the end of a 128-byte sector, a row of a QNT, an entry of an SCL, a quarter of a decoded tile, the whole of a HASH; DESIGN CHOICE
(log 74): a transfer's granules in ascending order.

A transfer whose last byte has performed (R189, R242, R491) posts its token once, with a QNT's sticky flags and its
event, and leaves the site's list, and the lines of a destination in memory leave the core's L1 and L2; a token at its maximum faults instead; one that has not performed stays. -/
def Obligations.StageTransfersMoveTheirBytes : Prop :=
  (∀ (s : State) (k : Nat) (x : Xfer), s.cur.eng = k + 1 → s.xfers[k]? = some x → x.core = s.cur.core → s.cur.core < 128 →
    x.doneB < x.cmd.total → s.xferWaits x = false → x.got = [] → s.job.inst < s.att.insts.length →
    Memory.wf s.inst.sram = true → (∀ b, Memory.wf (s.buf b).mem = true) →
    let c := s.core
    let q := x.cmd
    let n := min (128 - (q.window + x.doneB) % 128) (q.len - x.doneB)
    let at_ := q.maddr + x.doneB
    let site := s.cur.site
    let fault (f : HeadFault) (wr : Bool) (bs : Option (List Byte)) : Host.Outcome State Fault Refusal := .next (s.xferFault k x f wr bs)
    let on (t : State) (d : Nat) : Prop := ∃ y : Xfer, t.xfers = s.xfers.set k y ∧ y.doneB = x.doneB + d ∧ y.wait = false ∧
      y.asked = none ∧ y.got = [] ∧ y.cmd = q ∧ y.core = x.core ∧ y.att = x.att ∧ y.inst = x.inst ∧ y.buf = x.buf
    let keeps (t : State) : Prop := s.KeepsBytes t s.cur.cluster fun _ _ => False
    let seen (b a : Nat) : Byte := if s.cached b then s.seen2 site b a else Memory.byte (s.buf b).mem a
    let writes (t : State) (b off m : Nat) (v : Nat → Byte) : Prop := t.core.SameRegs s.core ∧ t.inst.sram = s.inst.sram ∧
      t.homeq = s.homeq ∧ (∀ j < m, Memory.byte (t.buf b).mem (off + j) = v j ∧ t.seen2 site b (off + j) = v j) ∧
      s.KeepsBytes t s.cur.cluster (bytesFrom b off m)
    let quiet := ∀ p a, x.asked = some (p, a) → s.reply (some a) = none
    let tagged (t : State) (h : Nat → BitVec 16 → BitVec 16) : Prop := ∀ blk, Tab.get 0 t.inst.tags blk = h blk (Tab.get 0 s.inst.tags blk)
    let loaded (t : State) : Prop := tagged t fun blk old =>
      if (q.window + x.doneB) / 4096 ≤ blk ∧ blk ≤ (q.window + x.doneB + n - 1) / 4096 then
        match s.slotBuf (slotOf q.maddr) with
        | some u => 1#1 ++ 0#2 ++ u.attr.extractLsb' 12 1 ++ u.attr.extractLsb' 11 1 ++ u.attr.extractLsb' 10 1 ++
            u.attr.extractLsb' 8 2 ++ 0#2 ++ u.attr.extractLsb' 2 6
        | none => old &&& 0x7FFF
      else old
    (q.op = 0 →
      (quiet → ∀ f, s.sourceRead x at_ n = .error f → exec .stageLoad s = fault f false none) ∧
      (quiet → ∀ b off, s.sourceCheck at_ n = .ok (.buf b off) → ∃ t, exec .stageLoad s = .next t ∧ on t n ∧ t.core = s.core ∧
        keeps t ∧ loaded t ∧ (∀ j < n, Memory.byte t.inst.sram (q.window + x.doneB + j) = seen b (off + j)) ∧
        (∀ a, a < q.window + x.doneB ∨ q.window + x.doneB + n ≤ a → Memory.byte t.inst.sram a = Memory.byte s.inst.sram a)) ∧
      (quiet → ∀ p a b off m, s.sourceCheck at_ n = .error (.peer p a b off m) →
        (x.asked.isSome = true → exec .stageLoad s = .next s) ∧
        (x.asked = none → (s.port p).state = 0 → exec .stageLoad s = .next (s.peerFails p 6)) ∧
        (x.asked = none → (s.port p).state ≠ 0 → ¬ ((s.port p).state = 2 ∨ (s.port p).state = 3) → exec .stageLoad s = .next s) ∧
        (x.asked = none → (s.port p).state = 2 ∨ (s.port p).state = 3 → exec .stageLoad s =
          .next ((s.setXfer k { x with asked := some (p, at_) }).send (.peerRead p b (offOf at_) n)))) ∧
      (∀ p a, x.asked = some (p, a) → s.reply (some a) = some none → exec .stageLoad s =
        .next (((s.tookReply (some a)).setXfer k { x with asked := none }).peerFails p 6)) ∧
      (∀ p bs, x.asked = some (p, at_) → s.reply (some at_) = some (some bs) → ∃ t, exec .stageLoad s = .next t ∧ on t n ∧
        loaded t ∧ ∀ j < n, Memory.byte t.inst.sram (q.window + x.doneB + j) = bs.getD j 0)) ∧
    (q.op = 1 → quiet →
      let p := s.pathCheck true (slotOf at_) (offOf at_ : Nat) n true
      let bs := s.inst.sram.bytes (q.window + x.doneB) n
      (∀ f, (∀ sp, f ≠ .wait sp) → p = .error f → exec .stageStore s = fault f true (some bs)) ∧
      (∀ b o m, p = .error (.wait [(b, o, m)]) → ∃ t, exec .stageStore s = .next t ∧ on t n ∧ keeps t ∧
        t.homeq = s.homeq ++ [.devWrite b o bs false (some s.job.att)]) ∧
      (∀ b off, p = .ok (.buf b off) → s.homeBusy b off n true = false → ∃ t, exec .stageStore s = .next t ∧ on t n ∧
        writes t b off n fun j => Memory.byte s.inst.sram (q.window + x.doneB + j))) ∧
    (q.op = 2 → quiet →
      let d := s.desc q.fmt
      (∀ f, s.sourceRead x at_ 512 = .error f → exec .stageQnt s = fault f false none) ∧
      (∀ y, s.sourceCheck at_ 512 = .ok y → ∃ t, exec .stageQnt s = .next t ∧ on t 512 ∧ t.core = s.core ∧ keeps t ∧
        let line := quantLine d ((List.range 128).map fun j => ofFp32 (BitVec.ofNat 32 (numAt (s.seenAt true y 512) (4 * j) 4)))
        let row := x.doneB / 512
        let rows := q.len / 512
        let area := q.window + (rows * (16 * descSlot d) + 63) / 64 * 64
        let code := q.window + 16 * descSlot d * row
        row < rows →
          (∀ j < 16 * descSlot d, Memory.byte t.inst.sram (code + j) = (packBits (descSlot d) line.1).getD j 0) ∧
          (∀ h < line.2.1.length, ∀ j < 4, Memory.byte t.inst.sram (area + 4 * (h * rows + row) + j) =
            BitVec.ofNat 8 (line.2.1.getD h 0 / 256 ^ j)) ∧
          tagged t fun blk old =>
            if (∃ h < line.2.1.length, ∃ j < 4, (area + 4 * (h * rows + row) + j) / 4096 = blk) then 0x800A
            else if ∃ j < 16 * descSlot d, (code + j) / 4096 = blk then
              (if blk = area / 4096 then 0x800A else BitVec.ofNat 16 (0x8100 + q.fmt))
            else old)) ∧
    (q.op = 3 → quiet → ∀ b off, s.access q.maddr 0 0 true false false = .buf b off → (s.buf b).peer = none →
      (s.buf b).badAt off q.len = false → s.lostAt b off q.len = false → s.homeTurn (· == { s.cur with eng := 6 }) false [(b, off, q.len)] = true →
      ∃ t, exec .stageHash s = .next t ∧ on t q.len ∧ t.core = s.core ∧ keeps t ∧
        (∀ j < 64, Memory.byte t.inst.sram (q.window + j) =
          (treeRoot (fun o m => (s.buf b).mem.bytes (off + o) m) q.len).getD j 0) ∧
        (∀ a, a < q.window ∨ q.window + 64 ≤ a → Memory.byte t.inst.sram a = Memory.byte s.inst.sram a) ∧
        tagged t fun blk old => if blk = q.window / 4096 then old &&& 0x7FFF else old) ∧
    (q.op = 4 → quiet → c.job.isSome = true → c.frozen = false →
      (32 ≤ c.scaleQ.size + c.onWay true 0 → exec .stageScl s = .next s) ∧
      (c.scaleQ.size + c.onWay true 0 < 32 →
        (∀ f, s.sourceRead x at_ 512 = .error f → exec .stageScl s = fault f false none) ∧
        (∀ y, s.sourceCheck at_ 512 = .ok y → ∃ t, exec .stageScl s = .next t ∧ on t 512 ∧ keeps t ∧
          t.inst.sram = s.inst.sram ∧
          t.core = { c with
            scaleQ := { c.scaleQ with items := c.scaleQ.items ++ [BitVec.ofNat 4096 (leNat (s.seenAt true y 512))] }
            scaleOut := c.scaleOut - 1 }))) ∧
    (q.op = 5 → quiet →
      (∀ f, s.stageTile x (x.doneB / 4) = .error f → exec .stageDecode s = fault f false none) ∧
      (∀ tile reads b off, s.stageTile x (x.doneB / 4) = .ok (tile, reads) → tile.length = 4096 →
        (s.fillReads reads).pathCheck true (slotOf (q.maddr + 1024 * x.doneB)) (offOf (q.maddr + 1024 * x.doneB) : Nat) 1024 true =
          .ok (.buf b off) → (s.fillReads reads).homeBusy b off 1024 true = false →
        ∃ t, exec .stageDecode s = .next t ∧ on t 1 ∧
          writes t b off 1024 fun j => tile.getD (1024 * (x.doneB % 4) + j) 0))) ∧
  (∀ (s : State) (k : Nat) (x : Xfer), s.cur.eng = k + 1 → s.xfers[k]? = some x → x.core = s.cur.core →
    s.core.job.isSome = true → s.core.frozen = false → (∀ b, Memory.wf (s.buf b).mem = true) →
    let c := s.core
    let t := x.cmd.token
    (s.xferDone x = false → exec .stageTransferComplete s = .next s) ∧
    (s.xferDone x = true → Tab.get 0 c.tk t = 0xFFFF →
      exec .stageTransferComplete s = .next (s.headTrap 0x0D t 6 (bytesOf 16 x.cmd.w.toNat) 0 none)) ∧
    (s.xferDone x = true → Tab.get 0 c.tk t ≠ 0xFFFF → ∃ u, exec .stageTransferComplete s = .next u ∧
      (∃ v : Word, u.core = { c with tk := Tab.set c.tk t (Tab.get 0 c.tk t + 1), vstat := v } ∧
        ∀ j < 32, v.getLsbD j = (c.vstat.getLsbD j || j == 1 && x.sat || j == 2 && x.nan)) ∧
      u.xfers = s.xfers.eraseIdx k ∧
      u.evq = s.evq ++ [⟨s.att.part, 6, 0x21, s.cur.site, 0, s.time, x.cmd.evArgs.1, x.cmd.evArgs.2, s.att.key, []⟩] ∧
      s.KeepsBytes u s.cur.cluster (fun _ _ => False) ∧ u.inst.sram = s.inst.sram ∧
      (x.cmd.op = 1 ∨ x.cmd.op = 5 → ∀ b, s.slotBind (slotOf x.cmd.maddr) = some b → ∀ key, keyBuf key = b →
        u.line1 s.cur.cluster key = none ∧ u.line2 (s.cur.cluster / 32) key = none)))

/-- Sampling, counters and reuse registers (R313, R314, R321, R324): a captured record takes the class and object
of its stream in the cycle that ends and is due to enter the sample ring; a flush adds every core's counts to its
partition's totals and empties them; a reuse register that reaches 2^20 lookups adds to bucket 15 and is freed; a write of PROF_CTL takes its
fields and CLR zeroes the counters (R312); a ring is set up only while it is off (R315), and no record that still waits at its
home shows in the new ring (R316).  DEDUCED (log 52): a sample shows the class at the end of its cycle.  The registers of a VF that does not take
accesses to its BAR stay as they are (02 R48, R56). -/
def Obligations.ProfilerRecordsCountsAndSetsUp : Prop :=
  ∀ s : State,
    let c := s.core
    let f := s.vf s.cur.site
    let p := s.partn f.part
    let stall (eng : Nat) : Nat :=
      if c.halted && !c.step then 0x3F3 else if c.frozen then 0x3F2 else (Tab.get Stream.absent c.streams eng).stall.toNat
    let whole (r : List Byte) : List Byte :=
      let w := stall (r.getD 0x16 0).toNat
      r.take 0x17 ++ [BitVec.ofNat 8 (w / 256), BitVec.ofNat 8 w] ++ r.drop 0x19
    let x := s.site s.cur.site
    let flushed := s.running.foldl (fun u a => (u.coresOf a).foldl (fun u id => u.flushCore (u.attempt a).part id) u) s
    (c.samp ≠ [] → s.raiseSamples = { s.setCore { c with samp := c.samp.map whole } with due := s.due ++ [(s.cur, .pcSample)] }) ∧
    exec .pcSample s = .next (c.samp.foldl (fun u r => u.samplePut u.att.part r) (s.setCore { c with samp := [] })) ∧
    exec .counterFlush s = .next flushed ∧
    (∀ p id k, Tab.get 0 ((s.flushCore p id).partn p).counters k =
      (((Tab.get Core.idle s.cores id).counters.filter fun y => y.1 = k).map fun y => BitVec.ofNat 64 y.2).foldl (· + ·)
        (Tab.get 0 (s.partn p).counters k) ∧
      (Tab.get Core.idle (s.flushCore p id).cores id).counters = []) ∧
    (∀ r, Tab.find x.tags s.cur.core = some r →
      (r.d < 2 ^ 20 → exec .reuseRegisterExpiry s = .next s) ∧
      (2 ^ 20 ≤ r.d → ∃ t, exec .reuseRegisterExpiry s = .next t ∧ (t.site s.cur.site).tags = Tab.erase x.tags s.cur.core ∧
        Tab.get 0 (t.attempt r.att).hist 15 = min (Tab.get 0 (s.attempt r.att).hist 15 + 1) 0xFFFFFFFF ∧
        (∀ k, k ≠ 15 → Tab.get 0 (t.attempt r.att).hist k = Tab.get 0 (s.attempt r.att).hist k) ∧
        t.cores = s.cores ∧ s.SameMemory t)) ∧
    (s.vfTakes s.cur.site = false → ∀ ring off v, exec (.profCtlWrite v) s = .next s ∧ exec .profCtlClr s = .next s ∧
      exec (.ringConfigWrite ring off v) s = .next s) ∧
    (f.valid = true → s.vfTakes s.cur.site = true →
      let cleared (q : Partition) : Partition :=
        { q with counters := [], sring := { q.sring with drop := 0 }, ering := { q.ering with drop := 0 } }
      (∀ v, ∃ w : Word,
        exec (.profCtlWrite v) s = .next (s.setPart f.part
          (if v.testBit 31 then cleared { p with prof := w, owner := some s.cur.site }
           else { p with prof := w, owner := some s.cur.site })) ∧
        (∀ k < 3, w.getLsbD k = v.testBit k) ∧ (w.extractLsb' 8 9).toNat = v / 2 ^ 8 % 2 ^ 9 ∧
        (w.extractLsb' 20 4).toNat = (if v / 2 ^ 20 % 16 = 15 then (p.prof.extractLsb' 20 4).toNat else v / 2 ^ 20 % 16) ∧
        (w.extractLsb' 24 5).toNat = v / 2 ^ 24 % 32 ∧ w.extractLsb' 3 5 = 0 ∧ w.extractLsb' 17 3 = 0 ∧ w.extractLsb' 29 3 = 0) ∧
      exec .profCtlClr s = .next (s.setPart f.part (cleared p)) ∧
      (∀ (v : Nat) (ring : Bool),
        let on := p.prof.getLsbD (if ring then 1 else 0)
        let old := if ring then p.ering else p.sring
        let set (off : Nat) (r : Ring) : Prop := exec (.ringConfigWrite (if ring then 1 else 0) off v) s =
          .next (s.setPart f.part (if ring then { p with ering := r } else { p with sring := r }))
        (on = true → ∀ off, exec (.ringConfigWrite (if ring then 1 else 0) off v) s = .next s) ∧
        (on = false → set 0 { old with base := v % 2 ^ 64 / 64 * 64, loc := v.testBit 0, widx := 0, ridx := 0, pend := 0, gen := old.gen + 1 } ∧
          (8 ≤ v % 32 → v % 32 ≤ 20 → set 8 { old with log2 := v % 32, widx := 0, ridx := 0, pend := 0, gen := old.gen + 1 }))))

/-- The debugger (R326 to R331, R334): attaching and the partition's permission; the results of the five commands;
HALT, RESUME and STEP of a core, READ and WRITE of its state items, by a VF that takes accesses to its BAR (02 R48, R56); a stop for a write of another agent that hit a
watchpoint, and none of a core whose job has ended or stopped at a yield (13 R310), which no command reaches either.  DEDUCED
(log 33): the order of the results 5, 1, 2, 3 and 4, the 0 of a HALT of a halted core, and that detaching by ATTACH resumes the
halted cores at once.

What a debug READ of each class of item gives, and that a WRITE of an item is what a READ of it then gives (R330). -/
def Obligations.DebuggerCommandsActOnHaltedCores : Prop :=
  (∀ (s : State), let f := s.vf s.cur.site
    let p := f.part
    let q := s.partn p
    (s.vfTakes s.cur.site = false → ∀ v, ∀ i ∈ [Instr.debugAttachWrite v, .debugHalt, .debugResume, .debugStep, .debugRead, .debugWrite],
      exec i s = .next s) ∧
    ((s.link 0).trained = true → s.pkg.phase = 3 → ∀ v, let k := s.pkg.psel
      let u := s.setPart k { s.partn k with dbgen := v.testBit 0 }
      exec (.pDbgenWrite v) s = .next (if (s.partn k).attach && v.testBit 0 then u else u.resumeAll k)) ∧
    (f.valid = true → s.vfTakes s.cur.site = true →
    (∀ v, let a := v.testBit 0
      let u := s.setPart p { q with attach := a, nobudget := v.testBit 1, nstop := if a && !q.attach then 0 else q.nstop }
      exec (.debugAttachWrite v) s = .next (if a && q.dbgen then u else u.resumeAll p)) ∧
    (∀ id c, Tab.find s.cores id = some c →
      (∀ j, c.job = some j → (s.attempt j.att).part = p → c.halted = true →
        ∃ d, Tab.find (s.resumeAll p).cores id = some d ∧ d = { c with halted := false, step := false, frozen := !c.traps.isEmpty }) ∧
      ((c.halted = false ∨ c.job = none) → Tab.find (s.resumeAll p).cores id = some c)) ∧
    (s.dbgBusy p = true → ∀ i ∈ [Instr.debugHalt, .debugResume, .debugStep, .debugRead, .debugWrite], exec i s = .next s) ∧
    (s.dbgBusy p = false → let w := s.cur.core
     let id := fld w 24 8 * 128 + fld w 16 8
     let u : State := { s with cur := ⟨fld w 24 8, fld w 16 8, 0⟩ }
     let item := fld w 32 32
     let c := Tab.get Core.idle s.cores id
     let gone := c.done = true ∧ c.live ≠ []
     let ok := s.attached p = true ∧ (∃ j, c.job = some j ∧ (s.attempt j.att).part = p) ∧ ¬ gone
     let on (t : State) (d : Core) : Prop := t.cores = Tab.set s.cores id d
     let gives (i : Instr) (res : Nat) (P : State → Prop) : Prop :=
        ∃ t, exec i s = .next t ∧ (t.partn p).dbgres = res ∧ t.cur = s.cur ∧ P t
     let same (t : State) : Prop := t.cores = s.cores ∧ s.SameMemory t
     (∀ i ∈ [Instr.debugHalt, .debugResume, .debugStep, .debugRead, .debugWrite],
       (s.attached p = false → gives i 5 same) ∧
       (s.attached p = true → c.job = none ∨ (∃ j, c.job = some j ∧ (s.attempt j.att).part ≠ p) ∨ gone → gives i 1 same) ∧
       (i ≠ .debugHalt → ok → c.halted = false → gives i 2 same)) ∧
     (ok → c.halted = true → gives .debugHalt 0 same) ∧
     (ok → c.halted = false → gives .debugHalt 0 fun t => on t { c with frozen := true, halted := true, step := false } ∧
       (t.partn p).nstop = q.nstop + 1) ∧
     (ok → c.halted = true →
       gives .debugResume 0 (fun t => on t { c with halted := false, step := false, frozen := !c.traps.isEmpty } ∧ s.SameMemory t) ∧
       gives .debugStep 0 (fun t => on t { c with step := true } ∧ s.SameMemory t) ∧
       ((∀ v, u.readItem item = some v →
           gives .debugRead 0 fun t => (t.partn p).dbgdata = BitVec.ofNat 64 v ∧ same t) ∧
         (u.readItem item = none → gives .debugRead 4 same) ∧
         (u.att.meas.isSome = true → gives .debugWrite 3 same) ∧
         (u.att.meas = none → c.writeItem item q.dbgdata.toNat = none → gives .debugWrite 4 same) ∧
         (u.att.meas = none → ∀ d, c.writeItem item q.dbgdata.toNat = some d →
           gives .debugWrite 0 fun t => on t d ∧ s.SameMemory t)))) ∧
    (∀ h rest, s.core.hits = h :: rest →
      let c := s.core
      let t := Tab.get Stream.absent c.streams 0
      let u := s.setCore { c with hits := rest }
      let stops := c.job.isSome = true ∧ c.done = false ∧ t.ended = false ∧ s.attached s.att.part = true
      (¬ stops → exec .watchpointImpreciseStop s = .next u) ∧
      let stands := c.frozen = true ∧ ¬ (c.halted = true ∧ c.step = true ∧ c.traps = [])
      (stops → stands → exec .watchpointImpreciseStop s = .next s) ∧
      (stops → ¬ stands → ∃ r : TrapRec, exec .watchpointImpreciseStop s = .next (u.debugStop r false) ∧
        r.cause = 0x17 ∧ r.sub = h.num ∧ r.engine = h.eng ∧ r.prec = false ∧ r.pc = t.pc ∧ r.addr = h.addr)))) ∧
  (∀ (s : State) (n v : Nat), n < 2 ^ 28 →
    let c := s.core
    let item (k : Nat) : Nat := k * 2 ^ 28 + n
    let back (k w : Nat) : Prop := ∀ d, c.writeItem (item k) v = some d → (s.setCore d).readItem (item k) = some (v % 2 ^ w)
    (n < 64 → s.readItem (item 0) = some (s.sreg (BitVec.ofNat 6 n)).toNat) ∧
    (n < 8 → s.readItem (item 1) = some (s.ireg (BitVec.ofNat 3 n))) ∧
    (n < 192 → s.readItem (item 2) = some ((s.preg (n / 16)).toNat / 2 ^ (64 * (n % 16)) % 2 ^ 64)) ∧
    (n ∈ [0, 1, 2, 4, 5, 7] → s.readItem (item 3) = some (Tab.get Stream.absent c.streams n).pc) ∧
    (n < 2 ^ 18 → s.readItem (item 4) = some ((c.vrow (n / 64)).toNat / 2 ^ (32 * (n % 64)) % 2 ^ 32)) ∧
    (n < 2 ^ 16 → s.readItem (item 5) = some ((Tab.get 0 c.acc (n / 128)).toNat / 2 ^ (32 * (n % 128)) % 2 ^ 32)) ∧
    s.readItem (item 6) = (s.sysReg n).map (·.toNat) ∧ c.writeItem (item 6) v = none ∧
    (n < 64 → n % 32 ≠ 0 → s.readItem (item 7) = some (Tab.get 0 c.x ((4 + n / 32) * 32 + n % 32)).toNat) ∧
    (∀ k, 8 ≤ k → s.readItem (item k) = none ∧ c.writeItem (item k) v = none) ∧
    (n ≠ 0 → back 0 32 ∧ back 1 12) ∧ back 2 64 ∧ back 3 32 ∧ back 4 32 ∧ back 5 32 ∧ back 7 32)

/-! The scheduler front end: queues, packets, graphs, dispatch, retirement, receipts (03, 05, 06, 07) -/

/-- The registers of a queue (R62 to R65, R73 to R77, R513, 06 R149): each write of a VF that takes accesses to its BAR
completes with its effect (enabling, a notified write index, resuming, disabling), and one to a VF that does not changes
nothing (02 R48, R56); so do the read of the write-index word and a packet's completion, which for a partition that is not
resident waits (log 67).  Each state change writes the status block.  DEDUCED (log 43): that enabling and disabling do so, with
the ERR and LAST_SEQ they leave; DESIGN CHOICE (log 68): a disabled queue ignores Q_NOTIFY; DEDUCED (log 77): a queue that
waits at a WAIT does not read its write-index word. -/
def Obligations.QueuesFollowTheirRegisters : Prop :=
  ∀ s : State,
    let v := s.cur.site
    let q := s.cur.core
    let x := s.queue v q
    let p := (s.vf v).part
    let put (y : Queue) : State := s.setQueue v q y
    (s.vfTakes v = false → ∀ w, exec (.queueEnable w) s = .next s ∧ exec (.queueNotify w) s = .next s ∧
      exec (.queueResume w) s = .next s ∧ exec .queueDisable s = .next s) ∧
    (∀ cfg, let log2 := cfg / 2 ^ 16 % 32
      let vec := cfg / 2 ^ 6 % 32
      s.vfTakes v = true → (s.vf v).valid = true → x.st = 0 → cfg.testBit 0 = true → 4 ≤ log2 → log2 ≤ 16 → vec ≤ 29 → q < 16 →
      exec (.queueEnable cfg) s = .next ((put { x with
        log2 := log2, vec := vec, prio := cfg / 16 % 4, widxOn := cfg.testBit 2, loc := cfg.testBit 1, readIdx := 0, widx := 0
        lastSeq := 0, completed := 0, err := 0, st := 1, packets := [], turn := none, head := none, reread := true, since := 0
        tested := s.time }).statusBlock v q)) ∧
    (s.vfTakes v = true → ∀ w, ((x.st = 0 ∨ x.widxOn = true) → exec (.queueNotify w) s = .next s) ∧
      (x.st ≠ 0 → x.widxOn = false → ∃ t, exec (.queueNotify w) s = .next t ∧ (t.queue v q).widx = w % 2 ^ 32 % 2 ^ x.log2 ∧
        (t.queue v q).readIdx = x.readIdx ∧ (t.queue v q).packets = x.packets ∧
        (t.queue v q).st = (if (x.st = 1 ∨ x.st = 2) ∧ s.resident p = true then
          (if w % 2 ^ 32 % 2 ^ x.log2 = x.readIdx then 1 else 2) else x.st))) ∧
    (s.vfTakes v = true → ∀ w, (x.st ≠ 6 → exec (.queueResume w) s = .next s) ∧
      (x.st = 6 → exec (.queueResume w) s = .next ((put { x with
        readIdx := w % 2 ^ 32 % 2 ^ x.log2, err := 0, reread := true
        st := if x.widx = w % 2 ^ 32 % 2 ^ x.log2 then 1 else 2 }).statusBlock v q))) ∧
    (s.vfTakes v = true → x.st = 0 → exec .queueDisable s = .next s) ∧
    (s.vfTakes v = true → x.st ≠ 0 →
      let ended := (s.graphsOf v q).foldl (fun t g => t.abortGraph g 3 0) s
      let told := x.packets.foldl
        (fun t k => if k.done = 0 then t else t.outWrite (t.partOf v) v k.done k.dloc (k.record 3 t.time)) ended
      let off := (told.setQueue v q { told.queue v q with st := 0, err := 0 }).statusBlock v q
      ∃ t, exec .queueDisable s = .next t ∧ (t.queue v q).st = 0 ∧ (t.queue v q).readIdx = 0 ∧ (t.queue v q).widx = 0 ∧
        (t.queue v q).err = 0 ∧ (t.queue v q).packets = [] ∧ t.receipts = off.receipts.filter (fun r => !(r.vf == v && r.q == q)) ∧
        t.graphs = off.graphs ∧ t.caps = off.caps ∧ t.bufs = off.bufs ∧ t.host = off.host ∧ t.homeq = off.homeq) ∧
    (∀ (u : State) (g st cause : Nat), Tab.find (u.abortGraph g st cause).graphs g = none) ∧
    (x.widxOn = true → (x.st = 1 ∨ x.st = 2) → (s.vf v).flrbusy = false →
      (∀ b off n, s.capRead p x.widxAddr 4 = .error (.wait b off n) →
        exec .writeIndexWordRead s = .next (s.waitHome ⟨v, q, 10⟩ false [(b, off, n)])) ∧
      (∀ c, s.capRead p x.widxAddr 4 = .error (.code c) → exec .writeIndexWordRead s =
        .next (if s.resident p then (put { x with reread := false }).queueError v q c else s)) ∧
      (∀ bs u, s.capRead p x.widxAddr 4 = .ok (bs, u) →
        exec .writeIndexWordRead s =
          .next ((u.setQueue v q { x with widx := leNat bs % 2 ^ x.log2, reread := false, tested := s.time }).kick v q))) ∧
    (x.widxOn = false ∨ (x.st ≠ 1 ∧ x.st ≠ 2) ∨ (s.vf v).flrbusy = true → exec .writeIndexWordRead s = .next s) ∧
    (∀ k, x.packets.find? (fun y => y.num == s.cur.eng) = some k →
      (k.fin = none ∨ s.resident p = false → exec .packetCompletion s = .next s) ∧
      (∀ st, k.fin = some st → s.resident p = true →
        ∃ t, exec .packetCompletion s = .next t ∧ (t.queue v q).completed = (x.completed + 1) % 2 ^ 64 ∧
          (t.queue v q).lastSeq = k.seq ∧ (t.queue v q).packets = x.packets.filter (fun y => y.num != k.num) ∧
          (t.queue v q).readIdx = x.readIdx ∧ (t.queue v q).st = x.st)) ∧
    (x.packets.find? (fun y => y.num == s.cur.eng) = none → exec .packetCompletion s = .next s)

/-- Packets (R69 to R73, R76, R107, R109, R142, R153, R154, R164): what reaches the head of a queue that can parse, and
passes its checks, starts, with the effect of its type, for each type of packet; one that fails a check stops its queue;
one behind a fence is held.  DEDUCED (log 16): a packet with FENCE is fetched and checked before its fence, and held at the
head.

A waiting queue tests its WAIT again (R71, R75), a host word at most every 4,096 cycles; the packet completes once the
condition, which compares masked values, holds. -/
def Obligations.PacketsTakeEffectAtTheHead : Prop :=
  (∀ (s u : State) (f : Fetch),
    let v := s.cur.site
    let q := s.cur.core
    let x := u.queue v q
    let p := (u.vf v).part
    let packets : List (Nat × Instr) :=
      [(0, .nopPacket), (1, .graphLaunch), (2, .nodeLaunch), (3, .bufCreate), (4, .bufRelease), (5, .capGrant), (6, .signal),
       (7, .waitPacket), (8, .measureOpen), (9, .receipt), (10, .energySet)]
    (∀ k, s.fetching v q = true → (s.queue v q).head = none → s.fetchPacket v q = (.ok k, u) →
      k.sizeOk = true → k.fieldsOk = true → u.capsOk (s.partOf v) k = true →
      s.parse v q = (if k.fence = true ∧ (s.queue v q).packets ≠ [] then .hold k else .ok k, u)) ∧
    (s.parse v q = (f, u) →
    (f = .wait → (∀ y ∈ packets, exec y.2 s = .next u) ∧ exec .reservedPacketType s = .next u) ∧
    (∀ c, f = .fail c → (∀ y ∈ packets, exec y.2 s = .next (u.queueError v q c)) ∧
      exec .reservedPacketType s = .next (u.queueError v q c)) ∧
    (∀ k, f = .hold k → ∀ y ∈ packets, y.1 = k.typ → exec y.2 s = .next (u.setQueue v q { x with head := some k })) ∧
    (∀ k, f = .ok k →
      let done (t : State) : Host.Outcome State Fault Refusal := .next (t.start v q k (some 0)).2
      let slot := k.spec % 65536
      let a := k.dw 8
      (∀ y ∈ packets, y.1 ≠ k.typ → exec y.2 s = .next s) ∧
      (∀ (t : State) fin, let n := t.start v q k fin
        let y := t.queue v q
        n.1 = y.nextNum ∧ (n.2.queue v q).nextNum = y.nextNum + 1 ∧
        (n.2.queue v q).readIdx = (y.readIdx + (k.slots + 1)) % 2 ^ y.log2 ∧
        ∃ e : Packet, (n.2.queue v q).packets = y.packets ++ [e] ∧ e.num = y.nextNum ∧ e.seq = k.seq ∧ e.irq = k.irq ∧ e.fin = fin) ∧
      (∀ t : State, let n := t.start v q k none
        t.startAfter v q k = if n.2.homeq.any HomeReq.dev then { n.2 with homeq := n.2.homeq ++ [.after (.finish v q n.1 0)] }
          else n.2.finishPacket v q n.1 0) ∧
      (k.typ = 0 → exec .nopPacket s = done u) ∧
      (k.typ = 3 → exec .bufCreate s = done { u with
        bufs := Tab.set u.bufs u.nextBuf
          { Buffer.none with size := a, attr := BitVec.ofNat 13 (numAt k.bytes 0x10 4), big := k.spec.testBit 16, refs := 1 }
        nextBuf := u.nextBuf + 1
        caps := Tab.set u.caps (p * 65536 + slot) (.cap u.nextBuf true (numAt k.bytes 0x10 4 % 2 == 0)) }) ∧
      (k.typ = 4 → ∀ b r w, u.cap p slot = some (.cap b r w) →
        exec .bufRelease s = done (State.dropRef { u with caps := Tab.erase u.caps (p * 65536 + slot) } b)) ∧
      (k.typ = 5 → ∀ b r w, u.validCap p slot = some (b, r, w) →
        let rights := numAt k.bytes 0x0C 4
        let tp := numAt k.bytes 8 1
        let ts := numAt k.bytes 0x0A 2
        let peer := numAt k.bytes 0x10 2
        let more := u.setBuf b { u.buf b with refs := (u.buf b).refs + 1 }
        let n := more.start v q k none
        (peer = 0xFFFF → exec .capGrant s =
          done { more with caps := Tab.set u.caps (tp * 65536 + ts) (.cap b (rights % 2 == 1) (decide (2 ≤ rights))) }) ∧
        (peer ≠ 0xFFFF → exec .capGrant s = .next
          { n.2 with
            grants := n.2.grants ++ [⟨v, q, n.1, x.readIdx, peer, b, false⟩]
            sent := n.2.sent ++ [.peerGrant peer b tp ts rights (u.buf b).size (u.buf b).attr.toNat] })) ∧
      (k.typ = 6 → k.spec.testBit 2 = false → exec .signal s = .next ((u.outWrite p v a false (leBytes 8 (k.dw 0x10))).startAfter v q k)) ∧
      (k.typ = 6 → k.spec.testBit 2 = true →
        (u.signalTarget p v a = none → exec .signal s = .next (u.startAfter v q k)) ∧
        (∀ b, u.signalTarget p v a = some b →
          (k.spec % 4 = 0 → exec .signal s = .next ((u.outWrite p v a true (leBytes 8 (k.dw 0x10))).startAfter v q k)) ∧
          let me : Actor := ⟨v, q, 8⟩
          let turn := u.homeTurn (· == me) true [(b, offOf a, 8)]
          (k.spec % 4 ≠ 0 → turn = false ∨ u.homeLate = true → exec .signal s = .next (u.waitHome me true [(b, offOf a, 8)])) ∧
          (k.spec % 4 ≠ 0 → turn = true → u.homeLate = false →
            let w := u.leaveHome (· == me) true [(b, offOf a, 8)]
            let y := State.outWrite { w with homeq := [] } p v a true (leBytes 8 ((w.buf b).mem.nat (offOf a) 8 + k.dw 0x10))
            exec .signal s = .next (State.startAfter { y with homeq := w.homeq ++ y.homeq } v q k)))) ∧
      (k.typ = 7 →
        (∀ c, u.waitTest v q k = .error c → exec .waitPacket s = .next (u.queueError v q c)) ∧
        (∀ t, u.waitTest v q k = .ok (none, t) → exec .waitPacket s = .next t) ∧
        (∀ t, u.waitTest v q k = .ok (some true, t) → exec .waitPacket s = done t) ∧
        (∀ t, u.waitTest v q k = .ok (some false, t) →
          exec .waitPacket s = .next ((t.setQueue v q { t.queue v q with tested := u.time, head := some k }).queueState v q 3))) ∧
      (k.typ = 8 → let c := k.spec % 16
        let busy := u.graphs.any fun g => g.2.part == p && g.2.meas == some c
        (busy = true → exec .measureOpen s = .next u) ∧
        (busy = false → ∃ t, exec .measureOpen s = done t ∧ (t.ctx p c).isOpen = true ∧ (t.ctx p c).recs = [] ∧
          (t.ctx p c).chain = sha512 ([0x44, 0x45, 0x58, 0x53, 0x4F, 0x4C, 0x2D, 0x4D, 0x43] ++ leBytes 1 p ++ leBytes 1 c ++
            (k.bytes.drop 8).take 32))) ∧
      (k.typ = 9 → ∃ t r, exec .receipt s = .next t ∧ t.receipts = u.receipts ++ [r] ∧ r.taken = false ∧ r.part = p ∧
        r.ctx = k.spec % 16 ∧ r.close = k.spec.testBit 7 ∧ r.dest = a ∧ r.gid = k.dw 0x10 ∧ r.slots.length = k.spec / 16 % 8) ∧
      (k.typ = 10 → exec .energySet s = .next ((u.setPart p
        { u.partn p with reqMw := some (numAt k.bytes 8 4), reqUj := some (numAt k.bytes 0x0C 4) }).start v q k none).2)))) ∧
  (∀ (s : State) (k : Pkt),
    let v := s.cur.site
    let q := s.cur.core
    let x := s.queue v q
    let p := (s.vf v).part
    let host := !k.spec.testBit 3
    let val := Memory.nat s.host (k.dw 8) 8 &&& k.dw 0x18
    let ref_ := k.dw 0x10 &&& k.dw 0x18
    let holds :=
      match k.spec % 8 with
      | 0 => val = ref_ | 1 => val ≠ ref_ | 2 => ref_ ≤ val | _ => val < ref_
    x.st = 3 → s.resident p = true → (s.vf v).flrbusy = false → x.head = some k →
    let t := s.setQueue v q { x with tested := s.time }
    (host = true → s.time < x.tested + 4096 → exec .waitTest s = .next s) ∧
    ((host = true → x.tested + 4096 ≤ s.time) →
      (∀ c, t.waitTest v q k = .error c → exec .waitTest s = .next (t.queueError v q c)) ∧
      (∀ w, t.waitTest v q k = .ok (some true, w) → exec .waitTest s = .next (w.start v q k (some 0)).2) ∧
      (∀ w b, t.waitTest v q k = .ok (b, w) → b ≠ some true → exec .waitTest s = .next w)) ∧
    (host = true → s.hostFails (k.dw 8) 8 = false → ∃ b, s.waitTest v q k = .ok (some b, s) ∧ (b = true ↔ holds)))

/-- Launches (R98, R101, R103, R104, R120): a malformed one completes with STATUS 1 and, where its header can be read, its
result record; a good one enters the dependence table, node for node, where that has room and no launch waits before it, and
else waits at its queue's head, to be admitted later.  DEDUCED (log 44): the descriptors are read at admission, and the RESULT
of a malformed graph is written where its address is aligned.

One dispatch decision in 16 cycles (R128, R150): a suspended attempt whose class is lost fails first; else the levels
are tried from the highest, and what was chosen is dispatched; where a read of it has to wait, nothing is dispatched and no
credit is spent.  The first dispatch resolves the node's bindings, arguments and code (R110, R156, R134, R141), and failures
end or retry the node as R110 and R116 say; a later one resolves the watchpoints again (14 R332).  DEDUCED (log 38): a group
node's failure names FAILNODE 0xFFFF. -/
def Obligations.LaunchesAreAdmittedAndDispatched : Prop :=
  (∀ (s u : State) (k : Pkt),
    let v := s.cur.site
    let q := s.cur.core
    let p := (u.vf v).part
    let ctxOk := k.spec.testBit 4 = false ∨ (u.ctx p (k.spec / 32 % 16)).isOpen = true
    let meas := if k.spec.testBit 4 then some (k.spec / 32 % 16) else none
    let bad : Prop :=
      (∀ h t, u.capRead p (k.dw 8) 64 = .ok (h, t) → exec .graphLaunch s =
        .next (u.malformed v q k (if numAt h 0x10 8 % 64 = 0 then numAt h 0x10 8 else 0))) ∧
      (∀ c, u.capRead p (k.dw 8) 64 = .error (.code c) → exec .graphLaunch s = .next (u.malformed v q k 0)) ∧
      (∀ b off n, u.capRead p (k.dw 8) 64 = .error (.wait b off n) →
        exec .graphLaunch s = .next (u.waitHome ⟨v, q, 8⟩ false [(b, off, n)]))
    let room (t : State) (n : Nat) : Prop := (t.nodes.filter fun x => x.2.parent.isNone).length + n ≤ 65536 ∧
      ∀ w ∈ t.waitingTurns, ((t.queue v q).turn).getD t.nextTurn ≤ w
    ((s.queue v q).turn = none → exec .graphAdmission s = .next s) ∧
    (s.parse v q = (.ok k, u) →
    (k.typ = 1 →
      ((s.queue v q).turn.isSome = true → exec .graphAdmission s = exec .graphLaunch s) ∧
      (¬ ctxOk → bad) ∧
      (ctxOk → ∀ c, u.readGraph p (k.dw 8) = .error (.code c) → bad) ∧
      (ctxOk → ∀ b off n, u.readGraph p (k.dw 8) = .error (.wait b off n) →
        exec .graphLaunch s = .next (u.waitHome ⟨v, q, 8⟩ false [(b, off, n)])) ∧
      (∀ gd ds t, ctxOk → u.readGraph p (k.dw 8) = .ok (gd, ds, t) →
        (room t gd.entries.length → exec .graphLaunch s = .next (t.launchGraph v q k gd ds meas false none)) ∧
        (¬ room t gd.entries.length → exec .graphLaunch s = .next (t.queueTurn v q k)))) ∧
    (k.typ = 2 →
      let barred (d : NodeDesc) : Prop := ∃ b ∈ d.binds, b.kind = 1 ∨ b.exp = true ∧ 0xFFE0 ≤ b.ref
      ((s.queue v q).turn.isSome = true → exec .graphAdmission s = exec .nodeLaunch s) ∧
      (¬ ctxOk → exec .nodeLaunch s = .next (u.malformed v q k 0)) ∧
      (ctxOk → ∀ c, u.readNode p (k.dw 8) = .error (.code c) → exec .nodeLaunch s = .next (u.malformed v q k 0)) ∧
      (ctxOk → ∀ b off n, u.readNode p (k.dw 8) = .error (.wait b off n) →
        exec .nodeLaunch s = .next (u.waitHome ⟨v, q, 8⟩ false [(b, off, n)])) ∧
      (∀ d gangs t, ctxOk → u.readNode p (k.dw 8) = .ok (d, gangs, t) →
        (barred d → exec .nodeLaunch s = .next (u.malformed v q k 0)) ∧
        (¬ barred d → room t 1 → exec .nodeLaunch s = .next (t.launchGraph v q k (soloGraph (k.dw 8))
          [({ d with arg := k.dw 0x20, arglen := k.arglen }, gangs)] meas true
          (if k.argref then none else some ((k.bytes.drop 0x20).take k.arglen)))) ∧
        (¬ barred d → ¬ room t 1 → exec .nodeLaunch s = .next (t.queueTurn v q k))))) ∧
    (∀ t : State, (t.queue v q).turn = none → ∃ w, t.queueTurn v q k = w ∧ (w.queue v q).turn = some t.nextTurn ∧
      w.nextTurn = t.nextTurn + 1 ∧ (w.queue v q).head = some k ∧ w.nodes = t.nodes) ∧
    (∀ (t : State) result, let w := (t.start v q k (some 1)).2
      t.malformed v q k result = if result = 0 then w else
        w.capWrite (t.partOf v) v result (leBytes 4 1 ++ leBytes 2 0xFFFF ++ leBytes 1 5 ++ leBytes 1 0 ++ leBytes 4 0 ++ leBytes 1 0 ++
          leBytes 3 0 ++ leBytes 8 0 ++ leBytes 8 w.time ++ leBytes 32 0) true) ∧
    (∀ (t : State) (gd : GraphDesc) (ds : List (NodeDesc × List Nat)) m single inl, ds.length = gd.entries.length →
      let w := t.start v q k none
      let first := w.2.nextNode
      let g := w.2.nextGraph
      ∃ e : State, t.launchGraph v q k gd ds m single inl = e.releaseReady.checkGraph g ∧
        e.nextNode = first + gd.entries.length ∧ e.nextGraph = g + 1 ∧ e.vfs = w.2.vfs ∧
        e.graph g = { Graph.empty with
          part := t.partOf v, vf := v, q := q, pkt := w.1, gid := k.dw 0x10, retry := k.spec % 8, meas := m
          result := gd.result, single := single, err := gd.err.map (first + ·) } ∧
        (∀ i, (i < first ∨ first + gd.entries.length ≤ i) → e.node i = w.2.node i) ∧
        (∀ i, (h : i < gd.entries.length) → ∀ d gangs, ds[i]? = some (d, gangs) → ∃ preds,
          e.node (first + i) = { Node.empty with
            graph := g, idx := i, num := i, vf := v, q := q, prio := (t.queue v q).prio, desc := gd.entries[i].desc
            classes := d.classes, width := d.width, code := d.code, gangs := gangs, arg := d.arg, arglen := d.arglen
            inl := inl, binds := d.binds, preds := preds, phase := .waiting, isErr := gd.err == some i } ∧
          (∀ x, x ∈ preds ↔ ∃ r, x = first + r ∧ (r ∈ gd.entries[i].preds ∨ ∃ b ∈ d.binds, b.kind = 1 ∧ b.ref = r))))) ∧
  (∀ s : State,
    let s0 : State := { s with nextDisp := s.time + 16 }
    ((s.time < s.nextDisp ∨ s.runq = []) → exec .dispatchDecision s = .next s) ∧
    (s.nextDisp ≤ s.time → s.runq ≠ [] →
      (∀ a, s0.lostSuspended = some a →
        exec .dispatchDecision s = .next { s0 with due := s.due ++ [(s.cur, .attemptFailure a 7 0 0)] }) ∧
      (s0.lostSuspended = none →
        let r := tryLevels s0 [3, 2, 1, 0]
        let s1 : State := { r.1 with parts := r.1.parts.map fun x => (x.1, { x.2 with plugLate := false }) }
        (r.2 = none → exec .dispatchDecision s = .next s1) ∧
        (∀ n sites, r.2 = some (n, sites) →
          (∀ t, s1.dispatch n sites = .ok t → exec .dispatchDecision s = .next t) ∧
          (∀ b off k, s1.dispatch n sites = .error (.wait b off k) →
            exec .dispatchDecision s = .next (State.waitHome { s1 with robin := s.robin } ⟨n, 0, 11⟩ false [(b, off, k)]))))) ∧
    (∀ lvl n rest, s.candidates lvl (s.graph (s.node n).graph).part = n :: rest →
      n ∈ s.runq ∧ (s.node n).prio = lvl) ∧
    (∀ n sites a, (s.node n).phase = .suspended a →
      let t := s.attempt a
      let u := (s.setAttempt a { t with watches := s.watchesOf t.part }).acquireSites a sites
      s.dispatch n sites = .ok (((u.arm a sites).dispatched n a).dispatchEvent a sites) ∧
      (((u.arm a sites).dispatched n a).node n).phase = .running a ∧ n ∉ ((u.arm a sites).dispatched n a).runq) ∧
    (∀ n sites, (∀ a, (s.node n).phase ≠ .suspended a) →
      let nd := s.node n
      let g := s.graph nd.graph
      let cls := nd.cls.getD 0
      let cc := (codeClassOn nd.code cls).getD cls
      let at_ := codeOf nd.code cc
      let taken := State.takeBinds n g.part s nd.binds.zipIdx
      (∀ cause, taken = .last cause → s.dispatch n sites = .ok (s.nodeFails n 1 cause 0 0)) ∧
      (∀ cause tc e, taken = .fails cause tc e → s.dispatch n sites = .ok (s.dispatchFails n [] sites cause tc e)) ∧
      (∀ e, taken = .wait e → s.dispatch n sites = .error e) ∧
      (∀ binds s1, taken = .ok binds s1 →
        let later (P : Taken Attempt) : Prop :=
          (∀ cause, P = .last cause → s.dispatch n sites = .ok (s.nodeFails n 1 cause 0 0)) ∧
          (∀ cause tc e, P = .fails cause tc e → s.dispatch n sites = .ok (s1.dispatchFails n binds sites cause tc e)) ∧
          (∀ e, P = .wait e → s.dispatch n sites = .error e)
        later ((s1.takeArgs nd g.part).bind fun args s2 => (s2.takeCode g.part at_ cc).bind fun c s3 =>
          (s3.takeMeasure g at_ c.1 c.2 args).bind fun m s4 => .ok (s4.newAttempt n cls cc c.1 c.2 binds args m) s4) ∧
        (∀ args s2 h code s3 m s4, s1.takeArgs nd g.part = .ok args s2 → s2.takeCode g.part at_ cc = .ok (h, code) s3 →
          s3.takeMeasure g at_ h code args = .ok m s4 →
          let a := s4.nextAtt
          ∃ t : Attempt,
            s.dispatch n sites = .ok (((State.setAttempt { s4 with nextAtt := a + 1 } a t).reserveTo t.part
              ((s4.partn t.part).reserve - t.hold)).launchOn n a sites) ∧
            t.node = n ∧ t.cls = cls ∧ t.gang = h.gang ∧ t.budget = h.budget ∧ t.restart = h.restart ∧
            t.limit = (h.sram + 4095) / 4096 * 4096 ∧ t.binds = binds ∧ t.args = args ∧ t.meas = m ∧
            (∀ eng bs, (eng, bs) ∈ t.code ↔ ∃ x ∈ h.sects, eng = x.eng ∧ bs = (code.drop x.off).take x.len) ∧
            (∀ nd4, nd4 = s4.node n → t.part = (s4.graph nd4.graph).part ∧ t.hold = h.energy * nd4.width * 1000 ∧
              t.fdesc = (s4.partn t.part).fdesc)))) ∧
    (∀ (t : State) n p (b : BindSpec) i,
      let nd := t.node n
      let bound (kind : Nat) (r w : Bool) (u : Nat) (slot : Option Nat) : Bind := ⟨kind, r, w, b.exp, u, false, false, none, slot⟩
      let fresh (w : State) : State := { w with
        bufs := Tab.set w.bufs w.nextBuf { Buffer.none with size := b.size, attr := BitVec.ofNat 13 b.attr, big := b.big, refs := 1 }
        nextBuf := w.nextBuf + 1 }
      let shared (u : Nat) : Bind := bound b.kind (b.kind == 0 || b.rights % 2 == 1) (b.kind == 4 && decide (2 ≤ b.rights)) u none
      (b.kind = 1 → t.takeBind n p (b, i) = .ok (bound 1 true false ((Tab.find nd.refs i).getD 0) none) t) ∧
      (b.kind = 2 ∨ b.kind = 3 →
        (b.exp = false → t.takeBind n p (b, i) = .ok (bound b.kind true true t.nextBuf none) (fresh t)) ∧
        (b.exp = true → 0xFFE0 ≤ b.ref ∨ (t.cap p b.ref).isSome = true → t.takeBind n p (b, i) = .last 6) ∧
        (b.exp = true → b.ref < 0xFFE0 → t.cap p b.ref = none → t.takeBind n p (b, i) =
          .ok (bound b.kind true true t.nextBuf (some b.ref)) (fresh { t with caps := Tab.set t.caps (p * 65536 + b.ref) .reserved }))) ∧
      (b.kind = 0 ∨ b.kind = 4 →
        (∀ u, Tab.find nd.refs i = some u → t.takeBind n p (b, i) = .ok (shared u) t) ∧
        (Tab.find nd.refs i = none → b.ref < 65536 →
          (t.validCap p b.ref = none → t.takeBind n p (b, i) = .last 6) ∧
          (∀ u r w, t.validCap p b.ref = some (u, r, w) →
            let may := (b.kind = 0 → r = true) ∧ (b.kind = 4 → (b.rights % 2 = 1 → r = true) ∧ (2 ≤ b.rights → w = true)) ∧
              (t.buf u).refs < 0xFFFFFFFF
            (¬ may → t.takeBind n p (b, i) = .last 6) ∧
            (may → t.takeBind n p (b, i) = .ok (shared u)
              ((t.setNode n { nd with refs := Tab.set nd.refs i u }).setBuf u { t.buf u with refs := (t.buf u).refs + 1 })))))) ∧
    (∀ (t : State) (nd : Node) p,
      (∀ bs, nd.inl = some bs → t.takeArgs nd p = .ok bs t) ∧
      (nd.inl = none → nd.arglen = 0 → t.takeArgs nd p = .ok [] t) ∧
      (nd.inl = none → nd.arglen ≠ 0 → ∀ bs u, t.capRead p nd.arg nd.arglen = .ok (bs, u) → t.takeArgs nd p = .ok bs u)) ∧
    (∀ (t : State) p a cc head u h code w, t.capRead p a 256 = .ok (head, u) → codeHead head cc = some h →
      u.capRead p a h.total = .ok (code, w) → t.takeCode p a cc = .ok (h, code) w))

/-- The end of an attempt (R107, R114 to R117, R150, R225, 07 R161, 01 R20, 09 R209): an attempt whose jobs have ended and
whose writes have performed, with what its caches held written back, waits for the checks of what it launched and retires under the next retirement number, which its graph
keeps: its OUT buffers go to the bindings that name them, its export slots and gives are filled, its records extend the
context, its references and its energy go back, and what waited for it is released; below a node that still runs, slots and
records wait for that node's retirement (R123).  A failing one stops, and while its graph has retries left its node
becomes ready again, away from its sites; else its node has failed for the last time; a handler fault forms its record
first.  DEDUCED: the FAILNODE 0xFFFF of a group node (log 38) and the record of a handler fault (log 66); DESIGN CHOICE: an export
slot gets both rights (log 79), and what a graph that has failed shows when it fails again (log 80).

The check of a launched descriptor (R122, R123, R389): the members of a group are checked in order; a malformed
descriptor fails its node for the last time with CAUSE 5, a good one enters the group and waits for its producers.  No check
comes before the status of its `launch` is written. -/
def Obligations.AttemptsRetireOrFail : Prop :=
  (∀ s : State,
    let a := s.cur.site
    let t := s.attempt a
    let n := t.node
    ((s.jobsDone a = false ∨ s.writesOpen a = true) → exec .attemptRetirement s = .next s) ∧
    ((Tab.find s.atts a).isSome = true → s.jobsDone a = true → s.writesOpen a = false →
      let u := s.settleWrites a
      let full := (∃ b ∈ t.binds, (b.kind = 2 ∧ 0xFFFFFFFF ≤ (u.buf b.buf).refs) ∨
        (b.give.isSome = true ∧ 0xFFFFFFFF < (u.buf b.buf).refs)) ∨ State.overRefs (u.nodes.length + 1) u n = true
      let hashed (P : Nat × Nat → Prop) : Prop := t.meas.isSome = true ∧ ∃ o ∈ t.measuredOuts u, P o
      let bad := hashed fun o => (u.buf o.2).badAt 0 (u.buf o.2).size = true
      let lost := hashed fun o => u.lostAt o.2 0 (u.buf o.2).size = true
      let fails (cause : Nat) : Host.Outcome State Fault Refusal := .next { u with due := u.due ++ [(u.cur, .attemptFailure a cause 0 0)] }
      ((∃ c ∈ u.children n, (u.node c).phase = .posted) → exec .attemptRetirement s = .next u) ∧
      ((∀ c ∈ u.children n, (u.node c).phase ≠ .posted) →
        (full → exec .attemptRetirement s = .next (((u.stopAttempt a 6).undo n).nodeFails n 1 6 0 0)) ∧
        (¬ full → bad → exec .attemptRetirement s = fails 3) ∧
        (¬ full → ¬ bad → lost → exec .attemptRetirement s = fails 7) ∧
        (¬ full → ¬ bad → ¬ lost → exec .attemptRetirement s = .next (u.retire a)))) ∧
    (∀ k cause tcause eng, (Tab.find s.atts k = none → exec (.attemptFailure k cause tcause eng) s = .next s) ∧
      ((Tab.find s.atts k).isSome = true → tcause = 0x1A00 → ∀ i, s.handled k = some i →
        exec (.attemptFailure k cause tcause eng) s = .next (s.handlerFault i)) ∧
      ((Tab.find s.atts k).isSome = true → tcause ≠ 0x1A00 ∨ s.handled k = none →
        let m := (s.attempt k).node
        let s1 := (s.stopAttempt k cause).undo m
        let nd := s1.node m
        let g := s1.graph nd.graph
        let s2 : State := { s1.setNode m { nd with phase := .waiting, avoid := (s.attempt k).insts.map (·.site), cls := none } with
          runq := s1.runq.filter (· != m) }
        (g.used < g.retry → exec (.attemptFailure k cause tcause eng) s =
          .next ((s2.setGraph nd.graph { g with used := g.used + 1 }).makeReady m)) ∧
        (g.retry ≤ g.used → exec (.attemptFailure k cause tcause eng) s =
          .next (s2.graphFails nd.graph ⟨if nd.parent.isSome then 0xFFFF else nd.idx, 1, cause, tcause, eng⟩)))) ∧
    (∀ (u : State) (k : Nat),
      let t := u.attempt k
      let n := t.node
      let nd := u.node n
      let g := u.graph nd.graph
      let rsn := u.pkg.rsn + 1
      let outs : Tab Nat := (t.binds.zipIdx.filter fun x => x.1.kind == 2).map fun x => (x.2, x.1.buf)
      let scratch := (t.binds.filter fun b => b.kind == 3).map (·.buf)
      let ext := u.extensionGroup t
      let told := State.frontEvent { u with
        pkg := { u.pkg with rsn := rsn }, graphs := Tab.set u.graphs nd.graph { g with rsn := rsn } } t.part 0x02 g.gid rsn t.key
      let given := (t.binds.filterMap fun b => if b.slot.isSome then some b.buf else none).foldl State.addRef (told.handOut n outs)
      let below := ∃ x, nd.parent = some x ∧ (Tab.find u.nodes x.1).isSome = true
      (below → u.retire k =
        let nd1 := given.node n
        let held := given.setNode n { nd1 with phase := .retired rsn, outs := outs, late := some ⟨t.fills, ext.1, ext.2⟩, refs := [] }
        ((((held.dropRefs (Tab.vals nd1.refs)).dropRefs scratch).endAttempt k).satisfy n).releaseReady) ∧
      (¬ below → u.retire k =
        let filled := given.fill t.part t.fills
        let logged := match g.meas with | some c => filled.extend t.part c rsn ext.1 ext.2 | none => filled
        let ended := ((logged.dropRefs (Tab.vals outs)).dropRefs scratch).endAttempt k
        (((State.takeEffect (ended.nodes.length + 1) ended n rsn).forget n).satisfy n).releaseReady.checkGraph nd.graph) ∧
      (∀ sl b r w, (sl, b, r, w) ∈ t.fills ↔ ∃ x ∈ t.binds, b = x.buf ∧
        ((x.slot = some sl ∧ r = true ∧ w = true) ∨
          (x.give = some sl ∧ (r = true ↔ x.kind ≤ 3 ∨ x.r = true) ∧ (w = true ↔ x.kind = 2 ∨ x.kind = 3 ∨ x.kind = 4 ∧ x.w = true)))) ∧
      Tab.find (u.endAttempt k).atts k = none) ∧
    (∀ (t : State) p fs sl, (t.fill p fs).cap p sl =
      match fs.reverse.find? (fun f => f.1 == sl) with | some f => some (.cap f.2.1 f.2.2.1 f.2.2.2) | none => t.cap p sl) ∧
    (∀ (t : State) n m, ((t.satisfy n).node m).preds = (t.node m).preds.filter (· ≠ n)) ∧
    (∀ (t : State) n outs m i (b : BindSpec) u, (Tab.find t.nodes m).isSome = true → (t.node m).phase ≠ .posted →
      (t.node m).binds[i]? = some b → b.kind = 1 → Tab.find outs b.pbind = some u → Tab.find (t.node m).refs i = none →
      (match (t.node n).parent, (t.node m).parent with
        | none, none => (t.node m).graph = (t.node n).graph ∧ b.ref = (t.node n).idx
        | some x, some y => if y.1 = n then b.ref = 0 else y.1 = x.1 ∧ b.ref = x.2
        | none, some y => y.1 = n ∧ b.ref = 0
        | some _, none => False) →
      Tab.find ((t.handOut n outs).node m).refs i = some u) ∧
    (∀ (t : State) n, (∀ c, t.dispatchClass (t.node n) = some c →
        t.makeReady n = { t.setNode n { t.node n with phase := .ready, cls := some c } with runq := t.runq ++ [n] }) ∧
      (t.dispatchClass (t.node n) = none → t.makeReady n = t.nodeFails n 2 4 0 0))) ∧
  (∀ (s : State) (parent idx : Nat),
    let n := s.cur.site
    let nd := s.node n
    nd.phase = .posted → nd.parent = some (parent, idx) →
    let first := ∀ c ∈ s.children parent, (s.node c).phase = .posted → ∀ x, (s.node c).parent = some x → idx ≤ x.2
    let t := match (s.node parent).attempt? with | some a => s.attempt a | none => Attempt.empty
    let r := s.readLaunched t (s.graph nd.graph).part nd.desc nd.inl
    let due := ∃ c ∈ s.cores, c.2.done = false ∧ ∃ p ∈ c.2.pend, p.act = .shown n
    (¬ first ∨ due → exec .launchedDescriptorCheck s = .next s) ∧
    (¬ due → first → ∀ c, r = .error (.code c) → exec .launchedDescriptorCheck s = .next (s.nodeFails n 1 5 0 0)) ∧
    (¬ due → first → ∀ b off k, r = .error (.wait b off k) →
      exec .launchedDescriptorCheck s = .next (s.waitHome ⟨n, 0, 12⟩ false [(b, off, k)])) ∧
    (¬ due → first → ∀ d gangs u, r = .ok (d, gangs, u) →
      (u.groupProducedOk parent idx d.binds = false → exec .launchedDescriptorCheck s = .next (u.nodeFails n 1 5 0 0)) ∧
      (u.groupProducedOk parent idx d.binds = true → ∃ nd1 : Node,
        exec .launchedDescriptorCheck s =
          .next (((Tab.vals (u.groupProducers parent d.binds).2).foldl State.addRef u).setNode n nd1).releaseReady ∧
        nd1.phase = .waiting ∧ nd1.classes = d.classes ∧ nd1.width = d.width ∧ nd1.code = d.code ∧ nd1.gangs = gangs ∧
        nd1.arg = d.arg ∧ nd1.arglen = d.arglen ∧ nd1.binds = d.binds ∧ nd1.parent = nd.parent ∧ nd1.graph = nd.graph ∧
        (∀ m, m ∈ nd1.preds ↔ m ∈ nd.preds ∨ m ∈ (u.groupProducers parent d.binds).1))))

/-- Receipts and certificates (R164 to R170): a token every 625,000 cycles, at most 16; the snapshot of the oldest request
without one takes a token, advances the counter where something can be written, and with STATUS 0 clears or closes the
context; a snapshot is signed, written with its log, and its packet completes once what the device wrote has performed; CSEL and
CDATA, on a link 0 that has trained and from PHASE 3 on (01 R41).  DEDUCED (log 46): the token goes with the snapshot, and a
receipt that cannot be written takes its token and no counter value. -/
def Obligations.ReceiptsAndCertificates : Prop :=
  ∀ s : State,
    let k := s.pkg
    (s.time % 625000 = 0 → exec .receiptTokenRefill s = .next (s.setPkg { k with tokens := min 16 (k.tokens + 1) })) ∧
    (s.time % 625000 ≠ 0 → exec .receiptTokenRefill s = .next s) ∧
    ((s.link 0).trained = true → k.phase = 3 → ∀ v, exec (.cselWrite v) s = .next (s.setPkg { k with csel := v % 4, coff := 0 })) ∧
    ((s.link 0).trained = true → k.phase = 3 → ∃ w : Word, exec .cdataRead s = .next { s with
        pkg := { k with coff := (k.coff + 4) % 2 ^ 32 }, sent := s.sent ++ [.word w] } ∧
      ∀ j < 4, certLength k.csel ≤ k.coff + j → w.extractLsb' (8 * j) 8 = 0) ∧
    (∀ r, s.receipts.find? (fun r => !r.taken) = some r →
      let x := s.ctx r.part r.ctx
      (k.tokens = 0 → exec .receiptSnapshot s = .next s) ∧
      (k.tokens ≠ 0 → ∃ t, exec .receiptSnapshot s = .next t ∧ t.pkg.tokens = k.tokens - 1 ∧
        (∀ y ∈ t.receipts, y.taken = true ∨ y ∈ s.receipts) ∧ t.receipts.length = s.receipts.length ∧
        (s.receiptStatus r x.recs.length = none → t.pkg.counter = k.counter ∧ (∀ p c, t.ctx p c = s.ctx p c) ∧
          { r with taken := true } ∈ t.receipts) ∧
        (∀ st, s.receiptStatus r x.recs.length = some st → t.pkg.counter = k.counter + 1 ∧
          { r with
            taken := true, body := s.receiptBody r st, status := some st
            log := if st = 0 then x.recs.flatMap LogRec.bytes else [] } ∈ t.receipts ∧
          (st ≠ 0 → (∀ p c, t.ctx p c = s.ctx p c)) ∧
          (st = 0 → r.close = true → (t.ctx r.part r.ctx).isOpen = false) ∧
          (st = 0 → r.close = false → t.ctx r.part r.ctx = { x with ridx := x.ridx + 1, recs := [], lost := false })))) ∧
    (∀ r rest, s.receipts = r :: rest → r.taken = true →
      let u : State := { s with receipts := rest }
      let finish (t : State) : Host.Outcome State Fault Refusal := .next
        (if t.homeq.any HomeReq.dev then { t with homeq := t.homeq ++ [.after (.finish r.vf r.q r.pkt 0)] }
          else t.finishPacket r.vf r.q r.pkt 0)
      (r.status = none → exec .receiptWritten s = finish u) ∧
      (∀ st, r.status = some st →
        let w := u.capWrite r.part r.vf r.dest (r.body ++ receiptSig r.body) true
        let x := if r.log = [] then w else w.capWrite r.part r.vf (r.dest + 1024) r.log true
        exec .receiptWritten s = finish (x.frontEvent r.part 0x09 (numAt r.body 0x20 8) (r.ctx + st * 256) 0)))

/-- The dispatch class (R23, R24): the first available class of the node's list; if none is, the first available class on
the fallback chain of a listed class, in list order, and none if there is no such class.  SPR falls back to DNS with a
DNS object, SRT to VEC with a VEC object, VEC to DNS with either, the DNS object preferred, and no other chain exists. -/
def Obligations.DispatchClassIsTheFirstAvailable : Prop :=
  (∀ (s : State) (nd : Node),
    let av (c : Nat) : Bool := s.available nd c
    let next := fallback nd.code
    let reach (c : Nat) : Option Nat :=
      match next c with
      | none => none
      | some f =>
        if av f then some f
        else match next f with
          | none => none
          | some g => if av g then some g else none
    (∀ pre c post, nd.classes = pre ++ c :: post → (∀ p ∈ pre, av p = false) → av c = true → s.dispatchClass nd = some c) ∧
    ((∀ c ∈ nd.classes, av c = false) →
      (∀ pre c post f, nd.classes = pre ++ c :: post → (∀ p ∈ pre, reach p = none) → reach c = some f →
        s.dispatchClass nd = some f) ∧
      ((∀ c ∈ nd.classes, reach c = none) → s.dispatchClass nd = none)) ∧
    (∀ c, av c = true ↔ ∃ k, codeClassOn nd.code c = some k ∧
      nd.width ≤ (s.sitesOf c).countP fun x => decide (nd.gangs.getD (k - 1) 0 ≤ (s.site x).cores))) ∧
  (∀ code : List Nat,
    let has (c : Nat) : Prop := codeOf code c ≠ 0
    (∀ f, fallback code 2 = some f ↔ f = 1 ∧ has 1) ∧ (∀ f, fallback code 4 = some f ↔ f = 3 ∧ has 3) ∧
    (∀ f, fallback code 3 = some f ↔ f = 1 ∧ (has 1 ∨ has 3)) ∧ (∀ c f, fallback code c = some f → c = 2 ∨ c = 3 ∨ c = 4) ∧
    (has 1 → codeClassOn code 1 = some 1) ∧ (¬ has 1 → has 3 → codeClassOn code 1 = some 3) ∧
    (∀ c, has c → codeClassOn code c = some c) ∧ (∀ c, ¬ has c → c ≠ 1 → codeClassOn code c = none))

/-! The package, its links and functions, lent memory, tenants (01, 02, 04, 05, 06) -/

/-- Resets and boot (R38 to R41, R78): what a reset keeps, the two ways a package reset is asked for, and what the boot
ROM leaves: the images in order, each verified under the fused key, held against its least version and measured; where
one fails, the ROM stops there with its CAUSE; then the modules train and the chiplets are tested, and the extents of a memory
chiplet that does not come into service are LOST (04 R93).  DEDUCED: the order of an image's checks and what a failed boot
shows (log 71), and what stays of the outside over a reset (log 50). -/
def Obligations.ResetsRestoreThePackage : Prop :=
  ∀ s : State,
    let k := s.pkg
    let reset (straps : Nat) (links : Tab HostLink) (u : State) (t : State) : Prop :=
      t = { State.fresh k.sku k.form straps (k.block + 1) k.keyed links u.host with
        inputs := u.inputs, replies := u.replies, hostBad := u.hostBad, freeIdx := u.freeIdx, sent := u.sent }
    (∀ straps, ∃ t, exec (.coldReset straps) s = .next t ∧ exec (.warmReset straps) s = .next t ∧ reset (straps % 4) [] s t ∧
      t.vfs = [] ∧ t.atts = [] ∧ t.cores = [] ∧ t.l1 = [] ∧ t.l2 = [] ∧ t.tlb = [] ∧ t.time = 0 ∧ t.pkg.phase = 0) ∧
    (∀ v, s.pfTakes = false ∨ v % 256 ≠ 0xD5 → exec (.packageReset v) s = .next s) ∧
    ((s.link 0).trained = false → exec .pfFunctionLevelReset s = .next s) ∧
    ((s.link 0).trained = true → k.phase ≠ 3 → exec .pfFunctionLevelReset s = .next { s with sent := s.sent ++ [.configRetry 0] }) ∧
    ((s.link 0).trained = true → k.phase = 3 →
      (s.pfTakes = true → ∀ v, v % 256 = 0xD5 → exec (.packageReset v) s = exec .pfFunctionLevelReset s) ∧
      ∃ t, exec .pfFunctionLevelReset s = .next t ∧ t.vfs = [] ∧ t.atts = [] ∧ t.cores = [] ∧ t.time = 0 ∧ t.pkg.phase = 0 ∧
        t.links = s.links.map (fun l => (l.1, { HostLink.reset with
          trained := l.2.trained, cxl := l.2.cxl, width := l.2.width, rate := l.2.rate }))) ∧
    (∀ images key (found : BootTest), let boot := exec (.bootReady images key found) s
      let r := bootImages key 5 0 bootMeasure0 images
      (k.phase = 3 ∨ k.cause ≠ 0 → boot = .next s) ∧
      (k.phase ≠ 3 → k.cause = 0 →
        match r.2 with
        | some (i, c) => boot = .next ((s.setPkg { k with phase := 1, image := i, cause := c, meas := r.1 }).pfIrq 1)
        | none =>
          if found.cause = 4 ∨ found.cause = 5 then
            boot = .next ((s.setPkg { k with phase := 2, image := 0xF, cause := found.cause, meas := r.1 }).pfIrq 1)
          else ∃ t, boot = .next t ∧
            t.pkg = { k with phase := 3, image := 0xF, cause := 0, meas := r.1, gen := 2, hostcfg := s.bootLinks, keyed := true } ∧
            t.sites = s.sites.map (fun x => (x.1, x.2.booted x.1 found.lanes (found.failed.contains x.1))) ∧ t.cores = s.cores ∧
            (∀ n, 1 ≤ n → n < 9 → fittedClass k.sku n = 5 → (t.site n).inService = false → ∀ i < 384, (t.ext ((n - 1) * 384 + i)).st = 4))) ∧
    (∀ (x : FlashImage) key slot, imageCause x key slot =
      if x.ok = false then 3
      else if beNum (sha512 key) = Config.fuseKey.toNat ∧ pssVerify (beNum key) x.bytes x.sig = true then
        (if x.version < Config.fuseMin slot then 2 else 0)
      else 1) ∧
    (∀ key (a b c d e : FlashImage),
      let m (v : List Byte) (i : Nat) (x : FlashImage) : List Byte := sha512 (v ++ leBytes 1 i ++ sha512 x.bytes)
      let ma := m bootMeasure0 0 a
      let mb := m ma 1 b
      let mc := m mb 2 c
      let md := m mc 3 d
      bootImages key 5 0 bootMeasure0 [a, b, c, d, e] =
        if imageCause a key 0 ≠ 0 then (bootMeasure0, some (0, imageCause a key 0))
        else if imageCause b key 1 ≠ 0 then (ma, some (1, imageCause b key 1))
        else if imageCause c key 2 ≠ 0 then (mb, some (2, imageCause c key 2))
        else if imageCause d key 3 ≠ 0 then (mc, some (3, imageCause d key 3))
        else if imageCause e key 4 ≠ 0 then (md, some (4, imageCause e key 4))
        else (m md 4 e, none)) ∧
    (∀ (x : Site) n failed, let y := x.booted n [] failed
      (∀ m ∈ y.mods, m.2.state = 2 ∧ m.2.lanes = 64 ∧ m.2.rate = 32) ∧ y.d2ddeg = false ∧
      (failed = true → y.cls = 0) ∧ (failed = false → y.cls = x.cls ∧ y.st = x.st)) ∧
    (k.phase = 3 → exec .configRequestRetry s = .next s) ∧
    (k.phase ≠ 3 → exec .configRequestRetry s = .next { s with sent := s.sent ++ [.configRetry s.cur.site] })

/-- Health events (R19, R20, R42, R223 to R226): a cluster or a chiplet goes out of service, the table changes its
generation, odd while the change lasts, and the attempts that ran there fail; without a module SCH or IO stops the package;
soft errors are corrected, or detected: those of HBM stay, a cache line is discarded and a dirty one fails its writers;
firmware tests again and lowers the energy rate.  A stopped package's links are down.  DESIGN CHOICE (log 70): three and more
wrong bits count as detected; DEDUCED (log 50): SCH without a module stops the package. -/
def Obligations.HealthEventsTakeHardwareAway : Prop :=
  ∀ s : State,
    let k := s.cur.site
    let x := s.site k
    let changed (y : Site) : State := (s.setSite k y).tableChanged
    let stops : Host.Outcome State Fault Refusal :=
      .next (s.links.foldl (fun u l => if l.2.trained then (u.send (.linkDown l.1)).setLink l.1 { l.2 with trained := false } else u)
        { s with stopped := true })
    let lost : Host.Outcome State Fault Refusal :=
      let y := s.setSite k { x with cls := 0, st := 2 }
      .next ((if x.cls = 5 then y.siteLost k else y.wipeSite k).tableChanged.failSite k none)
    let retired : Host.Outcome State Fault Refusal :=
      .next ((changed { x with clmask := x.clmask - 2 ^ s.cur.core, retcl := min 255 (x.retcl + 1), st := 1 }).failSite k
        (some [s.cur.core]))
    (∀ u : State, (∀ n ∈ u.runq, (u.node n).phase ≠ .ready) →
      u.tableChanged.pkg.gen = if u.pkg.gen.getLsbD 0 then u.pkg.gen else u.pkg.gen + 1) ∧
    (∀ u : State, u.settleGen.pkg.gen = if u.pkg.gen.getLsbD 0 then u.pkg.gen + 1 else u.pkg.gen) ∧
    (∀ (u : State) cl, ∀ a t, (a, t) ∈ u.atts →
      (∃ i ∈ t.insts, i.site = k ∧ ∀ cs, cl = some cs → ∃ c ∈ i.clusters, c ∈ cs) →
      (u.cur, Instr.attemptFailure a 7 0 0) ∈ (u.failSite k cl).due) ∧
    (x.inService = true → x.clmask.testBit s.cur.core = true → exec .clusterRetire s = retired) ∧
    ((x.inService = false ∨ x.clmask.testBit s.cur.core = false) → exec .clusterRetire s = .next s) ∧
    (1 ≤ x.cls → x.cls ≤ 4 → x.inService = true → exec .chipletSharedLogicFailure s = lost) ∧
    (x.cls = 5 → x.inService = true → exec .memChipletFailure s = lost) ∧
    (x.cls ≠ 5 → exec .memChipletFailure s = .next s) ∧
    (x.mods ≠ [] → (∀ m ∈ x.mods, m.2.state = 0) →
      (x.cls = 6 → exec .allUcieModulesDown s = stops) ∧ (x.cls ≠ 6 → x.inService = true → exec .allUcieModulesDown s = lost)) ∧
    ((∃ m ∈ x.mods, m.2.state ≠ 0) → exec .allUcieModulesDown s = .next s) ∧
    exec .schFailure s = stops ∧
    (∀ b i, (Tab.find s.bufs b).isSome = true → i * 64 < (s.buf b).size →
      ∃ t, exec (.patrolScrub [(.hbm b i, 2)]) s = .next t ∧ i ∈ (t.buf b).bad ∧ (t.buf b).mem = (s.buf b).mem ∧
        (i ∉ (s.buf b).bad → t.scrubLog = s.scrubLog ++ [(s.time, b, i)]) ∧
        ∀ c, c ≠ b → t.buf c = s.buf c) ∧
    (∀ e n, exec (.patrolScrub [(e, n)]) s = .next (if n = 0 then s else if n = 1 then s.corrected (errSite s e) else s.detected e)) ∧
    (∀ (u : State) n, let y := u.site n
      let hi := y.ecchi || decide (Config.eccLimit < y.fixed + 1)
      let w := u.setSite n { y with fixed := y.fixed + 1, ecchi := hi }
      u.corrected n = if y.ecchi = hi then w else w.tableChanged) ∧
    (∀ i key l, s.line2 i key = some l → let u := s.erase2 i key
      s.detected (.l2 i key) = (if l.dirty = 0 then u else u.failWriters i (keyBuf key)) ∧ u.line2 i key = none) ∧
    (∀ c key l, s.line1 c key = some l → let u := s.erase1 c key
      s.detected (.l1 c key) = (if l.dirty = 0 then u else u.failWriters (c / 32) (keyBuf key)) ∧ u.line1 c key = none) ∧
    (∀ kind, exec (.firmwareRetest kind false) s = .next s) ∧
    (x.inService = true → x.clmask.testBit s.cur.core = true → exec (.firmwareRetest 0 true) s = retired) ∧
    (x.cls = 6 → exec (.firmwareRetest 1 true) s = stops) ∧
    (x.inService = true → (x.cls ≠ 6 → exec (.firmwareRetest 1 true) s = lost) ∧
      exec (.firmwareRetest 3 true) s = .next (changed { x with ecchi := true })) ∧
    (∀ r, exec (.coolantConditionChange r) s =
      .next { s with pkg := { s.pkg with rate := min s.pkg.cap r, thermal := decide (r < s.pkg.cap) } })

/-- UCIe modules, peer ports and host links (R29 to R34, R87, R109, R113, R245): a module's errors, lanes and retraining; a
port trains and is lost, with the requests that were on their way; a module whose retraining does not end loses requests only with the chiplet's last one, those of no node in a free number (log 1); a peer's transfers, atomics and grants reach the buffers of this package, each in its turn at the home; a host link trains and
goes down.  DEDUCED: the refused grant's own index in ERR and a peer's reach of every live buffer (log 45), and that a link that
goes down leaves its functions as they are (log 48); DESIGN CHOICE (log 81): a filled grant's reference stays with the peer. -/
def Obligations.LinksCarryAndLoseTraffic : Prop :=
  ∀ s : State,
    let m := s.module_
    let put (y : UcieModule) : State := s.setModule y
    let works := s.hasModule = true ∧ (m.state = 2 ∨ m.state = 3)
    let again : UcieModule := { m with state := 4, retrain := satAdd m.retrain 1, since := s.time }
    let p := s.cur.site
    let x := s.port p
    let up := x.state = 2 ∨ x.state = 3
    let me : Actor := { s.cur with eng := 9 }
    let later (u : State) (wr : Bool) (b off n : Nat) (i : Instr) : State :=
      let w := u.waitHome me wr [(b, off, n)]
      { w with inputs := w.inputs ++ [(w.time + 1, me, i)] }
    let refuses (i : Instr) (b : Nat) : Prop := exec i s = .next { s with sent := s.sent ++ [.peerAnswer p b false] }
    (s.cur.site < 32 → works → exec .flitCrcError s = .next (put { m with crc := satAdd m.crc 1 }) ∧
      exec .ucieRetrain s = .next (put again) ∧
      (0 < m.spare → exec .ucieLaneFailure s = .next (put { m with spare := m.spare - 1 })) ∧
      (m.spare = 0 → exec .ucieLaneFailure s = .next (put { again with lanes := 32 }))) ∧
    (32 ≤ s.cur.site → s.cur.site < 40 → let y := s.port (s.cur.site - 32)
      y.state = 2 ∨ y.state = 3 → exec .flitCrcError s = .next (s.setPort (s.cur.site - 32) { y with corr := satAdd y.corr 1 })) ∧
    (s.hasModule = true → (m.state = 1 ∨ m.state = 4 ∧ s.time ≤ m.since + 1250000) → ∀ lanes rate,
      let full := lanes = 64 ∧ m.lanes ≠ 32
      exec (.ucieRetrainComplete lanes rate) s = .next (put { m with
        state := if full then 2 else 3, lanes := if full then 64 else 32, rate := if rate = 16 then 16 else 32 })) ∧
    (s.hasModule = true → m.state = 4 → m.since + 1250000 ≤ s.time →
      let down := { m with state := 0, lanes := 0, rate := 0 }
      let others := ∃ y ∈ (s.site s.cur.site).mods, y.1 ≠ s.cur.core ∧ y.2.state ≠ 0
      (others → ∀ lost, exec (.ucieRetrainTimeout lost) s = .next (put down)) ∧
      (¬ others → ∀ lost,
        let as := s.running.filter fun a => decide (0 < s.requestsOver a s.cur.site)
        let n := lost + (as.map fun a => s.requestsOver a s.cur.site).sum
        let u := put { down with fail := satAdd m.fail n }
        exec (.ucieRetrainTimeout lost) s =
          .next { u with due := u.due ++ as.map (fun a => (u.cur, .attemptFailure a 7 0 0)) ++ [(s.cur, .allUcieModulesDown)] })) ∧
    (∀ lanes, lanes ≠ 0 → p < 8 → exec (.peerLinkTraining lanes) s = .next (s.setPort p { x with
      state := if lanes = 8 then 2 else 3
      lanes := if lanes = 8 then 8 else 4
      retrain := if x.state = 2 ∨ x.state = 3 then satAdd x.retrain 1 else x.retrain })) ∧
    (p < 8 → exec (.peerLinkTraining 0) s = .next (s.setPort p
      (if x.state = 2 ∨ x.state = 3 then { x with state := 4, retrain := satAdd x.retrain 1 }
        else if x.state = 4 then x else { x with state := 1, lanes := 0 }))) ∧
    (x.state = 0 → exec .peerLinkLoss s = .next s) ∧
    (x.state ≠ 0 → ∃ t, exec .peerLinkLoss s = .next t ∧ (t.port p).state = 0 ∧ (t.port p).lanes = 0 ∧
      (s.grants = [] → (∀ b u, Tab.find s.bufs b = some u → u.peer = some p → (t.buf b).revoked = true) ∧
        (t.port p).fail = satAdd x.fail (s.running.map fun a => s.peerBusy a p).sum) ∧
      (∀ a ∈ s.running, 0 < s.peerBusy a p → ∃ w, (w, Instr.attemptFailure a 7 0 0) ∈ t.due)) ∧
    (∀ b off n, up →
      (∀ wr (data : Option (List Byte)) len, wr = data.isSome → n = (match data with | some bs => bs.length | none => len) →
        let i := Instr.peerStageAccess b off len data
        (s.peerReach b off n wr = false → refuses i b) ∧
        (∀ u, s.peerReach b off n wr = true → s.mapRange b off n = some u → u.homeTurn (· == me) wr [(b, off, n)] = false →
          exec i s = .next (later u wr b off n i))) ∧
      (∀ u, s.peerReach b off n false = true → s.mapRange b off n = some u → u.homeTurn (· == me) false [(b, off, n)] = true →
        (u.buf b).badAt off n = false → let w := u.leaveHome (· == me) false [(b, off, n)]
        exec (.peerStageAccess b off n none) s =
          .next { w with sent := w.sent ++ [.peerData p b off ((u.buf b).mem.bytes off n)] }) ∧
      (∀ u len bs, bs.length = n → s.peerReach b off n true = true → s.mapRange b off n = some u →
        u.homeTurn (· == me) true [(b, off, n)] = true → (u.buf b).readOnly = false →
        exec (.peerStageAccess b off len (some bs)) s =
          .next ((((u.leaveHome (· == me) true [(b, off, n)]).writeBuf b off bs).hostHit b off n).send (.peerAnswer p b true)))) ∧
    (∀ b off n op arg expect u, up → s.peerReach b off n true = true → (s.buf b).readOnly = false → (s.buf b).badAt off n = false →
      (n = 4 ∨ n = 8) → off % n = 0 → s.mapRange b off n = some u →
      (u.homeTurn (· == me) true [(b, off, n)] = false → let i := Instr.peerRemoteAtomic b off n op arg expect
        exec i s = .next (later u true b off n i)) ∧
      (u.homeTurn (· == me) true [(b, off, n)] = true →
        let old := (u.buf b).mem.nat off n
        let w := (u.leaveHome (· == me) true [(b, off, n)]).send (.peerData p b off (leBytes n old))
        exec (.peerRemoteAtomic b off n op arg expect) s =
          .next (match (amoOf op).new n old arg expect with
            | some v => (w.writeBuf b off (leBytes n v)).hostHit b off n
            | none => w))) ∧
    (∀ part slot rights size attr big,
      let ok := up ∧ s.bound part = true ∧ part < 64 ∧ slot < 0xFFE0 ∧ s.cap part slot = none ∧ 1 ≤ rights ∧ rights ≤ 3 ∧
        1 ≤ size ∧ size < 2 ^ 48
      (¬ ok → refuses (.peerGrantRequest part slot rights size attr big) slot) ∧
      (ok → ∃ t, exec (.peerGrantRequest part slot rights size attr big) s = .next t ∧
        t.cap part slot = some (.cap s.nextBuf (rights.testBit 0) (decide (2 ≤ rights))) ∧
        (t.buf s.nextBuf).peer = some p ∧ (t.buf s.nextBuf).size = size ∧ (t.buf s.nextBuf).refs = 1 ∧
        t.sent = s.sent ++ [.peerAnswer p slot true])) ∧
    (∀ g, s.grants[s.cur.core]? = some g → g.port = p → g.refused = false →
      exec (.peerGrantResponse true) s =
        .next (State.finishPacket { s with grants := s.grants.filter (· != g) } g.vf g.q g.pkt 0) ∧
      (s.resident (s.partOf g.vf) = false → ∃ t, exec (.peerGrantResponse false) s = .next t ∧
        t.grants = s.grants.map (fun y => if y = g then { y with refused := true } else y) ∧
        t.queue g.vf g.q = s.queue g.vf g.q ∧ t.host = s.host) ∧
      (s.resident (s.partOf g.vf) = true → ∃ t, exec (.peerGrantResponse false) s = .next t ∧ t.grants = s.grants.filter (· != g) ∧
        ((s.queue g.vf g.q).packets.any (fun y => y.num == g.pkt) = true → (t.queue g.vf g.q).st = 6 ∧
          (t.queue g.vf g.q).err = 5 * 2 ^ 32 + g.idx))) ∧
    (∀ on cxl width rate, p < (if s.pkg.straps = 1 then 2 else if s.pkg.straps = 2 then 4 else 1) →
      let lanes := if s.pkg.straps = 1 then 8 else if s.pkg.straps = 2 then 4 else 16
      let can := width ∈ [16, 8, 4, 2, 1] ∧ width ≤ lanes ∧ rate ∈ [1280, 640, 320, 160, 80, 50, 25]
      ((p ≠ 0 ∨ s.pkg.phase ≠ 3 ∨ (s.link 0).width ≠ 0) → exec (.hostLinkTraining on cxl width rate) s =
        .next (if on = false then
            (if (s.link p).trained then (s.setLink p { s.link p with trained := false, cxl := false }).setIso (s.pkg.iso ||| 2 ^ (p % 4))
              else s.setLink p { s.link p with cxl := false })
          else if can then s.setLink p { s.link p with trained := true, cxl := cxl, width := width, rate := rate } else s)) ∧
      (p = 0 → s.pkg.phase = 3 → (s.link 0).width = 0 → exec (.hostLinkTraining on cxl width rate) s = .next s)) ∧
    exec .hostLinkDown s = .next ((s.setLink p { s.link p with trained := false }).setIso (s.pkg.iso ||| 2 ^ (p % 4)))

/-- Virtual functions (R45 to R61, R75): binding, VF Enable, function-level resets and their completion, and the migration
commands with the queues they quiesce, export, import and resume; a command's vector follows the writes before it (R53).
DEDUCED: enabling at binding and what ends a function-level reset (log 48), IMPORT one queue at a time with the worst RESULT
(log 49), that a command while BUSY leaves MIG_CTL (log 75) and that a reset leaves a VF's configuration words (log 76).

A register takes what is written to it (R10, R11): a write of four bytes is a write of its word, one of eight bytes of
both its words, and one of another size or alignment writes nothing (DEDUCED, log 51). -/
def Obligations.FunctionsAndRegistersAreWritten : Prop :=
  (∀ s : State,
    let v := s.cur.site
    let f := s.vf v
    let m := f.mig
    let qmask := s.cur.core
    let ended (u : State) (result : Nat) : State :=
      let w := u.setVf v { u.vf v with mig := { (u.vf v).mig with busy := false, result := result } }
      if w.homeq.any HomeReq.dev then { w with homeq := w.homeq ++ [.after (.pfIrq 4)] } else w.pfIrq 4
    let m1 : Mig := { m with ctl := qmask % 65536 * 16 }
    let with_ (cmd : Nat) : State := s.setVf v { f with mig := { m with ctl := qmask % 65536 * 16 + cmd } }
    let named := (List.range 16).filter fun q => qmask.testBit q
    (∀ w, (s.pfTakes = false → exec (.vfBindWrite w) s = .next s) ∧
      (s.pfTakes = true → f.enabled = true → exec (.vfBindWrite w) s = .next (s.setVf v { f with binderr := true })) ∧
      (s.pfTakes = true → f.enabled = false → exec (.vfBindWrite w) s =
        let k := s.link (w / 2 ^ 22 % 4)
        .next (s.setVf v { f with
          valid := w.testBit 31, link := w / 2 ^ 22 % 4, part := w % 64, enabled := k.trained && k.vfEnable }))) ∧
    (∀ k : HostLink, s.link v = k →
      let vfs := (List.range 384).filter fun i => (s.vf i).link == v
      (k.trained = false → ∀ i ∈ [Instr.vfEnableSet, .vfEnableClear, .linkFunctionReset], exec i s = .next s) ∧
      (k.trained = true → s.pkg.phase ≠ 3 → ∀ i ∈ [Instr.vfEnableSet, .vfEnableClear, .linkFunctionReset],
        exec i s = .next (s.send (.configRetry v))) ∧
      (k.trained = true → s.pkg.phase = 3 → k.vfEnable = false → ∃ t, exec .vfEnableSet s = .next t ∧ (t.link v).vfEnable = true ∧
        (∀ i ∈ vfs, t.vf i = { s.vf i with enabled := true }) ∧ (∀ i, i ∉ vfs → t.vf i = s.vf i)) ∧
      (k.trained = true → s.pkg.phase = 3 → k.vfEnable = true → exec .vfEnableSet s = .next s) ∧
      (k.trained = true → s.pkg.phase = 3 → k.vfEnable = false → exec .vfEnableClear s = .next s) ∧
      (k.trained = true → s.pkg.phase = 3 → k.vfEnable = true →
        exec .vfEnableClear s = .next (vfs.foldl
          (fun u i => if !(u.vf i).enabled then u else (u.functionReset i).setVf i { (u.functionReset i).vf i with enabled := false })
          (s.setLink v { k with vfEnable := false }))) ∧
      (k.trained = true → s.pkg.phase = 3 →
        exec .linkFunctionReset s = .next (vfs.foldl (fun u i => if (u.vf i).enabled then u.functionReset i else u) s))) ∧
    ((s.link f.link).trained = false → exec .functionLevelReset s = .next s) ∧
    ((s.link f.link).trained = true → s.pkg.phase ≠ 3 → exec .functionLevelReset s = .next (s.send (.configRetry f.link))) ∧
    ((s.link f.link).trained = true → s.pkg.phase = 3 → (f.enabled = false ∨ f.flrbusy = true) →
      exec .functionLevelReset s = .next s) ∧
    ((s.link f.link).trained = true → s.pkg.phase = 3 → f.enabled = true → f.flrbusy = false → ∃ t, exec .functionLevelReset s = .next t ∧ (t.vf v).flrbusy = true ∧
      (∀ q ∈ (t.vf v).queues, q.2.st = 0 ∧ q.2.readIdx = 0 ∧ q.2.widx = 0 ∧ q.2.packets = []) ∧
      (∀ r ∈ t.receipts, r.vf ≠ v)) ∧
    ((f.flrbusy = false ∨ s.homeq.any HomeReq.dev = true) → exec .flrCompletion s = .next s) ∧
    (f.flrbusy = true → s.homeq.any HomeReq.dev = false → exec .flrCompletion s =
      .next ((s.setVf v { f with
        flrbusy := false, msix := Msix.reset
        queues := f.queues.map fun q => (q.1, { Queue.reset with nextNum := q.2.nextNum }) }).pfIrq 5)) ∧
    ((s.pfTakes = false ∨ m.busy = true) → ∀ i ∈ [Instr.migTrackStart, .migTrackStop, .migQuiesce, .migExport, .migImport, .migResume, .migHarvest],
      exec i s = .next s) ∧
    (s.pfTakes = true → m.busy = false →
      exec .migTrackStart s = .next (ended (s.setVf v { f with
        mig := { m1 with ctl := m1.ctl + 1, filter := [], logidx := 0, ovf := false, track := true } }) 0) ∧
      exec .migTrackStop s = .next (ended (s.setVf v { f with mig := { m1 with ctl := m1.ctl + 2, track := false } }) 0) ∧
      exec .migHarvest s = .next (ended (s.setVf v { f with mig := { m1 with ctl := m1.ctl + 7, filter := [] } }) 0) ∧
      (let begun := s.setVf v { f with mig := { m1 with ctl := m1.ctl + 3, busy := true }, quiesced := false }
       let stop (u : State) (q : Nat) : State :=
         let x := u.queue v q
         if x.st = 1 ∨ x.st = 2 ∨ x.st = 3 then (u.setQueue v q { x with turn := none, head := none }).queueState v q 4 else u
       exec .migQuiesce s = .next ((named.foldl stop begun).checkQuiesce v)) ∧
      ((∃ q ∈ named, (s.queue v q).st ∉ [0, 5, 6]) → exec .migExport s = .next (ended (with_ 4) 1)) ∧
      ((∀ q ∈ named, (s.queue v q).st ∈ [0, 5, 6]) → exec .migExport s =
        .next (ended (named.foldl (fun u q => u.hostPut (m.xfer + q * 256) ((u.queue v q).record q u.time)) (with_ 4))
          (if named.any fun q => s.hostFails (m.xfer + q * 256) 256 then 3 else 0))) ∧
      ((f.valid = false ∨ f.enabled = false ∨ ∃ q ∈ named, (s.queue v q).st ≠ 0) → exec .migImport s = .next (ended (with_ 5) 1)) ∧
      (f.valid = true → f.enabled = true → (∀ q ∈ named, (s.queue v q).st = 0) →
        exec .migImport s =
          let r := named.foldl (fun (a : State × Nat) q => ((a.1.importQueue v q).1, max a.2 (a.1.importQueue v q).2)) (with_ 5, 0)
          .next (ended r.1 r.2)) ∧
      exec .migResume s = .next (ended (named.foldl (fun u q =>
        let x := u.queue v q
        if x.st = 5 then (u.setQueue v q { x with reread := x.widxOn }).queueState v q (if x.widx = x.readIdx then 1 else 2) else u)
        (with_ 6)) 0)) ∧
    (let x := s.queue v s.cur.core
     let u := if x.st = 4 ∧ x.packets = [] then s.queueState v s.cur.core 5 else s
     exec .queueQuiesced s = .next (u.checkQuiesce v))) ∧
  (∀ (s : State) (space fn off v : Nat),
    let word (u : State) (o w : Nat) : State := u.wordWrite space fn o w
    (off % 4 ≠ 0 → ∀ n, exec (.registerWrite space fn off n v) s = .next s) ∧
    (∀ n, n ≠ 4 → n ≠ 8 → exec (.registerWrite space fn off n v) s = .next s) ∧
    (off % 4 = 0 → exec (.registerWrite space fn off 4 v) s = .next (word s off (v % 2 ^ 32))) ∧
    (off % 4 = 0 → startsAt space off = false → exec (.registerWrite space fn off 8 v) s =
      .next (word (word s off (v % 2 ^ 32)) (off + 4) (v / 2 ^ 32 % 2 ^ 32))) ∧
    (off % 4 = 0 → startsAt space off = true → exec (.registerWrite space fn off 8 v) s =
      .next (word (word s (off + 4) (v / 2 ^ 32 % 2 ^ 32)) off (v % 2 ^ 32))))

/-- Lent memory (R80 to R94): adding and releasing extents; a host's reads, writebacks and writes at their home, the
recalls they wait for, and what an isolated link or a lost extent gets instead.  What waits at the homes performs in order, line
by line: a read returns the 64 bytes at its address and makes its link a holder, once other links' exclusive copies, or all
their copies for ownership, are recalled and its directory set has room; a write performs once nobody else holds its line.
That ADD refuses a slot from 0xFFE0 up, and one that was filled meanwhile when it ends, is the model's choice (log 65).
DEDUCED (log 47): the order of the results 4, 1, 2 and 3, that a read of an extent that is not lent is unsupported, and a
writeback without data. -/
def Obligations.HomesServeHostsAndExtents : Prop :=
  ∀ (s : State),
    let l := s.cur.site
    let k := s.pkg
    let x (e : Nat) : Extent := s.ext e
    (∀ (addr : Nat) (own : Bool), let read : Instr := if own then .hostReadOwnership addr else .hostReadShared addr
      (s.dpaOf l addr = none → exec read s = .next (s.send (.unsupported l addr))) ∧
      (∀ dpa, s.dpaOf l addr = some dpa →
        ((s.isolated l = true ∨ s.lentTo (extOf dpa) l = false) → exec read s = .next (s.send (.unsupported l dpa))) ∧
        (s.isolated l = false → s.lentTo (extOf dpa) l = true →
          exec read s = .next (State.drainHome { s with homeq := s.homeq ++ [.hostRead l dpa own] })))) ∧
    (∀ addr bs keep, s.dpaOf l addr = none → s.isolated l = false →
      exec (.hostMemWrite addr bs) s = .next (s.send (.unsupported l addr)) ∧
      exec (.hostWriteback addr bs keep) s = .next (s.send (.unsupported l addr))) ∧
    (∀ addr bs dpa keep, s.dpaOf l addr = some dpa → bs ≠ [] →
      let d := s.line (dpa / 256)
      let held := d.excl && d.mask == 2 ^ l
      let write := exec (.hostMemWrite addr bs) s
      let back := exec (.hostWriteback addr bs keep) s
      let log (c : Nat) : Host.Outcome State Fault Refusal := .next (s.logLine dpa c l (some (extOf dpa)))
      let part := bs.take (256 - dpa % 256)
      (s.isolated l = true → write = log 4 ∧ back = log 4) ∧
      (s.isolated l = false → (x (extOf dpa)).st = 4 → write = log 5 ∧ back = log 5) ∧
      (s.isolated l = false → (x (extOf dpa)).st ≠ 4 → s.lentTo (extOf dpa) l = false →
        write = log 3 ∧ (held = false ∨ (x (extOf dpa)).st ≠ 3 → back = log 3)) ∧
      (s.isolated l = false → s.lentTo (extOf dpa) l = true →
        write = .next (State.drainHome { s with homeq := s.homeq ++ [.hostWrite l dpa part] }) ∧ (held = false → back = write)) ∧
      (s.isolated l = false → (s.lentTo (extOf dpa) l = true ∨ (x (extOf dpa)).st = 3) →
        (held = true → back = .next ((if keep then (s.homeWrite dpa part).setLine (dpa / 256) { d with excl := false }
          else (s.homeWrite dpa part).dropHolder (dpa / 256) l).send (.done l dpa)).drainHome))) ∧
    (∀ r, s.recallOf s.cur.core l = some r →
      let n := s.cur.core
      let d := s.line n
      let u := s.endRecall n l
      (∀ data, exec (.bisnpResponse data) s =
        let w := if d.excl && d.mask == 2 ^ l && data.length == 256 then u.homeWrite (n * 256) data else u
        .next (if r.inv then w.dropHolder n l else if d.mask = 0 then w else w.setLine n { d with excl := false }).drainHome) ∧
      (s.time < r.at_ + 12500000 → exec .recallTimeout s = .next s) ∧
      (r.at_ + 12500000 ≤ s.time → exec .recallTimeout s =
        .next ((u.dropHolder n l).logLine (n * 256) 2 l (some (n / 2 ^ 20))).drainHome)) ∧
    (s.pfTakes = false → ∀ v, exec (.hostIsoWrite v) s = .next s ∧ exec (.extAdd v) s = .next s ∧ exec (.extRelease v) s = .next s) ∧
    (s.pfTakes = true → ∀ v, ∃ new : List Nat, exec (.hostIsoWrite v) s =
        .next (new.foldl State.isolate { s with pkg := { k with iso := v % 16 } }) ∧
      ∀ i, i ∈ new ↔ i < 4 ∧ v.testBit i = true ∧ k.iso.testBit i = false) ∧
    (s.pfTakes = true → ∀ cmd, let e := cmd / 16 % 4096
      let owner := cmd / 2 ^ 32 % 64
      let slot := cmd / 2 ^ 16 % 65536
      let taken (u : State) (res : Nat) : State :=
        let w : State := { u with pkg := { u.pkg with extBusy := false, extRes := res } }
        if w.homeq.any HomeReq.dev then { w with homeq := w.homeq ++ [.after (.pfIrq 2)] } else w.pfIrq 2
      let u : State := { s with pkg := { k with extCmd := BitVec.ofNat 64 cmd } }
      let count := 384 * (if k.sku = 3 then 6 else 8)
      let noSlot := s.bound owner = false ∨ 0xFFE0 ≤ slot ∨ (s.cap owner slot).isSome = true
      (k.extBusy = true → exec (.extAdd cmd) s = .next s ∧ exec (.extRelease cmd) s = .next s) ∧
      (k.extBusy = false → cmd % 16 ≠ 1 → cmd % 16 ≠ 2 → exec (.extAdd cmd) s = .next (taken u 1)) ∧
      (k.extBusy = false → cmd % 16 = 1 →
        (count ≤ e → exec (.extAdd cmd) s = .next (taken u 4)) ∧
        (e < count → (x e).st ≠ 0 → exec (.extAdd cmd) s = .next (taken u 1)) ∧
        (e < count → (x e).st = 0 → s.extUsed e = true → exec (.extAdd cmd) s = .next (taken u 2)) ∧
        (e < count → (x e).st = 0 → s.extUsed e = false → noSlot → exec (.extAdd cmd) s = .next (taken u 3)) ∧
        (e < count → (x e).st = 0 → s.extUsed e = false → ¬ noSlot → exec (.extAdd cmd) s =
          .next (State.setExt { u with pkg := { u.pkg with extBusy := true, extAt := s.time } } e
            { x e with st := 1, owner := owner, slot := slot, links := cmd / 2 ^ 40 % 16, notify := k.notify.toNat, owned := true }))) ∧
      (k.extBusy = false → cmd % 16 = 2 →
        (count ≤ e → exec (.extRelease cmd) s = .next (taken u 4)) ∧
        (e < count → (x e).st ≠ 2 → exec (.extRelease cmd) s = .next (taken u 1)) ∧
        (e < count → (x e).st = 2 → ∃ t, exec (.extRelease cmd) s = .next t ∧ (t.ext e).st = 3 ∧ t.pkg.extBusy = true ∧
          t.pkg.reltime = BitVec.ofNat 64 s.time ∧ (t.buf (x e).buf).revoked = true))) ∧
    (∀ t : State, t.homeq = [] → t.drainHome = t) ∧
    (∀ (t : State) pre r, t.homeq = pre ++ [r] → t.leftPlace r = false →
      let w := State.drainHome { t with homeq := pre }
      let waits := (∃ n ∈ t.reqIds r, ∃ y ∈ w.homeq, n ∈ t.reqIds y) ∨ (r.last = true ∧ ∃ y ∈ w.homeq, y.dev = true)
      (waits → t.drainHome = { w with homeq := w.homeq ++ [r] }) ∧
      (¬ waits → let z := w.tryHome r
        t.drainHome = if z.2 then z.1 else { z.1 with homeq := z.1.homeq ++ [r] })) ∧
    (∀ (t : State) link dpa,
      let n := dpa / 256
      let d := t.line n
      let others := if d.mask.testBit link then d.mask - 2 ^ link else d.mask
      let b := (t.ext (dpa / 2 ^ 28)).buf
      let off := dpa % 2 ^ 28
      (∀ own, let m := if own = true ∨ d.excl = true then others else 0
        let read := t.tryHome (.hostRead link dpa own)
        (m ≠ 0 → read = (t.recallMask n m own, false)) ∧
        (m = 0 → ∀ v, t.victim n = some v → read = (t.evict v, false)) ∧
        (m = 0 → t.victim n = none → ∃ w, read = (w, true) ∧ w.bufs = t.bufs ∧
          .data link dpa ((t.buf b).mem.bytes (off / 64 * 64) 64) ((t.buf b).badAt (off / 64 * 64) 64) ∈ w.sent ∧
          w.line n = ⟨if own then 2 ^ link else d.mask ||| 2 ^ link, own || (d.excl && d.mask == 2 ^ link),
            if d.mask = 0 then t.time else d.born⟩)) ∧
      (∀ bs, let write := t.tryHome (.hostWrite link dpa bs)
        (others ≠ 0 → write = (t.recallMask n others true, false)) ∧
        (others = 0 → write = (((t.writeBuf b off bs).hostHit b off bs.length).send (.done link dpa), true))) ∧
      (d.mask ≠ 0 ∨ (t.setMates n).length < 16 → t.victim n = none) ∧
      (d.mask = 0 → 16 ≤ (t.setMates n).length → ∃ y ∈ t.setMates n, t.victim n = some y.1 ∧
        ∀ z ∈ t.setMates n, y.2.born ≤ z.2.born)) ∧
    (∀ (t : State) b off bs rel att, let write := t.tryHome (.devWrite b off bs rel att)
      let stands := ∃ n ∈ t.linesAt b off bs.length, (t.line n).mask ≠ 0
      (stands → write = (t.homeRecall b off bs.length true, false)) ∧ (¬ stands → write = (t.writeBuf b off bs, true))) ∧
    (∀ (t : State) n mask inv, let w := t.recallMask n mask inv
      w.bufs = t.bufs ∧ w.lines = t.lines ∧ w.homeq = t.homeq ∧
      ∀ i < 4, mask.testBit i = true →
        (∃ r ∈ w.recalls, r.line = n ∧ r.link = i ∧ (inv = true → r.inv = true)) ∧
        ((∀ r ∈ t.recalls, r.line = n → r.link = i → r.inv = false ∧ inv = true) → .recall i n inv ∈ w.sent)) ∧
    (let e := k.extCmd.toNat / 16 % 4096
     (k.extBusy = true → (x e).st = 1 → s.cap (x e).owner (x e).slot = none → ∃ t, exec .extAddComplete s = .next t ∧
       (t.ext e).st = 2 ∧ (t.ext e).buf = s.nextBuf ∧ t.pkg.extBusy = false ∧ t.pkg.extRes = 0 ∧
       t.cap (x e).owner (x e).slot = some (.cap s.nextBuf true true) ∧ (t.buf s.nextBuf).size = 2 ^ 28) ∧
     (k.extBusy = true → (x e).st = 1 → s.cap (x e).owner (x e).slot ≠ none →
       exec .extAddComplete s = .next ((s.setExt e Extent.pool).extEnd 3)) ∧
     (k.extBusy = true → (x e).st = 3 → s.extQuiet e = true → ∃ t, exec .extReleaseComplete s = .next t ∧ (t.ext e).st = 0 ∧
       t.pkg.extBusy = false ∧ t.pkg.extRes = 0) ∧
     (k.extBusy = true → (x e).st = 3 → s.extQuiet e = false → exec .extReleaseComplete s = .next s))

/-- Tenants and policy (R126, R140 to R149, R152, R249): the energy tick, which debits what each attempt's metered energy
exceeds its hold by, refills each bound partition at its rate up to its limit, sets the guard, and sends every running gang the
level that its partition's reserve and the guard ask for (how much energy is metered is a free value, log 8; a message names
the first count that R140 allows, log 82); the end of a time slice, of the grace and of the
saving of a switch; groups, sites, plug-ins and floating-format descriptors as the policy registers set them.  DEDUCED (log 42):
what leaving a group and a write of G_SLICED do at once, and how a switch settles. -/
def Obligations.TenantsShareByPolicy : Prop :=
  ∀ s : State,
    let g := s.cur.site
    let x := s.group g
    let ps := s.partsOf g
    (s.time % 1250 ≠ 0 → exec .energyRefillTick s = .next s) ∧
    (s.time % 1250 = 0 →
      let metered := s.running.foldl State.meter s
      exec .energyRefillTick s =
        .next (((((Tab.keys s.atts).foldl State.debitExcess metered).refill.rated).signEvents s).guard).stretch) ∧
    (s.time % 1250 = 0 → (Tab.keys s.atts).Nodup → ∀ t, exec .energyRefillTick s = .next t →
      let metered := s.running.foldl State.meter s
      let debit (p : Nat) : Int := (((Tab.keys s.atts).filter fun i => (s.attempt i).part == p).map fun i =>
        (((metered.attempt i).metered - (s.attempt i).hold : Nat) : Int) - (s.attempt i).debited).sum
      let req (p : Nat) : Nat := min ((s.partn p).reqMw.getD (s.partn p).ceilMw) (s.partn p).ceilMw
      let limit (p : Nat) : Nat := min ((s.partn p).reqUj.getD (s.partn p).ceilUj) (s.partn p).ceilUj
      let total := (((List.range 64).filter s.bound).map req).sum
      let rate (p : Nat) : Nat := if total ≤ s.pkg.rate then req p else req p * s.pkg.rate / total
      let used := metered.pkg.metered - (if s.pkg.spent.length < 1000 then 0 else s.pkg.spent.getLastD 0)
      (∀ p < 64, s.bound p = true → (t.partn p).reserve = min ((s.partn p).reserve - debit p + rate p) (limit p * 1000) ∧
        (t.partn p).rate = rate p ∧ ((t.partn p).slow = true ↔ (t.partn p).reserve < 0)) ∧
      (∀ p, s.bound p = false → (t.partn p).reserve = (s.partn p).reserve - debit p) ∧
      (t.pkg.guard = true ↔ if s.pkg.guard then s.pkg.rate * 1000 * 95 ≤ used * 100 else s.pkg.rate * 1000 < used) ∧
      (∀ i ∈ s.running, let level := if t.pkg.guard then 12 else if (t.partn (s.attempt i).part).slow then 8 else 0
        (t.attempt i).insts = (s.attempt i).insts.map fun x =>
          if (match x.change with | some c => c.2 | none => x.level) = level then x
          else { x with change := some ((s.time + 79) / 16 * 16, level) })) ∧
    ((x.sliced = false ∨ x.switch.isSome = true) → exec .sliceExpiry s = .next s) ∧
    (x.sliced = true → x.switch = none → ∀ a, x.resident = some a →
      (s.time < x.began + x.slice * 1250 → exec .sliceExpiry s = .next s) ∧
      (x.began + x.slice * 1250 ≤ s.time →
        (s.nextWanting ps a = none → exec .sliceExpiry s = .next (s.setGroup g { x with began := s.time })) ∧
        (∀ b, s.nextWanting ps a = some b → ∃ t, exec .sliceExpiry s = .next t ∧
          (t.group g).switch = some ⟨s.time, [a], b, false⟩ ∧ ∀ i ∈ s.attemptsIn g [a], (t.attempt i).preempt = true))) ∧
    (x.sliced = true → x.switch = none → x.resident = none →
      (∀ b, ps.find? s.wants = some b → exec .sliceExpiry s = .next (s.enter g b)) ∧
      (ps.find? s.wants = none → exec .sliceExpiry s = .next s)) ∧
    (∀ w, x.switch = some w → w.saving = false →
      (s.time < w.at_ + x.grace * 1250 → exec .graceExpiry s = .next s) ∧
      (w.at_ + x.grace * 1250 ≤ s.time → exec .graceExpiry s =
        .next (((s.attemptsIn g w.out).reverse.foldl (fun u a => if (Tab.find u.atts a).isSome then u.requeue a else u) s).settleSwitch g))) ∧
    (∀ w, x.switch = some w → (w.saving = true ∨ s.attemptsIn g w.out = []) → ∃ u : State,
      exec .tenantSwitchSaveComplete s = .next ((w.out.foldl (fun u p => u.unload p g) u).enter g w.next) ∧
      u = if w.saving then s else s.setGroup g { x with switch := some { w with saving := true } }) ∧
    (∀ u : State, ∀ next, ∃ y : Group, (u.enter g next).group g = y ∧ y.resident = some next ∧ y.began = u.time ∧ y.switch = none) ∧
    (let p := s.pkg.psel
     let y := s.group s.pkg.gsel
     let policy (v : Nat) : List Instr := [.pPluginWrite v, .gSitesWrite v, .pGroupWrite v, .gSlicedWrite v, .fdescWrite v]
     ((s.link 0).trained = false → ∀ v, ∀ i ∈ policy v, exec i s = .next s) ∧
     ((s.link 0).trained = true → s.pkg.phase ≠ 3 → ∀ v, ∀ i ∈ policy v, exec i s = .next (s.send (.configRetry 0))) ∧
     ((s.link 0).trained = true → s.pkg.phase = 3 →
     (∀ v, exec (.pPluginWrite v) s = .next (s.setPart p { s.partn p with plugin := v % 256, plugOff := false, plugLate := false })) ∧
     (∀ v, ∃ t, exec (.gSitesWrite v) s = .next t ∧ (t.group s.pkg.gsel).sites = v % 2 ^ 24 ∧
       ∀ j < 16, j ≠ s.pkg.gsel → ∀ b, (t.group j).sites.testBit b = ((s.group j).sites.testBit b && decide (b < 24) && !v.testBit b)) ∧
     (∀ v, v % 16 = (s.partn p).group → exec (.pGroupWrite v) s = .next s) ∧
     (∀ v, v % 16 ≠ (s.partn p).group → ∃ t, exec (.pGroupWrite v) s = .next t ∧ (t.partn p).group = v % 16) ∧
     (∀ v, (v % 2 == 1) = y.sliced → exec (.gSlicedWrite v) s = .next s) ∧
     (∀ v, (v % 2 == 1) ≠ y.sliced → ∃ t, exec (.gSlicedWrite v) s = .next t ∧ (t.group s.pkg.gsel).sliced = (v % 2 == 1)) ∧
     (∀ v, s.pkg.fsel < 16 → exec (.fdescWrite v) s = .next s) ∧
     (∀ v : Nat, 16 ≤ s.pkg.fsel →
       let w : Word := BitVec.ofNat 32 v &&& 0x01FFFF0F
       let ok := if v % 16 = 11 then fdescOk w else fdescOk (BitVec.ofNat 32 v &&& 0x01FFFFFF)
       (ok = false → exec (.fdescWrite v) s = .next s) ∧
       (ok = true → exec (.fdescWrite v) s =
         .next (s.setPart p { s.partn p with fdesc := Tab.set (s.partn p).fdesc s.pkg.fsel w }))))) ∧
    (let q := s.partn g
     (q.plugin ≠ 0 → q.plugOff = false → q.plugLate = false → exec .pluginTimeout s = .next (s.setPart g { q with plugLate := true })) ∧
     (q.plugin ≠ 0 → exec .pluginFault s = .next (s.setPart g { q with plugOff := true })) ∧
     (q.plugin = 0 → exec .pluginTimeout s = .next s ∧ exec .pluginFault s = .next s))
end

