-- ==== Sys2Proof/Laws/Bytes.lean ====
section
/-! SUPPORT. The words that the encoder lays out, and what the decoder's field reads give on them. -/

namespace Sys2Proof

set_option Elab.async false

theorem leBytes_length (n x : Nat) : (leBytes n x).length = n := by
  induction n generalizing x with
  | zero => rfl
  | succ n ih => simp [leBytes, ih]

theorem leNat_leBytes (n x : Nat) : leNat (leBytes n x) = x % 2 ^ (8 * n) := by
  induction n generalizing x with
  | zero => simp [leBytes, leNat, Nat.mod_one]
  | succ n ih =>
    simp only [leBytes, leNat, ih, BitVec.toNat_ofNat]
    rw [show 8 * (n + 1) = 8 + 8 * n by omega, Nat.pow_add, Nat.mod_mul]

theorem take_leBytes (n x : Nat) (rest : List Byte) : (leBytes n x ++ rest).take n = leBytes n x := by
  rw [List.take_append_of_le_length (Nat.le_of_eq (leBytes_length n x).symm),
    List.take_of_length_le (Nat.le_of_eq (leBytes_length n x))]

theorem leNat_take (n x : Nat) (rest : List Byte) (h : x < 2 ^ (8 * n)) : leNat ((leBytes n x ++ rest).take n) = x := by
  rw [take_leBytes, leNat_leBytes, Nat.mod_eq_of_lt h]

theorem leNat_take_one (n x : Nat) (rest : List Byte) : leNat ((leBytes (n + 1) x ++ rest).take 1) = x % 256 := by
  simp [leBytes, leNat]

theorem length_word (n x : Nat) (rest : List Byte) (m : Nat) (h : m ≤ n) : ¬ (leBytes n x ++ rest).length < m := by
  rw [List.length_append, leBytes_length]; omega

/-- A bit-vector field is read as v when its bits are v's. -/
theorem bf_eq {w lo n : Nat} {v : BitVec n} (h : w / 2 ^ lo % 2 ^ n = v.toNat) : bf w lo n = v := by
  apply BitVec.eq_of_toNat_eq
  simp [bf, h]

theorem bit_eq {w lo : Nat} {b : Bool} (h : w / 2 ^ lo % 2 = b.toNat) : bit w lo = b := by
  cases b <;> simp_all [bit]

theorem bool_le (b : Bool) : b.toNat ≤ 1 := Bool.toNat_le b

/-- Both components of a candidate. -/
theorem cand_eq {i j : Instr} {r : Nat} (h : i = j) (hr : r = 0) : (some (i, r) : Cand) = some (j, 0) := by rw [h, hr]

/-- A word of the length-prefixed encodings, by its length code. -/
theorem parcels_32 (f g k : Nat → Cand) (x : Nat) (rest : List Byte) (h : x < 2 ^ 32) (h0 : x % 4 = 0) :
    decodeParcels f g k (leBytes 4 x ++ rest) = .word (judgeCand (f x)) 4 := by
  rw [decodeParcels, if_neg (length_word 4 x rest 4 (by omega)), leNat_take_one, leNat_take 4 x rest h]
  have : x % 256 % 4 = 0 := by omega
  rw [this]
  rfl

theorem parcels_64 (f g k : Nat → Cand) (x : Nat) (rest : List Byte) (h : x < 2 ^ 64) (h0 : x % 4 = 1) :
    decodeParcels f g k (leBytes 8 x ++ rest) = .word (judgeCand (g x)) 8 := by
  rw [decodeParcels, if_neg (length_word 8 x rest 4 (by omega)), leNat_take_one, leNat_take 8 x rest h,
    if_neg (length_word 8 x rest 8 (by omega))]
  have : x % 256 % 4 = 1 := by omega
  rw [this]
  rfl

theorem parcels_96 (f g k : Nat → Cand) (x : Nat) (rest : List Byte) (h : x < 2 ^ 96) (h0 : x % 4 = 2) :
    decodeParcels f g k (leBytes 12 x ++ rest) = .word (judgeCand (k x)) 12 := by
  rw [decodeParcels, if_neg (length_word 12 x rest 4 (by omega)), leNat_take_one, leNat_take 12 x rest h,
    if_neg (length_word 12 x rest 12 (by omega))]
  have : x % 256 % 4 = 2 := by omega
  rw [this]
  rfl

theorem judge_ok {i : Instr} (h : (i.reservedZero && i.valuesOk && i.regsOk) = true) : judgeCand (some (i, 0)) = i := by
  simp only [Bool.and_eq_true] at h
  simp [judgeCand, judge, h]

/-! Control stream -/

theorem control_32 {i : Instr} (x : Nat) (rest : List Byte) (h : x < 2 ^ 32) (h0 : x % 4 = 0)
    (hw : (i.reservedZero && i.valuesOk && i.regsOk) = true) (hx : c32Instr x = some (i, 0)) :
    decodeFor 0 (leBytes 4 x ++ rest) = .word i (leBytes 4 x).length := by
  rw [leBytes_length]
  show decodeControl _ = _
  rw [decodeControl, parcels_32 _ _ _ _ _ h h0, hx, judge_ok hw]

theorem control_64 {i : Instr} (x : Nat) (rest : List Byte) (h : x < 2 ^ 64) (h0 : x % 4 = 1)
    (hw : (i.reservedZero && i.valuesOk && i.regsOk) = true) (hx : c64Instr x = some (i, 0)) :
    decodeFor 0 (leBytes 8 x ++ rest) = .word i (leBytes 8 x).length := by
  rw [leBytes_length]
  show decodeControl _ = _
  rw [decodeControl, parcels_64 _ _ _ _ _ h h0, hx, judge_ok hw]

theorem control_96 {i : Instr} (x : Nat) (rest : List Byte) (h : x < 2 ^ 96) (h0 : x % 4 = 2)
    (hw : (i.reservedZero && i.valuesOk && i.regsOk) = true) (hx : c96Instr x = some (i, 0)) :
    decodeFor 0 (leBytes 12 x ++ rest) = .word i (leBytes 12 x).length := by
  rw [leBytes_length]
  show decodeControl _ = _
  rw [decodeControl, parcels_96 _ _ _ _ _ h h0, hx, judge_ok hw]

/-- The fields of a register-form control word (R338). -/
theorem c32R_fields (op : Nat) (d a b : BitVec 6) (fn : Nat) (ho : op < 64) (hf : fn < 64) :
    ∃ x, encC32R op d a b fn = leBytes 4 x ∧ x < 2 ^ 32 ∧ x % 4 = 0 ∧ fld x 2 6 = op ∧ bf x 8 6 = d ∧ bf x 14 6 = a ∧ bf x 20 6 = b ∧ fld x 26 6 = fn ∧
    fld x 8 12 = d.toNat + a.toNat * 64 ∧ fld x 20 12 = b.toNat + fn * 64 ∧ fld x 14 18 = a.toNat + (b.toNat + fn * 64) * 64 ∧
    fld x 8 24 = d.toNat + a.toNat * 64 + (b.toNat + fn * 64) * 4096 := by
  have hd := d.isLt
  have ha := a.isLt
  have hb := b.isLt
  simp only [fld]
  refine ⟨op * 2 ^ 2 + d.toNat * 2 ^ 8 + a.toNat * 2 ^ 14 + b.toNat * 2 ^ 20 + fn * 2 ^ 26, rfl, by omega, by omega, by omega, bf_eq (by omega), bf_eq (by omega), bf_eq (by omega), by omega, by omega, by omega,
    by omega, by omega⟩

/-- The fields of an immediate-form control word (R338): a field at or above bit 20 is one of the immediate. -/
theorem c32I_fields (op : Nat) (d a : BitVec 6) (imm : Nat) (ho : op < 64) (hi : imm < 4096) :
    ∃ x, encC32I op d a imm = leBytes 4 x ∧ x < 2 ^ 32 ∧ x % 4 = 0 ∧ fld x 2 6 = op ∧ bf x 8 6 = d ∧ bf x 14 6 = a ∧
    fld x 8 12 = d.toNat + a.toNat * 64 ∧ x / 2 ^ 20 = imm := by
  have hd := d.isLt
  have ha := a.isLt
  simp only [fld]
  refine ⟨op * 2 ^ 2 + d.toNat * 2 ^ 8 + a.toNat * 2 ^ 14 + imm * 2 ^ 20, rfl, by omega, by omega, by omega, bf_eq (by omega), bf_eq (by omega), by omega, by omega⟩

/-- The fields of a memory word (R339). -/
theorem c64_fields (op sz : Nat) (m : MemArg) (ho : op < 64) (hs : sz < 64) :
    ∃ x, encC64 op sz m = leBytes 8 x ∧ x < 2 ^ 64 ∧ x % 4 = 1 ∧ fld x 2 6 = op ∧ fld x 20 6 = sz ∧ fld x 25 1 = sz / 32 ∧ x / 2 ^ 24 % 2 = sz / 16 % 2 ∧ fld x 63 1 = 0 ∧
    memArgOf x = m := by
  obtain ⟨scope, order, imm, aux, base, d⟩ := m
  have h1 := scope.isLt
  have h2 := order.isLt
  have h3 := imm.isLt
  have h4 := aux.isLt
  have h5 := base.isLt
  have h6 := d.isLt
  simp only [fld, memArgOf, MemArg.mk.injEq]
  refine ⟨1 + op * 2 ^ 2 + d.toNat * 2 ^ 8 + base.toNat * 2 ^ 14 + sz * 2 ^ 20 + aux.toNat * 2 ^ 26 + imm.toNat * 2 ^ 32 + order.toNat * 2 ^ 56 + scope.toNat * 2 ^ 60, rfl, by omega, by omega, by omega, by omega, by omega, by omega, by omega, bf_eq (by omega), bf_eq (by omega), bf_eq (by omega),
    bf_eq (by omega), bf_eq (by omega), bf_eq (by omega)⟩

/-- The fields of a loop word (R344). -/
theorem loop_fields (op : Nat) (a : BitVec 6) (bodyw : BitVec 14) (stg : BitVec 3) (id : BitVec 8) (max : BitVec 32)
    (ho : op < 64) :
    ∃ x, encLoop op a bodyw stg id max = leBytes 12 x ∧ x < 2 ^ 96 ∧ x % 4 = 2 ∧ fld x 2 6 = op ∧ bf x 14 6 = a ∧ bf x 32 14 = bodyw ∧ bf x 48 3 = stg ∧ bf x 56 8 = id ∧
    bf x 64 32 = max ∧ fld x 8 6 = 0 ∧ fld x 20 12 = 0 ∧ fld x 46 2 = 0 ∧ fld x 51 5 = 0 := by
  have h1 := a.isLt
  have h2 := bodyw.isLt
  have h3 := stg.isLt
  have h4 := id.isLt
  have h5 := max.isLt
  simp only [fld]
  refine ⟨2 + op * 2 ^ 2 + a.toNat * 2 ^ 14 + bodyw.toNat * 2 ^ 32 + stg.toNat * 2 ^ 48 + id.toNat * 2 ^ 56 + max.toNat * 2 ^ 64, rfl, by omega, by omega, by omega, bf_eq (by omega), bf_eq (by omega), bf_eq (by omega), bf_eq (by omega),
    bf_eq (by omega), by omega, by omega, by omega, by omega⟩

/-! Vector stream -/

theorem vector_32 {i : Instr} (x : Nat) (rest : List Byte) (h : x < 2 ^ 32) (h0 : x % 4 = 0) (hg : fld x 8 4 = 12)
    (hw : (i.reservedZero && i.valuesOk && i.regsOk) = true) (hx : v32Op x = some (i, 0)) :
    decodeFor 1 (leBytes 4 x ++ rest) = .word i (leBytes 4 x).length := by
  rw [leBytes_length]
  show decodeVector _ = _
  simp only [Bool.and_eq_true] at hw
  have h4 : ((decide (4 ≤ (leBytes 4 x ++ rest).length)) && (leNat ((leBytes 4 x ++ rest).take 1) % 4 == 0)) = true := by
    rw [leNat_take_one, List.length_append, leBytes_length]
    simp only [Bool.and_eq_true, decide_eq_true_eq, beq_iff_eq]
    omega
  rw [decodeVector, if_pos h4, leNat_take 4 x rest h, judgeV32, hx]
  simp [hg, judge, hw]

theorem vector_64 {i : Instr} (x : Nat) (rest : List Byte) (h : x < 2 ^ 64) (h0 : x % 4 = 1)
    (hw : (i.reservedZero && i.valuesOk && i.regsOk) = true) (hx : v64Instr x = some (i, 0)) :
    decodeFor 1 (leBytes 8 x ++ rest) = .word i (leBytes 8 x).length := by
  rw [leBytes_length]
  show decodeVector _ = _
  rw [decodeVector, if_neg (by rw [leNat_take_one]; simp; omega), parcels_64 _ _ _ _ _ h h0, hx, judge_ok hw]

theorem vector_96 {i : Instr} (x : Nat) (rest : List Byte) (h : x < 2 ^ 96) (h0 : x % 4 = 2)
    (hw : (i.reservedZero && i.valuesOk && i.regsOk) = true) (hx : v96Instr x = some (i, 0)) :
    decodeFor 1 (leBytes 12 x ++ rest) = .word i (leBytes 12 x).length := by
  rw [leBytes_length]
  show decodeVector _ = _
  rw [decodeVector, if_neg (by rw [leNat_take_one]; simp; omega), parcels_96 _ _ _ _ _ h h0, hx, judge_ok hw]

/-- The fields of a V32 word (R345): a field at or above bit 12 is one of its operand field. -/
theorem v32_fields (op y : Nat) (ho : op < 64) (hy : y < 2 ^ 20) :
    ∃ x, encV32 op y = leBytes 4 x ∧ x < 2 ^ 32 ∧ x % 4 = 0 ∧ fld x 8 4 = 12 ∧ fld x 2 6 = op ∧ x / 2 ^ 12 = y := by
  simp only [fld]
  refine ⟨op * 2 ^ 2 + 12 * 2 ^ 8 + y * 2 ^ 12, rfl, by omega, by omega, by omega, by omega, by omega⟩

/-- The bound of the fields of a V64 word above its length code. -/
theorem vArgWord_lt (op : Nat) (v : VArg) (ho : op < 64) : vArgWord op v < 2 ^ 61 := by
  have h1 := v.guard.isLt
  have h2 := v.ty.isLt
  have h3 := v.vd.isLt
  have h4 := v.va.isLt
  have h5 := v.vb.isLt
  have h6 := v.dix.isLt
  have h7 := v.aix.isLt
  have h8 := v.bix.isLt
  simp only [vArgWord]
  omega

/-- The fields of a word whose low 61 bits are those of a V64 word (R346). -/
theorem vArg_fields (op c hi : Nat) (v : VArg) (ext : VExt) (ho : op < 64) (hc : c < 4) :
    let x := c + vArgWord op v + hi * 2 ^ 61
    x % 4 = c ∧ fld x 2 6 = op ∧ x / 2 ^ 61 = hi ∧ vArgOf x ext = { v with ext := ext } := by
  obtain ⟨guard, ty, vd, va, vb, dix, aix, bix, e⟩ := v
  have h1 := guard.isLt
  have h2 := ty.isLt
  have h3 := vd.isLt
  have h4 := va.isLt
  have h5 := vb.isLt
  have h6 := dix.isLt
  have h7 := aix.isLt
  have h8 := bix.isLt
  simp only [fld, vArgOf, vArgWord, VArg.mk.injEq]
  refine ⟨by omega, by omega, by omega, bf_eq (by omega), bf_eq (by omega), bf_eq (by omega), bf_eq (by omega), bf_eq (by omega),
    bf_eq (by omega), bf_eq (by omega), bf_eq (by omega), trivial⟩

/-- A V64 opcode written in either form decodes to its instruction. -/
theorem vector_v (op : Nat) (v : VArg) (i : Instr) (rest : List Byte) (ho : op < 64) (hv : vOp op v = some i)
    (hw : (i.reservedZero && i.valuesOk && i.regsOk) = true) :
    decodeFor 1 (encV op v ++ rest) = .word i (encV op v).length := by
  have hl := vArgWord_lt op v ho
  obtain ⟨guard, ty, vd, va, vb, dix, aix, bix, ext⟩ := v
  cases ext with
  | v64 it =>
    have hi := it.isLt
    simp only [encV]
    obtain ⟨f1, f2, f3, f4⟩ := vArg_fields op 1 it.toNat ⟨guard, ty, vd, va, vb, dix, aix, bix, .v64 it⟩ (.v64 it) ho (by omega)
    have f5 : bf (1 + vArgWord op ⟨guard, ty, vd, va, vb, dix, aix, bix, .v64 it⟩ + it.toNat * 2 ^ 61) 61 2 = it := bf_eq (by rw [f3]; omega)
    have f6 : fld (1 + vArgWord op ⟨guard, ty, vd, va, vb, dix, aix, bix, .v64 it⟩ + it.toNat * 2 ^ 61) 63 1 = 0 := by simp only [fld]; omega
    refine vector_64 _ _ (by omega) f1 hw ?_
    rw [v64Instr, f2, f5, f4, f6, hv]
    rfl
  | v96 sd sa sb lvl it =>
    have h1 := sd.isLt
    have h2 := sa.isLt
    have h3 := sb.isLt
    have h4 := lvl.isLt
    have h5 := it.isLt
    simp only [encV]
    generalize hk : sd.toNat * 8 + sa.toNat * 2 ^ 11 + sb.toNat * 2 ^ 19 + lvl.toNat * 2 ^ 27 + it.toNat * 2 ^ 30 = k
    have e : 2 + vArgWord op ⟨guard, ty, vd, va, vb, dix, aix, bix, .v96 sd sa sb lvl it⟩ + sd.toNat * 2 ^ 64 + sa.toNat * 2 ^ 72
        + sb.toNat * 2 ^ 80 + lvl.toNat * 2 ^ 88 + it.toNat * 2 ^ 91
        = 2 + vArgWord op ⟨guard, ty, vd, va, vb, dix, aix, bix, .v96 sd sa sb lvl it⟩ + k * 2 ^ 61 := by omega
    rw [e]
    obtain ⟨f1, f2, f3, f4⟩ := vArg_fields op 2 k ⟨guard, ty, vd, va, vb, dix, aix, bix, .v96 sd sa sb lvl it⟩
      (.v96 sd sa sb lvl it) ho (by omega)
    obtain ⟨x, hx⟩ : ∃ x, x = 2 + vArgWord op ⟨guard, ty, vd, va, vb, dix, aix, bix, .v96 sd sa sb lvl it⟩ + k * 2 ^ 61 := ⟨_, rfl⟩
    rw [← hx] at f1 f2 f3 f4 ⊢
    have g1 : bf x 64 8 = sd := bf_eq (by omega)
    have g2 : bf x 72 8 = sa := bf_eq (by omega)
    have g3 : bf x 80 8 = sb := bf_eq (by omega)
    have g4 : bf x 88 3 = lvl := bf_eq (by omega)
    have g5 : bf x 91 2 = it := bf_eq (by omega)
    have g6 : fld x 61 3 = 0 := by simp only [fld]; omega
    have g7 : fld x 93 3 = 0 := by simp only [fld]; omega
    refine vector_96 _ _ (by omega) f1 hw ?_
    rw [v96Instr, f2, g1, g2, g3, g4, g5, f4, hv, g6, g7]

/-- An immediate form decodes to its instruction. -/
theorem vector_imm (op : Nat) (v : VImm) (i : Instr) (rest : List Byte) (ho : op < 64) (hv : vImmOp op v = some i)
    (hn : ∀ a, vOp op a = none) (hw : (i.reservedZero && i.valuesOk && i.regsOk) = true) :
    decodeFor 1 (encVImm op v ++ rest) = .word i (encVImm op v).length := by
  have h1 := v.guard.isLt
  have h2 := v.ty.isLt
  have h3 := v.vd.isLt
  have h4 := v.va.isLt
  have h5 := v.dix.isLt
  have h6 := v.aix.isLt
  have h7 := v.iter.isLt
  have h8 := v.imm.isLt
  have g0 : ∀ x, x = 2 + op * 2 ^ 2 + v.guard.toNat * 2 ^ 8 + v.ty.toNat * 2 ^ 12 + v.vd.toNat * 2 ^ 16
      + v.va.toNat * 2 ^ 28 + v.dix.toNat * 2 ^ 52 + v.aix.toNat * 2 ^ 55 + v.iter.toNat * 2 ^ 61
      + v.imm.toNat * 2 ^ 64 → x < 2 ^ 96 ∧ x % 4 = 2 ∧ fld x 2 6 = op ∧ vImmOf x = v ∧ fld x 40 12 = 0 ∧ fld x 58 3 = 0 ∧
      fld x 63 1 = 0 := by
    intro x hx
    obtain ⟨guard, ty, vd, va, dix, aix, iter, imm⟩ := v
    simp only [fld, vImmOf, VImm.mk.injEq] at *
    refine ⟨by omega, by omega, by omega, ⟨bf_eq (by omega), bf_eq (by omega), bf_eq (by omega), bf_eq (by omega), bf_eq (by omega),
      bf_eq (by omega), bf_eq (by omega), bf_eq (by omega)⟩, by omega, by omega, by omega⟩
  obtain ⟨f1, f2, f3, f4, f5, f6, f7⟩ := g0 _ rfl
  simp only [encVImm]
  refine vector_96 _ _ f1 f2 hw ?_
  rw [v96Instr, f3, f4, hn, hv, f5, f6, f7]
  rfl

/-! Matrix stream -/

theorem matrix_word {i : Instr} (x : Nat) (rest : List Byte) (h : x < 2 ^ 192)
    (hw : (i.reservedZero && i.valuesOk && i.regsOk) = true) (hx : mInstr x = some (i, 0)) :
    decodeFor 2 (leBytes 24 x ++ rest) = .word i (leBytes 24 x).length := by
  rw [leBytes_length]
  show decodeMatrix _ = _
  rw [decodeMatrix, if_neg (length_word 24 x rest 24 (by omega)), leNat_take 24 x rest h, hx, judge_ok hw]

/-- An operand dword. -/
theorem mOpd_lt (a : MOpd) : mOpdWord a < 2 ^ 28 := by
  have h1 := a.group.isLt
  have h2 := a.agen.isLt
  have h3 := a.addr.isLt
  simp only [mOpdWord]
  omega

theorem mOpdOf_eq (x lo : Nat) (a : MOpd) (h : x / 2 ^ lo % 2 ^ 28 = mOpdWord a) : mOpdOf x lo = a := by
  obtain ⟨group, agen, addr⟩ := a
  have h1 := group.isLt
  have h2 := agen.isLt
  have h3 := addr.isLt
  simp only [mOpdWord] at h
  simp only [mOpdOf, MOpd.mk.injEq]
  refine ⟨bf_eq ?_, bf_eq ?_, bf_eq (by omega)⟩
  · rw [Nat.pow_add, ← Nat.div_div_eq_div_mul]; omega
  · rw [Nat.pow_add, ← Nat.div_div_eq_div_mul]; omega

theorem mHead_lt (op : Nat) (h : MHead) (ho : op < 64) : mHeadWord op h < 2 ^ 30 := by
  have h1 := h.acc.isLt
  have h2 := h.iter.isLt
  have h3 := h.lvl.isLt
  have h4 := bool_le h.lvlen
  have h5 := h.fmta.isLt
  have h6 := h.fmtb.isLt
  have h7 := bool_le h.int
  have h8 := h.round.isLt
  have h9 := bool_le h.scaled
  simp only [mHeadWord]
  omega

theorem mScale_lt (t : MScale) : mScaleWord t < 2 ^ 12 := by
  have h1 := t.sca.isLt
  have h2 := t.scb.isLt
  have h3 := bool_le t.coded
  have h4 := t.segf.isLt
  have h5 := t.segnm1.isLt
  simp only [mScaleWord]
  omega

theorem mHeadOf_eq (op x : Nat) (h : MHead) (ho : op < 64) (hx : x % 2 ^ 30 = mHeadWord op h) :
    fld x 0 6 = op ∧ mHeadOf x = h := by
  obtain ⟨scaled, round, int, fmtb, fmta, lvlen, lvl, iter, acc⟩ := h
  have h1 := acc.isLt
  have h2 := iter.isLt
  have h3 := lvl.isLt
  have h4 := bool_le lvlen
  have h5 := fmta.isLt
  have h6 := fmtb.isLt
  have h7 := bool_le int
  have h8 := round.isLt
  have h9 := bool_le scaled
  simp only [mHeadWord] at hx
  simp only [fld, mHeadOf, MHead.mk.injEq]
  refine ⟨by omega, bit_eq (by omega), bf_eq (by omega), bit_eq (by omega), bf_eq (by omega), bf_eq (by omega), bit_eq (by omega),
    bf_eq (by omega), bf_eq (by omega), bf_eq (by omega)⟩

theorem mScaleOf_eq (x : Nat) (t : MScale) (hx : x / 2 ^ 96 = mScaleWord t) :
    mScaleOf x = t ∧ fld x 101 3 = 0 ∧ fld x 108 20 = 0 ∧ fld x 128 64 = 0 := by
  obtain ⟨segnm1, segf, coded, scb, sca⟩ := t
  have h1 := sca.isLt
  have h2 := scb.isLt
  have h3 := bool_le coded
  have h4 := segf.isLt
  have h5 := segnm1.isLt
  simp only [mScaleWord] at hx
  simp only [fld, mScaleOf, MScale.mk.injEq]
  refine ⟨⟨bf_eq (by omega), bf_eq (by omega), bit_eq (by omega), bf_eq (by omega), bf_eq (by omega)⟩, by omega, by omega, by omega⟩

/-- The fields of a step word (R350). -/
theorem step_fields (op : Nat) (h : MHead) (a b : MOpd) (t : MScale) (ho : op < 64) :
    ∃ x, encStep op h a b t = leBytes 24 x ∧ x < 2 ^ 192 ∧ fld x 0 6 = op ∧ mHeadOf x = h ∧ mOpdOf x 32 = a ∧ mOpdOf x 64 = b ∧
      mScaleOf x = t ∧ mStepRes x = 0 := by
  have h1 := mHead_lt op h ho
  have h2 := mOpd_lt a
  have h3 := mOpd_lt b
  have h4 := mScale_lt t
  obtain ⟨x, hx⟩ : ∃ x, x = mHeadWord op h + mOpdWord a * 2 ^ 32 + mOpdWord b * 2 ^ 64 + mScaleWord t * 2 ^ 96 := ⟨_, rfl⟩
  have p1 := mHeadOf_eq op x h ho (by omega)
  have p2 := mOpdOf_eq x 32 a (by omega)
  have p3 := mOpdOf_eq x 64 b (by omega)
  have p4 := mScaleOf_eq x t (by omega)
  refine ⟨x, by rw [hx]; rfl, by omega, p1.1, p1.2, p2, p3, p4.1, ?_⟩
  rw [mStepRes, p4.2.1, p4.2.2.1, p4.2.2.2]
  simp only [fld]
  omega

/-- The fields of a drain word (R350). -/
theorem drain_fields (o : MOut) :
    ∃ x, encDrain o = leBytes 24 x ∧ x < 2 ^ 192 ∧ fld x 0 6 = 8 ∧ mOutOf x = o ∧ fld x 20 7 = 0 ∧ fld x 29 3 = 0 ∧ fld x 32 96 = 0 ∧ fld x 158 2 = 0 ∧
    fld x 191 1 = 0 := by
  obtain ⟨round, fmta, lvlen, lvl, iter, acc, zs, dual, pack, seedsel, dropen, resen, resaddr, dstsel, dropth, dst⟩ := o
  have h1 := round.isLt
  have h2 := fmta.isLt
  have h3 := bool_le lvlen
  have h4 := lvl.isLt
  have h5 := iter.isLt
  have h6 := acc.isLt
  have h7 := bool_le zs
  have h8 := bool_le dual
  have h9 := pack.isLt
  have h10 := seedsel.isLt
  have h11 := bool_le dropen
  have h12 := bool_le resen
  have h13 := resaddr.isLt
  have h14 := dstsel.isLt
  have h15 := dropth.isLt
  have h16 := dst.isLt
  simp only [fld, mOutOf, MOut.mk.injEq]
  refine ⟨8 + acc.toNat * 2 ^ 6 + iter.toNat * 2 ^ 8 + lvl.toNat * 2 ^ 10 + lvlen.toNat * 2 ^ 13 + fmta.toNat * 2 ^ 14 + round.toNat * 2 ^ 27 + resaddr.toNat * 2 ^ 128 + resen.toNat * 2 ^ 148 + dropen.toNat * 2 ^ 149 + seedsel.toNat * 2 ^ 150 + pack.toNat * 2 ^ 152 + dual.toNat * 2 ^ 156 + zs.toNat * 2 ^ 157 + dst.toNat * 2 ^ 160 + dropth.toNat * 2 ^ 180 + dstsel.toNat * 2 ^ 188, rfl, by omega, by omega, ⟨bf_eq (by omega), bf_eq (by omega), bit_eq (by omega), bf_eq (by omega), bf_eq (by omega), bf_eq (by omega),
    bit_eq (by omega), bit_eq (by omega), bf_eq (by omega), bf_eq (by omega), bit_eq (by omega), bit_eq (by omega), bf_eq (by omega),
    bf_eq (by omega), bf_eq (by omega), bf_eq (by omega)⟩, by omega, by omega, by omega, by omega, by omega⟩

/-- The fields of an `msync` word (R351, R467). -/
theorem msync_fields (kind num fin cnt : Nat) (hk : kind < 8) (hn : num < 32) (hf : fin < 2) (hc : cnt < 65536) :
    ∃ x, encMsync kind num fin cnt = leBytes 24 x ∧ x < 2 ^ 192 ∧ fld x 0 6 = 9 ∧ fld x 6 26 = 0 ∧ fld x 64 128 = 0 ∧
      fld x 32 32 = num + fin * 2 ^ 5 + kind * 2 ^ 6 + cnt * 2 ^ 16 := by
  simp only [fld]
  refine ⟨9 + (num + fin * 2 ^ 5 + kind * 2 ^ 6 + cnt * 2 ^ 16) * 2 ^ 32, rfl, by omega, by omega, by omega, by omega, by omega⟩

/-! Sort stream -/

theorem sort_word {i : Instr} (x : Nat) (rest : List Byte) (h : x < 2 ^ 64)
    (hw : (i.reservedZero && i.valuesOk && i.regsOk) = true) (hx : kInstr x = some (i, 0)) :
    decodeFor 7 (leBytes 8 x ++ rest) = .word i (leBytes 8 x).length := by
  rw [leBytes_length]
  show decodeSort _ = _
  rw [decodeSort, if_neg (length_word 8 x rest 8 (by omega)), leNat_take 8 x rest h, hx, judge_ok hw]

/-- The fields of a sort word (R352). -/
theorem sort_fields (op : Nat) (k : SArg) (ho : op < 64) :
    ∃ x, encSort op k = leBytes 8 x ∧ x < 2 ^ 64 ∧ fld x 0 6 = op ∧ sArgOf x = k := by
  obtain ⟨param, addrd, addra, nm1, vals, desc, kfmt⟩ := k
  have h1 := param.isLt
  have h2 := addrd.isLt
  have h3 := addra.isLt
  have h4 := nm1.isLt
  have h5 := bool_le vals
  have h6 := bool_le desc
  have h7 := kfmt.isLt
  simp only [fld, sArgOf, SArg.mk.injEq]
  refine ⟨op + kfmt.toNat * 2 ^ 6 + desc.toNat * 2 ^ 10 + vals.toNat * 2 ^ 11 + nm1.toNat * 2 ^ 12 + addra.toNat * 2 ^ 19 + addrd.toNat * 2 ^ 37 + param.toNat * 2 ^ 55, rfl, by omega, by omega, bf_eq (by omega), bf_eq (by omega), bf_eq (by omega), bf_eq (by omega), bit_eq (by omega), bit_eq (by omega),
    bf_eq (by omega)⟩

/-- The fields of a `kend` word (R352). -/
theorem kend_fields (kind num fin cnt : Nat) (hk : kind < 8) (hn : num < 32) (hf : fin < 2) (hc : cnt < 65536) :
    ∃ x, encKend kind num fin cnt = leBytes 8 x ∧ x < 2 ^ 64 ∧ fld x 0 6 = 6 ∧ fld x 55 3 = kind ∧ fld x 6 13 = 0 ∧ fld x 35 20 = 0 ∧ fld x 19 16 = cnt ∧ x / 2 ^ 19 % 2 ^ 16 = cnt ∧
    x / 2 ^ 58 = num + fin * 32 := by
  simp only [fld]
  refine ⟨6 + cnt * 2 ^ 19 + kind * 2 ^ 55 + num * 2 ^ 58 + fin * 2 ^ 63, rfl, by omega, by omega, by omega, by omega, by omega, by omega, by omega, by omega⟩

/-! Side cores -/

theorem side_word (x : Nat) (rest : List Byte) (h : x < 2 ^ 32) (h0 : x % 4 = 3) :
    decodeFor 4 (leBytes 4 x ++ rest) = .word (side32 x) (leBytes 4 x).length := by
  rw [leBytes_length]
  show decodeSide _ = _
  rw [decodeSide, if_neg (length_word 4 x rest 2 (by omega)), leNat_take_one, if_pos (by simp; omega),
    if_neg (length_word 4 x rest 4 (by omega)), leNat_take 4 x rest h]

/-- The fields of an R-type word. -/
theorem encR_fields (op f3 rd rs1 rs2 f7 : Nat) (h1 : op < 128) (h2 : f3 < 8) (h3 : rd < 32) (h4 : rs1 < 32) (h5 : rs2 < 32)
    (h6 : f7 < 128) :
    ∃ x, encR op f3 rd rs1 rs2 f7 = leBytes 4 x ∧ x < 2 ^ 32 ∧ x % 128 = op ∧ fld x 0 7 = op ∧ fld x 12 3 = f3 ∧ fld x 25 7 = f7 ∧ fld x 20 5 = rs2 ∧ x / 2 ^ 7 % 2 ^ 5 = rd ∧
    x / 2 ^ 12 % 2 ^ 3 = f3 ∧ x / 2 ^ 15 % 2 ^ 5 = rs1 ∧ x / 2 ^ 20 % 2 ^ 5 = rs2 ∧ x / 2 ^ 20 = rs2 + f7 * 32 := by
  simp only [fld]
  refine ⟨op + rd * 2 ^ 7 + f3 * 2 ^ 12 + rs1 * 2 ^ 15 + rs2 * 2 ^ 20 + f7 * 2 ^ 25, rfl, by omega, by omega, by omega, by omega, by omega, by omega, by omega, by omega, by omega, by omega, by omega⟩

/-- The fields of an I-type word. -/
theorem encI_fields (op f3 rd rs1 imm : Nat) (h1 : op < 128) (h2 : f3 < 8) (h3 : rd < 32) (h4 : rs1 < 32) (h5 : imm < 4096) :
    ∃ x, encI op f3 rd rs1 imm = leBytes 4 x ∧ x < 2 ^ 32 ∧ x % 128 = op ∧ fld x 0 7 = op ∧ x / 2 ^ 7 % 2 ^ 5 = rd ∧ x / 2 ^ 12 % 2 ^ 3 = f3 ∧ x / 2 ^ 15 % 2 ^ 5 = rs1 ∧
    x / 2 ^ 20 % 2 ^ 12 = imm := by
  simp only [fld]
  refine ⟨op + rd * 2 ^ 7 + f3 * 2 ^ 12 + rs1 * 2 ^ 15 + imm * 2 ^ 20, rfl, by omega, by omega, by omega, by omega, by omega, by omega, by omega⟩

/-- A base word is read as its operation. -/
theorem side_base {x : Nat} {op : RvOp} (h : rvBase x = some op) (ok : op.ok = true) (h1 : fld x 0 7 ≠ 0x0B)
    (h2 : fld x 0 7 ≠ 0x2B) (h3 : fld x 0 7 ≠ 0x73) : side32 x = .rv32imcBaseInstruction false op := by
  have h4 : x ≠ 0x73 := fun e => h3 (by rw [e]; decide)
  have h5 : x ≠ 0x100073 := fun e => h3 (by rw [e]; decide)
  simp [side32, h, ok, h1, h2, h4, h5]

/-- Both halves of a register-form operation. -/
theorem rv_r (op f3 f7 : Nat) (rd rs1 rs2 : BitVec 5) (o : RvOp) (rest : List Byte) (h1 : op < 128) (h2 : f3 < 8) (h6 : f7 < 128)
    (h3 : op % 4 = 3) (hn : op ≠ 0x0B ∧ op ≠ 0x2B ∧ op ≠ 0x73) (ok : o.ok = true)
    (ho : ∀ x, fld x 0 7 = op → bf x 12 3 = BitVec.ofNat 3 f3 → fld x 25 7 = f7 → bf x 7 5 = rd → bf x 15 5 = rs1 → bf x 20 5 = rs2 →
      x / 2 ^ 7 % 2 ^ 5 = rd.toNat → rvBase x = some o) :
    decodeFor 4 (encR op f3 rd.toNat rs1.toNat rs2.toNat f7 ++ rest) =
      .word (.rv32imcBaseInstruction false o) (encR op f3 rd.toNat rs1.toNat rs2.toNat f7).length := by
  obtain ⟨x, hx, f1, f2, f3', f4, f5, f6, f7', f8, f9, f10, f11⟩ :=
    encR_fields op f3 rd.toNat rs1.toNat rs2.toNat f7 h1 h2 rd.isLt rs1.isLt rs2.isLt h6
  rw [hx, side_word x rest f1 (by omega), side_base (ho x f3' ?_ f5 (bf_eq f7') (bf_eq f9) (bf_eq f10) f7') ok]
  · rw [f3']; exact hn.1
  · rw [f3']; exact hn.2.1
  · rw [f3']; exact hn.2.2
  · exact bf_eq (by rw [f8]; simp; omega)

/-- An immediate-form operation. -/
theorem rv_i (op : Nat) (f3 : BitVec 3) (rd rs1 : BitVec 5) (imm : BitVec 12) (o : RvOp) (rest : List Byte) (h1 : op < 128)
    (h3 : op % 4 = 3) (hn : op ≠ 0x0B ∧ op ≠ 0x2B ∧ op ≠ 0x73) (ok : o.ok = true)
    (ho : ∀ x, fld x 0 7 = op → bf x 12 3 = f3 → bf x 7 5 = rd → bf x 15 5 = rs1 → bf x 20 12 = imm → rvBase x = some o) :
    decodeFor 4 (encI op f3.toNat rd.toNat rs1.toNat imm.toNat ++ rest) =
      .word (.rv32imcBaseInstruction false o) (encI op f3.toNat rd.toNat rs1.toNat imm.toNat).length := by
  obtain ⟨x, hx, f1, f2, f3', f4, f5, f6, f7'⟩ :=
    encI_fields op f3.toNat rd.toNat rs1.toNat imm.toNat h1 f3.isLt rd.isLt rs1.isLt imm.isLt
  rw [hx, side_word x rest f1 (by omega), side_base (ho x f3' (bf_eq f5) (bf_eq f4) (bf_eq f6) (bf_eq f7')) ok]
  · rw [f3']; exact hn.1
  · rw [f3']; exact hn.2.1
  · rw [f3']; exact hn.2.2

/-- Every base operation, in its 32-bit form. -/
theorem side_rv (op : RvOp) (rest : List Byte) (ok : op.ok = true) :
    decodeFor 4 (encRv op ++ rest) = .word (.rv32imcBaseInstruction false op) (encRv op).length := by
  cases op with
  | lui rd imm =>
    have h1 := rd.isLt
    have h2 := imm.isLt
    obtain ⟨x, hx⟩ : ∃ x, x = 0x37 + rd.toNat * 2 ^ 7 + imm.toNat * 2 ^ 12 := ⟨_, rfl⟩
    have f : fld x 0 7 = 0x37 := by simp only [fld]; omega
    have g1 : bf x 7 5 = rd := bf_eq (by omega)
    have g2 : bf x 12 20 = imm := bf_eq (by omega)
    show decodeFor 4 (leBytes 4 (0x37 + rd.toNat * 2 ^ 7 + imm.toNat * 2 ^ 12) ++ rest) = .word _ (leBytes 4 _).length
    rw [← hx, side_word x rest (by omega) (by omega), side_base (by simp only [rvBase, f, g1, g2]) ok (by omega) (by omega) (by omega)]
  | auipc rd imm =>
    have h1 := rd.isLt
    have h2 := imm.isLt
    obtain ⟨x, hx⟩ : ∃ x, x = 0x17 + rd.toNat * 2 ^ 7 + imm.toNat * 2 ^ 12 := ⟨_, rfl⟩
    have f : fld x 0 7 = 0x17 := by simp only [fld]; omega
    have g1 : bf x 7 5 = rd := bf_eq (by omega)
    have g2 : bf x 12 20 = imm := bf_eq (by omega)
    show decodeFor 4 (leBytes 4 (0x17 + rd.toNat * 2 ^ 7 + imm.toNat * 2 ^ 12) ++ rest) = .word _ (leBytes 4 _).length
    rw [← hx, side_word x rest (by omega) (by omega), side_base (by simp only [rvBase, f, g1, g2]) ok (by omega) (by omega) (by omega)]
  | jal rd off =>
    have h1 := rd.isLt
    have h2 := off.isLt
    obtain ⟨a, ha⟩ : ∃ a, a = fld off.toNat 0 10 := ⟨_, rfl⟩
    obtain ⟨b, hb⟩ : ∃ b, b = fld off.toNat 10 1 := ⟨_, rfl⟩
    obtain ⟨c, hc⟩ : ∃ c, c = fld off.toNat 11 8 := ⟨_, rfl⟩
    obtain ⟨d, hd⟩ : ∃ d, d = fld off.toNat 19 1 := ⟨_, rfl⟩
    have ho : off.toNat = a + 2 ^ 10 * b + 2 ^ 11 * c + 2 ^ 19 * d := by simp only [fld] at ha hb hc hd; omega
    have hn : a < 1024 ∧ b < 2 ∧ c < 256 ∧ d < 2 := by simp only [fld] at ha hb hc hd; omega
    show decodeFor 4 (leBytes 4 (0x6F + rd.toNat * 2 ^ 7 + fld off.toNat 11 8 * 2 ^ 12 + fld off.toNat 10 1 * 2 ^ 20
      + fld off.toNat 0 10 * 2 ^ 21 + fld off.toNat 19 1 * 2 ^ 31) ++ rest) = .word _ (leBytes 4 _).length
    rw [← ha, ← hb, ← hc, ← hd]
    obtain ⟨x, hx⟩ : ∃ x, x = 0x6F + rd.toNat * 2 ^ 7 + c * 2 ^ 12 + b * 2 ^ 20 + a * 2 ^ 21 + d * 2 ^ 31 := ⟨_, rfl⟩
    rw [← hx]
    clear ha hb hc hd
    have f : fld x 0 7 = 0x6F := by simp only [fld]; omega
    have g1 : bf x 7 5 = rd := bf_eq (by omega)
    have k1 : x / 2 ^ 21 = a + 1024 * d := by omega
    have k2 : x / 2 ^ 20 = b + 2 * a + 2048 * d := by omega
    have k4 : x / 2 ^ 31 = d := by omega
    have e1 : fld x 21 10 = a := by simp only [fld, k1]; omega
    have e2 : fld x 20 1 = b := by simp only [fld, k2]; omega
    have e3 : fld x 12 8 = c := by simp only [fld]; omega
    have e4 : fld x 31 1 = d := by simp only [fld, k4]; omega
    have g2 : BitVec.ofNat 20 (fld x 21 10 + 2 ^ 10 * fld x 20 1 + 2 ^ 11 * fld x 12 8 + 2 ^ 19 * fld x 31 1) = off := by
      rw [e1, e2, e3, e4, ← ho]
      exact BitVec.eq_of_toNat_eq (by simp)
    rw [side_word x rest (by omega) (by omega), side_base (by simp only [rvBase, f, g1, g2]) ok (by omega) (by omega) (by omega)]
  | jalr rd rs1 imm => exact rv_i 0x67 0 rd rs1 imm _ rest (by decide) (by decide) (by decide) ok (by intro x e1 e2 e3 e4 e5; simp [rvBase, e1, e2, e3, e4, e5])
  | branch f3 rs1 rs2 off =>
    have h0 := f3.isLt
    have h1 := rs1.isLt
    have h3 := rs2.isLt
    have h2 := off.isLt
    obtain ⟨a, ha⟩ : ∃ a, a = fld off.toNat 0 4 := ⟨_, rfl⟩
    obtain ⟨b, hb⟩ : ∃ b, b = fld off.toNat 4 6 := ⟨_, rfl⟩
    obtain ⟨c, hc⟩ : ∃ c, c = fld off.toNat 10 1 := ⟨_, rfl⟩
    obtain ⟨d, hd⟩ : ∃ d, d = fld off.toNat 11 1 := ⟨_, rfl⟩
    have ho : off.toNat = a + 2 ^ 4 * b + 2 ^ 10 * c + 2 ^ 11 * d := by simp only [fld] at ha hb hc hd; omega
    have hn : a < 16 ∧ b < 64 ∧ c < 2 ∧ d < 2 := by simp only [fld] at ha hb hc hd; omega
    show decodeFor 4 (leBytes 4 (0x63 + fld off.toNat 10 1 * 2 ^ 7 + fld off.toNat 0 4 * 2 ^ 8 + f3.toNat * 2 ^ 12 + rs1.toNat * 2 ^ 15
      + rs2.toNat * 2 ^ 20 + fld off.toNat 4 6 * 2 ^ 25 + fld off.toNat 11 1 * 2 ^ 31) ++ rest) = .word _ (leBytes 4 _).length
    rw [← ha, ← hb, ← hc, ← hd]
    obtain ⟨x, hx⟩ : ∃ x, x = 0x63 + c * 2 ^ 7 + a * 2 ^ 8 + f3.toNat * 2 ^ 12 + rs1.toNat * 2 ^ 15
      + rs2.toNat * 2 ^ 20 + b * 2 ^ 25 + d * 2 ^ 31 := ⟨_, rfl⟩
    rw [← hx]
    clear ha hb hc hd
    have k2 : x / 2 ^ 25 = b + 64 * d := by omega
    have k3 : x / 2 ^ 20 = rs2.toNat + 32 * b + 2048 * d := by omega
    have k4 : x / 2 ^ 15 = rs1.toNat + 32 * rs2.toNat + 1024 * b + 65536 * d := by omega
    have k5 : x / 2 ^ 12 = f3.toNat + 8 * rs1.toNat + 256 * rs2.toNat + 8192 * b + 524288 * d := by omega
    have k6 : x / 2 ^ 8 = a + 16 * f3.toNat + 128 * rs1.toNat + 4096 * rs2.toNat + 131072 * b + 8388608 * d := by omega
    have k7 : x / 2 ^ 31 = d := by omega
    have f : fld x 0 7 = 0x63 := by simp only [fld]; omega
    have g0 : bf x 12 3 = f3 := bf_eq (by omega)
    have g1 : bf x 15 5 = rs1 := bf_eq (by omega)
    have g3 : bf x 20 5 = rs2 := bf_eq (by omega)
    have e1 : fld x 8 4 = a := by simp only [fld, k6]; omega
    have e2 : fld x 25 6 = b := by simp only [fld, k2]; omega
    have e3 : fld x 7 1 = c := by simp only [fld]; omega
    have e4 : fld x 31 1 = d := by simp only [fld, k7]; omega
    have g2 : BitVec.ofNat 12 (fld x 8 4 + 2 ^ 4 * fld x 25 6 + 2 ^ 10 * fld x 7 1 + 2 ^ 11 * fld x 31 1) = off := by
      rw [e1, e2, e3, e4, ← ho]
      exact BitVec.eq_of_toNat_eq (by simp)
    rw [side_word x rest (by omega) (by omega), side_base (by simp only [rvBase, f, g0, g1, g2, g3]) ok (by omega) (by omega) (by omega)]
  | load f3 rd rs1 imm => exact rv_i 0x03 f3 rd rs1 imm _ rest (by decide) (by decide) (by decide) ok (by intro x e1 e2 e3 e4 e5; simp [rvBase, e1, e2, e3, e4, e5])
  | store f3 rs1 rs2 imm =>
    have h2 := imm.isLt
    have h3 : (BitVec.ofNat 5 (fld imm.toNat 0 5)).toNat = fld imm.toNat 0 5 := by simp [fld]
    have h4 := f3.isLt
    have h5 : fld imm.toNat 5 7 < 128 := by simp only [fld]; omega
    have h := rv_r 0x23 f3.toNat (fld imm.toNat 5 7) (BitVec.ofNat 5 (fld imm.toNat 0 5)) rs1 rs2 (.store f3 rs1 rs2 imm) rest (by decide) h4 h5
      (by decide) (by decide) ok (by
        intro x e1 e2 e3 e4 e5 e6 e7
        have g : BitVec.ofNat 12 (fld x 7 5 + 2 ^ 5 * fld x 25 7) = imm := by
          apply BitVec.eq_of_toNat_eq
          rw [h3] at e7
          simp only [BitVec.toNat_ofNat, fld] at *
          omega
        simp only [rvBase, e1, e2, e5, e6, g, BitVec.ofNat_toNat, BitVec.setWidth_eq])
    rw [h3] at h
    exact h
  | opImm f3 rd rs1 imm =>
    refine rv_i 0x13 f3 rd rs1 imm _ rest (by decide) (by decide) (by decide) ok ?_
    intro x e1 e2 e3 e4 e5
    simp only [RvOp.ok, Bool.and_eq_true, bne_iff_ne, ne_eq] at ok
    simp only [rvBase, e1, e2, e3, e4, e5]
    split
    · rename_i h; exact absurd (BitVec.eq_of_toNat_eq (by simpa using h)) ok.1
    · rename_i h; exact absurd (BitVec.eq_of_toNat_eq (by simpa using h)) ok.2
    · rfl
  | slli rd rs1 sh => exact rv_r 0x13 1 0 rd rs1 sh _ rest (by decide) (by decide) (by decide) (by decide) (by decide) ok (by intro x e1 e2 e3 e4 e5 e6 _; simp [rvBase, e1, e2, e3, e4, e5, e6])
  | srli rd rs1 sh => exact rv_r 0x13 5 0 rd rs1 sh _ rest (by decide) (by decide) (by decide) (by decide) (by decide) ok (by intro x e1 e2 e3 e4 e5 e6 _; simp [rvBase, e1, e2, e3, e4, e5, e6])
  | srai rd rs1 sh => exact rv_r 0x13 5 0x20 rd rs1 sh _ rest (by decide) (by decide) (by decide) (by decide) (by decide) ok (by intro x e1 e2 e3 e4 e5 e6 _; simp [rvBase, e1, e2, e3, e4, e5, e6])
  | op f3 rd rs1 rs2 => exact rv_r 0x33 f3.toNat 0 rd rs1 rs2 _ rest (by decide) f3.isLt (by decide) (by decide) (by decide) ok (by intro x e1 e2 e3 e4 e5 e6 _; simp [rvBase, e1, e2, e3, e4, e5, e6])
  | sub rd rs1 rs2 => exact rv_r 0x33 0 0x20 rd rs1 rs2 _ rest (by decide) (by decide) (by decide) (by decide) (by decide) ok (by intro x e1 e2 e3 e4 e5 e6 _; simp [rvBase, e1, e2, e3, e4, e5, e6])
  | sra rd rs1 rs2 => exact rv_r 0x33 5 0x20 rd rs1 rs2 _ rest (by decide) (by decide) (by decide) (by decide) (by decide) ok (by intro x e1 e2 e3 e4 e5 e6 _; simp [rvBase, e1, e2, e3, e4, e5, e6])
  | mulDiv f3 rd rs1 rs2 => exact rv_r 0x33 f3.toNat 1 rd rs1 rs2 _ rest (by decide) f3.isLt (by decide) (by decide) (by decide) ok (by intro x e1 e2 e3 e4 e5 e6 _; simp [rvBase, e1, e2, e3, e4, e5, e6])
  | fence => exact rv_i 0x0F 0 0 0 0 _ rest (by decide) (by decide) (by decide) ok (by intro x e1 e2 e3 e4 e5; simp [rvBase, e1, e2])
  | fenceI => exact rv_i 0x0F 1 0 0 0 _ rest (by decide) (by decide) (by decide) ok (by intro x e1 e2 e3 e4 e5; simp [rvBase, e1, e2])

end Sys2Proof
end

