-- ==== Sys2Proof/Laws/Mem.lean ====
section
/-! SUPPORT. Byte memories: every operation keeps the canonical form, and what a read gives after a write. -/

namespace Sys2Proof.Machine

set_option Elab.async false

/-- The canonical form one entry at a time. -/
theorem Memory.wf_cons (a : Nat) (b : Byte) (m : Memory) :
    Memory.wf ((a, b) :: m) = true ↔ b ≠ 0 ∧ Memory.above a m ∧ Memory.wf m = true := by
  cases m with
  | nil => simp [Memory.wf, Memory.above]
  | cons e m =>
    obtain ⟨a', b'⟩ := e
    simp [Memory.wf, Memory.above, and_assoc]

theorem Memory.above_put {m : Memory} {a k : Nat} {b : Byte} (h : Memory.above a m) (hk : a < k) :
    Memory.above a (Memory.put m k b) ∨ Memory.put m k b = [] ∨ ∃ e m', m = e :: m' ∧ Memory.put m k b = m' := by
  cases m with
  | nil =>
    simp only [Memory.put]
    split
    · exact .inr (.inl rfl)
    · exact .inl hk
  | cons e m =>
    obtain ⟨a', b'⟩ := e
    simp only [Memory.put]
    split
    · split
      · exact .inr (.inr ⟨_, _, rfl, rfl⟩)
      · exact .inl hk
    · split
      · split
        · exact .inl h
        · exact .inl hk
      · exact .inl h

theorem Memory.above_of_wf {a : Nat} {b : Byte} {m : Memory} (h : Memory.wf ((a, b) :: m) = true) :
    ∀ c ∈ m, a < c.1 := by
  induction m generalizing a b with
  | nil => simp
  | cons e m ih =>
    obtain ⟨a', b'⟩ := e
    rw [Memory.wf_cons] at h
    intro c hc
    rcases List.mem_cons.mp hc with rfl | hc
    · exact h.2.1
    · exact Nat.lt_trans h.2.1 (ih h.2.2 c hc)

theorem Memory.above_tail {a : Nat} {e : Host.Cell} {m : Memory} (h : Memory.above a (e :: m))
    (hw : Memory.wf (e :: m) = true) : Memory.above a m := by
  cases m with
  | nil => trivial
  | cons e' m =>
    obtain ⟨k, b⟩ := e
    exact Nat.lt_trans h (Memory.above_of_wf hw e' (by simp))

/-- A write of one byte keeps the canonical form. -/
theorem Memory.wf_put {m : Memory} (h : Memory.wf m = true) (a : Nat) (b : Byte) : Memory.wf (Memory.put m a b) = true := by
  induction m with
  | nil =>
    simp only [Memory.put]
    split
    · rfl
    · simp_all [Memory.wf]
  | cons e m ih =>
    obtain ⟨a', b'⟩ := e
    have hm := (Memory.wf_cons a' b' m).mp h
    simp only [Memory.put]
    split
    · rename_i heq
      subst heq
      split
      · exact hm.2.2
      · rename_i hb
        exact (Memory.wf_cons _ _ _).mpr ⟨hb, hm.2⟩
    · split
      · rename_i hlt
        split
        · exact h
        · rename_i hb
          exact (Memory.wf_cons _ _ _).mpr ⟨hb, hlt, h⟩
      · rename_i hne hlt
        refine (Memory.wf_cons _ _ _).mpr ⟨hm.1, ?_, ih hm.2.2⟩
        have hk : a' < a := by omega
        rcases Memory.above_put (k := a) (b := b) hm.2.1 hk with h1 | h1 | ⟨e, m', h1, h2⟩
        · exact h1
        · rw [h1]; trivial
        · rw [h2]; subst h1; exact Memory.above_tail hm.2.1 hm.2.2

theorem Memory.wf_putBytes (bs : List Byte) : ∀ {m : Memory}, Memory.wf m = true → ∀ a, Memory.wf (Memory.putBytes m a bs) = true := by
  induction bs with
  | nil => intro m h a; exact h
  | cons b bs ih => intro m h a; exact ih (Memory.wf_put h a b) (a + 1)

theorem Memory.wf_putNat (n : Nat) : ∀ {m : Memory}, Memory.wf m = true → ∀ a w, Memory.wf (Memory.putNat m a n w) = true := by
  induction n with
  | zero => intro m h a w; exact h
  | succ n ih => intro m h a w; exact ih (Memory.wf_put h a _) (a + 1) (w / 256)

theorem Memory.wf_putCells (cs : List (Nat × Byte)) : ∀ {m : Memory}, Memory.wf m = true → Memory.wf (Memory.putCells m cs) = true := by
  induction cs with
  | nil => intro m h; exact h
  | cons c cs ih => intro m h; exact ih (Memory.wf_put h c.1 c.2)

theorem Memory.wf_filter (p : Host.Cell → Bool) : ∀ {m : Memory}, Memory.wf m = true → Memory.wf (m.filter p) = true := by
  intro m
  induction m with
  | nil => intro _; rfl
  | cons e m ih =>
    obtain ⟨a, b⟩ := e
    intro h
    have hm := (Memory.wf_cons a b m).mp h
    rw [List.filter_cons]
    split
    · refine (Memory.wf_cons _ _ _).mpr ⟨hm.1, ?_, ih hm.2.2⟩
      have ha := Memory.above_of_wf h
      cases hf : m.filter p with
      | nil => trivial
      | cons c cs =>
        have : c ∈ m := (List.mem_filter.mp (by rw [hf]; simp : c ∈ m.filter p)).1
        exact ha c this
    · exact ih hm.2.2

theorem Memory.wf_clear {m : Memory} (h : Memory.wf m = true) (a n : Nat) : Memory.wf (Memory.clear m a n) = true :=
  Memory.wf_filter _ h

/-- A write leaves every other address alone. -/
theorem Memory.byte_put_other (m : Memory) (a k : Nat) (b : Byte) (h : k ≠ a) :
    Memory.byte (Memory.put m a b) k = Memory.byte m k := by
  induction m with
  | nil => simp only [Memory.put]; split <;> simp [Memory.byte, h]
  | cons e m ih =>
    obtain ⟨a', b'⟩ := e
    simp only [Memory.put]
    split
    · rename_i heq
      subst heq
      split <;> simp [Memory.byte, h]
    · split
      · split <;> simp [Memory.byte, h]
      · simp [Memory.byte, ih]

theorem Memory.byte_of_above {m : Memory} {a : Nat} (h : ∀ c ∈ m, a < c.1) : Memory.byte m a = 0 := by
  induction m with
  | nil => rfl
  | cons e m ih =>
    obtain ⟨a', b'⟩ := e
    have h1 := h (a', b') (by simp)
    simp only [Memory.byte]
    rw [if_neg (by simp at h1; omega)]
    exact ih fun c hc => h c (by simp [hc])

/-- A read of the byte just written gives it. -/
theorem Memory.byte_put_same {m : Memory} (h : Memory.wf m = true) (a : Nat) (b : Byte) :
    Memory.byte (Memory.put m a b) a = b := by
  induction m with
  | nil => simp only [Memory.put]; split <;> simp_all [Memory.byte]
  | cons e m ih =>
    obtain ⟨a', b'⟩ := e
    have hm := (Memory.wf_cons a' b' m).mp h
    simp only [Memory.put]
    split
    · rename_i heq
      subst heq
      split
      · rename_i hb
        subst hb
        exact Memory.byte_of_above (Memory.above_of_wf h)
      · simp [Memory.byte]
    · split
      · rename_i hne hlt
        split
        · rename_i hb
          subst hb
          refine Memory.byte_of_above fun c hc => ?_
          rcases List.mem_cons.mp hc with rfl | hc
          · exact hlt
          · exact Nat.lt_trans hlt (Memory.above_of_wf h c hc)
        · simp [Memory.byte]
      · rename_i hne _
        simp only [Memory.byte]
        rw [if_neg hne]
        exact ih hm.2.2

theorem Memory.byte_putBytes_other (bs : List Byte) : ∀ (m : Memory) (a k : Nat), (k < a ∨ a + bs.length ≤ k) →
    Memory.byte (Memory.putBytes m a bs) k = Memory.byte m k := by
  induction bs with
  | nil => intro m a k _; rfl
  | cons b bs ih =>
    intro m a k h
    simp only [List.length_cons] at h
    rw [Memory.putBytes, ih _ _ _ (by omega), Memory.byte_put_other _ _ _ _ (by omega)]

theorem Memory.byte_putBytes (bs : List Byte) : ∀ {m : Memory}, Memory.wf m = true → ∀ (a k : Nat) (hk : k < bs.length),
    Memory.byte (Memory.putBytes m a bs) (a + k) = bs[k] := by
  induction bs with
  | nil => intro m _ a k hk; simp at hk
  | cons b bs ih =>
    intro m h a k hk
    cases k with
    | zero =>
      rw [Memory.putBytes, Memory.byte_putBytes_other _ _ _ _ (by omega)]
      simpa using Memory.byte_put_same h a b
    | succ k =>
      have := ih (Memory.wf_put h a b) (a + 1) k (by simpa using hk)
      rw [Memory.putBytes, show a + (k + 1) = a + 1 + k by omega]
      simpa using this

theorem Memory.byte_putCells_other (cs : List (Nat × Byte)) : ∀ (m : Memory) (k : Nat), (∀ c ∈ cs, c.1 ≠ k) →
    Memory.byte (Memory.putCells m cs) k = Memory.byte m k := by
  induction cs with
  | nil => intro m k _; rfl
  | cons c cs ih =>
    intro m k h
    have h1 : k ≠ c.1 := fun e => h c (by simp) e.symm
    rw [Memory.putCells, ih _ _ (fun c' hc => h c' (by simp [hc])), Memory.byte_put_other _ _ _ _ h1]

end Sys2Proof.Machine
end

