-- ==== Sys2Proof/Laws/State.lean ====
section
/-! SUPPORT. What each update of the state leaves alone: one lemma per update and field. -/

namespace Sys2Proof.Machine
set_option Elab.async false

@[simp] theorem State.setCore_time (s : State) (c : Core) : (s.setCore c).time = s.time := rfl
@[simp] theorem State.setCore_stopped (s : State) (c : Core) : (s.setCore c).stopped = s.stopped := rfl
@[simp] theorem State.setCore_cur (s : State) (c : Core) : (s.setCore c).cur = s.cur := rfl
@[simp] theorem State.setCore_turns (s : State) (c : Core) : (s.setCore c).turns = s.turns := rfl
@[simp] theorem State.setCore_due (s : State) (c : Core) : (s.setCore c).due = s.due := rfl
@[simp] theorem State.setCore_inputs (s : State) (c : Core) : (s.setCore c).inputs = s.inputs := rfl
@[simp] theorem State.setCore_replies (s : State) (c : Core) : (s.setCore c).replies = s.replies := rfl
@[simp] theorem State.setCore_freeIdx (s : State) (c : Core) : (s.setCore c).freeIdx = s.freeIdx := rfl
@[simp] theorem State.setCore_sent (s : State) (c : Core) : (s.setCore c).sent = s.sent := rfl
@[simp] theorem State.setCore_pkg (s : State) (c : Core) : (s.setCore c).pkg = s.pkg := rfl
@[simp] theorem State.setCore_pfMsix (s : State) (c : Core) : (s.setCore c).pfMsix = s.pfMsix := rfl
@[simp] theorem State.setCore_sites (s : State) (c : Core) : (s.setCore c).sites = s.sites := rfl
@[simp] theorem State.setCore_ports (s : State) (c : Core) : (s.setCore c).ports = s.ports := rfl
@[simp] theorem State.setCore_links (s : State) (c : Core) : (s.setCore c).links = s.links := rfl
@[simp] theorem State.setCore_vfs (s : State) (c : Core) : (s.setCore c).vfs = s.vfs := rfl
@[simp] theorem State.setCore_parts (s : State) (c : Core) : (s.setCore c).parts = s.parts := rfl
@[simp] theorem State.setCore_groups (s : State) (c : Core) : (s.setCore c).groups = s.groups := rfl
@[simp] theorem State.setCore_host (s : State) (c : Core) : (s.setCore c).host = s.host := rfl
@[simp] theorem State.setCore_hostBad (s : State) (c : Core) : (s.setCore c).hostBad = s.hostBad := rfl
@[simp] theorem State.setCore_bufs (s : State) (c : Core) : (s.setCore c).bufs = s.bufs := rfl
@[simp] theorem State.setCore_caps (s : State) (c : Core) : (s.setCore c).caps = s.caps := rfl
@[simp] theorem State.setCore_graphs (s : State) (c : Core) : (s.setCore c).graphs = s.graphs := rfl
@[simp] theorem State.setCore_nodes (s : State) (c : Core) : (s.setCore c).nodes = s.nodes := rfl
@[simp] theorem State.setCore_atts (s : State) (c : Core) : (s.setCore c).atts = s.atts := rfl
@[simp] theorem State.setCore_runq (s : State) (c : Core) : (s.setCore c).runq = s.runq := rfl
@[simp] theorem State.setCore_held (s : State) (c : Core) : (s.setCore c).held = s.held := rfl
@[simp] theorem State.setCore_robin (s : State) (c : Core) : (s.setCore c).robin = s.robin := rfl
@[simp] theorem State.setCore_nextDisp (s : State) (c : Core) : (s.setCore c).nextDisp = s.nextDisp := rfl
@[simp] theorem State.setCore_tahr (s : State) (c : Core) : (s.setCore c).tahr = s.tahr := rfl
@[simp] theorem State.setCore_stage (s : State) (c : Core) : (s.setCore c).stage = s.stage := rfl
@[simp] theorem State.setCore_evq (s : State) (c : Core) : (s.setCore c).evq = s.evq := rfl
@[simp] theorem State.setCore_receipts (s : State) (c : Core) : (s.setCore c).receipts = s.receipts := rfl
@[simp] theorem State.setCore_codes (s : State) (c : Core) : (s.setCore c).codes = s.codes := rfl
@[simp] theorem State.setCore_grants (s : State) (c : Core) : (s.setCore c).grants = s.grants := rfl
@[simp] theorem State.setCore_exts (s : State) (c : Core) : (s.setCore c).exts = s.exts := rfl
@[simp] theorem State.setCore_lines (s : State) (c : Core) : (s.setCore c).lines = s.lines := rfl
@[simp] theorem State.setCore_recalls (s : State) (c : Core) : (s.setCore c).recalls = s.recalls := rfl
@[simp] theorem State.setCore_homeq (s : State) (c : Core) : (s.setCore c).homeq = s.homeq := rfl
@[simp] theorem State.setCore_l1 (s : State) (c : Core) : (s.setCore c).l1 = s.l1 := rfl
@[simp] theorem State.setCore_l2 (s : State) (c : Core) : (s.setCore c).l2 = s.l2 := rfl
@[simp] theorem State.setCore_tlb (s : State) (c : Core) : (s.setCore c).tlb = s.tlb := rfl
@[simp] theorem State.setCore_walks (s : State) (c : Core) : (s.setCore c).walks = s.walks := rfl
@[simp] theorem State.setCore_ras (s : State) (c : Core) : (s.setCore c).ras = s.ras := rfl
@[simp] theorem State.setCore_fcfg (s : State) (c : Core) : (s.setCore c).fcfg = s.fcfg := rfl
@[simp] theorem State.setCore_nextBuf (s : State) (c : Core) : (s.setCore c).nextBuf = s.nextBuf := rfl
@[simp] theorem State.setCore_nextMem (s : State) (c : Core) : (s.setCore c).nextMem = s.nextMem := rfl
@[simp] theorem State.setCore_nextGraph (s : State) (c : Core) : (s.setCore c).nextGraph = s.nextGraph := rfl
@[simp] theorem State.setCore_nextNode (s : State) (c : Core) : (s.setCore c).nextNode = s.nextNode := rfl
@[simp] theorem State.setCore_nextAtt (s : State) (c : Core) : (s.setCore c).nextAtt = s.nextAtt := rfl
@[simp] theorem State.setCore_nextTurn (s : State) (c : Core) : (s.setCore c).nextTurn = s.nextTurn := rfl

@[simp] theorem State.setStm_time (s : State) (t : Stream) : (s.setStm t).time = s.time := rfl
@[simp] theorem State.setStm_stopped (s : State) (t : Stream) : (s.setStm t).stopped = s.stopped := rfl
@[simp] theorem State.setStm_cur (s : State) (t : Stream) : (s.setStm t).cur = s.cur := rfl
@[simp] theorem State.setStm_turns (s : State) (t : Stream) : (s.setStm t).turns = s.turns := rfl
@[simp] theorem State.setStm_due (s : State) (t : Stream) : (s.setStm t).due = s.due := rfl
@[simp] theorem State.setStm_inputs (s : State) (t : Stream) : (s.setStm t).inputs = s.inputs := rfl
@[simp] theorem State.setStm_replies (s : State) (t : Stream) : (s.setStm t).replies = s.replies := rfl
@[simp] theorem State.setStm_freeIdx (s : State) (t : Stream) : (s.setStm t).freeIdx = s.freeIdx := rfl
@[simp] theorem State.setStm_sent (s : State) (t : Stream) : (s.setStm t).sent = s.sent := rfl
@[simp] theorem State.setStm_pkg (s : State) (t : Stream) : (s.setStm t).pkg = s.pkg := rfl
@[simp] theorem State.setStm_pfMsix (s : State) (t : Stream) : (s.setStm t).pfMsix = s.pfMsix := rfl
@[simp] theorem State.setStm_sites (s : State) (t : Stream) : (s.setStm t).sites = s.sites := rfl
@[simp] theorem State.setStm_ports (s : State) (t : Stream) : (s.setStm t).ports = s.ports := rfl
@[simp] theorem State.setStm_links (s : State) (t : Stream) : (s.setStm t).links = s.links := rfl
@[simp] theorem State.setStm_vfs (s : State) (t : Stream) : (s.setStm t).vfs = s.vfs := rfl
@[simp] theorem State.setStm_parts (s : State) (t : Stream) : (s.setStm t).parts = s.parts := rfl
@[simp] theorem State.setStm_groups (s : State) (t : Stream) : (s.setStm t).groups = s.groups := rfl
@[simp] theorem State.setStm_host (s : State) (t : Stream) : (s.setStm t).host = s.host := rfl
@[simp] theorem State.setStm_hostBad (s : State) (t : Stream) : (s.setStm t).hostBad = s.hostBad := rfl
@[simp] theorem State.setStm_bufs (s : State) (t : Stream) : (s.setStm t).bufs = s.bufs := rfl
@[simp] theorem State.setStm_caps (s : State) (t : Stream) : (s.setStm t).caps = s.caps := rfl
@[simp] theorem State.setStm_graphs (s : State) (t : Stream) : (s.setStm t).graphs = s.graphs := rfl
@[simp] theorem State.setStm_nodes (s : State) (t : Stream) : (s.setStm t).nodes = s.nodes := rfl
@[simp] theorem State.setStm_atts (s : State) (t : Stream) : (s.setStm t).atts = s.atts := rfl
@[simp] theorem State.setStm_runq (s : State) (t : Stream) : (s.setStm t).runq = s.runq := rfl
@[simp] theorem State.setStm_held (s : State) (t : Stream) : (s.setStm t).held = s.held := rfl
@[simp] theorem State.setStm_robin (s : State) (t : Stream) : (s.setStm t).robin = s.robin := rfl
@[simp] theorem State.setStm_nextDisp (s : State) (t : Stream) : (s.setStm t).nextDisp = s.nextDisp := rfl
@[simp] theorem State.setStm_tahr (s : State) (t : Stream) : (s.setStm t).tahr = s.tahr := rfl
@[simp] theorem State.setStm_stage (s : State) (t : Stream) : (s.setStm t).stage = s.stage := rfl
@[simp] theorem State.setStm_evq (s : State) (t : Stream) : (s.setStm t).evq = s.evq := rfl
@[simp] theorem State.setStm_receipts (s : State) (t : Stream) : (s.setStm t).receipts = s.receipts := rfl
@[simp] theorem State.setStm_codes (s : State) (t : Stream) : (s.setStm t).codes = s.codes := rfl
@[simp] theorem State.setStm_grants (s : State) (t : Stream) : (s.setStm t).grants = s.grants := rfl
@[simp] theorem State.setStm_exts (s : State) (t : Stream) : (s.setStm t).exts = s.exts := rfl
@[simp] theorem State.setStm_lines (s : State) (t : Stream) : (s.setStm t).lines = s.lines := rfl
@[simp] theorem State.setStm_recalls (s : State) (t : Stream) : (s.setStm t).recalls = s.recalls := rfl
@[simp] theorem State.setStm_homeq (s : State) (t : Stream) : (s.setStm t).homeq = s.homeq := rfl
@[simp] theorem State.setStm_l1 (s : State) (t : Stream) : (s.setStm t).l1 = s.l1 := rfl
@[simp] theorem State.setStm_l2 (s : State) (t : Stream) : (s.setStm t).l2 = s.l2 := rfl
@[simp] theorem State.setStm_tlb (s : State) (t : Stream) : (s.setStm t).tlb = s.tlb := rfl
@[simp] theorem State.setStm_walks (s : State) (t : Stream) : (s.setStm t).walks = s.walks := rfl
@[simp] theorem State.setStm_ras (s : State) (t : Stream) : (s.setStm t).ras = s.ras := rfl
@[simp] theorem State.setStm_fcfg (s : State) (t : Stream) : (s.setStm t).fcfg = s.fcfg := rfl
@[simp] theorem State.setStm_nextBuf (s : State) (t : Stream) : (s.setStm t).nextBuf = s.nextBuf := rfl
@[simp] theorem State.setStm_nextMem (s : State) (t : Stream) : (s.setStm t).nextMem = s.nextMem := rfl
@[simp] theorem State.setStm_nextGraph (s : State) (t : Stream) : (s.setStm t).nextGraph = s.nextGraph := rfl
@[simp] theorem State.setStm_nextNode (s : State) (t : Stream) : (s.setStm t).nextNode = s.nextNode := rfl
@[simp] theorem State.setStm_nextAtt (s : State) (t : Stream) : (s.setStm t).nextAtt = s.nextAtt := rfl
@[simp] theorem State.setStm_nextTurn (s : State) (t : Stream) : (s.setStm t).nextTurn = s.nextTurn := rfl

@[simp] theorem State.setAtt_time (s : State) (x : Attempt) : (s.setAtt x).time = s.time := rfl
@[simp] theorem State.setAtt_stopped (s : State) (x : Attempt) : (s.setAtt x).stopped = s.stopped := rfl
@[simp] theorem State.setAtt_cur (s : State) (x : Attempt) : (s.setAtt x).cur = s.cur := rfl
@[simp] theorem State.setAtt_turns (s : State) (x : Attempt) : (s.setAtt x).turns = s.turns := rfl
@[simp] theorem State.setAtt_due (s : State) (x : Attempt) : (s.setAtt x).due = s.due := rfl
@[simp] theorem State.setAtt_inputs (s : State) (x : Attempt) : (s.setAtt x).inputs = s.inputs := rfl
@[simp] theorem State.setAtt_replies (s : State) (x : Attempt) : (s.setAtt x).replies = s.replies := rfl
@[simp] theorem State.setAtt_freeIdx (s : State) (x : Attempt) : (s.setAtt x).freeIdx = s.freeIdx := rfl
@[simp] theorem State.setAtt_sent (s : State) (x : Attempt) : (s.setAtt x).sent = s.sent := rfl
@[simp] theorem State.setAtt_pkg (s : State) (x : Attempt) : (s.setAtt x).pkg = s.pkg := rfl
@[simp] theorem State.setAtt_pfMsix (s : State) (x : Attempt) : (s.setAtt x).pfMsix = s.pfMsix := rfl
@[simp] theorem State.setAtt_sites (s : State) (x : Attempt) : (s.setAtt x).sites = s.sites := rfl
@[simp] theorem State.setAtt_ports (s : State) (x : Attempt) : (s.setAtt x).ports = s.ports := rfl
@[simp] theorem State.setAtt_links (s : State) (x : Attempt) : (s.setAtt x).links = s.links := rfl
@[simp] theorem State.setAtt_vfs (s : State) (x : Attempt) : (s.setAtt x).vfs = s.vfs := rfl
@[simp] theorem State.setAtt_parts (s : State) (x : Attempt) : (s.setAtt x).parts = s.parts := rfl
@[simp] theorem State.setAtt_groups (s : State) (x : Attempt) : (s.setAtt x).groups = s.groups := rfl
@[simp] theorem State.setAtt_host (s : State) (x : Attempt) : (s.setAtt x).host = s.host := rfl
@[simp] theorem State.setAtt_hostBad (s : State) (x : Attempt) : (s.setAtt x).hostBad = s.hostBad := rfl
@[simp] theorem State.setAtt_bufs (s : State) (x : Attempt) : (s.setAtt x).bufs = s.bufs := rfl
@[simp] theorem State.setAtt_caps (s : State) (x : Attempt) : (s.setAtt x).caps = s.caps := rfl
@[simp] theorem State.setAtt_graphs (s : State) (x : Attempt) : (s.setAtt x).graphs = s.graphs := rfl
@[simp] theorem State.setAtt_nodes (s : State) (x : Attempt) : (s.setAtt x).nodes = s.nodes := rfl
@[simp] theorem State.setAtt_runq (s : State) (x : Attempt) : (s.setAtt x).runq = s.runq := rfl
@[simp] theorem State.setAtt_held (s : State) (x : Attempt) : (s.setAtt x).held = s.held := rfl
@[simp] theorem State.setAtt_robin (s : State) (x : Attempt) : (s.setAtt x).robin = s.robin := rfl
@[simp] theorem State.setAtt_nextDisp (s : State) (x : Attempt) : (s.setAtt x).nextDisp = s.nextDisp := rfl
@[simp] theorem State.setAtt_cores (s : State) (x : Attempt) : (s.setAtt x).cores = s.cores := rfl
@[simp] theorem State.setAtt_tahr (s : State) (x : Attempt) : (s.setAtt x).tahr = s.tahr := rfl
@[simp] theorem State.setAtt_stage (s : State) (x : Attempt) : (s.setAtt x).stage = s.stage := rfl
@[simp] theorem State.setAtt_evq (s : State) (x : Attempt) : (s.setAtt x).evq = s.evq := rfl
@[simp] theorem State.setAtt_receipts (s : State) (x : Attempt) : (s.setAtt x).receipts = s.receipts := rfl
@[simp] theorem State.setAtt_codes (s : State) (x : Attempt) : (s.setAtt x).codes = s.codes := rfl
@[simp] theorem State.setAtt_grants (s : State) (x : Attempt) : (s.setAtt x).grants = s.grants := rfl
@[simp] theorem State.setAtt_exts (s : State) (x : Attempt) : (s.setAtt x).exts = s.exts := rfl
@[simp] theorem State.setAtt_lines (s : State) (x : Attempt) : (s.setAtt x).lines = s.lines := rfl
@[simp] theorem State.setAtt_recalls (s : State) (x : Attempt) : (s.setAtt x).recalls = s.recalls := rfl
@[simp] theorem State.setAtt_homeq (s : State) (x : Attempt) : (s.setAtt x).homeq = s.homeq := rfl
@[simp] theorem State.setAtt_l1 (s : State) (x : Attempt) : (s.setAtt x).l1 = s.l1 := rfl
@[simp] theorem State.setAtt_l2 (s : State) (x : Attempt) : (s.setAtt x).l2 = s.l2 := rfl
@[simp] theorem State.setAtt_tlb (s : State) (x : Attempt) : (s.setAtt x).tlb = s.tlb := rfl
@[simp] theorem State.setAtt_walks (s : State) (x : Attempt) : (s.setAtt x).walks = s.walks := rfl
@[simp] theorem State.setAtt_ras (s : State) (x : Attempt) : (s.setAtt x).ras = s.ras := rfl
@[simp] theorem State.setAtt_fcfg (s : State) (x : Attempt) : (s.setAtt x).fcfg = s.fcfg := rfl
@[simp] theorem State.setAtt_nextBuf (s : State) (x : Attempt) : (s.setAtt x).nextBuf = s.nextBuf := rfl
@[simp] theorem State.setAtt_nextMem (s : State) (x : Attempt) : (s.setAtt x).nextMem = s.nextMem := rfl
@[simp] theorem State.setAtt_nextGraph (s : State) (x : Attempt) : (s.setAtt x).nextGraph = s.nextGraph := rfl
@[simp] theorem State.setAtt_nextNode (s : State) (x : Attempt) : (s.setAtt x).nextNode = s.nextNode := rfl
@[simp] theorem State.setAtt_nextAtt (s : State) (x : Attempt) : (s.setAtt x).nextAtt = s.nextAtt := rfl
@[simp] theorem State.setAtt_nextTurn (s : State) (x : Attempt) : (s.setAtt x).nextTurn = s.nextTurn := rfl

@[simp] theorem State.setInst_time (s : State) (x : Inst) : (s.setInst x).time = s.time := rfl
@[simp] theorem State.setInst_stopped (s : State) (x : Inst) : (s.setInst x).stopped = s.stopped := rfl
@[simp] theorem State.setInst_cur (s : State) (x : Inst) : (s.setInst x).cur = s.cur := rfl
@[simp] theorem State.setInst_turns (s : State) (x : Inst) : (s.setInst x).turns = s.turns := rfl
@[simp] theorem State.setInst_due (s : State) (x : Inst) : (s.setInst x).due = s.due := rfl
@[simp] theorem State.setInst_inputs (s : State) (x : Inst) : (s.setInst x).inputs = s.inputs := rfl
@[simp] theorem State.setInst_replies (s : State) (x : Inst) : (s.setInst x).replies = s.replies := rfl
@[simp] theorem State.setInst_freeIdx (s : State) (x : Inst) : (s.setInst x).freeIdx = s.freeIdx := rfl
@[simp] theorem State.setInst_sent (s : State) (x : Inst) : (s.setInst x).sent = s.sent := rfl
@[simp] theorem State.setInst_pkg (s : State) (x : Inst) : (s.setInst x).pkg = s.pkg := rfl
@[simp] theorem State.setInst_pfMsix (s : State) (x : Inst) : (s.setInst x).pfMsix = s.pfMsix := rfl
@[simp] theorem State.setInst_sites (s : State) (x : Inst) : (s.setInst x).sites = s.sites := rfl
@[simp] theorem State.setInst_ports (s : State) (x : Inst) : (s.setInst x).ports = s.ports := rfl
@[simp] theorem State.setInst_links (s : State) (x : Inst) : (s.setInst x).links = s.links := rfl
@[simp] theorem State.setInst_vfs (s : State) (x : Inst) : (s.setInst x).vfs = s.vfs := rfl
@[simp] theorem State.setInst_parts (s : State) (x : Inst) : (s.setInst x).parts = s.parts := rfl
@[simp] theorem State.setInst_groups (s : State) (x : Inst) : (s.setInst x).groups = s.groups := rfl
@[simp] theorem State.setInst_host (s : State) (x : Inst) : (s.setInst x).host = s.host := rfl
@[simp] theorem State.setInst_hostBad (s : State) (x : Inst) : (s.setInst x).hostBad = s.hostBad := rfl
@[simp] theorem State.setInst_bufs (s : State) (x : Inst) : (s.setInst x).bufs = s.bufs := rfl
@[simp] theorem State.setInst_caps (s : State) (x : Inst) : (s.setInst x).caps = s.caps := rfl
@[simp] theorem State.setInst_graphs (s : State) (x : Inst) : (s.setInst x).graphs = s.graphs := rfl
@[simp] theorem State.setInst_nodes (s : State) (x : Inst) : (s.setInst x).nodes = s.nodes := rfl
@[simp] theorem State.setInst_runq (s : State) (x : Inst) : (s.setInst x).runq = s.runq := rfl
@[simp] theorem State.setInst_held (s : State) (x : Inst) : (s.setInst x).held = s.held := rfl
@[simp] theorem State.setInst_robin (s : State) (x : Inst) : (s.setInst x).robin = s.robin := rfl
@[simp] theorem State.setInst_nextDisp (s : State) (x : Inst) : (s.setInst x).nextDisp = s.nextDisp := rfl
@[simp] theorem State.setInst_cores (s : State) (x : Inst) : (s.setInst x).cores = s.cores := rfl
@[simp] theorem State.setInst_tahr (s : State) (x : Inst) : (s.setInst x).tahr = s.tahr := rfl
@[simp] theorem State.setInst_stage (s : State) (x : Inst) : (s.setInst x).stage = s.stage := rfl
@[simp] theorem State.setInst_evq (s : State) (x : Inst) : (s.setInst x).evq = s.evq := rfl
@[simp] theorem State.setInst_receipts (s : State) (x : Inst) : (s.setInst x).receipts = s.receipts := rfl
@[simp] theorem State.setInst_codes (s : State) (x : Inst) : (s.setInst x).codes = s.codes := rfl
@[simp] theorem State.setInst_grants (s : State) (x : Inst) : (s.setInst x).grants = s.grants := rfl
@[simp] theorem State.setInst_exts (s : State) (x : Inst) : (s.setInst x).exts = s.exts := rfl
@[simp] theorem State.setInst_lines (s : State) (x : Inst) : (s.setInst x).lines = s.lines := rfl
@[simp] theorem State.setInst_recalls (s : State) (x : Inst) : (s.setInst x).recalls = s.recalls := rfl
@[simp] theorem State.setInst_homeq (s : State) (x : Inst) : (s.setInst x).homeq = s.homeq := rfl
@[simp] theorem State.setInst_l1 (s : State) (x : Inst) : (s.setInst x).l1 = s.l1 := rfl
@[simp] theorem State.setInst_l2 (s : State) (x : Inst) : (s.setInst x).l2 = s.l2 := rfl
@[simp] theorem State.setInst_tlb (s : State) (x : Inst) : (s.setInst x).tlb = s.tlb := rfl
@[simp] theorem State.setInst_walks (s : State) (x : Inst) : (s.setInst x).walks = s.walks := rfl
@[simp] theorem State.setInst_ras (s : State) (x : Inst) : (s.setInst x).ras = s.ras := rfl
@[simp] theorem State.setInst_fcfg (s : State) (x : Inst) : (s.setInst x).fcfg = s.fcfg := rfl
@[simp] theorem State.setInst_nextBuf (s : State) (x : Inst) : (s.setInst x).nextBuf = s.nextBuf := rfl
@[simp] theorem State.setInst_nextMem (s : State) (x : Inst) : (s.setInst x).nextMem = s.nextMem := rfl
@[simp] theorem State.setInst_nextGraph (s : State) (x : Inst) : (s.setInst x).nextGraph = s.nextGraph := rfl
@[simp] theorem State.setInst_nextNode (s : State) (x : Inst) : (s.setInst x).nextNode = s.nextNode := rfl
@[simp] theorem State.setInst_nextAtt (s : State) (x : Inst) : (s.setInst x).nextAtt = s.nextAtt := rfl
@[simp] theorem State.setInst_nextTurn (s : State) (x : Inst) : (s.setInst x).nextTurn = s.nextTurn := rfl

@[simp] theorem State.setVf_time (s : State) (k : Nat) (x : Vf) : (s.setVf k x).time = s.time := rfl
@[simp] theorem State.setVf_stopped (s : State) (k : Nat) (x : Vf) : (s.setVf k x).stopped = s.stopped := rfl
@[simp] theorem State.setVf_cur (s : State) (k : Nat) (x : Vf) : (s.setVf k x).cur = s.cur := rfl
@[simp] theorem State.setVf_turns (s : State) (k : Nat) (x : Vf) : (s.setVf k x).turns = s.turns := rfl
@[simp] theorem State.setVf_due (s : State) (k : Nat) (x : Vf) : (s.setVf k x).due = s.due := rfl
@[simp] theorem State.setVf_inputs (s : State) (k : Nat) (x : Vf) : (s.setVf k x).inputs = s.inputs := rfl
@[simp] theorem State.setVf_replies (s : State) (k : Nat) (x : Vf) : (s.setVf k x).replies = s.replies := rfl
@[simp] theorem State.setVf_freeIdx (s : State) (k : Nat) (x : Vf) : (s.setVf k x).freeIdx = s.freeIdx := rfl
@[simp] theorem State.setVf_sent (s : State) (k : Nat) (x : Vf) : (s.setVf k x).sent = s.sent := rfl
@[simp] theorem State.setVf_pkg (s : State) (k : Nat) (x : Vf) : (s.setVf k x).pkg = s.pkg := rfl
@[simp] theorem State.setVf_pfMsix (s : State) (k : Nat) (x : Vf) : (s.setVf k x).pfMsix = s.pfMsix := rfl
@[simp] theorem State.setVf_sites (s : State) (k : Nat) (x : Vf) : (s.setVf k x).sites = s.sites := rfl
@[simp] theorem State.setVf_ports (s : State) (k : Nat) (x : Vf) : (s.setVf k x).ports = s.ports := rfl
@[simp] theorem State.setVf_links (s : State) (k : Nat) (x : Vf) : (s.setVf k x).links = s.links := rfl
@[simp] theorem State.setVf_parts (s : State) (k : Nat) (x : Vf) : (s.setVf k x).parts = s.parts := rfl
@[simp] theorem State.setVf_groups (s : State) (k : Nat) (x : Vf) : (s.setVf k x).groups = s.groups := rfl
@[simp] theorem State.setVf_host (s : State) (k : Nat) (x : Vf) : (s.setVf k x).host = s.host := rfl
@[simp] theorem State.setVf_hostBad (s : State) (k : Nat) (x : Vf) : (s.setVf k x).hostBad = s.hostBad := rfl
@[simp] theorem State.setVf_bufs (s : State) (k : Nat) (x : Vf) : (s.setVf k x).bufs = s.bufs := rfl
@[simp] theorem State.setVf_caps (s : State) (k : Nat) (x : Vf) : (s.setVf k x).caps = s.caps := rfl
@[simp] theorem State.setVf_graphs (s : State) (k : Nat) (x : Vf) : (s.setVf k x).graphs = s.graphs := rfl
@[simp] theorem State.setVf_nodes (s : State) (k : Nat) (x : Vf) : (s.setVf k x).nodes = s.nodes := rfl
@[simp] theorem State.setVf_atts (s : State) (k : Nat) (x : Vf) : (s.setVf k x).atts = s.atts := rfl
@[simp] theorem State.setVf_runq (s : State) (k : Nat) (x : Vf) : (s.setVf k x).runq = s.runq := rfl
@[simp] theorem State.setVf_held (s : State) (k : Nat) (x : Vf) : (s.setVf k x).held = s.held := rfl
@[simp] theorem State.setVf_robin (s : State) (k : Nat) (x : Vf) : (s.setVf k x).robin = s.robin := rfl
@[simp] theorem State.setVf_nextDisp (s : State) (k : Nat) (x : Vf) : (s.setVf k x).nextDisp = s.nextDisp := rfl
@[simp] theorem State.setVf_cores (s : State) (k : Nat) (x : Vf) : (s.setVf k x).cores = s.cores := rfl
@[simp] theorem State.setVf_tahr (s : State) (k : Nat) (x : Vf) : (s.setVf k x).tahr = s.tahr := rfl
@[simp] theorem State.setVf_stage (s : State) (k : Nat) (x : Vf) : (s.setVf k x).stage = s.stage := rfl
@[simp] theorem State.setVf_evq (s : State) (k : Nat) (x : Vf) : (s.setVf k x).evq = s.evq := rfl
@[simp] theorem State.setVf_receipts (s : State) (k : Nat) (x : Vf) : (s.setVf k x).receipts = s.receipts := rfl
@[simp] theorem State.setVf_codes (s : State) (k : Nat) (x : Vf) : (s.setVf k x).codes = s.codes := rfl
@[simp] theorem State.setVf_grants (s : State) (k : Nat) (x : Vf) : (s.setVf k x).grants = s.grants := rfl
@[simp] theorem State.setVf_exts (s : State) (k : Nat) (x : Vf) : (s.setVf k x).exts = s.exts := rfl
@[simp] theorem State.setVf_lines (s : State) (k : Nat) (x : Vf) : (s.setVf k x).lines = s.lines := rfl
@[simp] theorem State.setVf_recalls (s : State) (k : Nat) (x : Vf) : (s.setVf k x).recalls = s.recalls := rfl
@[simp] theorem State.setVf_homeq (s : State) (k : Nat) (x : Vf) : (s.setVf k x).homeq = s.homeq := rfl
@[simp] theorem State.setVf_l1 (s : State) (k : Nat) (x : Vf) : (s.setVf k x).l1 = s.l1 := rfl
@[simp] theorem State.setVf_l2 (s : State) (k : Nat) (x : Vf) : (s.setVf k x).l2 = s.l2 := rfl
@[simp] theorem State.setVf_tlb (s : State) (k : Nat) (x : Vf) : (s.setVf k x).tlb = s.tlb := rfl
@[simp] theorem State.setVf_walks (s : State) (k : Nat) (x : Vf) : (s.setVf k x).walks = s.walks := rfl
@[simp] theorem State.setVf_ras (s : State) (k : Nat) (x : Vf) : (s.setVf k x).ras = s.ras := rfl
@[simp] theorem State.setVf_fcfg (s : State) (k : Nat) (x : Vf) : (s.setVf k x).fcfg = s.fcfg := rfl
@[simp] theorem State.setVf_nextBuf (s : State) (k : Nat) (x : Vf) : (s.setVf k x).nextBuf = s.nextBuf := rfl
@[simp] theorem State.setVf_nextMem (s : State) (k : Nat) (x : Vf) : (s.setVf k x).nextMem = s.nextMem := rfl
@[simp] theorem State.setVf_nextGraph (s : State) (k : Nat) (x : Vf) : (s.setVf k x).nextGraph = s.nextGraph := rfl
@[simp] theorem State.setVf_nextNode (s : State) (k : Nat) (x : Vf) : (s.setVf k x).nextNode = s.nextNode := rfl
@[simp] theorem State.setVf_nextAtt (s : State) (k : Nat) (x : Vf) : (s.setVf k x).nextAtt = s.nextAtt := rfl
@[simp] theorem State.setVf_nextTurn (s : State) (k : Nat) (x : Vf) : (s.setVf k x).nextTurn = s.nextTurn := rfl

@[simp] theorem State.setPart_time (s : State) (k : Nat) (x : Partition) : (s.setPart k x).time = s.time := rfl
@[simp] theorem State.setPart_stopped (s : State) (k : Nat) (x : Partition) : (s.setPart k x).stopped = s.stopped := rfl
@[simp] theorem State.setPart_cur (s : State) (k : Nat) (x : Partition) : (s.setPart k x).cur = s.cur := rfl
@[simp] theorem State.setPart_turns (s : State) (k : Nat) (x : Partition) : (s.setPart k x).turns = s.turns := rfl
@[simp] theorem State.setPart_due (s : State) (k : Nat) (x : Partition) : (s.setPart k x).due = s.due := rfl
@[simp] theorem State.setPart_inputs (s : State) (k : Nat) (x : Partition) : (s.setPart k x).inputs = s.inputs := rfl
@[simp] theorem State.setPart_replies (s : State) (k : Nat) (x : Partition) : (s.setPart k x).replies = s.replies := rfl
@[simp] theorem State.setPart_freeIdx (s : State) (k : Nat) (x : Partition) : (s.setPart k x).freeIdx = s.freeIdx := rfl
@[simp] theorem State.setPart_sent (s : State) (k : Nat) (x : Partition) : (s.setPart k x).sent = s.sent := rfl
@[simp] theorem State.setPart_pkg (s : State) (k : Nat) (x : Partition) : (s.setPart k x).pkg = s.pkg := rfl
@[simp] theorem State.setPart_pfMsix (s : State) (k : Nat) (x : Partition) : (s.setPart k x).pfMsix = s.pfMsix := rfl
@[simp] theorem State.setPart_sites (s : State) (k : Nat) (x : Partition) : (s.setPart k x).sites = s.sites := rfl
@[simp] theorem State.setPart_ports (s : State) (k : Nat) (x : Partition) : (s.setPart k x).ports = s.ports := rfl
@[simp] theorem State.setPart_links (s : State) (k : Nat) (x : Partition) : (s.setPart k x).links = s.links := rfl
@[simp] theorem State.setPart_vfs (s : State) (k : Nat) (x : Partition) : (s.setPart k x).vfs = s.vfs := rfl
@[simp] theorem State.setPart_groups (s : State) (k : Nat) (x : Partition) : (s.setPart k x).groups = s.groups := rfl
@[simp] theorem State.setPart_host (s : State) (k : Nat) (x : Partition) : (s.setPart k x).host = s.host := rfl
@[simp] theorem State.setPart_hostBad (s : State) (k : Nat) (x : Partition) : (s.setPart k x).hostBad = s.hostBad := rfl
@[simp] theorem State.setPart_bufs (s : State) (k : Nat) (x : Partition) : (s.setPart k x).bufs = s.bufs := rfl
@[simp] theorem State.setPart_caps (s : State) (k : Nat) (x : Partition) : (s.setPart k x).caps = s.caps := rfl
@[simp] theorem State.setPart_graphs (s : State) (k : Nat) (x : Partition) : (s.setPart k x).graphs = s.graphs := rfl
@[simp] theorem State.setPart_nodes (s : State) (k : Nat) (x : Partition) : (s.setPart k x).nodes = s.nodes := rfl
@[simp] theorem State.setPart_atts (s : State) (k : Nat) (x : Partition) : (s.setPart k x).atts = s.atts := rfl
@[simp] theorem State.setPart_runq (s : State) (k : Nat) (x : Partition) : (s.setPart k x).runq = s.runq := rfl
@[simp] theorem State.setPart_held (s : State) (k : Nat) (x : Partition) : (s.setPart k x).held = s.held := rfl
@[simp] theorem State.setPart_robin (s : State) (k : Nat) (x : Partition) : (s.setPart k x).robin = s.robin := rfl
@[simp] theorem State.setPart_nextDisp (s : State) (k : Nat) (x : Partition) : (s.setPart k x).nextDisp = s.nextDisp := rfl
@[simp] theorem State.setPart_cores (s : State) (k : Nat) (x : Partition) : (s.setPart k x).cores = s.cores := rfl
@[simp] theorem State.setPart_tahr (s : State) (k : Nat) (x : Partition) : (s.setPart k x).tahr = s.tahr := rfl
@[simp] theorem State.setPart_stage (s : State) (k : Nat) (x : Partition) : (s.setPart k x).stage = s.stage := rfl
@[simp] theorem State.setPart_evq (s : State) (k : Nat) (x : Partition) : (s.setPart k x).evq = s.evq := rfl
@[simp] theorem State.setPart_receipts (s : State) (k : Nat) (x : Partition) : (s.setPart k x).receipts = s.receipts := rfl
@[simp] theorem State.setPart_codes (s : State) (k : Nat) (x : Partition) : (s.setPart k x).codes = s.codes := rfl
@[simp] theorem State.setPart_grants (s : State) (k : Nat) (x : Partition) : (s.setPart k x).grants = s.grants := rfl
@[simp] theorem State.setPart_exts (s : State) (k : Nat) (x : Partition) : (s.setPart k x).exts = s.exts := rfl
@[simp] theorem State.setPart_lines (s : State) (k : Nat) (x : Partition) : (s.setPart k x).lines = s.lines := rfl
@[simp] theorem State.setPart_recalls (s : State) (k : Nat) (x : Partition) : (s.setPart k x).recalls = s.recalls := rfl
@[simp] theorem State.setPart_homeq (s : State) (k : Nat) (x : Partition) : (s.setPart k x).homeq = s.homeq := rfl
@[simp] theorem State.setPart_l1 (s : State) (k : Nat) (x : Partition) : (s.setPart k x).l1 = s.l1 := rfl
@[simp] theorem State.setPart_l2 (s : State) (k : Nat) (x : Partition) : (s.setPart k x).l2 = s.l2 := rfl
@[simp] theorem State.setPart_tlb (s : State) (k : Nat) (x : Partition) : (s.setPart k x).tlb = s.tlb := rfl
@[simp] theorem State.setPart_walks (s : State) (k : Nat) (x : Partition) : (s.setPart k x).walks = s.walks := rfl
@[simp] theorem State.setPart_ras (s : State) (k : Nat) (x : Partition) : (s.setPart k x).ras = s.ras := rfl
@[simp] theorem State.setPart_fcfg (s : State) (k : Nat) (x : Partition) : (s.setPart k x).fcfg = s.fcfg := rfl
@[simp] theorem State.setPart_nextBuf (s : State) (k : Nat) (x : Partition) : (s.setPart k x).nextBuf = s.nextBuf := rfl
@[simp] theorem State.setPart_nextMem (s : State) (k : Nat) (x : Partition) : (s.setPart k x).nextMem = s.nextMem := rfl
@[simp] theorem State.setPart_nextGraph (s : State) (k : Nat) (x : Partition) : (s.setPart k x).nextGraph = s.nextGraph := rfl
@[simp] theorem State.setPart_nextNode (s : State) (k : Nat) (x : Partition) : (s.setPart k x).nextNode = s.nextNode := rfl
@[simp] theorem State.setPart_nextAtt (s : State) (k : Nat) (x : Partition) : (s.setPart k x).nextAtt = s.nextAtt := rfl
@[simp] theorem State.setPart_nextTurn (s : State) (k : Nat) (x : Partition) : (s.setPart k x).nextTurn = s.nextTurn := rfl

@[simp] theorem State.setBuf_time (s : State) (k : Nat) (x : Buffer) : (s.setBuf k x).time = s.time := rfl
@[simp] theorem State.setBuf_stopped (s : State) (k : Nat) (x : Buffer) : (s.setBuf k x).stopped = s.stopped := rfl
@[simp] theorem State.setBuf_cur (s : State) (k : Nat) (x : Buffer) : (s.setBuf k x).cur = s.cur := rfl
@[simp] theorem State.setBuf_turns (s : State) (k : Nat) (x : Buffer) : (s.setBuf k x).turns = s.turns := rfl
@[simp] theorem State.setBuf_due (s : State) (k : Nat) (x : Buffer) : (s.setBuf k x).due = s.due := rfl
@[simp] theorem State.setBuf_inputs (s : State) (k : Nat) (x : Buffer) : (s.setBuf k x).inputs = s.inputs := rfl
@[simp] theorem State.setBuf_replies (s : State) (k : Nat) (x : Buffer) : (s.setBuf k x).replies = s.replies := rfl
@[simp] theorem State.setBuf_freeIdx (s : State) (k : Nat) (x : Buffer) : (s.setBuf k x).freeIdx = s.freeIdx := rfl
@[simp] theorem State.setBuf_sent (s : State) (k : Nat) (x : Buffer) : (s.setBuf k x).sent = s.sent := rfl
@[simp] theorem State.setBuf_pkg (s : State) (k : Nat) (x : Buffer) : (s.setBuf k x).pkg = s.pkg := rfl
@[simp] theorem State.setBuf_pfMsix (s : State) (k : Nat) (x : Buffer) : (s.setBuf k x).pfMsix = s.pfMsix := rfl
@[simp] theorem State.setBuf_sites (s : State) (k : Nat) (x : Buffer) : (s.setBuf k x).sites = s.sites := rfl
@[simp] theorem State.setBuf_ports (s : State) (k : Nat) (x : Buffer) : (s.setBuf k x).ports = s.ports := rfl
@[simp] theorem State.setBuf_links (s : State) (k : Nat) (x : Buffer) : (s.setBuf k x).links = s.links := rfl
@[simp] theorem State.setBuf_vfs (s : State) (k : Nat) (x : Buffer) : (s.setBuf k x).vfs = s.vfs := rfl
@[simp] theorem State.setBuf_parts (s : State) (k : Nat) (x : Buffer) : (s.setBuf k x).parts = s.parts := rfl
@[simp] theorem State.setBuf_groups (s : State) (k : Nat) (x : Buffer) : (s.setBuf k x).groups = s.groups := rfl
@[simp] theorem State.setBuf_host (s : State) (k : Nat) (x : Buffer) : (s.setBuf k x).host = s.host := rfl
@[simp] theorem State.setBuf_hostBad (s : State) (k : Nat) (x : Buffer) : (s.setBuf k x).hostBad = s.hostBad := rfl
@[simp] theorem State.setBuf_caps (s : State) (k : Nat) (x : Buffer) : (s.setBuf k x).caps = s.caps := rfl
@[simp] theorem State.setBuf_graphs (s : State) (k : Nat) (x : Buffer) : (s.setBuf k x).graphs = s.graphs := rfl
@[simp] theorem State.setBuf_nodes (s : State) (k : Nat) (x : Buffer) : (s.setBuf k x).nodes = s.nodes := rfl
@[simp] theorem State.setBuf_atts (s : State) (k : Nat) (x : Buffer) : (s.setBuf k x).atts = s.atts := rfl
@[simp] theorem State.setBuf_runq (s : State) (k : Nat) (x : Buffer) : (s.setBuf k x).runq = s.runq := rfl
@[simp] theorem State.setBuf_held (s : State) (k : Nat) (x : Buffer) : (s.setBuf k x).held = s.held := rfl
@[simp] theorem State.setBuf_robin (s : State) (k : Nat) (x : Buffer) : (s.setBuf k x).robin = s.robin := rfl
@[simp] theorem State.setBuf_nextDisp (s : State) (k : Nat) (x : Buffer) : (s.setBuf k x).nextDisp = s.nextDisp := rfl
@[simp] theorem State.setBuf_cores (s : State) (k : Nat) (x : Buffer) : (s.setBuf k x).cores = s.cores := rfl
@[simp] theorem State.setBuf_tahr (s : State) (k : Nat) (x : Buffer) : (s.setBuf k x).tahr = s.tahr := rfl
@[simp] theorem State.setBuf_stage (s : State) (k : Nat) (x : Buffer) : (s.setBuf k x).stage = s.stage := rfl
@[simp] theorem State.setBuf_evq (s : State) (k : Nat) (x : Buffer) : (s.setBuf k x).evq = s.evq := rfl
@[simp] theorem State.setBuf_receipts (s : State) (k : Nat) (x : Buffer) : (s.setBuf k x).receipts = s.receipts := rfl
@[simp] theorem State.setBuf_codes (s : State) (k : Nat) (x : Buffer) : (s.setBuf k x).codes = s.codes := rfl
@[simp] theorem State.setBuf_grants (s : State) (k : Nat) (x : Buffer) : (s.setBuf k x).grants = s.grants := rfl
@[simp] theorem State.setBuf_exts (s : State) (k : Nat) (x : Buffer) : (s.setBuf k x).exts = s.exts := rfl
@[simp] theorem State.setBuf_lines (s : State) (k : Nat) (x : Buffer) : (s.setBuf k x).lines = s.lines := rfl
@[simp] theorem State.setBuf_recalls (s : State) (k : Nat) (x : Buffer) : (s.setBuf k x).recalls = s.recalls := rfl
@[simp] theorem State.setBuf_homeq (s : State) (k : Nat) (x : Buffer) : (s.setBuf k x).homeq = s.homeq := rfl
@[simp] theorem State.setBuf_l1 (s : State) (k : Nat) (x : Buffer) : (s.setBuf k x).l1 = s.l1 := rfl
@[simp] theorem State.setBuf_l2 (s : State) (k : Nat) (x : Buffer) : (s.setBuf k x).l2 = s.l2 := rfl
@[simp] theorem State.setBuf_tlb (s : State) (k : Nat) (x : Buffer) : (s.setBuf k x).tlb = s.tlb := rfl
@[simp] theorem State.setBuf_walks (s : State) (k : Nat) (x : Buffer) : (s.setBuf k x).walks = s.walks := rfl
@[simp] theorem State.setBuf_ras (s : State) (k : Nat) (x : Buffer) : (s.setBuf k x).ras = s.ras := rfl
@[simp] theorem State.setBuf_fcfg (s : State) (k : Nat) (x : Buffer) : (s.setBuf k x).fcfg = s.fcfg := rfl
@[simp] theorem State.setBuf_nextBuf (s : State) (k : Nat) (x : Buffer) : (s.setBuf k x).nextBuf = s.nextBuf := rfl
@[simp] theorem State.setBuf_nextMem (s : State) (k : Nat) (x : Buffer) : (s.setBuf k x).nextMem = s.nextMem := rfl
@[simp] theorem State.setBuf_nextGraph (s : State) (k : Nat) (x : Buffer) : (s.setBuf k x).nextGraph = s.nextGraph := rfl
@[simp] theorem State.setBuf_nextNode (s : State) (k : Nat) (x : Buffer) : (s.setBuf k x).nextNode = s.nextNode := rfl
@[simp] theorem State.setBuf_nextAtt (s : State) (k : Nat) (x : Buffer) : (s.setBuf k x).nextAtt = s.nextAtt := rfl
@[simp] theorem State.setBuf_nextTurn (s : State) (k : Nat) (x : Buffer) : (s.setBuf k x).nextTurn = s.nextTurn := rfl

@[simp] theorem State.setPkg_time (s : State) (x : Pkg) : (s.setPkg x).time = s.time := rfl
@[simp] theorem State.setPkg_stopped (s : State) (x : Pkg) : (s.setPkg x).stopped = s.stopped := rfl
@[simp] theorem State.setPkg_cur (s : State) (x : Pkg) : (s.setPkg x).cur = s.cur := rfl
@[simp] theorem State.setPkg_turns (s : State) (x : Pkg) : (s.setPkg x).turns = s.turns := rfl
@[simp] theorem State.setPkg_due (s : State) (x : Pkg) : (s.setPkg x).due = s.due := rfl
@[simp] theorem State.setPkg_inputs (s : State) (x : Pkg) : (s.setPkg x).inputs = s.inputs := rfl
@[simp] theorem State.setPkg_replies (s : State) (x : Pkg) : (s.setPkg x).replies = s.replies := rfl
@[simp] theorem State.setPkg_freeIdx (s : State) (x : Pkg) : (s.setPkg x).freeIdx = s.freeIdx := rfl
@[simp] theorem State.setPkg_sent (s : State) (x : Pkg) : (s.setPkg x).sent = s.sent := rfl
@[simp] theorem State.setPkg_pfMsix (s : State) (x : Pkg) : (s.setPkg x).pfMsix = s.pfMsix := rfl
@[simp] theorem State.setPkg_sites (s : State) (x : Pkg) : (s.setPkg x).sites = s.sites := rfl
@[simp] theorem State.setPkg_ports (s : State) (x : Pkg) : (s.setPkg x).ports = s.ports := rfl
@[simp] theorem State.setPkg_links (s : State) (x : Pkg) : (s.setPkg x).links = s.links := rfl
@[simp] theorem State.setPkg_vfs (s : State) (x : Pkg) : (s.setPkg x).vfs = s.vfs := rfl
@[simp] theorem State.setPkg_parts (s : State) (x : Pkg) : (s.setPkg x).parts = s.parts := rfl
@[simp] theorem State.setPkg_groups (s : State) (x : Pkg) : (s.setPkg x).groups = s.groups := rfl
@[simp] theorem State.setPkg_host (s : State) (x : Pkg) : (s.setPkg x).host = s.host := rfl
@[simp] theorem State.setPkg_hostBad (s : State) (x : Pkg) : (s.setPkg x).hostBad = s.hostBad := rfl
@[simp] theorem State.setPkg_bufs (s : State) (x : Pkg) : (s.setPkg x).bufs = s.bufs := rfl
@[simp] theorem State.setPkg_caps (s : State) (x : Pkg) : (s.setPkg x).caps = s.caps := rfl
@[simp] theorem State.setPkg_graphs (s : State) (x : Pkg) : (s.setPkg x).graphs = s.graphs := rfl
@[simp] theorem State.setPkg_nodes (s : State) (x : Pkg) : (s.setPkg x).nodes = s.nodes := rfl
@[simp] theorem State.setPkg_atts (s : State) (x : Pkg) : (s.setPkg x).atts = s.atts := rfl
@[simp] theorem State.setPkg_runq (s : State) (x : Pkg) : (s.setPkg x).runq = s.runq := rfl
@[simp] theorem State.setPkg_held (s : State) (x : Pkg) : (s.setPkg x).held = s.held := rfl
@[simp] theorem State.setPkg_robin (s : State) (x : Pkg) : (s.setPkg x).robin = s.robin := rfl
@[simp] theorem State.setPkg_nextDisp (s : State) (x : Pkg) : (s.setPkg x).nextDisp = s.nextDisp := rfl
@[simp] theorem State.setPkg_cores (s : State) (x : Pkg) : (s.setPkg x).cores = s.cores := rfl
@[simp] theorem State.setPkg_tahr (s : State) (x : Pkg) : (s.setPkg x).tahr = s.tahr := rfl
@[simp] theorem State.setPkg_stage (s : State) (x : Pkg) : (s.setPkg x).stage = s.stage := rfl
@[simp] theorem State.setPkg_evq (s : State) (x : Pkg) : (s.setPkg x).evq = s.evq := rfl
@[simp] theorem State.setPkg_receipts (s : State) (x : Pkg) : (s.setPkg x).receipts = s.receipts := rfl
@[simp] theorem State.setPkg_codes (s : State) (x : Pkg) : (s.setPkg x).codes = s.codes := rfl
@[simp] theorem State.setPkg_grants (s : State) (x : Pkg) : (s.setPkg x).grants = s.grants := rfl
@[simp] theorem State.setPkg_exts (s : State) (x : Pkg) : (s.setPkg x).exts = s.exts := rfl
@[simp] theorem State.setPkg_lines (s : State) (x : Pkg) : (s.setPkg x).lines = s.lines := rfl
@[simp] theorem State.setPkg_recalls (s : State) (x : Pkg) : (s.setPkg x).recalls = s.recalls := rfl
@[simp] theorem State.setPkg_homeq (s : State) (x : Pkg) : (s.setPkg x).homeq = s.homeq := rfl
@[simp] theorem State.setPkg_l1 (s : State) (x : Pkg) : (s.setPkg x).l1 = s.l1 := rfl
@[simp] theorem State.setPkg_l2 (s : State) (x : Pkg) : (s.setPkg x).l2 = s.l2 := rfl
@[simp] theorem State.setPkg_tlb (s : State) (x : Pkg) : (s.setPkg x).tlb = s.tlb := rfl
@[simp] theorem State.setPkg_walks (s : State) (x : Pkg) : (s.setPkg x).walks = s.walks := rfl
@[simp] theorem State.setPkg_ras (s : State) (x : Pkg) : (s.setPkg x).ras = s.ras := rfl
@[simp] theorem State.setPkg_fcfg (s : State) (x : Pkg) : (s.setPkg x).fcfg = s.fcfg := rfl
@[simp] theorem State.setPkg_nextBuf (s : State) (x : Pkg) : (s.setPkg x).nextBuf = s.nextBuf := rfl
@[simp] theorem State.setPkg_nextMem (s : State) (x : Pkg) : (s.setPkg x).nextMem = s.nextMem := rfl
@[simp] theorem State.setPkg_nextGraph (s : State) (x : Pkg) : (s.setPkg x).nextGraph = s.nextGraph := rfl
@[simp] theorem State.setPkg_nextNode (s : State) (x : Pkg) : (s.setPkg x).nextNode = s.nextNode := rfl
@[simp] theorem State.setPkg_nextAtt (s : State) (x : Pkg) : (s.setPkg x).nextAtt = s.nextAtt := rfl
@[simp] theorem State.setPkg_nextTurn (s : State) (x : Pkg) : (s.setPkg x).nextTurn = s.nextTurn := rfl

@[simp] theorem State.setSite_time (s : State) (k : Nat) (x : Site) : (s.setSite k x).time = s.time := rfl
@[simp] theorem State.setSite_stopped (s : State) (k : Nat) (x : Site) : (s.setSite k x).stopped = s.stopped := rfl
@[simp] theorem State.setSite_cur (s : State) (k : Nat) (x : Site) : (s.setSite k x).cur = s.cur := rfl
@[simp] theorem State.setSite_turns (s : State) (k : Nat) (x : Site) : (s.setSite k x).turns = s.turns := rfl
@[simp] theorem State.setSite_due (s : State) (k : Nat) (x : Site) : (s.setSite k x).due = s.due := rfl
@[simp] theorem State.setSite_inputs (s : State) (k : Nat) (x : Site) : (s.setSite k x).inputs = s.inputs := rfl
@[simp] theorem State.setSite_replies (s : State) (k : Nat) (x : Site) : (s.setSite k x).replies = s.replies := rfl
@[simp] theorem State.setSite_freeIdx (s : State) (k : Nat) (x : Site) : (s.setSite k x).freeIdx = s.freeIdx := rfl
@[simp] theorem State.setSite_sent (s : State) (k : Nat) (x : Site) : (s.setSite k x).sent = s.sent := rfl
@[simp] theorem State.setSite_pkg (s : State) (k : Nat) (x : Site) : (s.setSite k x).pkg = s.pkg := rfl
@[simp] theorem State.setSite_pfMsix (s : State) (k : Nat) (x : Site) : (s.setSite k x).pfMsix = s.pfMsix := rfl
@[simp] theorem State.setSite_ports (s : State) (k : Nat) (x : Site) : (s.setSite k x).ports = s.ports := rfl
@[simp] theorem State.setSite_links (s : State) (k : Nat) (x : Site) : (s.setSite k x).links = s.links := rfl
@[simp] theorem State.setSite_vfs (s : State) (k : Nat) (x : Site) : (s.setSite k x).vfs = s.vfs := rfl
@[simp] theorem State.setSite_parts (s : State) (k : Nat) (x : Site) : (s.setSite k x).parts = s.parts := rfl
@[simp] theorem State.setSite_groups (s : State) (k : Nat) (x : Site) : (s.setSite k x).groups = s.groups := rfl
@[simp] theorem State.setSite_host (s : State) (k : Nat) (x : Site) : (s.setSite k x).host = s.host := rfl
@[simp] theorem State.setSite_hostBad (s : State) (k : Nat) (x : Site) : (s.setSite k x).hostBad = s.hostBad := rfl
@[simp] theorem State.setSite_bufs (s : State) (k : Nat) (x : Site) : (s.setSite k x).bufs = s.bufs := rfl
@[simp] theorem State.setSite_caps (s : State) (k : Nat) (x : Site) : (s.setSite k x).caps = s.caps := rfl
@[simp] theorem State.setSite_graphs (s : State) (k : Nat) (x : Site) : (s.setSite k x).graphs = s.graphs := rfl
@[simp] theorem State.setSite_nodes (s : State) (k : Nat) (x : Site) : (s.setSite k x).nodes = s.nodes := rfl
@[simp] theorem State.setSite_atts (s : State) (k : Nat) (x : Site) : (s.setSite k x).atts = s.atts := rfl
@[simp] theorem State.setSite_runq (s : State) (k : Nat) (x : Site) : (s.setSite k x).runq = s.runq := rfl
@[simp] theorem State.setSite_held (s : State) (k : Nat) (x : Site) : (s.setSite k x).held = s.held := rfl
@[simp] theorem State.setSite_robin (s : State) (k : Nat) (x : Site) : (s.setSite k x).robin = s.robin := rfl
@[simp] theorem State.setSite_nextDisp (s : State) (k : Nat) (x : Site) : (s.setSite k x).nextDisp = s.nextDisp := rfl
@[simp] theorem State.setSite_cores (s : State) (k : Nat) (x : Site) : (s.setSite k x).cores = s.cores := rfl
@[simp] theorem State.setSite_tahr (s : State) (k : Nat) (x : Site) : (s.setSite k x).tahr = s.tahr := rfl
@[simp] theorem State.setSite_stage (s : State) (k : Nat) (x : Site) : (s.setSite k x).stage = s.stage := rfl
@[simp] theorem State.setSite_evq (s : State) (k : Nat) (x : Site) : (s.setSite k x).evq = s.evq := rfl
@[simp] theorem State.setSite_receipts (s : State) (k : Nat) (x : Site) : (s.setSite k x).receipts = s.receipts := rfl
@[simp] theorem State.setSite_codes (s : State) (k : Nat) (x : Site) : (s.setSite k x).codes = s.codes := rfl
@[simp] theorem State.setSite_grants (s : State) (k : Nat) (x : Site) : (s.setSite k x).grants = s.grants := rfl
@[simp] theorem State.setSite_exts (s : State) (k : Nat) (x : Site) : (s.setSite k x).exts = s.exts := rfl
@[simp] theorem State.setSite_lines (s : State) (k : Nat) (x : Site) : (s.setSite k x).lines = s.lines := rfl
@[simp] theorem State.setSite_recalls (s : State) (k : Nat) (x : Site) : (s.setSite k x).recalls = s.recalls := rfl
@[simp] theorem State.setSite_homeq (s : State) (k : Nat) (x : Site) : (s.setSite k x).homeq = s.homeq := rfl
@[simp] theorem State.setSite_l1 (s : State) (k : Nat) (x : Site) : (s.setSite k x).l1 = s.l1 := rfl
@[simp] theorem State.setSite_l2 (s : State) (k : Nat) (x : Site) : (s.setSite k x).l2 = s.l2 := rfl
@[simp] theorem State.setSite_tlb (s : State) (k : Nat) (x : Site) : (s.setSite k x).tlb = s.tlb := rfl
@[simp] theorem State.setSite_walks (s : State) (k : Nat) (x : Site) : (s.setSite k x).walks = s.walks := rfl
@[simp] theorem State.setSite_ras (s : State) (k : Nat) (x : Site) : (s.setSite k x).ras = s.ras := rfl
@[simp] theorem State.setSite_fcfg (s : State) (k : Nat) (x : Site) : (s.setSite k x).fcfg = s.fcfg := rfl
@[simp] theorem State.setSite_nextBuf (s : State) (k : Nat) (x : Site) : (s.setSite k x).nextBuf = s.nextBuf := rfl
@[simp] theorem State.setSite_nextMem (s : State) (k : Nat) (x : Site) : (s.setSite k x).nextMem = s.nextMem := rfl
@[simp] theorem State.setSite_nextGraph (s : State) (k : Nat) (x : Site) : (s.setSite k x).nextGraph = s.nextGraph := rfl
@[simp] theorem State.setSite_nextNode (s : State) (k : Nat) (x : Site) : (s.setSite k x).nextNode = s.nextNode := rfl
@[simp] theorem State.setSite_nextAtt (s : State) (k : Nat) (x : Site) : (s.setSite k x).nextAtt = s.nextAtt := rfl
@[simp] theorem State.setSite_nextTurn (s : State) (k : Nat) (x : Site) : (s.setSite k x).nextTurn = s.nextTurn := rfl

@[simp] theorem State.setLink_time (s : State) (k : Nat) (x : HostLink) : (s.setLink k x).time = s.time := rfl
@[simp] theorem State.setLink_stopped (s : State) (k : Nat) (x : HostLink) : (s.setLink k x).stopped = s.stopped := rfl
@[simp] theorem State.setLink_cur (s : State) (k : Nat) (x : HostLink) : (s.setLink k x).cur = s.cur := rfl
@[simp] theorem State.setLink_turns (s : State) (k : Nat) (x : HostLink) : (s.setLink k x).turns = s.turns := rfl
@[simp] theorem State.setLink_due (s : State) (k : Nat) (x : HostLink) : (s.setLink k x).due = s.due := rfl
@[simp] theorem State.setLink_inputs (s : State) (k : Nat) (x : HostLink) : (s.setLink k x).inputs = s.inputs := rfl
@[simp] theorem State.setLink_replies (s : State) (k : Nat) (x : HostLink) : (s.setLink k x).replies = s.replies := rfl
@[simp] theorem State.setLink_freeIdx (s : State) (k : Nat) (x : HostLink) : (s.setLink k x).freeIdx = s.freeIdx := rfl
@[simp] theorem State.setLink_sent (s : State) (k : Nat) (x : HostLink) : (s.setLink k x).sent = s.sent := rfl
@[simp] theorem State.setLink_pkg (s : State) (k : Nat) (x : HostLink) : (s.setLink k x).pkg = s.pkg := rfl
@[simp] theorem State.setLink_pfMsix (s : State) (k : Nat) (x : HostLink) : (s.setLink k x).pfMsix = s.pfMsix := rfl
@[simp] theorem State.setLink_sites (s : State) (k : Nat) (x : HostLink) : (s.setLink k x).sites = s.sites := rfl
@[simp] theorem State.setLink_ports (s : State) (k : Nat) (x : HostLink) : (s.setLink k x).ports = s.ports := rfl
@[simp] theorem State.setLink_vfs (s : State) (k : Nat) (x : HostLink) : (s.setLink k x).vfs = s.vfs := rfl
@[simp] theorem State.setLink_parts (s : State) (k : Nat) (x : HostLink) : (s.setLink k x).parts = s.parts := rfl
@[simp] theorem State.setLink_groups (s : State) (k : Nat) (x : HostLink) : (s.setLink k x).groups = s.groups := rfl
@[simp] theorem State.setLink_host (s : State) (k : Nat) (x : HostLink) : (s.setLink k x).host = s.host := rfl
@[simp] theorem State.setLink_hostBad (s : State) (k : Nat) (x : HostLink) : (s.setLink k x).hostBad = s.hostBad := rfl
@[simp] theorem State.setLink_bufs (s : State) (k : Nat) (x : HostLink) : (s.setLink k x).bufs = s.bufs := rfl
@[simp] theorem State.setLink_caps (s : State) (k : Nat) (x : HostLink) : (s.setLink k x).caps = s.caps := rfl
@[simp] theorem State.setLink_graphs (s : State) (k : Nat) (x : HostLink) : (s.setLink k x).graphs = s.graphs := rfl
@[simp] theorem State.setLink_nodes (s : State) (k : Nat) (x : HostLink) : (s.setLink k x).nodes = s.nodes := rfl
@[simp] theorem State.setLink_atts (s : State) (k : Nat) (x : HostLink) : (s.setLink k x).atts = s.atts := rfl
@[simp] theorem State.setLink_runq (s : State) (k : Nat) (x : HostLink) : (s.setLink k x).runq = s.runq := rfl
@[simp] theorem State.setLink_held (s : State) (k : Nat) (x : HostLink) : (s.setLink k x).held = s.held := rfl
@[simp] theorem State.setLink_robin (s : State) (k : Nat) (x : HostLink) : (s.setLink k x).robin = s.robin := rfl
@[simp] theorem State.setLink_nextDisp (s : State) (k : Nat) (x : HostLink) : (s.setLink k x).nextDisp = s.nextDisp := rfl
@[simp] theorem State.setLink_cores (s : State) (k : Nat) (x : HostLink) : (s.setLink k x).cores = s.cores := rfl
@[simp] theorem State.setLink_tahr (s : State) (k : Nat) (x : HostLink) : (s.setLink k x).tahr = s.tahr := rfl
@[simp] theorem State.setLink_stage (s : State) (k : Nat) (x : HostLink) : (s.setLink k x).stage = s.stage := rfl
@[simp] theorem State.setLink_evq (s : State) (k : Nat) (x : HostLink) : (s.setLink k x).evq = s.evq := rfl
@[simp] theorem State.setLink_receipts (s : State) (k : Nat) (x : HostLink) : (s.setLink k x).receipts = s.receipts := rfl
@[simp] theorem State.setLink_codes (s : State) (k : Nat) (x : HostLink) : (s.setLink k x).codes = s.codes := rfl
@[simp] theorem State.setLink_grants (s : State) (k : Nat) (x : HostLink) : (s.setLink k x).grants = s.grants := rfl
@[simp] theorem State.setLink_exts (s : State) (k : Nat) (x : HostLink) : (s.setLink k x).exts = s.exts := rfl
@[simp] theorem State.setLink_lines (s : State) (k : Nat) (x : HostLink) : (s.setLink k x).lines = s.lines := rfl
@[simp] theorem State.setLink_recalls (s : State) (k : Nat) (x : HostLink) : (s.setLink k x).recalls = s.recalls := rfl
@[simp] theorem State.setLink_homeq (s : State) (k : Nat) (x : HostLink) : (s.setLink k x).homeq = s.homeq := rfl
@[simp] theorem State.setLink_l1 (s : State) (k : Nat) (x : HostLink) : (s.setLink k x).l1 = s.l1 := rfl
@[simp] theorem State.setLink_l2 (s : State) (k : Nat) (x : HostLink) : (s.setLink k x).l2 = s.l2 := rfl
@[simp] theorem State.setLink_tlb (s : State) (k : Nat) (x : HostLink) : (s.setLink k x).tlb = s.tlb := rfl
@[simp] theorem State.setLink_walks (s : State) (k : Nat) (x : HostLink) : (s.setLink k x).walks = s.walks := rfl
@[simp] theorem State.setLink_ras (s : State) (k : Nat) (x : HostLink) : (s.setLink k x).ras = s.ras := rfl
@[simp] theorem State.setLink_fcfg (s : State) (k : Nat) (x : HostLink) : (s.setLink k x).fcfg = s.fcfg := rfl
@[simp] theorem State.setLink_nextBuf (s : State) (k : Nat) (x : HostLink) : (s.setLink k x).nextBuf = s.nextBuf := rfl
@[simp] theorem State.setLink_nextMem (s : State) (k : Nat) (x : HostLink) : (s.setLink k x).nextMem = s.nextMem := rfl
@[simp] theorem State.setLink_nextGraph (s : State) (k : Nat) (x : HostLink) : (s.setLink k x).nextGraph = s.nextGraph := rfl
@[simp] theorem State.setLink_nextNode (s : State) (k : Nat) (x : HostLink) : (s.setLink k x).nextNode = s.nextNode := rfl
@[simp] theorem State.setLink_nextAtt (s : State) (k : Nat) (x : HostLink) : (s.setLink k x).nextAtt = s.nextAtt := rfl
@[simp] theorem State.setLink_nextTurn (s : State) (k : Nat) (x : HostLink) : (s.setLink k x).nextTurn = s.nextTurn := rfl

@[simp] theorem State.setPort_time (s : State) (k : Nat) (x : PeerPort) : (s.setPort k x).time = s.time := rfl
@[simp] theorem State.setPort_stopped (s : State) (k : Nat) (x : PeerPort) : (s.setPort k x).stopped = s.stopped := rfl
@[simp] theorem State.setPort_cur (s : State) (k : Nat) (x : PeerPort) : (s.setPort k x).cur = s.cur := rfl
@[simp] theorem State.setPort_turns (s : State) (k : Nat) (x : PeerPort) : (s.setPort k x).turns = s.turns := rfl
@[simp] theorem State.setPort_due (s : State) (k : Nat) (x : PeerPort) : (s.setPort k x).due = s.due := rfl
@[simp] theorem State.setPort_inputs (s : State) (k : Nat) (x : PeerPort) : (s.setPort k x).inputs = s.inputs := rfl
@[simp] theorem State.setPort_replies (s : State) (k : Nat) (x : PeerPort) : (s.setPort k x).replies = s.replies := rfl
@[simp] theorem State.setPort_freeIdx (s : State) (k : Nat) (x : PeerPort) : (s.setPort k x).freeIdx = s.freeIdx := rfl
@[simp] theorem State.setPort_sent (s : State) (k : Nat) (x : PeerPort) : (s.setPort k x).sent = s.sent := rfl
@[simp] theorem State.setPort_pkg (s : State) (k : Nat) (x : PeerPort) : (s.setPort k x).pkg = s.pkg := rfl
@[simp] theorem State.setPort_pfMsix (s : State) (k : Nat) (x : PeerPort) : (s.setPort k x).pfMsix = s.pfMsix := rfl
@[simp] theorem State.setPort_sites (s : State) (k : Nat) (x : PeerPort) : (s.setPort k x).sites = s.sites := rfl
@[simp] theorem State.setPort_links (s : State) (k : Nat) (x : PeerPort) : (s.setPort k x).links = s.links := rfl
@[simp] theorem State.setPort_vfs (s : State) (k : Nat) (x : PeerPort) : (s.setPort k x).vfs = s.vfs := rfl
@[simp] theorem State.setPort_parts (s : State) (k : Nat) (x : PeerPort) : (s.setPort k x).parts = s.parts := rfl
@[simp] theorem State.setPort_groups (s : State) (k : Nat) (x : PeerPort) : (s.setPort k x).groups = s.groups := rfl
@[simp] theorem State.setPort_host (s : State) (k : Nat) (x : PeerPort) : (s.setPort k x).host = s.host := rfl
@[simp] theorem State.setPort_hostBad (s : State) (k : Nat) (x : PeerPort) : (s.setPort k x).hostBad = s.hostBad := rfl
@[simp] theorem State.setPort_bufs (s : State) (k : Nat) (x : PeerPort) : (s.setPort k x).bufs = s.bufs := rfl
@[simp] theorem State.setPort_caps (s : State) (k : Nat) (x : PeerPort) : (s.setPort k x).caps = s.caps := rfl
@[simp] theorem State.setPort_graphs (s : State) (k : Nat) (x : PeerPort) : (s.setPort k x).graphs = s.graphs := rfl
@[simp] theorem State.setPort_nodes (s : State) (k : Nat) (x : PeerPort) : (s.setPort k x).nodes = s.nodes := rfl
@[simp] theorem State.setPort_atts (s : State) (k : Nat) (x : PeerPort) : (s.setPort k x).atts = s.atts := rfl
@[simp] theorem State.setPort_runq (s : State) (k : Nat) (x : PeerPort) : (s.setPort k x).runq = s.runq := rfl
@[simp] theorem State.setPort_held (s : State) (k : Nat) (x : PeerPort) : (s.setPort k x).held = s.held := rfl
@[simp] theorem State.setPort_robin (s : State) (k : Nat) (x : PeerPort) : (s.setPort k x).robin = s.robin := rfl
@[simp] theorem State.setPort_nextDisp (s : State) (k : Nat) (x : PeerPort) : (s.setPort k x).nextDisp = s.nextDisp := rfl
@[simp] theorem State.setPort_cores (s : State) (k : Nat) (x : PeerPort) : (s.setPort k x).cores = s.cores := rfl
@[simp] theorem State.setPort_tahr (s : State) (k : Nat) (x : PeerPort) : (s.setPort k x).tahr = s.tahr := rfl
@[simp] theorem State.setPort_stage (s : State) (k : Nat) (x : PeerPort) : (s.setPort k x).stage = s.stage := rfl
@[simp] theorem State.setPort_evq (s : State) (k : Nat) (x : PeerPort) : (s.setPort k x).evq = s.evq := rfl
@[simp] theorem State.setPort_receipts (s : State) (k : Nat) (x : PeerPort) : (s.setPort k x).receipts = s.receipts := rfl
@[simp] theorem State.setPort_codes (s : State) (k : Nat) (x : PeerPort) : (s.setPort k x).codes = s.codes := rfl
@[simp] theorem State.setPort_grants (s : State) (k : Nat) (x : PeerPort) : (s.setPort k x).grants = s.grants := rfl
@[simp] theorem State.setPort_exts (s : State) (k : Nat) (x : PeerPort) : (s.setPort k x).exts = s.exts := rfl
@[simp] theorem State.setPort_lines (s : State) (k : Nat) (x : PeerPort) : (s.setPort k x).lines = s.lines := rfl
@[simp] theorem State.setPort_recalls (s : State) (k : Nat) (x : PeerPort) : (s.setPort k x).recalls = s.recalls := rfl
@[simp] theorem State.setPort_homeq (s : State) (k : Nat) (x : PeerPort) : (s.setPort k x).homeq = s.homeq := rfl
@[simp] theorem State.setPort_l1 (s : State) (k : Nat) (x : PeerPort) : (s.setPort k x).l1 = s.l1 := rfl
@[simp] theorem State.setPort_l2 (s : State) (k : Nat) (x : PeerPort) : (s.setPort k x).l2 = s.l2 := rfl
@[simp] theorem State.setPort_tlb (s : State) (k : Nat) (x : PeerPort) : (s.setPort k x).tlb = s.tlb := rfl
@[simp] theorem State.setPort_walks (s : State) (k : Nat) (x : PeerPort) : (s.setPort k x).walks = s.walks := rfl
@[simp] theorem State.setPort_ras (s : State) (k : Nat) (x : PeerPort) : (s.setPort k x).ras = s.ras := rfl
@[simp] theorem State.setPort_fcfg (s : State) (k : Nat) (x : PeerPort) : (s.setPort k x).fcfg = s.fcfg := rfl
@[simp] theorem State.setPort_nextBuf (s : State) (k : Nat) (x : PeerPort) : (s.setPort k x).nextBuf = s.nextBuf := rfl
@[simp] theorem State.setPort_nextMem (s : State) (k : Nat) (x : PeerPort) : (s.setPort k x).nextMem = s.nextMem := rfl
@[simp] theorem State.setPort_nextGraph (s : State) (k : Nat) (x : PeerPort) : (s.setPort k x).nextGraph = s.nextGraph := rfl
@[simp] theorem State.setPort_nextNode (s : State) (k : Nat) (x : PeerPort) : (s.setPort k x).nextNode = s.nextNode := rfl
@[simp] theorem State.setPort_nextAtt (s : State) (k : Nat) (x : PeerPort) : (s.setPort k x).nextAtt = s.nextAtt := rfl
@[simp] theorem State.setPort_nextTurn (s : State) (k : Nat) (x : PeerPort) : (s.setPort k x).nextTurn = s.nextTurn := rfl

@[simp] theorem State.setGroup_time (s : State) (k : Nat) (x : Group) : (s.setGroup k x).time = s.time := rfl
@[simp] theorem State.setGroup_stopped (s : State) (k : Nat) (x : Group) : (s.setGroup k x).stopped = s.stopped := rfl
@[simp] theorem State.setGroup_cur (s : State) (k : Nat) (x : Group) : (s.setGroup k x).cur = s.cur := rfl
@[simp] theorem State.setGroup_turns (s : State) (k : Nat) (x : Group) : (s.setGroup k x).turns = s.turns := rfl
@[simp] theorem State.setGroup_due (s : State) (k : Nat) (x : Group) : (s.setGroup k x).due = s.due := rfl
@[simp] theorem State.setGroup_inputs (s : State) (k : Nat) (x : Group) : (s.setGroup k x).inputs = s.inputs := rfl
@[simp] theorem State.setGroup_replies (s : State) (k : Nat) (x : Group) : (s.setGroup k x).replies = s.replies := rfl
@[simp] theorem State.setGroup_freeIdx (s : State) (k : Nat) (x : Group) : (s.setGroup k x).freeIdx = s.freeIdx := rfl
@[simp] theorem State.setGroup_sent (s : State) (k : Nat) (x : Group) : (s.setGroup k x).sent = s.sent := rfl
@[simp] theorem State.setGroup_pkg (s : State) (k : Nat) (x : Group) : (s.setGroup k x).pkg = s.pkg := rfl
@[simp] theorem State.setGroup_pfMsix (s : State) (k : Nat) (x : Group) : (s.setGroup k x).pfMsix = s.pfMsix := rfl
@[simp] theorem State.setGroup_sites (s : State) (k : Nat) (x : Group) : (s.setGroup k x).sites = s.sites := rfl
@[simp] theorem State.setGroup_ports (s : State) (k : Nat) (x : Group) : (s.setGroup k x).ports = s.ports := rfl
@[simp] theorem State.setGroup_links (s : State) (k : Nat) (x : Group) : (s.setGroup k x).links = s.links := rfl
@[simp] theorem State.setGroup_vfs (s : State) (k : Nat) (x : Group) : (s.setGroup k x).vfs = s.vfs := rfl
@[simp] theorem State.setGroup_parts (s : State) (k : Nat) (x : Group) : (s.setGroup k x).parts = s.parts := rfl
@[simp] theorem State.setGroup_host (s : State) (k : Nat) (x : Group) : (s.setGroup k x).host = s.host := rfl
@[simp] theorem State.setGroup_hostBad (s : State) (k : Nat) (x : Group) : (s.setGroup k x).hostBad = s.hostBad := rfl
@[simp] theorem State.setGroup_bufs (s : State) (k : Nat) (x : Group) : (s.setGroup k x).bufs = s.bufs := rfl
@[simp] theorem State.setGroup_caps (s : State) (k : Nat) (x : Group) : (s.setGroup k x).caps = s.caps := rfl
@[simp] theorem State.setGroup_graphs (s : State) (k : Nat) (x : Group) : (s.setGroup k x).graphs = s.graphs := rfl
@[simp] theorem State.setGroup_nodes (s : State) (k : Nat) (x : Group) : (s.setGroup k x).nodes = s.nodes := rfl
@[simp] theorem State.setGroup_atts (s : State) (k : Nat) (x : Group) : (s.setGroup k x).atts = s.atts := rfl
@[simp] theorem State.setGroup_runq (s : State) (k : Nat) (x : Group) : (s.setGroup k x).runq = s.runq := rfl
@[simp] theorem State.setGroup_held (s : State) (k : Nat) (x : Group) : (s.setGroup k x).held = s.held := rfl
@[simp] theorem State.setGroup_robin (s : State) (k : Nat) (x : Group) : (s.setGroup k x).robin = s.robin := rfl
@[simp] theorem State.setGroup_nextDisp (s : State) (k : Nat) (x : Group) : (s.setGroup k x).nextDisp = s.nextDisp := rfl
@[simp] theorem State.setGroup_cores (s : State) (k : Nat) (x : Group) : (s.setGroup k x).cores = s.cores := rfl
@[simp] theorem State.setGroup_tahr (s : State) (k : Nat) (x : Group) : (s.setGroup k x).tahr = s.tahr := rfl
@[simp] theorem State.setGroup_stage (s : State) (k : Nat) (x : Group) : (s.setGroup k x).stage = s.stage := rfl
@[simp] theorem State.setGroup_evq (s : State) (k : Nat) (x : Group) : (s.setGroup k x).evq = s.evq := rfl
@[simp] theorem State.setGroup_receipts (s : State) (k : Nat) (x : Group) : (s.setGroup k x).receipts = s.receipts := rfl
@[simp] theorem State.setGroup_codes (s : State) (k : Nat) (x : Group) : (s.setGroup k x).codes = s.codes := rfl
@[simp] theorem State.setGroup_grants (s : State) (k : Nat) (x : Group) : (s.setGroup k x).grants = s.grants := rfl
@[simp] theorem State.setGroup_exts (s : State) (k : Nat) (x : Group) : (s.setGroup k x).exts = s.exts := rfl
@[simp] theorem State.setGroup_lines (s : State) (k : Nat) (x : Group) : (s.setGroup k x).lines = s.lines := rfl
@[simp] theorem State.setGroup_recalls (s : State) (k : Nat) (x : Group) : (s.setGroup k x).recalls = s.recalls := rfl
@[simp] theorem State.setGroup_homeq (s : State) (k : Nat) (x : Group) : (s.setGroup k x).homeq = s.homeq := rfl
@[simp] theorem State.setGroup_l1 (s : State) (k : Nat) (x : Group) : (s.setGroup k x).l1 = s.l1 := rfl
@[simp] theorem State.setGroup_l2 (s : State) (k : Nat) (x : Group) : (s.setGroup k x).l2 = s.l2 := rfl
@[simp] theorem State.setGroup_tlb (s : State) (k : Nat) (x : Group) : (s.setGroup k x).tlb = s.tlb := rfl
@[simp] theorem State.setGroup_walks (s : State) (k : Nat) (x : Group) : (s.setGroup k x).walks = s.walks := rfl
@[simp] theorem State.setGroup_ras (s : State) (k : Nat) (x : Group) : (s.setGroup k x).ras = s.ras := rfl
@[simp] theorem State.setGroup_fcfg (s : State) (k : Nat) (x : Group) : (s.setGroup k x).fcfg = s.fcfg := rfl
@[simp] theorem State.setGroup_nextBuf (s : State) (k : Nat) (x : Group) : (s.setGroup k x).nextBuf = s.nextBuf := rfl
@[simp] theorem State.setGroup_nextMem (s : State) (k : Nat) (x : Group) : (s.setGroup k x).nextMem = s.nextMem := rfl
@[simp] theorem State.setGroup_nextGraph (s : State) (k : Nat) (x : Group) : (s.setGroup k x).nextGraph = s.nextGraph := rfl
@[simp] theorem State.setGroup_nextNode (s : State) (k : Nat) (x : Group) : (s.setGroup k x).nextNode = s.nextNode := rfl
@[simp] theorem State.setGroup_nextAtt (s : State) (k : Nat) (x : Group) : (s.setGroup k x).nextAtt = s.nextAtt := rfl
@[simp] theorem State.setGroup_nextTurn (s : State) (k : Nat) (x : Group) : (s.setGroup k x).nextTurn = s.nextTurn := rfl

@[simp] theorem State.setExt_time (s : State) (k : Nat) (x : Extent) : (s.setExt k x).time = s.time := rfl
@[simp] theorem State.setExt_stopped (s : State) (k : Nat) (x : Extent) : (s.setExt k x).stopped = s.stopped := rfl
@[simp] theorem State.setExt_cur (s : State) (k : Nat) (x : Extent) : (s.setExt k x).cur = s.cur := rfl
@[simp] theorem State.setExt_turns (s : State) (k : Nat) (x : Extent) : (s.setExt k x).turns = s.turns := rfl
@[simp] theorem State.setExt_due (s : State) (k : Nat) (x : Extent) : (s.setExt k x).due = s.due := rfl
@[simp] theorem State.setExt_inputs (s : State) (k : Nat) (x : Extent) : (s.setExt k x).inputs = s.inputs := rfl
@[simp] theorem State.setExt_replies (s : State) (k : Nat) (x : Extent) : (s.setExt k x).replies = s.replies := rfl
@[simp] theorem State.setExt_freeIdx (s : State) (k : Nat) (x : Extent) : (s.setExt k x).freeIdx = s.freeIdx := rfl
@[simp] theorem State.setExt_sent (s : State) (k : Nat) (x : Extent) : (s.setExt k x).sent = s.sent := rfl
@[simp] theorem State.setExt_pkg (s : State) (k : Nat) (x : Extent) : (s.setExt k x).pkg = s.pkg := rfl
@[simp] theorem State.setExt_pfMsix (s : State) (k : Nat) (x : Extent) : (s.setExt k x).pfMsix = s.pfMsix := rfl
@[simp] theorem State.setExt_sites (s : State) (k : Nat) (x : Extent) : (s.setExt k x).sites = s.sites := rfl
@[simp] theorem State.setExt_ports (s : State) (k : Nat) (x : Extent) : (s.setExt k x).ports = s.ports := rfl
@[simp] theorem State.setExt_links (s : State) (k : Nat) (x : Extent) : (s.setExt k x).links = s.links := rfl
@[simp] theorem State.setExt_vfs (s : State) (k : Nat) (x : Extent) : (s.setExt k x).vfs = s.vfs := rfl
@[simp] theorem State.setExt_parts (s : State) (k : Nat) (x : Extent) : (s.setExt k x).parts = s.parts := rfl
@[simp] theorem State.setExt_groups (s : State) (k : Nat) (x : Extent) : (s.setExt k x).groups = s.groups := rfl
@[simp] theorem State.setExt_host (s : State) (k : Nat) (x : Extent) : (s.setExt k x).host = s.host := rfl
@[simp] theorem State.setExt_hostBad (s : State) (k : Nat) (x : Extent) : (s.setExt k x).hostBad = s.hostBad := rfl
@[simp] theorem State.setExt_bufs (s : State) (k : Nat) (x : Extent) : (s.setExt k x).bufs = s.bufs := rfl
@[simp] theorem State.setExt_caps (s : State) (k : Nat) (x : Extent) : (s.setExt k x).caps = s.caps := rfl
@[simp] theorem State.setExt_graphs (s : State) (k : Nat) (x : Extent) : (s.setExt k x).graphs = s.graphs := rfl
@[simp] theorem State.setExt_nodes (s : State) (k : Nat) (x : Extent) : (s.setExt k x).nodes = s.nodes := rfl
@[simp] theorem State.setExt_atts (s : State) (k : Nat) (x : Extent) : (s.setExt k x).atts = s.atts := rfl
@[simp] theorem State.setExt_runq (s : State) (k : Nat) (x : Extent) : (s.setExt k x).runq = s.runq := rfl
@[simp] theorem State.setExt_held (s : State) (k : Nat) (x : Extent) : (s.setExt k x).held = s.held := rfl
@[simp] theorem State.setExt_robin (s : State) (k : Nat) (x : Extent) : (s.setExt k x).robin = s.robin := rfl
@[simp] theorem State.setExt_nextDisp (s : State) (k : Nat) (x : Extent) : (s.setExt k x).nextDisp = s.nextDisp := rfl
@[simp] theorem State.setExt_cores (s : State) (k : Nat) (x : Extent) : (s.setExt k x).cores = s.cores := rfl
@[simp] theorem State.setExt_tahr (s : State) (k : Nat) (x : Extent) : (s.setExt k x).tahr = s.tahr := rfl
@[simp] theorem State.setExt_stage (s : State) (k : Nat) (x : Extent) : (s.setExt k x).stage = s.stage := rfl
@[simp] theorem State.setExt_evq (s : State) (k : Nat) (x : Extent) : (s.setExt k x).evq = s.evq := rfl
@[simp] theorem State.setExt_receipts (s : State) (k : Nat) (x : Extent) : (s.setExt k x).receipts = s.receipts := rfl
@[simp] theorem State.setExt_codes (s : State) (k : Nat) (x : Extent) : (s.setExt k x).codes = s.codes := rfl
@[simp] theorem State.setExt_grants (s : State) (k : Nat) (x : Extent) : (s.setExt k x).grants = s.grants := rfl
@[simp] theorem State.setExt_lines (s : State) (k : Nat) (x : Extent) : (s.setExt k x).lines = s.lines := rfl
@[simp] theorem State.setExt_recalls (s : State) (k : Nat) (x : Extent) : (s.setExt k x).recalls = s.recalls := rfl
@[simp] theorem State.setExt_homeq (s : State) (k : Nat) (x : Extent) : (s.setExt k x).homeq = s.homeq := rfl
@[simp] theorem State.setExt_l1 (s : State) (k : Nat) (x : Extent) : (s.setExt k x).l1 = s.l1 := rfl
@[simp] theorem State.setExt_l2 (s : State) (k : Nat) (x : Extent) : (s.setExt k x).l2 = s.l2 := rfl
@[simp] theorem State.setExt_tlb (s : State) (k : Nat) (x : Extent) : (s.setExt k x).tlb = s.tlb := rfl
@[simp] theorem State.setExt_walks (s : State) (k : Nat) (x : Extent) : (s.setExt k x).walks = s.walks := rfl
@[simp] theorem State.setExt_ras (s : State) (k : Nat) (x : Extent) : (s.setExt k x).ras = s.ras := rfl
@[simp] theorem State.setExt_fcfg (s : State) (k : Nat) (x : Extent) : (s.setExt k x).fcfg = s.fcfg := rfl
@[simp] theorem State.setExt_nextBuf (s : State) (k : Nat) (x : Extent) : (s.setExt k x).nextBuf = s.nextBuf := rfl
@[simp] theorem State.setExt_nextMem (s : State) (k : Nat) (x : Extent) : (s.setExt k x).nextMem = s.nextMem := rfl
@[simp] theorem State.setExt_nextGraph (s : State) (k : Nat) (x : Extent) : (s.setExt k x).nextGraph = s.nextGraph := rfl
@[simp] theorem State.setExt_nextNode (s : State) (k : Nat) (x : Extent) : (s.setExt k x).nextNode = s.nextNode := rfl
@[simp] theorem State.setExt_nextAtt (s : State) (k : Nat) (x : Extent) : (s.setExt k x).nextAtt = s.nextAtt := rfl
@[simp] theorem State.setExt_nextTurn (s : State) (k : Nat) (x : Extent) : (s.setExt k x).nextTurn = s.nextTurn := rfl

@[simp] theorem State.setGraph_time (s : State) (k : Nat) (x : Graph) : (s.setGraph k x).time = s.time := rfl
@[simp] theorem State.setGraph_stopped (s : State) (k : Nat) (x : Graph) : (s.setGraph k x).stopped = s.stopped := rfl
@[simp] theorem State.setGraph_cur (s : State) (k : Nat) (x : Graph) : (s.setGraph k x).cur = s.cur := rfl
@[simp] theorem State.setGraph_turns (s : State) (k : Nat) (x : Graph) : (s.setGraph k x).turns = s.turns := rfl
@[simp] theorem State.setGraph_due (s : State) (k : Nat) (x : Graph) : (s.setGraph k x).due = s.due := rfl
@[simp] theorem State.setGraph_inputs (s : State) (k : Nat) (x : Graph) : (s.setGraph k x).inputs = s.inputs := rfl
@[simp] theorem State.setGraph_replies (s : State) (k : Nat) (x : Graph) : (s.setGraph k x).replies = s.replies := rfl
@[simp] theorem State.setGraph_freeIdx (s : State) (k : Nat) (x : Graph) : (s.setGraph k x).freeIdx = s.freeIdx := rfl
@[simp] theorem State.setGraph_sent (s : State) (k : Nat) (x : Graph) : (s.setGraph k x).sent = s.sent := rfl
@[simp] theorem State.setGraph_pkg (s : State) (k : Nat) (x : Graph) : (s.setGraph k x).pkg = s.pkg := rfl
@[simp] theorem State.setGraph_pfMsix (s : State) (k : Nat) (x : Graph) : (s.setGraph k x).pfMsix = s.pfMsix := rfl
@[simp] theorem State.setGraph_sites (s : State) (k : Nat) (x : Graph) : (s.setGraph k x).sites = s.sites := rfl
@[simp] theorem State.setGraph_ports (s : State) (k : Nat) (x : Graph) : (s.setGraph k x).ports = s.ports := rfl
@[simp] theorem State.setGraph_links (s : State) (k : Nat) (x : Graph) : (s.setGraph k x).links = s.links := rfl
@[simp] theorem State.setGraph_vfs (s : State) (k : Nat) (x : Graph) : (s.setGraph k x).vfs = s.vfs := rfl
@[simp] theorem State.setGraph_parts (s : State) (k : Nat) (x : Graph) : (s.setGraph k x).parts = s.parts := rfl
@[simp] theorem State.setGraph_groups (s : State) (k : Nat) (x : Graph) : (s.setGraph k x).groups = s.groups := rfl
@[simp] theorem State.setGraph_host (s : State) (k : Nat) (x : Graph) : (s.setGraph k x).host = s.host := rfl
@[simp] theorem State.setGraph_hostBad (s : State) (k : Nat) (x : Graph) : (s.setGraph k x).hostBad = s.hostBad := rfl
@[simp] theorem State.setGraph_bufs (s : State) (k : Nat) (x : Graph) : (s.setGraph k x).bufs = s.bufs := rfl
@[simp] theorem State.setGraph_caps (s : State) (k : Nat) (x : Graph) : (s.setGraph k x).caps = s.caps := rfl
@[simp] theorem State.setGraph_nodes (s : State) (k : Nat) (x : Graph) : (s.setGraph k x).nodes = s.nodes := rfl
@[simp] theorem State.setGraph_atts (s : State) (k : Nat) (x : Graph) : (s.setGraph k x).atts = s.atts := rfl
@[simp] theorem State.setGraph_runq (s : State) (k : Nat) (x : Graph) : (s.setGraph k x).runq = s.runq := rfl
@[simp] theorem State.setGraph_held (s : State) (k : Nat) (x : Graph) : (s.setGraph k x).held = s.held := rfl
@[simp] theorem State.setGraph_robin (s : State) (k : Nat) (x : Graph) : (s.setGraph k x).robin = s.robin := rfl
@[simp] theorem State.setGraph_nextDisp (s : State) (k : Nat) (x : Graph) : (s.setGraph k x).nextDisp = s.nextDisp := rfl
@[simp] theorem State.setGraph_cores (s : State) (k : Nat) (x : Graph) : (s.setGraph k x).cores = s.cores := rfl
@[simp] theorem State.setGraph_tahr (s : State) (k : Nat) (x : Graph) : (s.setGraph k x).tahr = s.tahr := rfl
@[simp] theorem State.setGraph_stage (s : State) (k : Nat) (x : Graph) : (s.setGraph k x).stage = s.stage := rfl
@[simp] theorem State.setGraph_evq (s : State) (k : Nat) (x : Graph) : (s.setGraph k x).evq = s.evq := rfl
@[simp] theorem State.setGraph_receipts (s : State) (k : Nat) (x : Graph) : (s.setGraph k x).receipts = s.receipts := rfl
@[simp] theorem State.setGraph_codes (s : State) (k : Nat) (x : Graph) : (s.setGraph k x).codes = s.codes := rfl
@[simp] theorem State.setGraph_grants (s : State) (k : Nat) (x : Graph) : (s.setGraph k x).grants = s.grants := rfl
@[simp] theorem State.setGraph_exts (s : State) (k : Nat) (x : Graph) : (s.setGraph k x).exts = s.exts := rfl
@[simp] theorem State.setGraph_lines (s : State) (k : Nat) (x : Graph) : (s.setGraph k x).lines = s.lines := rfl
@[simp] theorem State.setGraph_recalls (s : State) (k : Nat) (x : Graph) : (s.setGraph k x).recalls = s.recalls := rfl
@[simp] theorem State.setGraph_homeq (s : State) (k : Nat) (x : Graph) : (s.setGraph k x).homeq = s.homeq := rfl
@[simp] theorem State.setGraph_l1 (s : State) (k : Nat) (x : Graph) : (s.setGraph k x).l1 = s.l1 := rfl
@[simp] theorem State.setGraph_l2 (s : State) (k : Nat) (x : Graph) : (s.setGraph k x).l2 = s.l2 := rfl
@[simp] theorem State.setGraph_tlb (s : State) (k : Nat) (x : Graph) : (s.setGraph k x).tlb = s.tlb := rfl
@[simp] theorem State.setGraph_walks (s : State) (k : Nat) (x : Graph) : (s.setGraph k x).walks = s.walks := rfl
@[simp] theorem State.setGraph_ras (s : State) (k : Nat) (x : Graph) : (s.setGraph k x).ras = s.ras := rfl
@[simp] theorem State.setGraph_fcfg (s : State) (k : Nat) (x : Graph) : (s.setGraph k x).fcfg = s.fcfg := rfl
@[simp] theorem State.setGraph_nextBuf (s : State) (k : Nat) (x : Graph) : (s.setGraph k x).nextBuf = s.nextBuf := rfl
@[simp] theorem State.setGraph_nextMem (s : State) (k : Nat) (x : Graph) : (s.setGraph k x).nextMem = s.nextMem := rfl
@[simp] theorem State.setGraph_nextGraph (s : State) (k : Nat) (x : Graph) : (s.setGraph k x).nextGraph = s.nextGraph := rfl
@[simp] theorem State.setGraph_nextNode (s : State) (k : Nat) (x : Graph) : (s.setGraph k x).nextNode = s.nextNode := rfl
@[simp] theorem State.setGraph_nextAtt (s : State) (k : Nat) (x : Graph) : (s.setGraph k x).nextAtt = s.nextAtt := rfl
@[simp] theorem State.setGraph_nextTurn (s : State) (k : Nat) (x : Graph) : (s.setGraph k x).nextTurn = s.nextTurn := rfl

@[simp] theorem State.setNode_time (s : State) (k : Nat) (x : Node) : (s.setNode k x).time = s.time := rfl
@[simp] theorem State.setNode_stopped (s : State) (k : Nat) (x : Node) : (s.setNode k x).stopped = s.stopped := rfl
@[simp] theorem State.setNode_cur (s : State) (k : Nat) (x : Node) : (s.setNode k x).cur = s.cur := rfl
@[simp] theorem State.setNode_turns (s : State) (k : Nat) (x : Node) : (s.setNode k x).turns = s.turns := rfl
@[simp] theorem State.setNode_due (s : State) (k : Nat) (x : Node) : (s.setNode k x).due = s.due := rfl
@[simp] theorem State.setNode_inputs (s : State) (k : Nat) (x : Node) : (s.setNode k x).inputs = s.inputs := rfl
@[simp] theorem State.setNode_replies (s : State) (k : Nat) (x : Node) : (s.setNode k x).replies = s.replies := rfl
@[simp] theorem State.setNode_freeIdx (s : State) (k : Nat) (x : Node) : (s.setNode k x).freeIdx = s.freeIdx := rfl
@[simp] theorem State.setNode_sent (s : State) (k : Nat) (x : Node) : (s.setNode k x).sent = s.sent := rfl
@[simp] theorem State.setNode_pkg (s : State) (k : Nat) (x : Node) : (s.setNode k x).pkg = s.pkg := rfl
@[simp] theorem State.setNode_pfMsix (s : State) (k : Nat) (x : Node) : (s.setNode k x).pfMsix = s.pfMsix := rfl
@[simp] theorem State.setNode_sites (s : State) (k : Nat) (x : Node) : (s.setNode k x).sites = s.sites := rfl
@[simp] theorem State.setNode_ports (s : State) (k : Nat) (x : Node) : (s.setNode k x).ports = s.ports := rfl
@[simp] theorem State.setNode_links (s : State) (k : Nat) (x : Node) : (s.setNode k x).links = s.links := rfl
@[simp] theorem State.setNode_vfs (s : State) (k : Nat) (x : Node) : (s.setNode k x).vfs = s.vfs := rfl
@[simp] theorem State.setNode_parts (s : State) (k : Nat) (x : Node) : (s.setNode k x).parts = s.parts := rfl
@[simp] theorem State.setNode_groups (s : State) (k : Nat) (x : Node) : (s.setNode k x).groups = s.groups := rfl
@[simp] theorem State.setNode_host (s : State) (k : Nat) (x : Node) : (s.setNode k x).host = s.host := rfl
@[simp] theorem State.setNode_hostBad (s : State) (k : Nat) (x : Node) : (s.setNode k x).hostBad = s.hostBad := rfl
@[simp] theorem State.setNode_bufs (s : State) (k : Nat) (x : Node) : (s.setNode k x).bufs = s.bufs := rfl
@[simp] theorem State.setNode_caps (s : State) (k : Nat) (x : Node) : (s.setNode k x).caps = s.caps := rfl
@[simp] theorem State.setNode_graphs (s : State) (k : Nat) (x : Node) : (s.setNode k x).graphs = s.graphs := rfl
@[simp] theorem State.setNode_atts (s : State) (k : Nat) (x : Node) : (s.setNode k x).atts = s.atts := rfl
@[simp] theorem State.setNode_runq (s : State) (k : Nat) (x : Node) : (s.setNode k x).runq = s.runq := rfl
@[simp] theorem State.setNode_held (s : State) (k : Nat) (x : Node) : (s.setNode k x).held = s.held := rfl
@[simp] theorem State.setNode_robin (s : State) (k : Nat) (x : Node) : (s.setNode k x).robin = s.robin := rfl
@[simp] theorem State.setNode_nextDisp (s : State) (k : Nat) (x : Node) : (s.setNode k x).nextDisp = s.nextDisp := rfl
@[simp] theorem State.setNode_cores (s : State) (k : Nat) (x : Node) : (s.setNode k x).cores = s.cores := rfl
@[simp] theorem State.setNode_tahr (s : State) (k : Nat) (x : Node) : (s.setNode k x).tahr = s.tahr := rfl
@[simp] theorem State.setNode_stage (s : State) (k : Nat) (x : Node) : (s.setNode k x).stage = s.stage := rfl
@[simp] theorem State.setNode_evq (s : State) (k : Nat) (x : Node) : (s.setNode k x).evq = s.evq := rfl
@[simp] theorem State.setNode_receipts (s : State) (k : Nat) (x : Node) : (s.setNode k x).receipts = s.receipts := rfl
@[simp] theorem State.setNode_codes (s : State) (k : Nat) (x : Node) : (s.setNode k x).codes = s.codes := rfl
@[simp] theorem State.setNode_grants (s : State) (k : Nat) (x : Node) : (s.setNode k x).grants = s.grants := rfl
@[simp] theorem State.setNode_exts (s : State) (k : Nat) (x : Node) : (s.setNode k x).exts = s.exts := rfl
@[simp] theorem State.setNode_lines (s : State) (k : Nat) (x : Node) : (s.setNode k x).lines = s.lines := rfl
@[simp] theorem State.setNode_recalls (s : State) (k : Nat) (x : Node) : (s.setNode k x).recalls = s.recalls := rfl
@[simp] theorem State.setNode_homeq (s : State) (k : Nat) (x : Node) : (s.setNode k x).homeq = s.homeq := rfl
@[simp] theorem State.setNode_l1 (s : State) (k : Nat) (x : Node) : (s.setNode k x).l1 = s.l1 := rfl
@[simp] theorem State.setNode_l2 (s : State) (k : Nat) (x : Node) : (s.setNode k x).l2 = s.l2 := rfl
@[simp] theorem State.setNode_tlb (s : State) (k : Nat) (x : Node) : (s.setNode k x).tlb = s.tlb := rfl
@[simp] theorem State.setNode_walks (s : State) (k : Nat) (x : Node) : (s.setNode k x).walks = s.walks := rfl
@[simp] theorem State.setNode_ras (s : State) (k : Nat) (x : Node) : (s.setNode k x).ras = s.ras := rfl
@[simp] theorem State.setNode_fcfg (s : State) (k : Nat) (x : Node) : (s.setNode k x).fcfg = s.fcfg := rfl
@[simp] theorem State.setNode_nextBuf (s : State) (k : Nat) (x : Node) : (s.setNode k x).nextBuf = s.nextBuf := rfl
@[simp] theorem State.setNode_nextMem (s : State) (k : Nat) (x : Node) : (s.setNode k x).nextMem = s.nextMem := rfl
@[simp] theorem State.setNode_nextGraph (s : State) (k : Nat) (x : Node) : (s.setNode k x).nextGraph = s.nextGraph := rfl
@[simp] theorem State.setNode_nextNode (s : State) (k : Nat) (x : Node) : (s.setNode k x).nextNode = s.nextNode := rfl
@[simp] theorem State.setNode_nextAtt (s : State) (k : Nat) (x : Node) : (s.setNode k x).nextAtt = s.nextAtt := rfl
@[simp] theorem State.setNode_nextTurn (s : State) (k : Nat) (x : Node) : (s.setNode k x).nextTurn = s.nextTurn := rfl

@[simp] theorem State.setAttempt_time (s : State) (k : Nat) (x : Attempt) : (s.setAttempt k x).time = s.time := rfl
@[simp] theorem State.setAttempt_stopped (s : State) (k : Nat) (x : Attempt) : (s.setAttempt k x).stopped = s.stopped := rfl
@[simp] theorem State.setAttempt_cur (s : State) (k : Nat) (x : Attempt) : (s.setAttempt k x).cur = s.cur := rfl
@[simp] theorem State.setAttempt_turns (s : State) (k : Nat) (x : Attempt) : (s.setAttempt k x).turns = s.turns := rfl
@[simp] theorem State.setAttempt_due (s : State) (k : Nat) (x : Attempt) : (s.setAttempt k x).due = s.due := rfl
@[simp] theorem State.setAttempt_inputs (s : State) (k : Nat) (x : Attempt) : (s.setAttempt k x).inputs = s.inputs := rfl
@[simp] theorem State.setAttempt_replies (s : State) (k : Nat) (x : Attempt) : (s.setAttempt k x).replies = s.replies := rfl
@[simp] theorem State.setAttempt_freeIdx (s : State) (k : Nat) (x : Attempt) : (s.setAttempt k x).freeIdx = s.freeIdx := rfl
@[simp] theorem State.setAttempt_sent (s : State) (k : Nat) (x : Attempt) : (s.setAttempt k x).sent = s.sent := rfl
@[simp] theorem State.setAttempt_pkg (s : State) (k : Nat) (x : Attempt) : (s.setAttempt k x).pkg = s.pkg := rfl
@[simp] theorem State.setAttempt_pfMsix (s : State) (k : Nat) (x : Attempt) : (s.setAttempt k x).pfMsix = s.pfMsix := rfl
@[simp] theorem State.setAttempt_sites (s : State) (k : Nat) (x : Attempt) : (s.setAttempt k x).sites = s.sites := rfl
@[simp] theorem State.setAttempt_ports (s : State) (k : Nat) (x : Attempt) : (s.setAttempt k x).ports = s.ports := rfl
@[simp] theorem State.setAttempt_links (s : State) (k : Nat) (x : Attempt) : (s.setAttempt k x).links = s.links := rfl
@[simp] theorem State.setAttempt_vfs (s : State) (k : Nat) (x : Attempt) : (s.setAttempt k x).vfs = s.vfs := rfl
@[simp] theorem State.setAttempt_parts (s : State) (k : Nat) (x : Attempt) : (s.setAttempt k x).parts = s.parts := rfl
@[simp] theorem State.setAttempt_groups (s : State) (k : Nat) (x : Attempt) : (s.setAttempt k x).groups = s.groups := rfl
@[simp] theorem State.setAttempt_host (s : State) (k : Nat) (x : Attempt) : (s.setAttempt k x).host = s.host := rfl
@[simp] theorem State.setAttempt_hostBad (s : State) (k : Nat) (x : Attempt) : (s.setAttempt k x).hostBad = s.hostBad := rfl
@[simp] theorem State.setAttempt_bufs (s : State) (k : Nat) (x : Attempt) : (s.setAttempt k x).bufs = s.bufs := rfl
@[simp] theorem State.setAttempt_caps (s : State) (k : Nat) (x : Attempt) : (s.setAttempt k x).caps = s.caps := rfl
@[simp] theorem State.setAttempt_graphs (s : State) (k : Nat) (x : Attempt) : (s.setAttempt k x).graphs = s.graphs := rfl
@[simp] theorem State.setAttempt_nodes (s : State) (k : Nat) (x : Attempt) : (s.setAttempt k x).nodes = s.nodes := rfl
@[simp] theorem State.setAttempt_runq (s : State) (k : Nat) (x : Attempt) : (s.setAttempt k x).runq = s.runq := rfl
@[simp] theorem State.setAttempt_held (s : State) (k : Nat) (x : Attempt) : (s.setAttempt k x).held = s.held := rfl
@[simp] theorem State.setAttempt_robin (s : State) (k : Nat) (x : Attempt) : (s.setAttempt k x).robin = s.robin := rfl
@[simp] theorem State.setAttempt_nextDisp (s : State) (k : Nat) (x : Attempt) : (s.setAttempt k x).nextDisp = s.nextDisp := rfl
@[simp] theorem State.setAttempt_cores (s : State) (k : Nat) (x : Attempt) : (s.setAttempt k x).cores = s.cores := rfl
@[simp] theorem State.setAttempt_tahr (s : State) (k : Nat) (x : Attempt) : (s.setAttempt k x).tahr = s.tahr := rfl
@[simp] theorem State.setAttempt_stage (s : State) (k : Nat) (x : Attempt) : (s.setAttempt k x).stage = s.stage := rfl
@[simp] theorem State.setAttempt_evq (s : State) (k : Nat) (x : Attempt) : (s.setAttempt k x).evq = s.evq := rfl
@[simp] theorem State.setAttempt_receipts (s : State) (k : Nat) (x : Attempt) : (s.setAttempt k x).receipts = s.receipts := rfl
@[simp] theorem State.setAttempt_codes (s : State) (k : Nat) (x : Attempt) : (s.setAttempt k x).codes = s.codes := rfl
@[simp] theorem State.setAttempt_grants (s : State) (k : Nat) (x : Attempt) : (s.setAttempt k x).grants = s.grants := rfl
@[simp] theorem State.setAttempt_exts (s : State) (k : Nat) (x : Attempt) : (s.setAttempt k x).exts = s.exts := rfl
@[simp] theorem State.setAttempt_lines (s : State) (k : Nat) (x : Attempt) : (s.setAttempt k x).lines = s.lines := rfl
@[simp] theorem State.setAttempt_recalls (s : State) (k : Nat) (x : Attempt) : (s.setAttempt k x).recalls = s.recalls := rfl
@[simp] theorem State.setAttempt_homeq (s : State) (k : Nat) (x : Attempt) : (s.setAttempt k x).homeq = s.homeq := rfl
@[simp] theorem State.setAttempt_l1 (s : State) (k : Nat) (x : Attempt) : (s.setAttempt k x).l1 = s.l1 := rfl
@[simp] theorem State.setAttempt_l2 (s : State) (k : Nat) (x : Attempt) : (s.setAttempt k x).l2 = s.l2 := rfl
@[simp] theorem State.setAttempt_tlb (s : State) (k : Nat) (x : Attempt) : (s.setAttempt k x).tlb = s.tlb := rfl
@[simp] theorem State.setAttempt_walks (s : State) (k : Nat) (x : Attempt) : (s.setAttempt k x).walks = s.walks := rfl
@[simp] theorem State.setAttempt_ras (s : State) (k : Nat) (x : Attempt) : (s.setAttempt k x).ras = s.ras := rfl
@[simp] theorem State.setAttempt_fcfg (s : State) (k : Nat) (x : Attempt) : (s.setAttempt k x).fcfg = s.fcfg := rfl
@[simp] theorem State.setAttempt_nextBuf (s : State) (k : Nat) (x : Attempt) : (s.setAttempt k x).nextBuf = s.nextBuf := rfl
@[simp] theorem State.setAttempt_nextMem (s : State) (k : Nat) (x : Attempt) : (s.setAttempt k x).nextMem = s.nextMem := rfl
@[simp] theorem State.setAttempt_nextGraph (s : State) (k : Nat) (x : Attempt) : (s.setAttempt k x).nextGraph = s.nextGraph := rfl
@[simp] theorem State.setAttempt_nextNode (s : State) (k : Nat) (x : Attempt) : (s.setAttempt k x).nextNode = s.nextNode := rfl
@[simp] theorem State.setAttempt_nextAtt (s : State) (k : Nat) (x : Attempt) : (s.setAttempt k x).nextAtt = s.nextAtt := rfl
@[simp] theorem State.setAttempt_nextTurn (s : State) (k : Nat) (x : Attempt) : (s.setAttempt k x).nextTurn = s.nextTurn := rfl

@[simp] theorem State.send_time (s : State) (m : Sent) : (s.send m).time = s.time := rfl
@[simp] theorem State.send_stopped (s : State) (m : Sent) : (s.send m).stopped = s.stopped := rfl
@[simp] theorem State.send_cur (s : State) (m : Sent) : (s.send m).cur = s.cur := rfl
@[simp] theorem State.send_turns (s : State) (m : Sent) : (s.send m).turns = s.turns := rfl
@[simp] theorem State.send_due (s : State) (m : Sent) : (s.send m).due = s.due := rfl
@[simp] theorem State.send_inputs (s : State) (m : Sent) : (s.send m).inputs = s.inputs := rfl
@[simp] theorem State.send_replies (s : State) (m : Sent) : (s.send m).replies = s.replies := rfl
@[simp] theorem State.send_freeIdx (s : State) (m : Sent) : (s.send m).freeIdx = s.freeIdx := rfl
@[simp] theorem State.send_pkg (s : State) (m : Sent) : (s.send m).pkg = s.pkg := rfl
@[simp] theorem State.send_pfMsix (s : State) (m : Sent) : (s.send m).pfMsix = s.pfMsix := rfl
@[simp] theorem State.send_sites (s : State) (m : Sent) : (s.send m).sites = s.sites := rfl
@[simp] theorem State.send_ports (s : State) (m : Sent) : (s.send m).ports = s.ports := rfl
@[simp] theorem State.send_links (s : State) (m : Sent) : (s.send m).links = s.links := rfl
@[simp] theorem State.send_vfs (s : State) (m : Sent) : (s.send m).vfs = s.vfs := rfl
@[simp] theorem State.send_parts (s : State) (m : Sent) : (s.send m).parts = s.parts := rfl
@[simp] theorem State.send_groups (s : State) (m : Sent) : (s.send m).groups = s.groups := rfl
@[simp] theorem State.send_host (s : State) (m : Sent) : (s.send m).host = s.host := rfl
@[simp] theorem State.send_hostBad (s : State) (m : Sent) : (s.send m).hostBad = s.hostBad := rfl
@[simp] theorem State.send_bufs (s : State) (m : Sent) : (s.send m).bufs = s.bufs := rfl
@[simp] theorem State.send_caps (s : State) (m : Sent) : (s.send m).caps = s.caps := rfl
@[simp] theorem State.send_graphs (s : State) (m : Sent) : (s.send m).graphs = s.graphs := rfl
@[simp] theorem State.send_nodes (s : State) (m : Sent) : (s.send m).nodes = s.nodes := rfl
@[simp] theorem State.send_atts (s : State) (m : Sent) : (s.send m).atts = s.atts := rfl
@[simp] theorem State.send_runq (s : State) (m : Sent) : (s.send m).runq = s.runq := rfl
@[simp] theorem State.send_held (s : State) (m : Sent) : (s.send m).held = s.held := rfl
@[simp] theorem State.send_robin (s : State) (m : Sent) : (s.send m).robin = s.robin := rfl
@[simp] theorem State.send_nextDisp (s : State) (m : Sent) : (s.send m).nextDisp = s.nextDisp := rfl
@[simp] theorem State.send_cores (s : State) (m : Sent) : (s.send m).cores = s.cores := rfl
@[simp] theorem State.send_tahr (s : State) (m : Sent) : (s.send m).tahr = s.tahr := rfl
@[simp] theorem State.send_stage (s : State) (m : Sent) : (s.send m).stage = s.stage := rfl
@[simp] theorem State.send_evq (s : State) (m : Sent) : (s.send m).evq = s.evq := rfl
@[simp] theorem State.send_receipts (s : State) (m : Sent) : (s.send m).receipts = s.receipts := rfl
@[simp] theorem State.send_codes (s : State) (m : Sent) : (s.send m).codes = s.codes := rfl
@[simp] theorem State.send_grants (s : State) (m : Sent) : (s.send m).grants = s.grants := rfl
@[simp] theorem State.send_exts (s : State) (m : Sent) : (s.send m).exts = s.exts := rfl
@[simp] theorem State.send_lines (s : State) (m : Sent) : (s.send m).lines = s.lines := rfl
@[simp] theorem State.send_recalls (s : State) (m : Sent) : (s.send m).recalls = s.recalls := rfl
@[simp] theorem State.send_homeq (s : State) (m : Sent) : (s.send m).homeq = s.homeq := rfl
@[simp] theorem State.send_l1 (s : State) (m : Sent) : (s.send m).l1 = s.l1 := rfl
@[simp] theorem State.send_l2 (s : State) (m : Sent) : (s.send m).l2 = s.l2 := rfl
@[simp] theorem State.send_tlb (s : State) (m : Sent) : (s.send m).tlb = s.tlb := rfl
@[simp] theorem State.send_walks (s : State) (m : Sent) : (s.send m).walks = s.walks := rfl
@[simp] theorem State.send_ras (s : State) (m : Sent) : (s.send m).ras = s.ras := rfl
@[simp] theorem State.send_fcfg (s : State) (m : Sent) : (s.send m).fcfg = s.fcfg := rfl
@[simp] theorem State.send_nextBuf (s : State) (m : Sent) : (s.send m).nextBuf = s.nextBuf := rfl
@[simp] theorem State.send_nextMem (s : State) (m : Sent) : (s.send m).nextMem = s.nextMem := rfl
@[simp] theorem State.send_nextGraph (s : State) (m : Sent) : (s.send m).nextGraph = s.nextGraph := rfl
@[simp] theorem State.send_nextNode (s : State) (m : Sent) : (s.send m).nextNode = s.nextNode := rfl
@[simp] theorem State.send_nextAtt (s : State) (m : Sent) : (s.send m).nextAtt = s.nextAtt := rfl
@[simp] theorem State.send_nextTurn (s : State) (m : Sent) : (s.send m).nextTurn = s.nextTurn := rfl

@[simp] theorem State.raise_time (s : State) (a : Actor) (i : Instr) : (s.raise a i).time = s.time := rfl
@[simp] theorem State.raise_stopped (s : State) (a : Actor) (i : Instr) : (s.raise a i).stopped = s.stopped := rfl
@[simp] theorem State.raise_cur (s : State) (a : Actor) (i : Instr) : (s.raise a i).cur = s.cur := rfl
@[simp] theorem State.raise_turns (s : State) (a : Actor) (i : Instr) : (s.raise a i).turns = s.turns := rfl
@[simp] theorem State.raise_inputs (s : State) (a : Actor) (i : Instr) : (s.raise a i).inputs = s.inputs := rfl
@[simp] theorem State.raise_replies (s : State) (a : Actor) (i : Instr) : (s.raise a i).replies = s.replies := rfl
@[simp] theorem State.raise_freeIdx (s : State) (a : Actor) (i : Instr) : (s.raise a i).freeIdx = s.freeIdx := rfl
@[simp] theorem State.raise_sent (s : State) (a : Actor) (i : Instr) : (s.raise a i).sent = s.sent := rfl
@[simp] theorem State.raise_pkg (s : State) (a : Actor) (i : Instr) : (s.raise a i).pkg = s.pkg := rfl
@[simp] theorem State.raise_pfMsix (s : State) (a : Actor) (i : Instr) : (s.raise a i).pfMsix = s.pfMsix := rfl
@[simp] theorem State.raise_sites (s : State) (a : Actor) (i : Instr) : (s.raise a i).sites = s.sites := rfl
@[simp] theorem State.raise_ports (s : State) (a : Actor) (i : Instr) : (s.raise a i).ports = s.ports := rfl
@[simp] theorem State.raise_links (s : State) (a : Actor) (i : Instr) : (s.raise a i).links = s.links := rfl
@[simp] theorem State.raise_vfs (s : State) (a : Actor) (i : Instr) : (s.raise a i).vfs = s.vfs := rfl
@[simp] theorem State.raise_parts (s : State) (a : Actor) (i : Instr) : (s.raise a i).parts = s.parts := rfl
@[simp] theorem State.raise_groups (s : State) (a : Actor) (i : Instr) : (s.raise a i).groups = s.groups := rfl
@[simp] theorem State.raise_host (s : State) (a : Actor) (i : Instr) : (s.raise a i).host = s.host := rfl
@[simp] theorem State.raise_hostBad (s : State) (a : Actor) (i : Instr) : (s.raise a i).hostBad = s.hostBad := rfl
@[simp] theorem State.raise_bufs (s : State) (a : Actor) (i : Instr) : (s.raise a i).bufs = s.bufs := rfl
@[simp] theorem State.raise_caps (s : State) (a : Actor) (i : Instr) : (s.raise a i).caps = s.caps := rfl
@[simp] theorem State.raise_graphs (s : State) (a : Actor) (i : Instr) : (s.raise a i).graphs = s.graphs := rfl
@[simp] theorem State.raise_nodes (s : State) (a : Actor) (i : Instr) : (s.raise a i).nodes = s.nodes := rfl
@[simp] theorem State.raise_atts (s : State) (a : Actor) (i : Instr) : (s.raise a i).atts = s.atts := rfl
@[simp] theorem State.raise_runq (s : State) (a : Actor) (i : Instr) : (s.raise a i).runq = s.runq := rfl
@[simp] theorem State.raise_held (s : State) (a : Actor) (i : Instr) : (s.raise a i).held = s.held := rfl
@[simp] theorem State.raise_robin (s : State) (a : Actor) (i : Instr) : (s.raise a i).robin = s.robin := rfl
@[simp] theorem State.raise_nextDisp (s : State) (a : Actor) (i : Instr) : (s.raise a i).nextDisp = s.nextDisp := rfl
@[simp] theorem State.raise_cores (s : State) (a : Actor) (i : Instr) : (s.raise a i).cores = s.cores := rfl
@[simp] theorem State.raise_tahr (s : State) (a : Actor) (i : Instr) : (s.raise a i).tahr = s.tahr := rfl
@[simp] theorem State.raise_stage (s : State) (a : Actor) (i : Instr) : (s.raise a i).stage = s.stage := rfl
@[simp] theorem State.raise_evq (s : State) (a : Actor) (i : Instr) : (s.raise a i).evq = s.evq := rfl
@[simp] theorem State.raise_receipts (s : State) (a : Actor) (i : Instr) : (s.raise a i).receipts = s.receipts := rfl
@[simp] theorem State.raise_codes (s : State) (a : Actor) (i : Instr) : (s.raise a i).codes = s.codes := rfl
@[simp] theorem State.raise_grants (s : State) (a : Actor) (i : Instr) : (s.raise a i).grants = s.grants := rfl
@[simp] theorem State.raise_exts (s : State) (a : Actor) (i : Instr) : (s.raise a i).exts = s.exts := rfl
@[simp] theorem State.raise_lines (s : State) (a : Actor) (i : Instr) : (s.raise a i).lines = s.lines := rfl
@[simp] theorem State.raise_recalls (s : State) (a : Actor) (i : Instr) : (s.raise a i).recalls = s.recalls := rfl
@[simp] theorem State.raise_homeq (s : State) (a : Actor) (i : Instr) : (s.raise a i).homeq = s.homeq := rfl
@[simp] theorem State.raise_l1 (s : State) (a : Actor) (i : Instr) : (s.raise a i).l1 = s.l1 := rfl
@[simp] theorem State.raise_l2 (s : State) (a : Actor) (i : Instr) : (s.raise a i).l2 = s.l2 := rfl
@[simp] theorem State.raise_tlb (s : State) (a : Actor) (i : Instr) : (s.raise a i).tlb = s.tlb := rfl
@[simp] theorem State.raise_walks (s : State) (a : Actor) (i : Instr) : (s.raise a i).walks = s.walks := rfl
@[simp] theorem State.raise_ras (s : State) (a : Actor) (i : Instr) : (s.raise a i).ras = s.ras := rfl
@[simp] theorem State.raise_fcfg (s : State) (a : Actor) (i : Instr) : (s.raise a i).fcfg = s.fcfg := rfl
@[simp] theorem State.raise_nextBuf (s : State) (a : Actor) (i : Instr) : (s.raise a i).nextBuf = s.nextBuf := rfl
@[simp] theorem State.raise_nextMem (s : State) (a : Actor) (i : Instr) : (s.raise a i).nextMem = s.nextMem := rfl
@[simp] theorem State.raise_nextGraph (s : State) (a : Actor) (i : Instr) : (s.raise a i).nextGraph = s.nextGraph := rfl
@[simp] theorem State.raise_nextNode (s : State) (a : Actor) (i : Instr) : (s.raise a i).nextNode = s.nextNode := rfl
@[simp] theorem State.raise_nextAtt (s : State) (a : Actor) (i : Instr) : (s.raise a i).nextAtt = s.nextAtt := rfl
@[simp] theorem State.raise_nextTurn (s : State) (a : Actor) (i : Instr) : (s.raise a i).nextTurn = s.nextTurn := rfl

@[simp] theorem State.setXfers_time (s : State) (xs : List Xfer) : (s.setXfers xs).time = s.time := rfl
@[simp] theorem State.setXfers_stopped (s : State) (xs : List Xfer) : (s.setXfers xs).stopped = s.stopped := rfl
@[simp] theorem State.setXfers_cur (s : State) (xs : List Xfer) : (s.setXfers xs).cur = s.cur := rfl
@[simp] theorem State.setXfers_turns (s : State) (xs : List Xfer) : (s.setXfers xs).turns = s.turns := rfl
@[simp] theorem State.setXfers_due (s : State) (xs : List Xfer) : (s.setXfers xs).due = s.due := rfl
@[simp] theorem State.setXfers_inputs (s : State) (xs : List Xfer) : (s.setXfers xs).inputs = s.inputs := rfl
@[simp] theorem State.setXfers_replies (s : State) (xs : List Xfer) : (s.setXfers xs).replies = s.replies := rfl
@[simp] theorem State.setXfers_freeIdx (s : State) (xs : List Xfer) : (s.setXfers xs).freeIdx = s.freeIdx := rfl
@[simp] theorem State.setXfers_sent (s : State) (xs : List Xfer) : (s.setXfers xs).sent = s.sent := rfl
@[simp] theorem State.setXfers_pkg (s : State) (xs : List Xfer) : (s.setXfers xs).pkg = s.pkg := rfl
@[simp] theorem State.setXfers_pfMsix (s : State) (xs : List Xfer) : (s.setXfers xs).pfMsix = s.pfMsix := rfl
@[simp] theorem State.setXfers_sites (s : State) (xs : List Xfer) : (s.setXfers xs).sites = s.sites := rfl
@[simp] theorem State.setXfers_ports (s : State) (xs : List Xfer) : (s.setXfers xs).ports = s.ports := rfl
@[simp] theorem State.setXfers_links (s : State) (xs : List Xfer) : (s.setXfers xs).links = s.links := rfl
@[simp] theorem State.setXfers_vfs (s : State) (xs : List Xfer) : (s.setXfers xs).vfs = s.vfs := rfl
@[simp] theorem State.setXfers_parts (s : State) (xs : List Xfer) : (s.setXfers xs).parts = s.parts := rfl
@[simp] theorem State.setXfers_groups (s : State) (xs : List Xfer) : (s.setXfers xs).groups = s.groups := rfl
@[simp] theorem State.setXfers_host (s : State) (xs : List Xfer) : (s.setXfers xs).host = s.host := rfl
@[simp] theorem State.setXfers_hostBad (s : State) (xs : List Xfer) : (s.setXfers xs).hostBad = s.hostBad := rfl
@[simp] theorem State.setXfers_bufs (s : State) (xs : List Xfer) : (s.setXfers xs).bufs = s.bufs := rfl
@[simp] theorem State.setXfers_caps (s : State) (xs : List Xfer) : (s.setXfers xs).caps = s.caps := rfl
@[simp] theorem State.setXfers_graphs (s : State) (xs : List Xfer) : (s.setXfers xs).graphs = s.graphs := rfl
@[simp] theorem State.setXfers_nodes (s : State) (xs : List Xfer) : (s.setXfers xs).nodes = s.nodes := rfl
@[simp] theorem State.setXfers_atts (s : State) (xs : List Xfer) : (s.setXfers xs).atts = s.atts := rfl
@[simp] theorem State.setXfers_runq (s : State) (xs : List Xfer) : (s.setXfers xs).runq = s.runq := rfl
@[simp] theorem State.setXfers_held (s : State) (xs : List Xfer) : (s.setXfers xs).held = s.held := rfl
@[simp] theorem State.setXfers_robin (s : State) (xs : List Xfer) : (s.setXfers xs).robin = s.robin := rfl
@[simp] theorem State.setXfers_nextDisp (s : State) (xs : List Xfer) : (s.setXfers xs).nextDisp = s.nextDisp := rfl
@[simp] theorem State.setXfers_cores (s : State) (xs : List Xfer) : (s.setXfers xs).cores = s.cores := rfl
@[simp] theorem State.setXfers_tahr (s : State) (xs : List Xfer) : (s.setXfers xs).tahr = s.tahr := rfl
@[simp] theorem State.setXfers_evq (s : State) (xs : List Xfer) : (s.setXfers xs).evq = s.evq := rfl
@[simp] theorem State.setXfers_receipts (s : State) (xs : List Xfer) : (s.setXfers xs).receipts = s.receipts := rfl
@[simp] theorem State.setXfers_codes (s : State) (xs : List Xfer) : (s.setXfers xs).codes = s.codes := rfl
@[simp] theorem State.setXfers_grants (s : State) (xs : List Xfer) : (s.setXfers xs).grants = s.grants := rfl
@[simp] theorem State.setXfers_exts (s : State) (xs : List Xfer) : (s.setXfers xs).exts = s.exts := rfl
@[simp] theorem State.setXfers_lines (s : State) (xs : List Xfer) : (s.setXfers xs).lines = s.lines := rfl
@[simp] theorem State.setXfers_recalls (s : State) (xs : List Xfer) : (s.setXfers xs).recalls = s.recalls := rfl
@[simp] theorem State.setXfers_homeq (s : State) (xs : List Xfer) : (s.setXfers xs).homeq = s.homeq := rfl
@[simp] theorem State.setXfers_l1 (s : State) (xs : List Xfer) : (s.setXfers xs).l1 = s.l1 := rfl
@[simp] theorem State.setXfers_l2 (s : State) (xs : List Xfer) : (s.setXfers xs).l2 = s.l2 := rfl
@[simp] theorem State.setXfers_tlb (s : State) (xs : List Xfer) : (s.setXfers xs).tlb = s.tlb := rfl
@[simp] theorem State.setXfers_walks (s : State) (xs : List Xfer) : (s.setXfers xs).walks = s.walks := rfl
@[simp] theorem State.setXfers_ras (s : State) (xs : List Xfer) : (s.setXfers xs).ras = s.ras := rfl
@[simp] theorem State.setXfers_fcfg (s : State) (xs : List Xfer) : (s.setXfers xs).fcfg = s.fcfg := rfl
@[simp] theorem State.setXfers_nextBuf (s : State) (xs : List Xfer) : (s.setXfers xs).nextBuf = s.nextBuf := rfl
@[simp] theorem State.setXfers_nextMem (s : State) (xs : List Xfer) : (s.setXfers xs).nextMem = s.nextMem := rfl
@[simp] theorem State.setXfers_nextGraph (s : State) (xs : List Xfer) : (s.setXfers xs).nextGraph = s.nextGraph := rfl
@[simp] theorem State.setXfers_nextNode (s : State) (xs : List Xfer) : (s.setXfers xs).nextNode = s.nextNode := rfl
@[simp] theorem State.setXfers_nextAtt (s : State) (xs : List Xfer) : (s.setXfers xs).nextAtt = s.nextAtt := rfl
@[simp] theorem State.setXfers_nextTurn (s : State) (xs : List Xfer) : (s.setXfers xs).nextTurn = s.nextTurn := rfl

@[simp] theorem State.setLine1_time (s : State) (c key : Nat) (l : CLine) : (s.setLine1 c key l).time = s.time := rfl
@[simp] theorem State.setLine1_stopped (s : State) (c key : Nat) (l : CLine) : (s.setLine1 c key l).stopped = s.stopped := rfl
@[simp] theorem State.setLine1_cur (s : State) (c key : Nat) (l : CLine) : (s.setLine1 c key l).cur = s.cur := rfl
@[simp] theorem State.setLine1_turns (s : State) (c key : Nat) (l : CLine) : (s.setLine1 c key l).turns = s.turns := rfl
@[simp] theorem State.setLine1_due (s : State) (c key : Nat) (l : CLine) : (s.setLine1 c key l).due = s.due := rfl
@[simp] theorem State.setLine1_inputs (s : State) (c key : Nat) (l : CLine) : (s.setLine1 c key l).inputs = s.inputs := rfl
@[simp] theorem State.setLine1_replies (s : State) (c key : Nat) (l : CLine) : (s.setLine1 c key l).replies = s.replies := rfl
@[simp] theorem State.setLine1_freeIdx (s : State) (c key : Nat) (l : CLine) : (s.setLine1 c key l).freeIdx = s.freeIdx := rfl
@[simp] theorem State.setLine1_sent (s : State) (c key : Nat) (l : CLine) : (s.setLine1 c key l).sent = s.sent := rfl
@[simp] theorem State.setLine1_pkg (s : State) (c key : Nat) (l : CLine) : (s.setLine1 c key l).pkg = s.pkg := rfl
@[simp] theorem State.setLine1_pfMsix (s : State) (c key : Nat) (l : CLine) : (s.setLine1 c key l).pfMsix = s.pfMsix := rfl
@[simp] theorem State.setLine1_sites (s : State) (c key : Nat) (l : CLine) : (s.setLine1 c key l).sites = s.sites := rfl
@[simp] theorem State.setLine1_ports (s : State) (c key : Nat) (l : CLine) : (s.setLine1 c key l).ports = s.ports := rfl
@[simp] theorem State.setLine1_links (s : State) (c key : Nat) (l : CLine) : (s.setLine1 c key l).links = s.links := rfl
@[simp] theorem State.setLine1_vfs (s : State) (c key : Nat) (l : CLine) : (s.setLine1 c key l).vfs = s.vfs := rfl
@[simp] theorem State.setLine1_parts (s : State) (c key : Nat) (l : CLine) : (s.setLine1 c key l).parts = s.parts := rfl
@[simp] theorem State.setLine1_groups (s : State) (c key : Nat) (l : CLine) : (s.setLine1 c key l).groups = s.groups := rfl
@[simp] theorem State.setLine1_host (s : State) (c key : Nat) (l : CLine) : (s.setLine1 c key l).host = s.host := rfl
@[simp] theorem State.setLine1_hostBad (s : State) (c key : Nat) (l : CLine) : (s.setLine1 c key l).hostBad = s.hostBad := rfl
@[simp] theorem State.setLine1_bufs (s : State) (c key : Nat) (l : CLine) : (s.setLine1 c key l).bufs = s.bufs := rfl
@[simp] theorem State.setLine1_caps (s : State) (c key : Nat) (l : CLine) : (s.setLine1 c key l).caps = s.caps := rfl
@[simp] theorem State.setLine1_graphs (s : State) (c key : Nat) (l : CLine) : (s.setLine1 c key l).graphs = s.graphs := rfl
@[simp] theorem State.setLine1_nodes (s : State) (c key : Nat) (l : CLine) : (s.setLine1 c key l).nodes = s.nodes := rfl
@[simp] theorem State.setLine1_atts (s : State) (c key : Nat) (l : CLine) : (s.setLine1 c key l).atts = s.atts := rfl
@[simp] theorem State.setLine1_runq (s : State) (c key : Nat) (l : CLine) : (s.setLine1 c key l).runq = s.runq := rfl
@[simp] theorem State.setLine1_held (s : State) (c key : Nat) (l : CLine) : (s.setLine1 c key l).held = s.held := rfl
@[simp] theorem State.setLine1_robin (s : State) (c key : Nat) (l : CLine) : (s.setLine1 c key l).robin = s.robin := rfl
@[simp] theorem State.setLine1_nextDisp (s : State) (c key : Nat) (l : CLine) : (s.setLine1 c key l).nextDisp = s.nextDisp := rfl
@[simp] theorem State.setLine1_cores (s : State) (c key : Nat) (l : CLine) : (s.setLine1 c key l).cores = s.cores := rfl
@[simp] theorem State.setLine1_tahr (s : State) (c key : Nat) (l : CLine) : (s.setLine1 c key l).tahr = s.tahr := rfl
@[simp] theorem State.setLine1_stage (s : State) (c key : Nat) (l : CLine) : (s.setLine1 c key l).stage = s.stage := rfl
@[simp] theorem State.setLine1_evq (s : State) (c key : Nat) (l : CLine) : (s.setLine1 c key l).evq = s.evq := rfl
@[simp] theorem State.setLine1_receipts (s : State) (c key : Nat) (l : CLine) : (s.setLine1 c key l).receipts = s.receipts := rfl
@[simp] theorem State.setLine1_codes (s : State) (c key : Nat) (l : CLine) : (s.setLine1 c key l).codes = s.codes := rfl
@[simp] theorem State.setLine1_grants (s : State) (c key : Nat) (l : CLine) : (s.setLine1 c key l).grants = s.grants := rfl
@[simp] theorem State.setLine1_exts (s : State) (c key : Nat) (l : CLine) : (s.setLine1 c key l).exts = s.exts := rfl
@[simp] theorem State.setLine1_lines (s : State) (c key : Nat) (l : CLine) : (s.setLine1 c key l).lines = s.lines := rfl
@[simp] theorem State.setLine1_recalls (s : State) (c key : Nat) (l : CLine) : (s.setLine1 c key l).recalls = s.recalls := rfl
@[simp] theorem State.setLine1_homeq (s : State) (c key : Nat) (l : CLine) : (s.setLine1 c key l).homeq = s.homeq := rfl
@[simp] theorem State.setLine1_l2 (s : State) (c key : Nat) (l : CLine) : (s.setLine1 c key l).l2 = s.l2 := rfl
@[simp] theorem State.setLine1_tlb (s : State) (c key : Nat) (l : CLine) : (s.setLine1 c key l).tlb = s.tlb := rfl
@[simp] theorem State.setLine1_walks (s : State) (c key : Nat) (l : CLine) : (s.setLine1 c key l).walks = s.walks := rfl
@[simp] theorem State.setLine1_ras (s : State) (c key : Nat) (l : CLine) : (s.setLine1 c key l).ras = s.ras := rfl
@[simp] theorem State.setLine1_fcfg (s : State) (c key : Nat) (l : CLine) : (s.setLine1 c key l).fcfg = s.fcfg := rfl
@[simp] theorem State.setLine1_nextBuf (s : State) (c key : Nat) (l : CLine) : (s.setLine1 c key l).nextBuf = s.nextBuf := rfl
@[simp] theorem State.setLine1_nextMem (s : State) (c key : Nat) (l : CLine) : (s.setLine1 c key l).nextMem = s.nextMem := rfl
@[simp] theorem State.setLine1_nextGraph (s : State) (c key : Nat) (l : CLine) : (s.setLine1 c key l).nextGraph = s.nextGraph := rfl
@[simp] theorem State.setLine1_nextNode (s : State) (c key : Nat) (l : CLine) : (s.setLine1 c key l).nextNode = s.nextNode := rfl
@[simp] theorem State.setLine1_nextAtt (s : State) (c key : Nat) (l : CLine) : (s.setLine1 c key l).nextAtt = s.nextAtt := rfl
@[simp] theorem State.setLine1_nextTurn (s : State) (c key : Nat) (l : CLine) : (s.setLine1 c key l).nextTurn = s.nextTurn := rfl

@[simp] theorem State.setLine2_time (s : State) (k key : Nat) (l : CLine) : (s.setLine2 k key l).time = s.time := rfl
@[simp] theorem State.setLine2_stopped (s : State) (k key : Nat) (l : CLine) : (s.setLine2 k key l).stopped = s.stopped := rfl
@[simp] theorem State.setLine2_cur (s : State) (k key : Nat) (l : CLine) : (s.setLine2 k key l).cur = s.cur := rfl
@[simp] theorem State.setLine2_turns (s : State) (k key : Nat) (l : CLine) : (s.setLine2 k key l).turns = s.turns := rfl
@[simp] theorem State.setLine2_due (s : State) (k key : Nat) (l : CLine) : (s.setLine2 k key l).due = s.due := rfl
@[simp] theorem State.setLine2_inputs (s : State) (k key : Nat) (l : CLine) : (s.setLine2 k key l).inputs = s.inputs := rfl
@[simp] theorem State.setLine2_replies (s : State) (k key : Nat) (l : CLine) : (s.setLine2 k key l).replies = s.replies := rfl
@[simp] theorem State.setLine2_freeIdx (s : State) (k key : Nat) (l : CLine) : (s.setLine2 k key l).freeIdx = s.freeIdx := rfl
@[simp] theorem State.setLine2_sent (s : State) (k key : Nat) (l : CLine) : (s.setLine2 k key l).sent = s.sent := rfl
@[simp] theorem State.setLine2_pkg (s : State) (k key : Nat) (l : CLine) : (s.setLine2 k key l).pkg = s.pkg := rfl
@[simp] theorem State.setLine2_pfMsix (s : State) (k key : Nat) (l : CLine) : (s.setLine2 k key l).pfMsix = s.pfMsix := rfl
@[simp] theorem State.setLine2_sites (s : State) (k key : Nat) (l : CLine) : (s.setLine2 k key l).sites = s.sites := rfl
@[simp] theorem State.setLine2_ports (s : State) (k key : Nat) (l : CLine) : (s.setLine2 k key l).ports = s.ports := rfl
@[simp] theorem State.setLine2_links (s : State) (k key : Nat) (l : CLine) : (s.setLine2 k key l).links = s.links := rfl
@[simp] theorem State.setLine2_vfs (s : State) (k key : Nat) (l : CLine) : (s.setLine2 k key l).vfs = s.vfs := rfl
@[simp] theorem State.setLine2_parts (s : State) (k key : Nat) (l : CLine) : (s.setLine2 k key l).parts = s.parts := rfl
@[simp] theorem State.setLine2_groups (s : State) (k key : Nat) (l : CLine) : (s.setLine2 k key l).groups = s.groups := rfl
@[simp] theorem State.setLine2_host (s : State) (k key : Nat) (l : CLine) : (s.setLine2 k key l).host = s.host := rfl
@[simp] theorem State.setLine2_hostBad (s : State) (k key : Nat) (l : CLine) : (s.setLine2 k key l).hostBad = s.hostBad := rfl
@[simp] theorem State.setLine2_bufs (s : State) (k key : Nat) (l : CLine) : (s.setLine2 k key l).bufs = s.bufs := rfl
@[simp] theorem State.setLine2_caps (s : State) (k key : Nat) (l : CLine) : (s.setLine2 k key l).caps = s.caps := rfl
@[simp] theorem State.setLine2_graphs (s : State) (k key : Nat) (l : CLine) : (s.setLine2 k key l).graphs = s.graphs := rfl
@[simp] theorem State.setLine2_nodes (s : State) (k key : Nat) (l : CLine) : (s.setLine2 k key l).nodes = s.nodes := rfl
@[simp] theorem State.setLine2_atts (s : State) (k key : Nat) (l : CLine) : (s.setLine2 k key l).atts = s.atts := rfl
@[simp] theorem State.setLine2_runq (s : State) (k key : Nat) (l : CLine) : (s.setLine2 k key l).runq = s.runq := rfl
@[simp] theorem State.setLine2_held (s : State) (k key : Nat) (l : CLine) : (s.setLine2 k key l).held = s.held := rfl
@[simp] theorem State.setLine2_robin (s : State) (k key : Nat) (l : CLine) : (s.setLine2 k key l).robin = s.robin := rfl
@[simp] theorem State.setLine2_nextDisp (s : State) (k key : Nat) (l : CLine) : (s.setLine2 k key l).nextDisp = s.nextDisp := rfl
@[simp] theorem State.setLine2_cores (s : State) (k key : Nat) (l : CLine) : (s.setLine2 k key l).cores = s.cores := rfl
@[simp] theorem State.setLine2_tahr (s : State) (k key : Nat) (l : CLine) : (s.setLine2 k key l).tahr = s.tahr := rfl
@[simp] theorem State.setLine2_stage (s : State) (k key : Nat) (l : CLine) : (s.setLine2 k key l).stage = s.stage := rfl
@[simp] theorem State.setLine2_evq (s : State) (k key : Nat) (l : CLine) : (s.setLine2 k key l).evq = s.evq := rfl
@[simp] theorem State.setLine2_receipts (s : State) (k key : Nat) (l : CLine) : (s.setLine2 k key l).receipts = s.receipts := rfl
@[simp] theorem State.setLine2_codes (s : State) (k key : Nat) (l : CLine) : (s.setLine2 k key l).codes = s.codes := rfl
@[simp] theorem State.setLine2_grants (s : State) (k key : Nat) (l : CLine) : (s.setLine2 k key l).grants = s.grants := rfl
@[simp] theorem State.setLine2_exts (s : State) (k key : Nat) (l : CLine) : (s.setLine2 k key l).exts = s.exts := rfl
@[simp] theorem State.setLine2_lines (s : State) (k key : Nat) (l : CLine) : (s.setLine2 k key l).lines = s.lines := rfl
@[simp] theorem State.setLine2_recalls (s : State) (k key : Nat) (l : CLine) : (s.setLine2 k key l).recalls = s.recalls := rfl
@[simp] theorem State.setLine2_homeq (s : State) (k key : Nat) (l : CLine) : (s.setLine2 k key l).homeq = s.homeq := rfl
@[simp] theorem State.setLine2_l1 (s : State) (k key : Nat) (l : CLine) : (s.setLine2 k key l).l1 = s.l1 := rfl
@[simp] theorem State.setLine2_tlb (s : State) (k key : Nat) (l : CLine) : (s.setLine2 k key l).tlb = s.tlb := rfl
@[simp] theorem State.setLine2_walks (s : State) (k key : Nat) (l : CLine) : (s.setLine2 k key l).walks = s.walks := rfl
@[simp] theorem State.setLine2_ras (s : State) (k key : Nat) (l : CLine) : (s.setLine2 k key l).ras = s.ras := rfl
@[simp] theorem State.setLine2_fcfg (s : State) (k key : Nat) (l : CLine) : (s.setLine2 k key l).fcfg = s.fcfg := rfl
@[simp] theorem State.setLine2_nextBuf (s : State) (k key : Nat) (l : CLine) : (s.setLine2 k key l).nextBuf = s.nextBuf := rfl
@[simp] theorem State.setLine2_nextMem (s : State) (k key : Nat) (l : CLine) : (s.setLine2 k key l).nextMem = s.nextMem := rfl
@[simp] theorem State.setLine2_nextGraph (s : State) (k key : Nat) (l : CLine) : (s.setLine2 k key l).nextGraph = s.nextGraph := rfl
@[simp] theorem State.setLine2_nextNode (s : State) (k key : Nat) (l : CLine) : (s.setLine2 k key l).nextNode = s.nextNode := rfl
@[simp] theorem State.setLine2_nextAtt (s : State) (k key : Nat) (l : CLine) : (s.setLine2 k key l).nextAtt = s.nextAtt := rfl
@[simp] theorem State.setLine2_nextTurn (s : State) (k key : Nat) (l : CLine) : (s.setLine2 k key l).nextTurn = s.nextTurn := rfl

@[simp] theorem State.setFn_time (s : State) (f : Nat) (x : FnCfg) : (s.setFn f x).time = s.time := rfl
@[simp] theorem State.setFn_stopped (s : State) (f : Nat) (x : FnCfg) : (s.setFn f x).stopped = s.stopped := rfl
@[simp] theorem State.setFn_cur (s : State) (f : Nat) (x : FnCfg) : (s.setFn f x).cur = s.cur := rfl
@[simp] theorem State.setFn_turns (s : State) (f : Nat) (x : FnCfg) : (s.setFn f x).turns = s.turns := rfl
@[simp] theorem State.setFn_due (s : State) (f : Nat) (x : FnCfg) : (s.setFn f x).due = s.due := rfl
@[simp] theorem State.setFn_inputs (s : State) (f : Nat) (x : FnCfg) : (s.setFn f x).inputs = s.inputs := rfl
@[simp] theorem State.setFn_replies (s : State) (f : Nat) (x : FnCfg) : (s.setFn f x).replies = s.replies := rfl
@[simp] theorem State.setFn_freeIdx (s : State) (f : Nat) (x : FnCfg) : (s.setFn f x).freeIdx = s.freeIdx := rfl
@[simp] theorem State.setFn_sent (s : State) (f : Nat) (x : FnCfg) : (s.setFn f x).sent = s.sent := rfl
@[simp] theorem State.setFn_pkg (s : State) (f : Nat) (x : FnCfg) : (s.setFn f x).pkg = s.pkg := rfl
@[simp] theorem State.setFn_pfMsix (s : State) (f : Nat) (x : FnCfg) : (s.setFn f x).pfMsix = s.pfMsix := rfl
@[simp] theorem State.setFn_sites (s : State) (f : Nat) (x : FnCfg) : (s.setFn f x).sites = s.sites := rfl
@[simp] theorem State.setFn_ports (s : State) (f : Nat) (x : FnCfg) : (s.setFn f x).ports = s.ports := rfl
@[simp] theorem State.setFn_links (s : State) (f : Nat) (x : FnCfg) : (s.setFn f x).links = s.links := rfl
@[simp] theorem State.setFn_vfs (s : State) (f : Nat) (x : FnCfg) : (s.setFn f x).vfs = s.vfs := rfl
@[simp] theorem State.setFn_parts (s : State) (f : Nat) (x : FnCfg) : (s.setFn f x).parts = s.parts := rfl
@[simp] theorem State.setFn_groups (s : State) (f : Nat) (x : FnCfg) : (s.setFn f x).groups = s.groups := rfl
@[simp] theorem State.setFn_host (s : State) (f : Nat) (x : FnCfg) : (s.setFn f x).host = s.host := rfl
@[simp] theorem State.setFn_hostBad (s : State) (f : Nat) (x : FnCfg) : (s.setFn f x).hostBad = s.hostBad := rfl
@[simp] theorem State.setFn_bufs (s : State) (f : Nat) (x : FnCfg) : (s.setFn f x).bufs = s.bufs := rfl
@[simp] theorem State.setFn_caps (s : State) (f : Nat) (x : FnCfg) : (s.setFn f x).caps = s.caps := rfl
@[simp] theorem State.setFn_graphs (s : State) (f : Nat) (x : FnCfg) : (s.setFn f x).graphs = s.graphs := rfl
@[simp] theorem State.setFn_nodes (s : State) (f : Nat) (x : FnCfg) : (s.setFn f x).nodes = s.nodes := rfl
@[simp] theorem State.setFn_atts (s : State) (f : Nat) (x : FnCfg) : (s.setFn f x).atts = s.atts := rfl
@[simp] theorem State.setFn_runq (s : State) (f : Nat) (x : FnCfg) : (s.setFn f x).runq = s.runq := rfl
@[simp] theorem State.setFn_held (s : State) (f : Nat) (x : FnCfg) : (s.setFn f x).held = s.held := rfl
@[simp] theorem State.setFn_robin (s : State) (f : Nat) (x : FnCfg) : (s.setFn f x).robin = s.robin := rfl
@[simp] theorem State.setFn_nextDisp (s : State) (f : Nat) (x : FnCfg) : (s.setFn f x).nextDisp = s.nextDisp := rfl
@[simp] theorem State.setFn_cores (s : State) (f : Nat) (x : FnCfg) : (s.setFn f x).cores = s.cores := rfl
@[simp] theorem State.setFn_tahr (s : State) (f : Nat) (x : FnCfg) : (s.setFn f x).tahr = s.tahr := rfl
@[simp] theorem State.setFn_stage (s : State) (f : Nat) (x : FnCfg) : (s.setFn f x).stage = s.stage := rfl
@[simp] theorem State.setFn_evq (s : State) (f : Nat) (x : FnCfg) : (s.setFn f x).evq = s.evq := rfl
@[simp] theorem State.setFn_receipts (s : State) (f : Nat) (x : FnCfg) : (s.setFn f x).receipts = s.receipts := rfl
@[simp] theorem State.setFn_codes (s : State) (f : Nat) (x : FnCfg) : (s.setFn f x).codes = s.codes := rfl
@[simp] theorem State.setFn_grants (s : State) (f : Nat) (x : FnCfg) : (s.setFn f x).grants = s.grants := rfl
@[simp] theorem State.setFn_exts (s : State) (f : Nat) (x : FnCfg) : (s.setFn f x).exts = s.exts := rfl
@[simp] theorem State.setFn_lines (s : State) (f : Nat) (x : FnCfg) : (s.setFn f x).lines = s.lines := rfl
@[simp] theorem State.setFn_recalls (s : State) (f : Nat) (x : FnCfg) : (s.setFn f x).recalls = s.recalls := rfl
@[simp] theorem State.setFn_homeq (s : State) (f : Nat) (x : FnCfg) : (s.setFn f x).homeq = s.homeq := rfl
@[simp] theorem State.setFn_l1 (s : State) (f : Nat) (x : FnCfg) : (s.setFn f x).l1 = s.l1 := rfl
@[simp] theorem State.setFn_l2 (s : State) (f : Nat) (x : FnCfg) : (s.setFn f x).l2 = s.l2 := rfl
@[simp] theorem State.setFn_tlb (s : State) (f : Nat) (x : FnCfg) : (s.setFn f x).tlb = s.tlb := rfl
@[simp] theorem State.setFn_walks (s : State) (f : Nat) (x : FnCfg) : (s.setFn f x).walks = s.walks := rfl
@[simp] theorem State.setFn_ras (s : State) (f : Nat) (x : FnCfg) : (s.setFn f x).ras = s.ras := rfl
@[simp] theorem State.setFn_nextBuf (s : State) (f : Nat) (x : FnCfg) : (s.setFn f x).nextBuf = s.nextBuf := rfl
@[simp] theorem State.setFn_nextMem (s : State) (f : Nat) (x : FnCfg) : (s.setFn f x).nextMem = s.nextMem := rfl
@[simp] theorem State.setFn_nextGraph (s : State) (f : Nat) (x : FnCfg) : (s.setFn f x).nextGraph = s.nextGraph := rfl
@[simp] theorem State.setFn_nextNode (s : State) (f : Nat) (x : FnCfg) : (s.setFn f x).nextNode = s.nextNode := rfl
@[simp] theorem State.setFn_nextAtt (s : State) (f : Nat) (x : FnCfg) : (s.setFn f x).nextAtt = s.nextAtt := rfl
@[simp] theorem State.setFn_nextTurn (s : State) (f : Nat) (x : FnCfg) : (s.setFn f x).nextTurn = s.nextTurn := rfl

@[simp] theorem State.toTahr_time (s : State) (r : TrapRec) : (s.toTahr r).time = s.time := rfl
@[simp] theorem State.toTahr_stopped (s : State) (r : TrapRec) : (s.toTahr r).stopped = s.stopped := rfl
@[simp] theorem State.toTahr_cur (s : State) (r : TrapRec) : (s.toTahr r).cur = s.cur := rfl
@[simp] theorem State.toTahr_turns (s : State) (r : TrapRec) : (s.toTahr r).turns = s.turns := rfl
@[simp] theorem State.toTahr_due (s : State) (r : TrapRec) : (s.toTahr r).due = s.due := rfl
@[simp] theorem State.toTahr_inputs (s : State) (r : TrapRec) : (s.toTahr r).inputs = s.inputs := rfl
@[simp] theorem State.toTahr_replies (s : State) (r : TrapRec) : (s.toTahr r).replies = s.replies := rfl
@[simp] theorem State.toTahr_freeIdx (s : State) (r : TrapRec) : (s.toTahr r).freeIdx = s.freeIdx := rfl
@[simp] theorem State.toTahr_sent (s : State) (r : TrapRec) : (s.toTahr r).sent = s.sent := rfl
@[simp] theorem State.toTahr_pkg (s : State) (r : TrapRec) : (s.toTahr r).pkg = s.pkg := rfl
@[simp] theorem State.toTahr_pfMsix (s : State) (r : TrapRec) : (s.toTahr r).pfMsix = s.pfMsix := rfl
@[simp] theorem State.toTahr_sites (s : State) (r : TrapRec) : (s.toTahr r).sites = s.sites := rfl
@[simp] theorem State.toTahr_ports (s : State) (r : TrapRec) : (s.toTahr r).ports = s.ports := rfl
@[simp] theorem State.toTahr_links (s : State) (r : TrapRec) : (s.toTahr r).links = s.links := rfl
@[simp] theorem State.toTahr_vfs (s : State) (r : TrapRec) : (s.toTahr r).vfs = s.vfs := rfl
@[simp] theorem State.toTahr_parts (s : State) (r : TrapRec) : (s.toTahr r).parts = s.parts := rfl
@[simp] theorem State.toTahr_groups (s : State) (r : TrapRec) : (s.toTahr r).groups = s.groups := rfl
@[simp] theorem State.toTahr_host (s : State) (r : TrapRec) : (s.toTahr r).host = s.host := rfl
@[simp] theorem State.toTahr_hostBad (s : State) (r : TrapRec) : (s.toTahr r).hostBad = s.hostBad := rfl
@[simp] theorem State.toTahr_bufs (s : State) (r : TrapRec) : (s.toTahr r).bufs = s.bufs := rfl
@[simp] theorem State.toTahr_caps (s : State) (r : TrapRec) : (s.toTahr r).caps = s.caps := rfl
@[simp] theorem State.toTahr_graphs (s : State) (r : TrapRec) : (s.toTahr r).graphs = s.graphs := rfl
@[simp] theorem State.toTahr_nodes (s : State) (r : TrapRec) : (s.toTahr r).nodes = s.nodes := rfl
@[simp] theorem State.toTahr_atts (s : State) (r : TrapRec) : (s.toTahr r).atts = s.atts := rfl
@[simp] theorem State.toTahr_runq (s : State) (r : TrapRec) : (s.toTahr r).runq = s.runq := rfl
@[simp] theorem State.toTahr_held (s : State) (r : TrapRec) : (s.toTahr r).held = s.held := rfl
@[simp] theorem State.toTahr_robin (s : State) (r : TrapRec) : (s.toTahr r).robin = s.robin := rfl
@[simp] theorem State.toTahr_nextDisp (s : State) (r : TrapRec) : (s.toTahr r).nextDisp = s.nextDisp := rfl
@[simp] theorem State.toTahr_cores (s : State) (r : TrapRec) : (s.toTahr r).cores = s.cores := rfl
@[simp] theorem State.toTahr_stage (s : State) (r : TrapRec) : (s.toTahr r).stage = s.stage := rfl
@[simp] theorem State.toTahr_evq (s : State) (r : TrapRec) : (s.toTahr r).evq = s.evq := rfl
@[simp] theorem State.toTahr_receipts (s : State) (r : TrapRec) : (s.toTahr r).receipts = s.receipts := rfl
@[simp] theorem State.toTahr_codes (s : State) (r : TrapRec) : (s.toTahr r).codes = s.codes := rfl
@[simp] theorem State.toTahr_grants (s : State) (r : TrapRec) : (s.toTahr r).grants = s.grants := rfl
@[simp] theorem State.toTahr_exts (s : State) (r : TrapRec) : (s.toTahr r).exts = s.exts := rfl
@[simp] theorem State.toTahr_lines (s : State) (r : TrapRec) : (s.toTahr r).lines = s.lines := rfl
@[simp] theorem State.toTahr_recalls (s : State) (r : TrapRec) : (s.toTahr r).recalls = s.recalls := rfl
@[simp] theorem State.toTahr_homeq (s : State) (r : TrapRec) : (s.toTahr r).homeq = s.homeq := rfl
@[simp] theorem State.toTahr_l1 (s : State) (r : TrapRec) : (s.toTahr r).l1 = s.l1 := rfl
@[simp] theorem State.toTahr_l2 (s : State) (r : TrapRec) : (s.toTahr r).l2 = s.l2 := rfl
@[simp] theorem State.toTahr_tlb (s : State) (r : TrapRec) : (s.toTahr r).tlb = s.tlb := rfl
@[simp] theorem State.toTahr_walks (s : State) (r : TrapRec) : (s.toTahr r).walks = s.walks := rfl
@[simp] theorem State.toTahr_ras (s : State) (r : TrapRec) : (s.toTahr r).ras = s.ras := rfl
@[simp] theorem State.toTahr_fcfg (s : State) (r : TrapRec) : (s.toTahr r).fcfg = s.fcfg := rfl
@[simp] theorem State.toTahr_nextBuf (s : State) (r : TrapRec) : (s.toTahr r).nextBuf = s.nextBuf := rfl
@[simp] theorem State.toTahr_nextMem (s : State) (r : TrapRec) : (s.toTahr r).nextMem = s.nextMem := rfl
@[simp] theorem State.toTahr_nextGraph (s : State) (r : TrapRec) : (s.toTahr r).nextGraph = s.nextGraph := rfl
@[simp] theorem State.toTahr_nextNode (s : State) (r : TrapRec) : (s.toTahr r).nextNode = s.nextNode := rfl
@[simp] theorem State.toTahr_nextAtt (s : State) (r : TrapRec) : (s.toTahr r).nextAtt = s.nextAtt := rfl
@[simp] theorem State.toTahr_nextTurn (s : State) (r : TrapRec) : (s.toTahr r).nextTurn = s.nextTurn := rfl

@[simp] theorem State.tookReply_time (s : State) (a : Option Nat) : (s.tookReply a).time = s.time := rfl
@[simp] theorem State.tookReply_stopped (s : State) (a : Option Nat) : (s.tookReply a).stopped = s.stopped := rfl
@[simp] theorem State.tookReply_cur (s : State) (a : Option Nat) : (s.tookReply a).cur = s.cur := rfl
@[simp] theorem State.tookReply_turns (s : State) (a : Option Nat) : (s.tookReply a).turns = s.turns := rfl
@[simp] theorem State.tookReply_due (s : State) (a : Option Nat) : (s.tookReply a).due = s.due := rfl
@[simp] theorem State.tookReply_inputs (s : State) (a : Option Nat) : (s.tookReply a).inputs = s.inputs := rfl
@[simp] theorem State.tookReply_freeIdx (s : State) (a : Option Nat) : (s.tookReply a).freeIdx = s.freeIdx := rfl
@[simp] theorem State.tookReply_sent (s : State) (a : Option Nat) : (s.tookReply a).sent = s.sent := rfl
@[simp] theorem State.tookReply_pkg (s : State) (a : Option Nat) : (s.tookReply a).pkg = s.pkg := rfl
@[simp] theorem State.tookReply_pfMsix (s : State) (a : Option Nat) : (s.tookReply a).pfMsix = s.pfMsix := rfl
@[simp] theorem State.tookReply_sites (s : State) (a : Option Nat) : (s.tookReply a).sites = s.sites := rfl
@[simp] theorem State.tookReply_ports (s : State) (a : Option Nat) : (s.tookReply a).ports = s.ports := rfl
@[simp] theorem State.tookReply_links (s : State) (a : Option Nat) : (s.tookReply a).links = s.links := rfl
@[simp] theorem State.tookReply_vfs (s : State) (a : Option Nat) : (s.tookReply a).vfs = s.vfs := rfl
@[simp] theorem State.tookReply_parts (s : State) (a : Option Nat) : (s.tookReply a).parts = s.parts := rfl
@[simp] theorem State.tookReply_groups (s : State) (a : Option Nat) : (s.tookReply a).groups = s.groups := rfl
@[simp] theorem State.tookReply_host (s : State) (a : Option Nat) : (s.tookReply a).host = s.host := rfl
@[simp] theorem State.tookReply_hostBad (s : State) (a : Option Nat) : (s.tookReply a).hostBad = s.hostBad := rfl
@[simp] theorem State.tookReply_bufs (s : State) (a : Option Nat) : (s.tookReply a).bufs = s.bufs := rfl
@[simp] theorem State.tookReply_caps (s : State) (a : Option Nat) : (s.tookReply a).caps = s.caps := rfl
@[simp] theorem State.tookReply_graphs (s : State) (a : Option Nat) : (s.tookReply a).graphs = s.graphs := rfl
@[simp] theorem State.tookReply_nodes (s : State) (a : Option Nat) : (s.tookReply a).nodes = s.nodes := rfl
@[simp] theorem State.tookReply_atts (s : State) (a : Option Nat) : (s.tookReply a).atts = s.atts := rfl
@[simp] theorem State.tookReply_runq (s : State) (a : Option Nat) : (s.tookReply a).runq = s.runq := rfl
@[simp] theorem State.tookReply_held (s : State) (a : Option Nat) : (s.tookReply a).held = s.held := rfl
@[simp] theorem State.tookReply_robin (s : State) (a : Option Nat) : (s.tookReply a).robin = s.robin := rfl
@[simp] theorem State.tookReply_nextDisp (s : State) (a : Option Nat) : (s.tookReply a).nextDisp = s.nextDisp := rfl
@[simp] theorem State.tookReply_cores (s : State) (a : Option Nat) : (s.tookReply a).cores = s.cores := rfl
@[simp] theorem State.tookReply_tahr (s : State) (a : Option Nat) : (s.tookReply a).tahr = s.tahr := rfl
@[simp] theorem State.tookReply_stage (s : State) (a : Option Nat) : (s.tookReply a).stage = s.stage := rfl
@[simp] theorem State.tookReply_evq (s : State) (a : Option Nat) : (s.tookReply a).evq = s.evq := rfl
@[simp] theorem State.tookReply_receipts (s : State) (a : Option Nat) : (s.tookReply a).receipts = s.receipts := rfl
@[simp] theorem State.tookReply_codes (s : State) (a : Option Nat) : (s.tookReply a).codes = s.codes := rfl
@[simp] theorem State.tookReply_grants (s : State) (a : Option Nat) : (s.tookReply a).grants = s.grants := rfl
@[simp] theorem State.tookReply_exts (s : State) (a : Option Nat) : (s.tookReply a).exts = s.exts := rfl
@[simp] theorem State.tookReply_lines (s : State) (a : Option Nat) : (s.tookReply a).lines = s.lines := rfl
@[simp] theorem State.tookReply_recalls (s : State) (a : Option Nat) : (s.tookReply a).recalls = s.recalls := rfl
@[simp] theorem State.tookReply_homeq (s : State) (a : Option Nat) : (s.tookReply a).homeq = s.homeq := rfl
@[simp] theorem State.tookReply_l1 (s : State) (a : Option Nat) : (s.tookReply a).l1 = s.l1 := rfl
@[simp] theorem State.tookReply_l2 (s : State) (a : Option Nat) : (s.tookReply a).l2 = s.l2 := rfl
@[simp] theorem State.tookReply_tlb (s : State) (a : Option Nat) : (s.tookReply a).tlb = s.tlb := rfl
@[simp] theorem State.tookReply_walks (s : State) (a : Option Nat) : (s.tookReply a).walks = s.walks := rfl
@[simp] theorem State.tookReply_ras (s : State) (a : Option Nat) : (s.tookReply a).ras = s.ras := rfl
@[simp] theorem State.tookReply_fcfg (s : State) (a : Option Nat) : (s.tookReply a).fcfg = s.fcfg := rfl
@[simp] theorem State.tookReply_nextBuf (s : State) (a : Option Nat) : (s.tookReply a).nextBuf = s.nextBuf := rfl
@[simp] theorem State.tookReply_nextMem (s : State) (a : Option Nat) : (s.tookReply a).nextMem = s.nextMem := rfl
@[simp] theorem State.tookReply_nextGraph (s : State) (a : Option Nat) : (s.tookReply a).nextGraph = s.nextGraph := rfl
@[simp] theorem State.tookReply_nextNode (s : State) (a : Option Nat) : (s.tookReply a).nextNode = s.nextNode := rfl
@[simp] theorem State.tookReply_nextAtt (s : State) (a : Option Nat) : (s.tookReply a).nextAtt = s.nextAtt := rfl
@[simp] theorem State.tookReply_nextTurn (s : State) (a : Option Nat) : (s.tookReply a).nextTurn = s.nextTurn := rfl

end Sys2Proof.Machine
end

