-- ==== Sys2Proof/Laws/Tab.lean ====
section
/-! SUPPORT. What reading a table gives after a write of one key. -/

namespace Sys2Proof.Machine

set_option Elab.async false

@[simp] theorem Tab.find_set_same (t : Tab α) (k : Nat) (v : α) : Tab.find (Tab.set t k v) k = some v := by
  induction t with
  | nil => simp [Tab.set, Tab.find]
  | cons e t ih =>
    obtain ⟨j, u⟩ := e
    simp only [Tab.set]
    split
    · simp [Tab.find]
    · split
      · simp [Tab.find]
      · simp [Tab.find, *]

theorem Tab.find_set_other (t : Tab α) (k j : Nat) (v : α) (h : j ≠ k) : Tab.find (Tab.set t k v) j = Tab.find t j := by
  induction t with
  | nil => simp [Tab.set, Tab.find, h]
  | cons e t ih =>
    obtain ⟨i, u⟩ := e
    simp only [Tab.set]
    split
    · rename_i e; subst e; simp [Tab.find, h]
    · split
      · simp [Tab.find, h]
      · simp [Tab.find, ih]

@[simp] theorem Tab.get_set_same (d : α) (t : Tab α) (k : Nat) (v : α) : Tab.get d (Tab.set t k v) k = v := by
  simp [Tab.get]

theorem Tab.get_set_other (d : α) (t : Tab α) (k j : Nat) (v : α) (h : j ≠ k) :
    Tab.get d (Tab.set t k v) j = Tab.get d t j := by
  simp [Tab.get, Tab.find_set_other t k j v h]

@[simp] theorem Tab.set_set (t : Tab α) (k : Nat) (u v : α) : Tab.set (Tab.set t k u) k v = Tab.set t k v := by
  induction t with
  | nil => simp [Tab.set]
  | cons e t ih =>
    obtain ⟨i, w⟩ := e
    simp only [Tab.set]
    split
    · simp [Tab.set]
    · split
      · simp [Tab.set]
      · simp [Tab.set, *]

@[simp] theorem Tab.get_upd_same (d : α) (t : Tab α) (k : Nat) (f : α → α) :
    Tab.get d (Tab.upd d t k f) k = f (Tab.get d t k) := by
  simp [Tab.upd]

theorem Tab.get_upd_other (d : α) (t : Tab α) (k j : Nat) (f : α → α) (h : j ≠ k) :
    Tab.get d (Tab.upd d t k f) j = Tab.get d t j := by
  simp [Tab.upd, Tab.get_set_other _ _ _ _ _ h]

@[simp] theorem Tab.find_nil (k : Nat) : Tab.find ([] : Tab α) k = none := rfl

@[simp] theorem Tab.get_nil (d : α) (k : Nat) : Tab.get d [] k = d := rfl

/-- A write changes no entry but its own. -/
theorem Tab.mem_set {t : Tab α} {k : Nat} {v : α} {e : Nat × α} (h : e ∈ Tab.set t k v) : e = (k, v) ∨ e ∈ t := by
  induction t with
  | nil => simpa [Tab.set] using h
  | cons e' t ih =>
    obtain ⟨i, u⟩ := e'
    simp only [Tab.set] at h
    split at h
    · rcases List.mem_cons.mp h with h | h
      · exact .inl h
      · exact .inr (List.mem_cons_of_mem _ h)
    · split at h
      · rcases List.mem_cons.mp h with h | h
        · exact .inl h
        · exact .inr h
      · rcases List.mem_cons.mp h with h | h
        · exact .inr (by simp [h])
        · rcases ih h with h | h
          · exact .inl h
          · exact .inr (List.mem_cons_of_mem _ h)

/-- A listed value is an entry. -/
theorem Tab.mem_of_find {t : Tab α} {k : Nat} {v : α} (h : Tab.find t k = some v) : (k, v) ∈ t := by
  induction t with
  | nil => simp at h
  | cons e t ih =>
    obtain ⟨i, u⟩ := e
    simp only [Tab.find] at h
    split at h
    · rename_i e; subst e; simp at h; simp [h]
    · exact List.mem_cons_of_mem _ (ih h)

end Sys2Proof.Machine
end

