-- ==== Sys2Proof/Laws/Cache.lean ====
section
/-! SUPPORT. What the caches keep: the bytes of a line, and that no cache operation makes a byte of its own: whatever a
cluster finds in its L1, in its chiplet's L2 or at a home after one, it found in one of these places before, but for
the bytes that a write stores. -/

namespace Sys2Proof.Machine

set_option Elab.async false

/-! The bytes of a line -/

theorem CLine.byte_put (l : CLine) (o o' : Nat) (b : Byte) (h : o < 256) (h' : o' < 256) :
    (l.put o b).byte o' = if o' = o then b else l.byte o' := by
  unfold CLine.put CLine.byte
  apply BitVec.eq_of_getLsbD_eq
  intro i hi
  have f : ∀ k, (0xFF : BitVec 2048).getLsbD k = decide (k < 8) := by
    intro k
    show (BitVec.ofNat 2048 255).getLsbD k = _
    rw [BitVec.getLsbD_ofNat, Nat.testBit_two_pow_sub_one (n := 8)]
    by_cases hk : k < 8
    · have : k < 2048 := by omega
      simp [hk, this]
    · simp [hk]
  have hw : ∀ k, k < 8 ∨ b.getLsbD k = false := by
    intro k
    by_cases hk : k < 8
    · exact .inl hk
    · exact .inr (BitVec.getLsbD_of_ge _ _ (by omega))
  simp only [BitVec.getLsbD_extractLsb', BitVec.getLsbD_or, BitVec.getLsbD_and, BitVec.getLsbD_not,
    BitVec.getLsbD_shiftLeft, BitVec.getLsbD_setWidth, f]
  have h1 : 8 * o' + i < 2048 := by omega
  by_cases e : o' = o
  · subst e
    have h3 : ¬ 8 * o' + i < 8 * o' := by omega
    have h4 : 8 * o' + i - 8 * o' = i := by omega
    simp [h1, h3, h4, hi]
    intro _; omega
  · simp only [e, if_false, BitVec.getLsbD_extractLsb', hi, decide_true, h1, Bool.true_and]
    rcases Nat.lt_or_ge (8 * o' + i) (8 * o) with h5 | h5
    · simp [h5]
    · have h6 : ¬ 8 * o' + i - 8 * o < 8 := by omega
      have h7 : b.getLsbD (8 * o' + i - 8 * o) = false := (hw _).resolve_left h6
      simp [Nat.not_lt.mpr h5, h6, h7]
@[simp] theorem CLine.put_dirty (l : CLine) (o : Nat) (b : Byte) : (l.put o b).dirty = l.dirty := rfl
@[simp] theorem CLine.put_sect (l : CLine) (o : Nat) (b : Byte) : (l.put o b).sect = l.sect := rfl

/-- A written byte is in the line, and no other comes in. -/
theorem CLine.has_write (l : CLine) (o o' : Nat) (b : Byte) (h : o < 256) :
    (l.write o b).has o' = (decide (o' = o) || l.has o') := by
  unfold CLine.write CLine.has
  simp only [CLine.put_sect, BitVec.getLsbD_or, BitVec.getLsbD_shiftLeft]
  by_cases e : o' = o
  · subst e; simp [h]
  · have : ¬ (o' < 256 ∧ ¬ o' < o ∧ o' - o = 0) := by omega
    simp only [e, decide_false, Bool.false_or]
    congr 1
    cases hd : l.dirty.getLsbD o'
    · simp
      intro a b c
      omega
    · simp

theorem CLine.byte_write (l : CLine) (o o' : Nat) (b : Byte) (h : o < 256) (h' : o' < 256) :
    (l.write o b).byte o' = if o' = o then b else l.byte o' :=
  CLine.byte_put l o o' b h h'

/-- A line whose bytes are all allowed. -/
def CLine.Within (l : CLine) (S : Nat → Byte → Prop) : Prop := ∀ o, o < 256 → l.has o = true → S o (l.byte o)

theorem CLine.within_write {l : CLine} {S : Nat → Byte → Prop} (hl : l.Within S) {o : Nat} {b : Byte} (h : o < 256)
    (hb : S o b) : (l.write o b).Within S := by
  intro o' h' hh
  rw [CLine.has_write l o o' b h] at hh
  rw [CLine.byte_write l o o' b h h']
  by_cases e : o' = o
  · subst e; simpa using hb
  · simp [e] at hh ⊢; exact hl o' h' hh

theorem CLine.within_writes {S : Nat → Byte → Prop} (cells : List (Nat × Byte))
    (hc : ∀ x ∈ cells, x.1 < 256 ∧ S x.1 x.2) : ∀ l : CLine, l.Within S →
      (cells.foldl (fun l x => l.write x.1 x.2) l).Within S := by
  induction cells with
  | nil => intro l h; exact h
  | cons x xs ih =>
    intro l h
    simp only [List.foldl_cons]
    have := hc x (by simp)
    exact ih (fun y hy => hc y (by simp [hy])) _ (CLine.within_write h this.1 this.2)

theorem CLine.within_empty (set way vf : Nat) (S : Nat → Byte → Prop) : (CLine.empty set way vf).Within S := by
  intro o _ h
  simp [CLine.empty, CLine.has] at h

/-- The bytes that filling a sector puts into a line. -/
theorem CLine.fold_fill (sec : Nat) (below : Nat → Byte) (hs : sec < 2) (is : List Nat) (hi : ∀ i ∈ is, i < 128) :
    ∀ l : CLine,
      let f := is.foldl (fun l i => if l.dirty.getLsbD (128 * sec + i) then l else l.put (128 * sec + i) (below (128 * sec + i))) l
      f.dirty = l.dirty ∧ f.sect = l.sect ∧ ∀ o, o < 256 →
        f.byte o = if (∃ i ∈ is, o = 128 * sec + i) ∧ l.dirty.getLsbD o = false then below o else l.byte o := by
  induction is with
  | nil => intro l; simp
  | cons i is ih =>
    intro l
    simp only [List.foldl_cons]
    have hi1 := hi i (by simp)
    have hi2 := ih (fun j hj => hi j (by simp [hj]))
    by_cases hd : l.dirty.getLsbD (128 * sec + i) = true
    · rw [if_pos hd]
      obtain ⟨a, b, c⟩ := hi2 l
      refine ⟨a, b, fun o ho => ?_⟩
      rw [c o ho]
      by_cases e : o = 128 * sec + i
      · subst e; simp [hd]
      · simp [e]
    · rw [if_neg hd]
      obtain ⟨a, b, c⟩ := hi2 (l.put (128 * sec + i) (below (128 * sec + i)))
      refine ⟨a, b, fun o ho => ?_⟩
      rw [c o ho]
      simp only [CLine.put_dirty]
      by_cases e : o = 128 * sec + i
      · subst e
        have : l.dirty.getLsbD (128 * sec + i) = false := by simpa using hd
        simp [this, CLine.byte_put l _ _ _ ho ho]
      · have : (∃ j ∈ i :: is, o = 128 * sec + j) ↔ ∃ j ∈ is, o = 128 * sec + j := by simp [e]
        rw [CLine.byte_put l _ o _ (by omega) ho, if_neg e]
        simp only [this]
        congr

theorem CLine.within_fill {l : CLine} {S : Nat → Byte → Prop} (hl : l.Within S) {sec : Nat} {below : Nat → Byte} (hs : sec < 2)
    (hb : ∀ o, o < 256 → S o (below o)) : (l.fill sec below).Within S := by
  unfold CLine.fill
  split
  · exact hl
  · obtain ⟨a, b, c⟩ := CLine.fold_fill sec below hs (List.range 128) (by simp) l
    intro o ho hh
    refine (congrArg (S o) (c o ho)).mpr ?_
    split
    · exact hb o ho
    · rename_i h1
      apply hl o ho
      by_cases ho2 : ∃ i ∈ List.range 128, o = 128 * sec + i
      · have : l.dirty.getLsbD o = true := by
          cases hd : l.dirty.getLsbD o
          · exact absurd ⟨ho2, hd⟩ h1
          · rfl
        simp [CLine.has, this]
      · have hne : o / 128 ≠ sec := by
          intro hq
          apply ho2
          exact ⟨o - 128 * sec, by simp; omega, by omega⟩
        simp only [CLine.has, a, Nat.testBit_or, Nat.testBit_two_pow] at hh
        have : ¬ sec = o / 128 := fun h => hne h.symm
        simpa [CLine.has, this] using hh

theorem CLine.within_fills {S : Nat → Byte → Prop} {below : Nat → Byte} (hb : ∀ o, o < 256 → S o (below o)) (secs : List Nat)
    (hs : ∀ x ∈ secs, x < 2) : ∀ l : CLine, l.Within S → (secs.foldl (fun l sec => l.fill sec below) l).Within S := by
  induction secs with
  | nil => intro l h; exact h
  | cons x xs ih =>
    intro l h
    simp only [List.foldl_cons]
    exact ih (fun y hy => hs y (by simp [hy])) _ (CLine.within_fill h (hs x (by simp)) hb)

theorem CLine.cells_mem {l : CLine} {x : Nat × Byte} (h : x ∈ l.cells) : x.1 < 256 ∧ l.has x.1 = true ∧ x.2 = l.byte x.1 := by
  unfold CLine.cells at h
  simp only [List.mem_map, List.mem_filter, List.mem_range] at h
  obtain ⟨o, ⟨h1, h2⟩, rfl⟩ := h
  exact ⟨h1, by simp [CLine.has, h2], rfl⟩

/-! Bytes that a cluster finds -/

/-- Each byte that a cluster finds at a home, in its chiplet's L2 or in its L1, by its line and its place in it, is one that S allows, and
the caches of others are those of r. -/
structure State.Within (s r : State) (c : Nat) (S : Nat → Nat → Byte → Prop) : Prop where
  home : ∀ key o, o < 256 → S key o (Memory.byte (s.buf (keyBuf key)).mem (keyOff key + o))
  two  : ∀ key l, s.line2 (c / 32) key = some l → l.Within (S key)
  one  : ∀ key l, s.line1 c key = some l → l.Within (S key)
  wf   : ∀ b, Memory.wf (s.buf b).mem = true
  o1   : ∀ k, k ≠ c → Tab.find s.l1 k = Tab.find r.l1 k
  o2   : ∀ k, k ≠ c / 32 → Tab.find s.l2 k = Tab.find r.l2 k

section
variable {r : State} {c : Nat} {S : Nat → Nat → Byte → Prop} {s : State}

theorem State.Within.same (h : s.Within r c S) {t : State} (h1 : t.l1 = s.l1) (h2 : t.l2 = s.l2) (h3 : t.bufs = s.bufs) :
    t.Within r c S := by
  have hb : ∀ b, t.buf b = s.buf b := fun b => by simp [State.buf, h3]
  exact ⟨fun k o ho => by rw [hb]; exact h.home k o ho, fun k l hl => h.two k l (by simpa [State.line2, h2] using hl),
    fun k l hl => h.one k l (by simpa [State.line1, h1] using hl), fun b => by rw [hb]; exact h.wf b,
    fun k hk => by rw [h1]; exact h.o1 k hk, fun k hk => by rw [h2]; exact h.o2 k hk⟩

theorem State.within_ite {p : Prop} [Decidable p] {t u : State} (ht : t.Within r c S) (hu : u.Within r c S) :
    (if p then t else u).Within r c S := by
  split
  · exact ht
  · exact hu

theorem State.within_shared (h : s.Within r c S) (v k n : Nat) : (s.shared v k n).Within r c S := by
  unfold State.shared
  simp only []
  split
  · exact h.same rfl rfl rfl
  · exact h

theorem State.within_readFar (h : s.Within r c S) (v n : Nat) : (s.readFar v n).Within r c S :=
  State.within_shared (State.within_shared h v 102 n) v 104 n

theorem State.within_wroteFar (h : s.Within r c S) (v n : Nat) : (s.wroteFar v n).Within r c S :=
  State.within_shared (State.within_shared h v 103 n) v 105 n

/-- A lookup touches counts, histograms and tags only. -/
theorem State.within_lookupBy (h : s.Within r c S) (k line : Nat) : (s.lookupBy k line).Within r c S := by
  unfold State.lookupBy State.lookup
  simp only []
  repeat' split
  all_goals first | exact h | exact h.same rfl rfl rfl

theorem State.within_evictedBy (h : s.Within r c S) (old v : Nat) : (s.evictedBy old v).Within r c S :=
  State.within_shared h _ _ _

theorem State.within_setLine2 (h : s.Within r c S) {key : Nat} {l : CLine} (hl : l.Within (S key)) :
    (s.setLine2 (c / 32) key l).Within r c S := by
  refine ⟨h.home, fun k m hm => ?_, h.one, h.wf, h.o1, fun k hk => ?_⟩
  · by_cases e : k = key
    · subst e
      simp only [State.line2, State.setLine2, Tab.get_upd_same, Tab.find_set_same, Option.some.injEq] at hm
      exact hm ▸ hl
    · simp only [State.line2, State.setLine2, Tab.get_upd_same, Tab.find_set_other _ _ _ _ e] at hm
      exact h.two k m hm
  · simp only [State.setLine2, Tab.upd, Tab.find_set_other _ _ _ _ hk]
    exact h.o2 k hk

theorem State.within_setLine1 (h : s.Within r c S) {key : Nat} {l : CLine} (hl : l.Within (S key)) :
    (s.setLine1 c key l).Within r c S := by
  refine ⟨h.home, h.two, fun k m hm => ?_, h.wf, fun k hk => ?_, h.o2⟩
  · by_cases e : k = key
    · subst e
      simp only [State.line1, State.setLine1, Tab.get_upd_same, Tab.find_set_same, Option.some.injEq] at hm
      exact hm ▸ hl
    · simp only [State.line1, State.setLine1, Tab.get_upd_same, Tab.find_set_other _ _ _ _ e] at hm
      exact h.one k m hm
  · simp only [State.setLine1, Tab.upd, Tab.find_set_other _ _ _ _ hk]
    exact h.o1 k hk

/-- A line erased from a table is found nowhere in it, and every other is. -/
theorem Tab.find_erase (t : Tab α) (k j : Nat) : Tab.find (Tab.erase t k) j = if j = k then none else Tab.find t j := by
  unfold Tab.erase
  induction t with
  | nil => simp
  | cons e t ih =>
    obtain ⟨i, u⟩ := e
    by_cases hi : i = k
    · subst hi
      simp only [List.filter_cons, bne_self_eq_false, Bool.false_eq_true, if_false, ih, Tab.find]
      split <;> simp_all
    · have : (i != k) = true := by simp [hi]
      simp only [List.filter_cons, this, if_true, Tab.find, ih]
      by_cases hj : j = i
      · subst hj; simp [hi]
      · simp [hj]

theorem State.within_erase2 (h : s.Within r c S) (key : Nat) : (s.erase2 (c / 32) key).Within r c S := by
  refine ⟨h.home, fun k m hm => ?_, h.one, h.wf, h.o1, fun k hk => ?_⟩
  · simp only [State.line2, State.erase2, Tab.get_upd_same, Tab.find_erase] at hm
    split at hm
    · simp at hm
    · exact h.two k m hm
  · simp only [State.erase2, Tab.upd, Tab.find_set_other _ _ _ _ hk]
    exact h.o2 k hk

theorem State.within_erase1 (h : s.Within r c S) (key : Nat) : (s.erase1 c key).Within r c S := by
  refine ⟨h.home, h.two, fun k m hm => ?_, h.wf, fun k hk => ?_, h.o2⟩
  · simp only [State.line1, State.erase1, Tab.get_upd_same, Tab.find_erase] at hm
    split at hm
    · simp at hm
    · exact h.one k m hm
  · simp only [State.erase1, Tab.upd, Tab.find_set_other _ _ _ _ hk]
    exact h.o1 k hk

/-- A byte after cells were written is one of them at its place, or the old one. -/
theorem Memory.byte_putCells (cs : List (Nat × Byte)) : ∀ {m : Memory}, Memory.wf m = true → ∀ a,
    Memory.byte (Memory.putCells m cs) a = Memory.byte m a ∨ ∃ x ∈ cs, x.1 = a ∧ Memory.byte (Memory.putCells m cs) a = x.2 := by
  induction cs with
  | nil => intro m _ a; exact .inl rfl
  | cons x xs ih =>
    intro m hm a
    simp only [Memory.putCells]
    rcases ih (Memory.wf_put hm x.1 x.2) a with h | ⟨y, hy, h1, h2⟩
    · by_cases e : a = x.1
      · subst e
        rw [Memory.byte_put_same hm] at h
        exact .inr ⟨x, by simp, rfl, h⟩
      · rw [Memory.byte_put_other _ _ _ _ e] at h
        exact .inl h
    · exact .inr ⟨y, by simp [hy], h1, h2⟩

theorem State.within_setBuf (h : s.Within r c S) {b : Nat} {u : Buffer} (hw : Memory.wf u.mem = true)
    (hu : ∀ key o, keyBuf key = b → o < 256 → S key o (Memory.byte u.mem (keyOff key + o))) : (s.setBuf b u).Within r c S := by
  have hb : ∀ k, (s.setBuf b u).buf k = if k = b then u else s.buf k := by
    intro k
    by_cases e : k = b
    · subst e; simp [State.buf, State.setBuf]
    · simp [State.buf, State.setBuf, Tab.get_set_other _ _ _ _ _ e, e]
  refine ⟨fun key o ho => ?_, h.two, h.one, fun k => ?_, h.o1, h.o2⟩
  · rw [hb]
    split
    · rename_i e; exact hu key o e ho
    · exact h.home key o ho
  · rw [hb]
    split
    · exact hw
    · exact h.wf k

theorem State.within_homeCells (h : s.Within r c S) {key : Nat} {cells : List (Nat × Byte)}
    (hc : ∀ x ∈ cells, x.1 < 256 ∧ S key x.1 x.2) : (s.homeCells key cells).Within r c S := by
  unfold State.homeCells
  simp only []
  split
  · exact h
  · apply State.within_setBuf h
    · exact Memory.wf_putCells _ (h.wf _)
    · intro k o hk ho
      show S k o (Memory.byte (Memory.putCells (s.buf (keyBuf key)).mem _) (keyOff k + o))
      rcases Memory.byte_putCells (cells.map fun x => (keyOff key + x.1, x.2)) (h.wf (keyBuf key)) (keyOff k + o) with e | ⟨x, hx, e1, e2⟩
      · rw [e, ← hk]
        exact h.home k o ho
      · simp only [List.mem_map] at hx
        obtain ⟨y, hy, rfl⟩ := hx
        have hy1 := hc y hy
        simp only at e1
        have hkk : k = key ∧ o = y.1 := by
          unfold keyBuf keyOff at *
          omega
        rw [e2, hkk.1, hkk.2]
        exact hy1.2

theorem State.within_clean2 (h : s.Within r c S) (key : Nat) : (s.clean2 (c / 32) key).Within r c S := by
  unfold State.clean2
  split
  · exact h
  · rename_i l hl
    have hw := h.two key l hl
    split
    · exact h
    · apply State.within_wroteFar
      apply State.within_shared
      apply State.within_homeCells
      · apply State.within_setLine2 h
        intro o ho hh
        apply hw o ho
        have z : BitVec.getLsbD (0 : BitVec 256) o = false := by simp
        simp only [CLine.has, z, Bool.or_false] at hh
        simp [CLine.has, hh]
      · intro x hx
        obtain ⟨a, b, e⟩ := CLine.cells_mem hx
        exact ⟨a, e ▸ hw _ a b⟩

theorem State.within_evict2 (h : s.Within r c S) (key : Nat) : (s.evict2 (c / 32) key).Within r c S :=
  State.within_erase2 (State.within_clean2 h key) key

theorem State.within_choose (h : s.Within r c S) (n : Nat) : (s.choose n).2.Within r c S := h.same rfl rfl rfl

theorem State.within_waysOf (h : s.Within r c S) (v : Nat) : (s.waysOf v).2.Within r c S := by
  unfold State.waysOf
  simp only []
  split
  · exact State.within_choose h 2
  · exact h

theorem State.within_alloc2 (h : s.Within r c S) (key v : Nat) : (s.alloc2 (c / 32) key v).Within r c S := by
  unfold State.alloc2
  split
  · exact h
  · simp only []
    have hm := State.within_waysOf h v
    split
    · exact State.within_setLine2 hm (CLine.within_empty _ _ _ _)
    · have hc := State.within_choose hm (s.waysOf v).1.length
      split
      · exact hm
      · split
        · exact State.within_setLine2 (State.within_evictedBy (State.within_evict2 hc _) _ _) (CLine.within_empty _ _ _ _)
        · exact hc

theorem State.within_write2 (h : s.Within r c S) (v : Nat) {key : Nat} {cells : List (Nat × Byte)}
    (hc : ∀ x ∈ cells, x.1 < 256 ∧ S key x.1 x.2) : (s.write2 (c / 32) v key cells).Within r c S := by
  unfold State.write2
  have ha := State.within_shared (State.within_alloc2 h key v) v (if (s.line2 (c / 32) key).isSome then 96 else 97) 1
  generalize (s.alloc2 (c / 32) key v).shared v (if (s.line2 (c / 32) key).isSome then 96 else 97) 1 = t at ha
  simp only []
  split
  · exact State.within_wroteFar (State.within_homeCells ha hc) _ _
  · rename_i l hl
    exact State.within_setLine2 ha (CLine.within_writes cells hc l (ha.two key l hl))

theorem State.within_fill2 (h : s.Within r c S) (v : Nat) (p : Nat × Nat × Nat) : (s.fill2 (c / 32) v p).Within r c S := by
  unfold State.fill2
  simp only []
  apply State.within_ite
  · exact State.within_shared h _ _ _
  · have h2 := State.within_shared (State.within_alloc2 h p.1 v) v 97 1
    split
    · exact State.within_readFar h2 _ _
    · rename_i l hl
      apply State.within_readFar
      apply State.within_setLine2 h2
      apply CLine.within_fills
      · exact fun o ho => h2.home p.1 o ho
      · intro x hx
        simp only [List.mem_filter, sectorsOf, List.mem_range] at hx
        exact hx.1.1
      · exact h2.two _ l hl

/-- What a chiplet's L2 sees is allowed. -/
theorem State.Within.seen2 (h : s.Within r c S) (b a : Nat) (ha : a < 2 ^ 48) :
    S (b * 2 ^ 40 + a / 256) (a % 256) (s.seen2 (c / 32) b a) := by
  have hk : keyBuf (b * 2 ^ 40 + a / 256) = b ∧ keyOff (b * 2 ^ 40 + a / 256) + a % 256 = a := by
    unfold keyBuf keyOff; omega
  have hh := h.home (b * 2 ^ 40 + a / 256) (a % 256) (by omega)
  rw [hk.1, hk.2] at hh
  unfold State.seen2
  split
  · rename_i l hl
    split
    · rename_i hs; exact h.two _ l hl _ (by omega) hs
    · exact hh
  · exact hh

/-- What a cluster's L1 sees is allowed. -/
theorem State.Within.seen1 (h : s.Within r c S) (b a : Nat) (ha : a < 2 ^ 48) :
    S (b * 2 ^ 40 + a / 256) (a % 256) (s.seen1 c b a) := by
  unfold State.seen1
  split
  · rename_i l hl
    split
    · rename_i hs; exact h.one _ l hl _ (by omega) hs
    · exact h.seen2 b a ha
  · exact h.seen2 b a ha

theorem State.within_clean1 (h : s.Within r c S) (key : Nat) : (s.clean1 c key).Within r c S := by
  unfold State.clean1
  split
  · exact h
  · rename_i l hl
    have hw := h.one key l hl
    split
    · exact h
    · apply State.within_write2
      · apply State.within_lookupBy
        apply State.within_setLine1 h
        intro o ho hh
        apply hw o ho
        have z : BitVec.getLsbD (0 : BitVec 256) o = false := by simp
        simp only [CLine.has, z, Bool.or_false] at hh
        simp [CLine.has, hh]
      · intro x hx
        obtain ⟨a, b, e⟩ := CLine.cells_mem hx
        exact ⟨a, e ▸ hw _ a b⟩

theorem State.within_evict1 (h : s.Within r c S) (key : Nat) : (s.evict1 c key).Within r c S :=
  State.within_erase1 (State.within_clean1 h key) key

theorem State.within_alloc1 (h : s.Within r c S) (key v : Nat) : (s.alloc1 c key v).Within r c S := by
  unfold State.alloc1
  split
  · exact h
  · simp only []
    split
    · exact State.within_setLine1 h (CLine.within_empty _ _ _ _)
    · have hc := State.within_choose h 16
      split
      · exact State.within_setLine1 (State.within_evict1 hc _) (CLine.within_empty _ _ _ _)
      · exact hc

theorem State.within_write1 (h : s.Within r c S) (v : Nat) {key : Nat} {cells : List (Nat × Byte)}
    (hc : ∀ x ∈ cells, x.1 < 256 ∧ S key x.1 x.2) : (s.write1 c v key cells).Within r c S := by
  unfold State.write1
  have ha := State.within_alloc1 h key v
  simp only []
  split
  · exact State.within_write2 (State.within_lookupBy ha c key) v hc
  · rename_i l hl
    exact State.within_setLine1 ha (CLine.within_writes cells hc l (ha.one key l hl))

theorem State.within_fill1 (h : s.Within r c S) (v : Nat) (p : Nat × Nat × Nat) : (s.fill1 c v p).Within r c S := by
  unfold State.fill1
  simp only []
  apply State.within_ite
  · exact h
  · have h2 := State.within_alloc1 (State.within_fill2 h v p) p.1 v
    split
    · exact h2
    · rename_i l hl
      apply State.within_setLine1 h2
      apply CLine.within_fills
      · intro o ho
        have := h2.seen2 (keyBuf p.1) (keyOff p.1 + o) (by unfold keyOff; omega)
        have e : keyBuf p.1 * 2 ^ 40 + (keyOff p.1 + o) / 256 = p.1 ∧ (keyOff p.1 + o) % 256 = o := by
          unfold keyBuf keyOff; omega
        rwa [e.1, e.2] at this
      · intro x hx
        simp only [List.mem_filter, sectorsOf, List.mem_range] at hx
        exact hx.1.1
      · exact h2.one _ l hl

/-- A fold of steps that keep a state within its bytes keeps it. -/
theorem State.within_foldl {α : Type} {f : State → α → State} (hf : ∀ {s : State} (x : α), s.Within r c S → (f s x).Within r c S)
    (xs : List α) : ∀ {s : State}, s.Within r c S → (xs.foldl f s).Within r c S := by
  induction xs with
  | nil => intro s h; exact h
  | cons x xs ih => intro s h; exact ih (hf x h)

theorem State.within_releaseAt (h : s.Within r c S) (scope : Nat) : (s.releaseAt c scope).Within r c S := by
  unfold State.releaseAt State.flush1 State.flush2
  have h1 := State.within_foldl (f := fun s key => State.clean1 s c key) (fun k h => State.within_clean1 h k) (Tab.keys (Tab.get [] s.l1 c)) h
  split
  · exact h
  · split
    · exact h1
    · exact State.within_foldl (f := fun s key => State.clean2 s (c / 32) key) (fun k h => State.within_clean2 h k) _ h1

theorem State.within_acquireAt (h : s.Within r c S) (scope : Nat) (mine : Nat → Bool) : (s.acquireAt c scope mine).Within r c S := by
  unfold State.acquireAt State.drop1 State.drop2
  have h1 := State.within_foldl (f := fun s key => State.evict1 s c key) (fun k h => State.within_evict1 h k)
    ((Tab.keys (Tab.get [] s.l1 c)).filter fun key => mine (keyBuf key)) h
  split
  · exact h
  · split
    · exact h1
    · exact State.within_foldl (f := fun s key => State.evict2 s (c / 32) key) (fun k h => State.within_evict2 h k) _ h1

theorem State.within_toPoint (h : s.Within r c S) (scope b off n : Nat) : (s.toPoint c scope b off n).Within r c S := by
  unfold State.toPoint
  apply State.within_foldl _ _ h
  intro s k h
  simp only []
  split
  · exact State.within_evict1 h k
  · exact State.within_evict2 (State.within_evict1 h k) k

theorem State.within_readL1 (h : s.Within r c S) (v b off n : Nat) : (s.readL1 c v b off n).1.Within r c S := by
  unfold State.readL1
  split
  · exact State.within_readFar h _ _
  · exact State.within_foldl (f := fun s p => State.fill1 s c v p) (fun p h => State.within_fill1 h v p) _ h

theorem State.within_readL2 (h : s.Within r c S) (v b off n : Nat) : (s.readL2 (c / 32) v b off n).1.Within r c S := by
  unfold State.readL2
  split
  · exact State.within_readFar h _ _
  · exact State.within_foldl (f := fun s p => State.fill2 s (c / 32) v p) (fun p h => State.within_fill2 h v p) _ h

end

/-- A state is within its own views of each byte. -/
theorem State.within_self (s : State) (c : Nat) (hw : ∀ b, Memory.wf (s.buf b).mem = true) :
    s.Within s c fun key o x => x ∈ s.views c (keyBuf key) (keyOff key + o) := by
  have e : ∀ key o, o < 256 → keyBuf key * 2 ^ 40 + (keyOff key + o) / 256 = key ∧ (keyOff key + o) % 256 = o := by
    intro key o ho; unfold keyBuf keyOff; omega
  refine ⟨fun key o ho => ?_, fun key l hl o ho hh => ?_, fun key l hl o ho hh => ?_, hw, fun _ _ => rfl, fun _ _ => rfl⟩
  · simp [State.views]
  · have h : s.seen2 (c / 32) (keyBuf key) (keyOff key + o) = l.byte o := by
      rw [State.seen2, (e key o ho).1, (e key o ho).2, hl]
      exact if_pos hh
    simp [State.views, h]
  · have h : s.seen1 c (keyBuf key) (keyOff key + o) = l.byte o := by
      rw [State.seen1, (e key o ho).1, (e key o ho).2, hl]
      exact if_pos hh
    simp [State.views, h]

/-- A state within the views of another, but for the bytes of out, keeps the others' bytes. -/
theorem State.keepsBytes_of_within {s t : State} {c : Nat} {out : Nat → Nat → Prop}
    (h : t.Within s c fun key o x => out (keyBuf key) (keyOff key + o) ∨ x ∈ s.views c (keyBuf key) (keyOff key + o)) :
    s.KeepsBytes t c out := by
  refine ⟨fun b a ha ho x hx => ?_, ⟨h.o1, h.o2⟩⟩
  have hk : keyBuf (b * 2 ^ 40 + a / 256) = b ∧ keyOff (b * 2 ^ 40 + a / 256) + a % 256 = a := by
    unfold keyBuf keyOff; omega
  have h1 := h.seen1 b a ha
  have h2 := h.seen2 b a ha
  have h3 := h.home (b * 2 ^ 40 + a / 256) (a % 256) (by omega)
  simp only [hk.1, hk.2, ho, false_or] at h1 h2 h3
  simp only [State.views, List.mem_cons, List.not_mem_nil, or_false] at hx
  rcases hx with rfl | rfl | rfl <;> assumption

end Sys2Proof.Machine
end

