-- ==== Sys2Proof/Laws/Ops.lean ====
section
/-! SUPPORT. What the shared operations do: the core in focus and its stream, results in flight, moving a stream on,
and taking a trap. -/

namespace Sys2Proof.Machine

set_option Elab.async false

/-! The core and the stream in focus -/

@[simp] theorem State.core_setCore (s : State) (c : Core) : (s.setCore c).core = c := by
  simp [State.core, State.setCore]

@[simp] theorem State.setCore_setCore (s : State) (c d : Core) : (s.setCore c).setCore d = s.setCore d := by
  simp [State.setCore]

theorem State.setStm_eq (s : State) (t : Stream) :
    s.setStm t = s.setCore { s.core with streams := Tab.set s.core.streams s.cur.eng t } := rfl

@[simp] theorem State.core_setStm (s : State) (t : Stream) :
    (s.setStm t).core = { s.core with streams := Tab.set s.core.streams s.cur.eng t } := by
  simp [State.setStm_eq]

@[simp] theorem State.stm_setStm (s : State) (t : Stream) : (s.setStm t).stm = t := by
  simp [State.stm]

theorem State.stm_setCore (s : State) (c : Core) :
    (s.setCore c).stm = Tab.get Stream.absent c.streams s.cur.eng := by
  simp [State.stm]

@[simp] theorem State.setStm_setStm (s : State) (t u : Stream) : (s.setStm t).setStm u = s.setStm u := by
  simp [State.setStm_eq]

@[simp] theorem State.setCore_setStm (s : State) (t : Stream) (c : Core) : (s.setStm t).setCore c = s.setCore c := by
  simp [State.setStm_eq]

theorem State.setStm_setCore (s : State) (c : Core) (t : Stream) :
    (s.setCore c).setStm t = s.setCore { c with streams := Tab.set c.streams s.cur.eng t } := by
  simp [State.setStm_eq]

theorem State.job_setCore (s : State) (c : Core) (h : c.job = s.core.job) : (s.setCore c).job = s.job := by
  simp [State.job, h]

theorem State.att_setCore (s : State) (c : Core) (h : c.job = s.core.job) : (s.setCore c).att = s.att := by
  simp [State.att, State.job_setCore s c h]

theorem State.inst_setCore (s : State) (c : Core) (h : c.job = s.core.job) : (s.setCore c).inst = s.inst := by
  simp [State.inst, State.job_setCore s c h, State.att_setCore s c h]

theorem State.sreg_setCore (s : State) (c : Core) (h : c.s = s.core.s) (r : BitVec 6) :
    (s.setCore c).sreg r = s.sreg r := by
  simp [State.sreg, h]

/-- Another core is as it was. -/
theorem State.cores_setCore_other (s : State) (c : Core) (k : Nat) (h : k ≠ s.cur.id) :
    Tab.find (s.setCore c).cores k = Tab.find s.cores k := by
  simp [State.setCore, Tab.find_set_other _ _ _ _ h]

/-! Results in flight (R185) -/

theorem State.later_eq (s : State) (lat : Nat) (a : PAct) :
    s.later lat a = s.setCore { s.core with pend := s.core.pend ++ [⟨s.core.clk + lat, a⟩] } := rfl

theorem State.wr_zero (s : State) (lat : Nat) (v : Word) : s.wr lat 0 v = s := by simp [State.wr]

theorem State.wr_eq (s : State) (lat : Nat) (d : BitVec 6) (v : Word) (h : d ≠ 0) :
    s.wr lat d v = s.setCore { s.core with pend := s.core.pend ++ [⟨s.core.clk + lat, .sreg d.toNat v⟩] } := by
  unfold State.wr
  rw [if_neg h, State.later_eq]

/-! Moving a stream on (R184, R382) -/

theorem State.goto_eq (s : State) (npc occ : Nat) :
    s.goto npc occ = s.setCore { s.core with
      streams := Tab.set s.core.streams s.cur.eng
        { s.stm with pc := npc, free := s.core.clk + occ, latch := none, ncmd := s.stm.ncmd + 1, stall := 0 } } := rfl

theorem State.nextCtl_eq (s : State) (len : Nat) :
    s.nextCtl len =
      let r := loopTurn s.core.loops (s.stm.pc + len)
      s.setCore { s.core with
        loops := r.1
        streams := Tab.set s.core.streams s.cur.eng
          { s.stm with
            pc := r.2.1, free := s.core.clk + 1, latch := none, ncmd := s.stm.ncmd + 1, stall := 0, turn := r.2.2 } } := by
  simp [State.nextCtl, State.goto_eq, State.setStm_setCore, State.stm]

theorem State.nextWord_eq (s : State) (len occ : Nat) (h : s.stm.replay = none) :
    s.nextWord len occ = s.setCore { s.core with
      streams := Tab.set s.core.streams s.cur.eng
        { s.stm with
          pc := s.stm.pc + len, free := s.core.clk + occ, latch := none, ncmd := s.stm.ncmd + 1, stall := 0 } } := by
  have hp : s.passWord len = s.setStm { s.stm with pc := s.stm.pc + len } := by simp [State.passWord, h]
  simp only [State.nextWord, hp, State.stm_setStm, State.setStm_setStm]
  rfl

/-! Taking a trap (R298 to R301) -/

theorem State.takeTrap_core (s : State) (q : TrapReq) :
    (s.takeTrap q).core =
      { s.core with frozen := true, traps := s.core.traps ++ [s.trapRec q false (s.wordAt q.engine q.pc)] } := by
  simp only [State.takeTrap, State.toTahr, State.core, State.setCore, Actor.id]
  simp

theorem State.takeTrap_tahr (s : State) (q : TrapReq) :
    (s.takeTrap q).tahr =
      Tab.upd [] s.tahr s.cur.cluster
        (tahrInsert ⟨s.cur.id, s.trapRec q false (s.wordAt q.engine q.pc), false⟩) := rfl

/-- An engine of the stream in focus that takes a trap has trapped. -/
theorem State.takeTrap_trapped (s : State) (q : TrapReq) (h : streamOf q.engine = s.cur.eng) :
    (s.takeTrap q).trapped = true := by
  have hc : (s.takeTrap q).cur = s.cur := rfl
  simp [State.trapped, State.takeTrap_core, hc, h, State.trapRec]

/-- What leaves the traps of a core as they were traps nothing. -/
theorem State.trapped_setCore (s : State) (c : Core) (h : c.traps = s.core.traps) :
    (s.setCore c).trapped = s.trapped := by
  simp [State.trapped, h]

end Sys2Proof.Machine
end

