-- ==== Sys2Proof/Laws/Control.lean ====
section
/-! SUPPORT. What a control instruction that only computes does, said once: results on their way, loops and the stream. -/

namespace Sys2Proof.Machine

set_option Elab.async false

theorem sregDue_zero (n : Nat) (v : Word) : sregDue n 0 v = [] := by simp [sregDue]

theorem sregDue_of_ne {d : BitVec 6} (n : Nat) (v : Word) (h : d ≠ 0) : sregDue n d v = [⟨n, .sreg d.toNat v⟩] := by
  unfold sregDue
  rw [if_neg h]

/-- Every entry is a write of a register that is not `s0`. -/
theorem mem_sregDue {n : Nat} {d : BitVec 6} {v : Word} {p : Pend} (h : p ∈ sregDue n d v) :
    p = ⟨n, .sreg d.toNat v⟩ ∧ d.toNat ≠ 0 := by
  by_cases hd : d = 0
  · rw [hd, sregDue_zero] at h
    cases h
  · rw [sregDue_of_ne n v hd, List.mem_singleton] at h
    exact ⟨h, fun h0 => hd (BitVec.eq_of_toNat_eq (by simpa using h0))⟩

theorem mem_pairDue {n : Nat} {d : BitVec 6} {v : DWord} {p : Pend} (h : p ∈ pairDue n d v) :
    ∃ r w, p.act = .sreg r w ∧ r ≠ 0 ∧ (r = d.toNat ∨ r = (d + 1).toNat) := by
  rw [pairDue, List.mem_append] at h
  obtain h | h := h
  · obtain ⟨rfl, h0⟩ := mem_sregDue h
    exact ⟨_, _, rfl, h0, .inl rfl⟩
  · obtain ⟨rfl, h0⟩ := mem_sregDue h
    exact ⟨_, _, rfl, h0, .inr rfl⟩

theorem State.wr_withDue (s : State) (lat : Nat) (d : BitVec 6) (v : Word) :
    s.wr lat d v = if d = 0 then s else s.withDue (sregDue (s.core.clk + lat) d v) := by
  by_cases h : d = 0
  · rw [if_pos h, h, State.wr_zero]
  · rw [if_neg h, State.wr_eq _ _ _ _ h, sregDue_of_ne _ _ h]
    rfl

theorem State.nextCtl_ctlDone (s : State) (len : Nat) : s.nextCtl len = s.ctlDone len [] := by
  simp [State.nextCtl_eq, State.ctlDone]

theorem State.ctlDone_withDue (s : State) (len : Nat) (ps qs : List Pend) :
    (s.withDue ps).ctlDone len qs = s.ctlDone len (ps ++ qs) := by
  simp [State.ctlDone, State.withDue, State.stm]

theorem State.wr_ctlDone (s : State) (len lat : Nat) (d : BitVec 6) (v : Word) (ps : List Pend) :
    (s.wr lat d v).ctlDone len ps = s.ctlDone len (sregDue (s.core.clk + lat) d v ++ ps) := by
  rw [State.wr_withDue]
  split
  · next h => rw [h, sregDue_zero]; rfl
  · rw [State.ctlDone_withDue]

/-- A write of a register, and on. -/
theorem State.wr_nextCtl (s : State) (len lat : Nat) (d : BitVec 6) (v : Word) :
    (s.wr lat d v).nextCtl len = s.ctlDone len (sregDue (s.core.clk + lat) d v) := by
  rw [State.nextCtl_ctlDone, State.wr_ctlDone, List.append_nil]

theorem State.clk_wr (s : State) (lat : Nat) (d : BitVec 6) (v : Word) : (s.wr lat d v).core.clk = s.core.clk := by
  rw [State.wr_withDue]
  split
  · rfl
  · simp [State.withDue]

/-- A write of a register pair, and on. -/
theorem State.wrPair_nextCtl (s : State) (len lat : Nat) (d : BitVec 6) (v : DWord) :
    (s.wrPair lat d v).nextCtl len = s.ctlDone len (pairDue (s.core.clk + lat) d v) := by
  rw [State.wrPair, State.nextCtl_ctlDone, State.wr_ctlDone, State.wr_ctlDone, State.clk_wr, List.append_nil, pairDue]

/-! What such an instruction leaves alone -/

theorem State.ctlDone_core (s : State) (len : Nat) (ps : List Pend) :
    (s.ctlDone len ps).core = { s.core with
      pend := s.core.pend ++ ps
      loops := (loopTurn s.core.loops (s.stm.pc + len)).1
      streams := (s.ctlDone len ps).core.streams } := by
  simp [State.ctlDone]

theorem State.ctlDone_sameMemory (s : State) (len : Nat) (ps : List Pend) : s.SameMemory (s.ctlDone len ps) where
  buffers _ _ := rfl
  caches := ⟨rfl, rfl⟩
  host _ := rfl
  window _ := by simp [State.ctlDone, State.inst_setCore]
  stores _ _ := by simp [State.ctlDone]
  args := by simp [State.ctlDone, State.att_setCore]

theorem State.ctlDone_sameRegs (s : State) (len : Nat) (ps : List Pend) : s.core.SameRegs (s.ctlDone len ps).core := by
  rw [State.ctlDone_core]
  constructor <;> simp [Core.vrow, Core.nestWord]

theorem State.ctlDone_onlyCore (s : State) (len : Nat) (ps : List Pend) : s.OnlyCore (s.ctlDone len ps) where
  others k hk := by simp only [State.ctlDone, State.cores_setCore_other _ _ _ hk]
  rest := by simp [State.ctlDone]

end Sys2Proof.Machine
end

