-- ==== Sys2Proof/Laws/PerInstr.lean ====
section
/-! SUPPORT. The round trip of every constructor: a well-formed instruction of a stream, written by the encoder, is
read back by that stream's decoder. -/

set_option linter.unusedSimpArgs false

namespace Sys2Proof.Laws.Roundtrip

set_option Elab.async false

/-- Decoding the encoding of a well-formed instruction, whatever bytes follow it, gives the instruction and its
length; nothing is claimed of the events, which no stream encodes. -/
def Statement (i : Instr) : Prop :=
  ∀ e, i.family = some e → i.WellFormed = true → ∀ rest, decodeFor e (encode i ++ rest) = .word i.spelled (encode i).length

theorem add (d a b : BitVec 6) : Statement (.add d a b) := by
  intro e he hw rest
  cases he
  obtain ⟨x, hx, f1, f2, f3, f4, f5, f6, f7, f8, f9, f10, f11⟩ := c32R_fields 0x01 d a b 0x00 (by decide) (by decide)
  show decodeFor 0 (encC32R 0x01 d a b 0x00 ++ rest) = .word (.add d a b) (encC32R 0x01 d a b 0x00).length
  rw [hx]
  exact control_32 x rest f1 f2 hw (by simp [c32Instr, aluInstr, f3, f4, f5, f6, f7, f8, f9, f10, f11])

theorem sub (d a b : BitVec 6) : Statement (.sub d a b) := by
  intro e he hw rest
  cases he
  obtain ⟨x, hx, f1, f2, f3, f4, f5, f6, f7, f8, f9, f10, f11⟩ := c32R_fields 0x01 d a b 0x01 (by decide) (by decide)
  show decodeFor 0 (encC32R 0x01 d a b 0x01 ++ rest) = .word (.sub d a b) (encC32R 0x01 d a b 0x01).length
  rw [hx]
  exact control_32 x rest f1 f2 hw (by simp [c32Instr, aluInstr, f3, f4, f5, f6, f7, f8, f9, f10, f11])

theorem and (d a b : BitVec 6) : Statement (.and d a b) := by
  intro e he hw rest
  cases he
  obtain ⟨x, hx, f1, f2, f3, f4, f5, f6, f7, f8, f9, f10, f11⟩ := c32R_fields 0x01 d a b 0x02 (by decide) (by decide)
  show decodeFor 0 (encC32R 0x01 d a b 0x02 ++ rest) = .word (.and d a b) (encC32R 0x01 d a b 0x02).length
  rw [hx]
  exact control_32 x rest f1 f2 hw (by simp [c32Instr, aluInstr, f3, f4, f5, f6, f7, f8, f9, f10, f11])

theorem or (d a b : BitVec 6) : Statement (.or d a b) := by
  intro e he hw rest
  cases he
  obtain ⟨x, hx, f1, f2, f3, f4, f5, f6, f7, f8, f9, f10, f11⟩ := c32R_fields 0x01 d a b 0x03 (by decide) (by decide)
  show decodeFor 0 (encC32R 0x01 d a b 0x03 ++ rest) = .word (.or d a b) (encC32R 0x01 d a b 0x03).length
  rw [hx]
  exact control_32 x rest f1 f2 hw (by simp [c32Instr, aluInstr, f3, f4, f5, f6, f7, f8, f9, f10, f11])

theorem xor (d a b : BitVec 6) : Statement (.xor d a b) := by
  intro e he hw rest
  cases he
  obtain ⟨x, hx, f1, f2, f3, f4, f5, f6, f7, f8, f9, f10, f11⟩ := c32R_fields 0x01 d a b 0x04 (by decide) (by decide)
  show decodeFor 0 (encC32R 0x01 d a b 0x04 ++ rest) = .word (.xor d a b) (encC32R 0x01 d a b 0x04).length
  rw [hx]
  exact control_32 x rest f1 f2 hw (by simp [c32Instr, aluInstr, f3, f4, f5, f6, f7, f8, f9, f10, f11])

theorem andn (d a b : BitVec 6) : Statement (.andn d a b) := by
  intro e he hw rest
  cases he
  obtain ⟨x, hx, f1, f2, f3, f4, f5, f6, f7, f8, f9, f10, f11⟩ := c32R_fields 0x01 d a b 0x05 (by decide) (by decide)
  show decodeFor 0 (encC32R 0x01 d a b 0x05 ++ rest) = .word (.andn d a b) (encC32R 0x01 d a b 0x05).length
  rw [hx]
  exact control_32 x rest f1 f2 hw (by simp [c32Instr, aluInstr, f3, f4, f5, f6, f7, f8, f9, f10, f11])

theorem orn (d a b : BitVec 6) : Statement (.orn d a b) := by
  intro e he hw rest
  cases he
  obtain ⟨x, hx, f1, f2, f3, f4, f5, f6, f7, f8, f9, f10, f11⟩ := c32R_fields 0x01 d a b 0x06 (by decide) (by decide)
  show decodeFor 0 (encC32R 0x01 d a b 0x06 ++ rest) = .word (.orn d a b) (encC32R 0x01 d a b 0x06).length
  rw [hx]
  exact control_32 x rest f1 f2 hw (by simp [c32Instr, aluInstr, f3, f4, f5, f6, f7, f8, f9, f10, f11])

theorem sll (d a b : BitVec 6) : Statement (.sll d a b) := by
  intro e he hw rest
  cases he
  obtain ⟨x, hx, f1, f2, f3, f4, f5, f6, f7, f8, f9, f10, f11⟩ := c32R_fields 0x01 d a b 0x07 (by decide) (by decide)
  show decodeFor 0 (encC32R 0x01 d a b 0x07 ++ rest) = .word (.sll d a b) (encC32R 0x01 d a b 0x07).length
  rw [hx]
  exact control_32 x rest f1 f2 hw (by simp [c32Instr, aluInstr, f3, f4, f5, f6, f7, f8, f9, f10, f11])

theorem srl (d a b : BitVec 6) : Statement (.srl d a b) := by
  intro e he hw rest
  cases he
  obtain ⟨x, hx, f1, f2, f3, f4, f5, f6, f7, f8, f9, f10, f11⟩ := c32R_fields 0x01 d a b 0x08 (by decide) (by decide)
  show decodeFor 0 (encC32R 0x01 d a b 0x08 ++ rest) = .word (.srl d a b) (encC32R 0x01 d a b 0x08).length
  rw [hx]
  exact control_32 x rest f1 f2 hw (by simp [c32Instr, aluInstr, f3, f4, f5, f6, f7, f8, f9, f10, f11])

theorem sra (d a b : BitVec 6) : Statement (.sra d a b) := by
  intro e he hw rest
  cases he
  obtain ⟨x, hx, f1, f2, f3, f4, f5, f6, f7, f8, f9, f10, f11⟩ := c32R_fields 0x01 d a b 0x09 (by decide) (by decide)
  show decodeFor 0 (encC32R 0x01 d a b 0x09 ++ rest) = .word (.sra d a b) (encC32R 0x01 d a b 0x09).length
  rw [hx]
  exact control_32 x rest f1 f2 hw (by simp [c32Instr, aluInstr, f3, f4, f5, f6, f7, f8, f9, f10, f11])

theorem ror (d a b : BitVec 6) : Statement (.ror d a b) := by
  intro e he hw rest
  cases he
  obtain ⟨x, hx, f1, f2, f3, f4, f5, f6, f7, f8, f9, f10, f11⟩ := c32R_fields 0x01 d a b 0x0A (by decide) (by decide)
  show decodeFor 0 (encC32R 0x01 d a b 0x0A ++ rest) = .word (.ror d a b) (encC32R 0x01 d a b 0x0A).length
  rw [hx]
  exact control_32 x rest f1 f2 hw (by simp [c32Instr, aluInstr, f3, f4, f5, f6, f7, f8, f9, f10, f11])

theorem mul (d a b : BitVec 6) : Statement (.mul d a b) := by
  intro e he hw rest
  cases he
  obtain ⟨x, hx, f1, f2, f3, f4, f5, f6, f7, f8, f9, f10, f11⟩ := c32R_fields 0x01 d a b 0x0B (by decide) (by decide)
  show decodeFor 0 (encC32R 0x01 d a b 0x0B ++ rest) = .word (.mul d a b) (encC32R 0x01 d a b 0x0B).length
  rw [hx]
  exact control_32 x rest f1 f2 hw (by simp [c32Instr, aluInstr, f3, f4, f5, f6, f7, f8, f9, f10, f11])

theorem mulh (d a b : BitVec 6) : Statement (.mulh d a b) := by
  intro e he hw rest
  cases he
  obtain ⟨x, hx, f1, f2, f3, f4, f5, f6, f7, f8, f9, f10, f11⟩ := c32R_fields 0x01 d a b 0x0C (by decide) (by decide)
  show decodeFor 0 (encC32R 0x01 d a b 0x0C ++ rest) = .word (.mulh d a b) (encC32R 0x01 d a b 0x0C).length
  rw [hx]
  exact control_32 x rest f1 f2 hw (by simp [c32Instr, aluInstr, f3, f4, f5, f6, f7, f8, f9, f10, f11])

theorem mulhu (d a b : BitVec 6) : Statement (.mulhu d a b) := by
  intro e he hw rest
  cases he
  obtain ⟨x, hx, f1, f2, f3, f4, f5, f6, f7, f8, f9, f10, f11⟩ := c32R_fields 0x01 d a b 0x0D (by decide) (by decide)
  show decodeFor 0 (encC32R 0x01 d a b 0x0D ++ rest) = .word (.mulhu d a b) (encC32R 0x01 d a b 0x0D).length
  rw [hx]
  exact control_32 x rest f1 f2 hw (by simp [c32Instr, aluInstr, f3, f4, f5, f6, f7, f8, f9, f10, f11])

theorem div (d a b : BitVec 6) : Statement (.div d a b) := by
  intro e he hw rest
  cases he
  obtain ⟨x, hx, f1, f2, f3, f4, f5, f6, f7, f8, f9, f10, f11⟩ := c32R_fields 0x01 d a b 0x0E (by decide) (by decide)
  show decodeFor 0 (encC32R 0x01 d a b 0x0E ++ rest) = .word (.div d a b) (encC32R 0x01 d a b 0x0E).length
  rw [hx]
  exact control_32 x rest f1 f2 hw (by simp [c32Instr, aluInstr, f3, f4, f5, f6, f7, f8, f9, f10, f11])

theorem divu (d a b : BitVec 6) : Statement (.divu d a b) := by
  intro e he hw rest
  cases he
  obtain ⟨x, hx, f1, f2, f3, f4, f5, f6, f7, f8, f9, f10, f11⟩ := c32R_fields 0x01 d a b 0x0F (by decide) (by decide)
  show decodeFor 0 (encC32R 0x01 d a b 0x0F ++ rest) = .word (.divu d a b) (encC32R 0x01 d a b 0x0F).length
  rw [hx]
  exact control_32 x rest f1 f2 hw (by simp [c32Instr, aluInstr, f3, f4, f5, f6, f7, f8, f9, f10, f11])

theorem rem (d a b : BitVec 6) : Statement (.rem d a b) := by
  intro e he hw rest
  cases he
  obtain ⟨x, hx, f1, f2, f3, f4, f5, f6, f7, f8, f9, f10, f11⟩ := c32R_fields 0x01 d a b 0x10 (by decide) (by decide)
  show decodeFor 0 (encC32R 0x01 d a b 0x10 ++ rest) = .word (.rem d a b) (encC32R 0x01 d a b 0x10).length
  rw [hx]
  exact control_32 x rest f1 f2 hw (by simp [c32Instr, aluInstr, f3, f4, f5, f6, f7, f8, f9, f10, f11])

theorem remu (d a b : BitVec 6) : Statement (.remu d a b) := by
  intro e he hw rest
  cases he
  obtain ⟨x, hx, f1, f2, f3, f4, f5, f6, f7, f8, f9, f10, f11⟩ := c32R_fields 0x01 d a b 0x11 (by decide) (by decide)
  show decodeFor 0 (encC32R 0x01 d a b 0x11 ++ rest) = .word (.remu d a b) (encC32R 0x01 d a b 0x11).length
  rw [hx]
  exact control_32 x rest f1 f2 hw (by simp [c32Instr, aluInstr, f3, f4, f5, f6, f7, f8, f9, f10, f11])

theorem min (d a b : BitVec 6) : Statement (.min d a b) := by
  intro e he hw rest
  cases he
  obtain ⟨x, hx, f1, f2, f3, f4, f5, f6, f7, f8, f9, f10, f11⟩ := c32R_fields 0x01 d a b 0x12 (by decide) (by decide)
  show decodeFor 0 (encC32R 0x01 d a b 0x12 ++ rest) = .word (.min d a b) (encC32R 0x01 d a b 0x12).length
  rw [hx]
  exact control_32 x rest f1 f2 hw (by simp [c32Instr, aluInstr, f3, f4, f5, f6, f7, f8, f9, f10, f11])

theorem max (d a b : BitVec 6) : Statement (.max d a b) := by
  intro e he hw rest
  cases he
  obtain ⟨x, hx, f1, f2, f3, f4, f5, f6, f7, f8, f9, f10, f11⟩ := c32R_fields 0x01 d a b 0x13 (by decide) (by decide)
  show decodeFor 0 (encC32R 0x01 d a b 0x13 ++ rest) = .word (.max d a b) (encC32R 0x01 d a b 0x13).length
  rw [hx]
  exact control_32 x rest f1 f2 hw (by simp [c32Instr, aluInstr, f3, f4, f5, f6, f7, f8, f9, f10, f11])

theorem minu (d a b : BitVec 6) : Statement (.minu d a b) := by
  intro e he hw rest
  cases he
  obtain ⟨x, hx, f1, f2, f3, f4, f5, f6, f7, f8, f9, f10, f11⟩ := c32R_fields 0x01 d a b 0x14 (by decide) (by decide)
  show decodeFor 0 (encC32R 0x01 d a b 0x14 ++ rest) = .word (.minu d a b) (encC32R 0x01 d a b 0x14).length
  rw [hx]
  exact control_32 x rest f1 f2 hw (by simp [c32Instr, aluInstr, f3, f4, f5, f6, f7, f8, f9, f10, f11])

theorem maxu (d a b : BitVec 6) : Statement (.maxu d a b) := by
  intro e he hw rest
  cases he
  obtain ⟨x, hx, f1, f2, f3, f4, f5, f6, f7, f8, f9, f10, f11⟩ := c32R_fields 0x01 d a b 0x15 (by decide) (by decide)
  show decodeFor 0 (encC32R 0x01 d a b 0x15 ++ rest) = .word (.maxu d a b) (encC32R 0x01 d a b 0x15).length
  rw [hx]
  exact control_32 x rest f1 f2 hw (by simp [c32Instr, aluInstr, f3, f4, f5, f6, f7, f8, f9, f10, f11])

theorem slt (d a b : BitVec 6) : Statement (.slt d a b) := by
  intro e he hw rest
  cases he
  obtain ⟨x, hx, f1, f2, f3, f4, f5, f6, f7, f8, f9, f10, f11⟩ := c32R_fields 0x01 d a b 0x16 (by decide) (by decide)
  show decodeFor 0 (encC32R 0x01 d a b 0x16 ++ rest) = .word (.slt d a b) (encC32R 0x01 d a b 0x16).length
  rw [hx]
  exact control_32 x rest f1 f2 hw (by simp [c32Instr, aluInstr, f3, f4, f5, f6, f7, f8, f9, f10, f11])

theorem sltu (d a b : BitVec 6) : Statement (.sltu d a b) := by
  intro e he hw rest
  cases he
  obtain ⟨x, hx, f1, f2, f3, f4, f5, f6, f7, f8, f9, f10, f11⟩ := c32R_fields 0x01 d a b 0x17 (by decide) (by decide)
  show decodeFor 0 (encC32R 0x01 d a b 0x17 ++ rest) = .word (.sltu d a b) (encC32R 0x01 d a b 0x17).length
  rw [hx]
  exact control_32 x rest f1 f2 hw (by simp [c32Instr, aluInstr, f3, f4, f5, f6, f7, f8, f9, f10, f11])

theorem clz (d a : BitVec 6) : Statement (.clz d a) := by
  intro e he hw rest
  cases he
  obtain ⟨x, hx, f1, f2, f3, f4, f5, f6, f7, f8, f9, f10, f11⟩ := c32R_fields 0x01 d a 0 0x18 (by decide) (by decide)
  show decodeFor 0 (encC32R 0x01 d a 0 0x18 ++ rest) = .word (.clz d a) (encC32R 0x01 d a 0 0x18).length
  rw [hx]
  exact control_32 x rest f1 f2 hw (by simp [c32Instr, aluInstr, f3, f4, f5, f6, f7, f8, f9, f10, f11])

theorem ctz (d a : BitVec 6) : Statement (.ctz d a) := by
  intro e he hw rest
  cases he
  obtain ⟨x, hx, f1, f2, f3, f4, f5, f6, f7, f8, f9, f10, f11⟩ := c32R_fields 0x01 d a 0 0x19 (by decide) (by decide)
  show decodeFor 0 (encC32R 0x01 d a 0 0x19 ++ rest) = .word (.ctz d a) (encC32R 0x01 d a 0 0x19).length
  rw [hx]
  exact control_32 x rest f1 f2 hw (by simp [c32Instr, aluInstr, f3, f4, f5, f6, f7, f8, f9, f10, f11])

theorem popc (d a : BitVec 6) : Statement (.popc d a) := by
  intro e he hw rest
  cases he
  obtain ⟨x, hx, f1, f2, f3, f4, f5, f6, f7, f8, f9, f10, f11⟩ := c32R_fields 0x01 d a 0 0x1A (by decide) (by decide)
  show decodeFor 0 (encC32R 0x01 d a 0 0x1A ++ rest) = .word (.popc d a) (encC32R 0x01 d a 0 0x1A).length
  rw [hx]
  exact control_32 x rest f1 f2 hw (by simp [c32Instr, aluInstr, f3, f4, f5, f6, f7, f8, f9, f10, f11])

theorem brev (d a : BitVec 6) : Statement (.brev d a) := by
  intro e he hw rest
  cases he
  obtain ⟨x, hx, f1, f2, f3, f4, f5, f6, f7, f8, f9, f10, f11⟩ := c32R_fields 0x01 d a 0 0x1B (by decide) (by decide)
  show decodeFor 0 (encC32R 0x01 d a 0 0x1B ++ rest) = .word (.brev d a) (encC32R 0x01 d a 0 0x1B).length
  rw [hx]
  exact control_32 x rest f1 f2 hw (by simp [c32Instr, aluInstr, f3, f4, f5, f6, f7, f8, f9, f10, f11])

theorem addi (d a : BitVec 6) (imm : BitVec 12) : Statement (.addi d a imm) := by
  intro e he hw rest
  cases he
  have l_imm := imm.isLt
  obtain ⟨x, hx, f1, f2, f3, f4, f5, f6, f7⟩ := c32I_fields 0x02 d a imm.toNat (by decide) (by omega)
  show decodeFor 0 (encC32I 0x02 d a imm.toNat ++ rest) = .word (.addi d a imm) (encC32I 0x02 d a imm.toNat).length
  rw [hx]
  refine control_32 x rest f1 f2 hw ?_
  simp only [c32Instr, f3, f4, f5, f6]
  refine cand_eq ?_ ?_
  · congr 1 <;> first | rfl | exact bf_eq (by omega) | exact bit_eq (by omega)
  · simp [fld] <;> omega

theorem andi (d a : BitVec 6) (imm : BitVec 12) : Statement (.andi d a imm) := by
  intro e he hw rest
  cases he
  have l_imm := imm.isLt
  obtain ⟨x, hx, f1, f2, f3, f4, f5, f6, f7⟩ := c32I_fields 0x03 d a imm.toNat (by decide) (by omega)
  show decodeFor 0 (encC32I 0x03 d a imm.toNat ++ rest) = .word (.andi d a imm) (encC32I 0x03 d a imm.toNat).length
  rw [hx]
  refine control_32 x rest f1 f2 hw ?_
  simp only [c32Instr, f3, f4, f5, f6]
  refine cand_eq ?_ ?_
  · congr 1 <;> first | rfl | exact bf_eq (by omega) | exact bit_eq (by omega)
  · simp [fld] <;> omega

theorem ori (d a : BitVec 6) (imm : BitVec 12) : Statement (.ori d a imm) := by
  intro e he hw rest
  cases he
  have l_imm := imm.isLt
  obtain ⟨x, hx, f1, f2, f3, f4, f5, f6, f7⟩ := c32I_fields 0x04 d a imm.toNat (by decide) (by omega)
  show decodeFor 0 (encC32I 0x04 d a imm.toNat ++ rest) = .word (.ori d a imm) (encC32I 0x04 d a imm.toNat).length
  rw [hx]
  refine control_32 x rest f1 f2 hw ?_
  simp only [c32Instr, f3, f4, f5, f6]
  refine cand_eq ?_ ?_
  · congr 1 <;> first | rfl | exact bf_eq (by omega) | exact bit_eq (by omega)
  · simp [fld] <;> omega

theorem xori (d a : BitVec 6) (imm : BitVec 12) : Statement (.xori d a imm) := by
  intro e he hw rest
  cases he
  have l_imm := imm.isLt
  obtain ⟨x, hx, f1, f2, f3, f4, f5, f6, f7⟩ := c32I_fields 0x05 d a imm.toNat (by decide) (by omega)
  show decodeFor 0 (encC32I 0x05 d a imm.toNat ++ rest) = .word (.xori d a imm) (encC32I 0x05 d a imm.toNat).length
  rw [hx]
  refine control_32 x rest f1 f2 hw ?_
  simp only [c32Instr, f3, f4, f5, f6]
  refine cand_eq ?_ ?_
  · congr 1 <;> first | rfl | exact bf_eq (by omega) | exact bit_eq (by omega)
  · simp [fld] <;> omega

theorem slli (d a : BitVec 6) (sh : BitVec 5) : Statement (.slli d a sh) := by
  intro e he hw rest
  cases he
  have l_sh := sh.isLt
  obtain ⟨x, hx, f1, f2, f3, f4, f5, f6, f7⟩ := c32I_fields 0x06 d a sh.toNat (by decide) (by omega)
  show decodeFor 0 (encC32I 0x06 d a sh.toNat ++ rest) = .word (.slli d a sh) (encC32I 0x06 d a sh.toNat).length
  rw [hx]
  refine control_32 x rest f1 f2 hw ?_
  simp only [c32Instr, f3, f4, f5, f6]
  refine cand_eq ?_ ?_
  · congr 1 <;> first | rfl | exact bf_eq (by omega) | exact bit_eq (by omega)
  · simp [fld] <;> omega

theorem srli (d a : BitVec 6) (sh : BitVec 5) : Statement (.srli d a sh) := by
  intro e he hw rest
  cases he
  have l_sh := sh.isLt
  obtain ⟨x, hx, f1, f2, f3, f4, f5, f6, f7⟩ := c32I_fields 0x07 d a sh.toNat (by decide) (by omega)
  show decodeFor 0 (encC32I 0x07 d a sh.toNat ++ rest) = .word (.srli d a sh) (encC32I 0x07 d a sh.toNat).length
  rw [hx]
  refine control_32 x rest f1 f2 hw ?_
  simp only [c32Instr, f3, f4, f5, f6]
  refine cand_eq ?_ ?_
  · congr 1 <;> first | rfl | exact bf_eq (by omega) | exact bit_eq (by omega)
  · simp [fld] <;> omega

theorem srai (d a : BitVec 6) (sh : BitVec 5) : Statement (.srai d a sh) := by
  intro e he hw rest
  cases he
  have l_sh := sh.isLt
  obtain ⟨x, hx, f1, f2, f3, f4, f5, f6, f7⟩ := c32I_fields 0x08 d a sh.toNat (by decide) (by omega)
  show decodeFor 0 (encC32I 0x08 d a sh.toNat ++ rest) = .word (.srai d a sh) (encC32I 0x08 d a sh.toNat).length
  rw [hx]
  refine control_32 x rest f1 f2 hw ?_
  simp only [c32Instr, f3, f4, f5, f6]
  refine cand_eq ?_ ?_
  · congr 1 <;> first | rfl | exact bf_eq (by omega) | exact bit_eq (by omega)
  · simp [fld] <;> omega

theorem slti (d a : BitVec 6) (imm : BitVec 12) : Statement (.slti d a imm) := by
  intro e he hw rest
  cases he
  have l_imm := imm.isLt
  obtain ⟨x, hx, f1, f2, f3, f4, f5, f6, f7⟩ := c32I_fields 0x09 d a imm.toNat (by decide) (by omega)
  show decodeFor 0 (encC32I 0x09 d a imm.toNat ++ rest) = .word (.slti d a imm) (encC32I 0x09 d a imm.toNat).length
  rw [hx]
  refine control_32 x rest f1 f2 hw ?_
  simp only [c32Instr, f3, f4, f5, f6]
  refine cand_eq ?_ ?_
  · congr 1 <;> first | rfl | exact bf_eq (by omega) | exact bit_eq (by omega)
  · simp [fld] <;> omega

theorem sltiu (d a : BitVec 6) (imm : BitVec 12) : Statement (.sltiu d a imm) := by
  intro e he hw rest
  cases he
  have l_imm := imm.isLt
  obtain ⟨x, hx, f1, f2, f3, f4, f5, f6, f7⟩ := c32I_fields 0x0A d a imm.toNat (by decide) (by omega)
  show decodeFor 0 (encC32I 0x0A d a imm.toNat ++ rest) = .word (.sltiu d a imm) (encC32I 0x0A d a imm.toNat).length
  rw [hx]
  refine control_32 x rest f1 f2 hw ?_
  simp only [c32Instr, f3, f4, f5, f6]
  refine cand_eq ?_ ?_
  · congr 1 <;> first | rfl | exact bf_eq (by omega) | exact bit_eq (by omega)
  · simp [fld] <;> omega

theorem mini (d a : BitVec 6) (imm : BitVec 12) : Statement (.mini d a imm) := by
  intro e he hw rest
  cases he
  have l_imm := imm.isLt
  obtain ⟨x, hx, f1, f2, f3, f4, f5, f6, f7⟩ := c32I_fields 0x0B d a imm.toNat (by decide) (by omega)
  show decodeFor 0 (encC32I 0x0B d a imm.toNat ++ rest) = .word (.mini d a imm) (encC32I 0x0B d a imm.toNat).length
  rw [hx]
  refine control_32 x rest f1 f2 hw ?_
  simp only [c32Instr, f3, f4, f5, f6]
  refine cand_eq ?_ ?_
  · congr 1 <;> first | rfl | exact bf_eq (by omega) | exact bit_eq (by omega)
  · simp [fld] <;> omega

theorem maxi (d a : BitVec 6) (imm : BitVec 12) : Statement (.maxi d a imm) := by
  intro e he hw rest
  cases he
  have l_imm := imm.isLt
  obtain ⟨x, hx, f1, f2, f3, f4, f5, f6, f7⟩ := c32I_fields 0x0C d a imm.toNat (by decide) (by omega)
  show decodeFor 0 (encC32I 0x0C d a imm.toNat ++ rest) = .word (.maxi d a imm) (encC32I 0x0C d a imm.toNat).length
  rw [hx]
  refine control_32 x rest f1 f2 hw ?_
  simp only [c32Instr, f3, f4, f5, f6]
  refine cand_eq ?_ ?_
  · congr 1 <;> first | rfl | exact bf_eq (by omega) | exact bit_eq (by omega)
  · simp [fld] <;> omega

theorem padd (d a b : BitVec 6) : Statement (.padd d a b) := by
  intro e he hw rest
  cases he
  obtain ⟨x, hx, f1, f2, f3, f4, f5, f6, f7, f8, f9, f10, f11⟩ := c32R_fields 0x0D d a b 0 (by decide) (by decide)
  show decodeFor 0 (encC32R 0x0D d a b 0 ++ rest) = .word (.padd d a b) (encC32R 0x0D d a b 0).length
  rw [hx]
  exact control_32 x rest f1 f2 hw (by simp [c32Instr, aluInstr, f3, f4, f5, f6, f7, f8, f9, f10, f11])

theorem psub (d a b : BitVec 6) : Statement (.psub d a b) := by
  intro e he hw rest
  cases he
  obtain ⟨x, hx, f1, f2, f3, f4, f5, f6, f7, f8, f9, f10, f11⟩ := c32R_fields 0x0D d a b 1 (by decide) (by decide)
  show decodeFor 0 (encC32R 0x0D d a b 1 ++ rest) = .word (.psub d a b) (encC32R 0x0D d a b 1).length
  rw [hx]
  exact control_32 x rest f1 f2 hw (by simp [c32Instr, aluInstr, f3, f4, f5, f6, f7, f8, f9, f10, f11])

theorem paddw (d a b : BitVec 6) : Statement (.paddw d a b) := by
  intro e he hw rest
  cases he
  obtain ⟨x, hx, f1, f2, f3, f4, f5, f6, f7, f8, f9, f10, f11⟩ := c32R_fields 0x0D d a b 2 (by decide) (by decide)
  show decodeFor 0 (encC32R 0x0D d a b 2 ++ rest) = .word (.paddw d a b) (encC32R 0x0D d a b 2).length
  rw [hx]
  exact control_32 x rest f1 f2 hw (by simp [c32Instr, aluInstr, f3, f4, f5, f6, f7, f8, f9, f10, f11])

theorem pmov (d a : BitVec 6) : Statement (.pmov d a) := by
  intro e he hw rest
  cases he
  obtain ⟨x, hx, f1, f2, f3, f4, f5, f6, f7, f8, f9, f10, f11⟩ := c32R_fields 0x0D d a 0 3 (by decide) (by decide)
  show decodeFor 0 (encC32R 0x0D d a 0 3 ++ rest) = .word (.pmov d a) (encC32R 0x0D d a 0 3).length
  rw [hx]
  exact control_32 x rest f1 f2 hw (by simp [c32Instr, aluInstr, f3, f4, f5, f6, f7, f8, f9, f10, f11])

theorem paddi (d a : BitVec 6) (imm : BitVec 12) : Statement (.paddi d a imm) := by
  intro e he hw rest
  cases he
  have l_imm := imm.isLt
  obtain ⟨x, hx, f1, f2, f3, f4, f5, f6, f7⟩ := c32I_fields 0x0E d a imm.toNat (by decide) (by omega)
  show decodeFor 0 (encC32I 0x0E d a imm.toNat ++ rest) = .word (.paddi d a imm) (encC32I 0x0E d a imm.toNat).length
  rw [hx]
  refine control_32 x rest f1 f2 hw ?_
  simp only [c32Instr, f3, f4, f5, f6]
  refine cand_eq ?_ ?_
  · congr 1 <;> first | rfl | exact bf_eq (by omega) | exact bit_eq (by omega)
  · simp [fld] <;> omega

theorem li (d : BitVec 6) (imm : BitVec 32) : Statement (.li d imm) := by
  intro e he hw rest
  cases he
  have l_d := d.isLt
  have l_imm := imm.isLt
  obtain ⟨x, hx⟩ : ∃ x, x = 2 + 0x01 * 2 ^ 2 + d.toNat * 2 ^ 8 + imm.toNat * 2 ^ 64 := ⟨_, rfl⟩
  show decodeFor 0 (leBytes 12 (2 + 0x01 * 2 ^ 2 + d.toNat * 2 ^ 8 + imm.toNat * 2 ^ 64) ++ rest) = .word (.li d imm) (leBytes 12 _).length
  rw [← hx]
  refine control_96 x rest (by omega) (by omega) hw ?_
  have f3 : fld x 2 6 = 1 := by simp only [fld]; omega
  simp only [c96Instr, f3]
  refine cand_eq ?_ ?_
  · congr 1 <;> first | rfl | exact bf_eq (by omega) | exact bit_eq (by omega)
  · simp [fld] <;> omega

theorem ldB (m : MemArg) : Statement (.ldB m) := by
  intro e he hw rest
  cases he
  obtain ⟨x, hx, f1, f2, f3, f4, f5, f6, f7, f8⟩ := c64_fields 0x01 0 m (by decide) (by decide)
  show decodeFor 0 (encC64 0x01 0 m ++ rest) = .word (.ldB m) (encC64 0x01 0 m).length
  rw [hx]
  exact control_64 x rest f1 f2 hw (by simp [c64Instr, amoInstr, bit, f3, f4, f5, f6, f7, f8])

theorem ldBu (m : MemArg) : Statement (.ldBu m) := by
  intro e he hw rest
  cases he
  obtain ⟨x, hx, f1, f2, f3, f4, f5, f6, f7, f8⟩ := c64_fields 0x01 1 m (by decide) (by decide)
  show decodeFor 0 (encC64 0x01 1 m ++ rest) = .word (.ldBu m) (encC64 0x01 1 m).length
  rw [hx]
  exact control_64 x rest f1 f2 hw (by simp [c64Instr, amoInstr, bit, f3, f4, f5, f6, f7, f8])

theorem ldH (m : MemArg) : Statement (.ldH m) := by
  intro e he hw rest
  cases he
  obtain ⟨x, hx, f1, f2, f3, f4, f5, f6, f7, f8⟩ := c64_fields 0x01 2 m (by decide) (by decide)
  show decodeFor 0 (encC64 0x01 2 m ++ rest) = .word (.ldH m) (encC64 0x01 2 m).length
  rw [hx]
  exact control_64 x rest f1 f2 hw (by simp [c64Instr, amoInstr, bit, f3, f4, f5, f6, f7, f8])

theorem ldHu (m : MemArg) : Statement (.ldHu m) := by
  intro e he hw rest
  cases he
  obtain ⟨x, hx, f1, f2, f3, f4, f5, f6, f7, f8⟩ := c64_fields 0x01 3 m (by decide) (by decide)
  show decodeFor 0 (encC64 0x01 3 m ++ rest) = .word (.ldHu m) (encC64 0x01 3 m).length
  rw [hx]
  exact control_64 x rest f1 f2 hw (by simp [c64Instr, amoInstr, bit, f3, f4, f5, f6, f7, f8])

theorem ldW (m : MemArg) : Statement (.ldW m) := by
  intro e he hw rest
  cases he
  obtain ⟨x, hx, f1, f2, f3, f4, f5, f6, f7, f8⟩ := c64_fields 0x01 4 m (by decide) (by decide)
  show decodeFor 0 (encC64 0x01 4 m ++ rest) = .word (.ldW m) (encC64 0x01 4 m).length
  rw [hx]
  exact control_64 x rest f1 f2 hw (by simp [c64Instr, amoInstr, bit, f3, f4, f5, f6, f7, f8])

theorem ldD (m : MemArg) : Statement (.ldD m) := by
  intro e he hw rest
  cases he
  obtain ⟨x, hx, f1, f2, f3, f4, f5, f6, f7, f8⟩ := c64_fields 0x01 5 m (by decide) (by decide)
  show decodeFor 0 (encC64 0x01 5 m ++ rest) = .word (.ldD m) (encC64 0x01 5 m).length
  rw [hx]
  exact control_64 x rest f1 f2 hw (by simp [c64Instr, amoInstr, bit, f3, f4, f5, f6, f7, f8])

theorem stB (m : MemArg) : Statement (.stB m) := by
  intro e he hw rest
  cases he
  obtain ⟨x, hx, f1, f2, f3, f4, f5, f6, f7, f8⟩ := c64_fields 0x02 0 m (by decide) (by decide)
  show decodeFor 0 (encC64 0x02 0 m ++ rest) = .word (.stB m) (encC64 0x02 0 m).length
  rw [hx]
  exact control_64 x rest f1 f2 hw (by simp [c64Instr, amoInstr, bit, f3, f4, f5, f6, f7, f8])

theorem stH (m : MemArg) : Statement (.stH m) := by
  intro e he hw rest
  cases he
  obtain ⟨x, hx, f1, f2, f3, f4, f5, f6, f7, f8⟩ := c64_fields 0x02 1 m (by decide) (by decide)
  show decodeFor 0 (encC64 0x02 1 m ++ rest) = .word (.stH m) (encC64 0x02 1 m).length
  rw [hx]
  exact control_64 x rest f1 f2 hw (by simp [c64Instr, amoInstr, bit, f3, f4, f5, f6, f7, f8])

theorem stW (m : MemArg) : Statement (.stW m) := by
  intro e he hw rest
  cases he
  obtain ⟨x, hx, f1, f2, f3, f4, f5, f6, f7, f8⟩ := c64_fields 0x02 2 m (by decide) (by decide)
  show decodeFor 0 (encC64 0x02 2 m ++ rest) = .word (.stW m) (encC64 0x02 2 m).length
  rw [hx]
  exact control_64 x rest f1 f2 hw (by simp [c64Instr, amoInstr, bit, f3, f4, f5, f6, f7, f8])

theorem stD (m : MemArg) : Statement (.stD m) := by
  intro e he hw rest
  cases he
  obtain ⟨x, hx, f1, f2, f3, f4, f5, f6, f7, f8⟩ := c64_fields 0x02 3 m (by decide) (by decide)
  show decodeFor 0 (encC64 0x02 3 m ++ rest) = .word (.stD m) (encC64 0x02 3 m).length
  rw [hx]
  exact control_64 x rest f1 f2 hw (by simp [c64Instr, amoInstr, bit, f3, f4, f5, f6, f7, f8])

theorem amoadd (wide : Bool) (m : MemArg) : Statement (.amoadd wide m) := by
  intro e he hw rest
  cases he
  have l_wide := bool_le wide
  obtain ⟨x, hx, f1, f2, f3, f4, f5, f6, f7, f8⟩ := c64_fields 0x03 (0 + 16 * wide.toNat) m (by decide) (by omega)
  have g6 : x / 16777216 % 2 = (0 + 16 * wide.toNat) / 16 % 2 := f6
  show decodeFor 0 (encC64 0x03 (0 + 16 * wide.toNat) m ++ rest) = .word (.amoadd wide m) (encC64 0x03 (0 + 16 * wide.toNat) m).length
  rw [hx]
  exact control_64 x rest f1 f2 hw (by cases wide <;> simp [c64Instr, amoInstr, bit, g6, f3, f4, f5, f6, f7, f8])

theorem amoand (wide : Bool) (m : MemArg) : Statement (.amoand wide m) := by
  intro e he hw rest
  cases he
  have l_wide := bool_le wide
  obtain ⟨x, hx, f1, f2, f3, f4, f5, f6, f7, f8⟩ := c64_fields 0x03 (1 + 16 * wide.toNat) m (by decide) (by omega)
  have g6 : x / 16777216 % 2 = (1 + 16 * wide.toNat) / 16 % 2 := f6
  show decodeFor 0 (encC64 0x03 (1 + 16 * wide.toNat) m ++ rest) = .word (.amoand wide m) (encC64 0x03 (1 + 16 * wide.toNat) m).length
  rw [hx]
  exact control_64 x rest f1 f2 hw (by cases wide <;> simp [c64Instr, amoInstr, bit, g6, f3, f4, f5, f6, f7, f8])

theorem amoor (wide : Bool) (m : MemArg) : Statement (.amoor wide m) := by
  intro e he hw rest
  cases he
  have l_wide := bool_le wide
  obtain ⟨x, hx, f1, f2, f3, f4, f5, f6, f7, f8⟩ := c64_fields 0x03 (2 + 16 * wide.toNat) m (by decide) (by omega)
  have g6 : x / 16777216 % 2 = (2 + 16 * wide.toNat) / 16 % 2 := f6
  show decodeFor 0 (encC64 0x03 (2 + 16 * wide.toNat) m ++ rest) = .word (.amoor wide m) (encC64 0x03 (2 + 16 * wide.toNat) m).length
  rw [hx]
  exact control_64 x rest f1 f2 hw (by cases wide <;> simp [c64Instr, amoInstr, bit, g6, f3, f4, f5, f6, f7, f8])

theorem amoxor (wide : Bool) (m : MemArg) : Statement (.amoxor wide m) := by
  intro e he hw rest
  cases he
  have l_wide := bool_le wide
  obtain ⟨x, hx, f1, f2, f3, f4, f5, f6, f7, f8⟩ := c64_fields 0x03 (3 + 16 * wide.toNat) m (by decide) (by omega)
  have g6 : x / 16777216 % 2 = (3 + 16 * wide.toNat) / 16 % 2 := f6
  show decodeFor 0 (encC64 0x03 (3 + 16 * wide.toNat) m ++ rest) = .word (.amoxor wide m) (encC64 0x03 (3 + 16 * wide.toNat) m).length
  rw [hx]
  exact control_64 x rest f1 f2 hw (by cases wide <;> simp [c64Instr, amoInstr, bit, g6, f3, f4, f5, f6, f7, f8])

theorem amomin (wide : Bool) (m : MemArg) : Statement (.amomin wide m) := by
  intro e he hw rest
  cases he
  have l_wide := bool_le wide
  obtain ⟨x, hx, f1, f2, f3, f4, f5, f6, f7, f8⟩ := c64_fields 0x03 (4 + 16 * wide.toNat) m (by decide) (by omega)
  have g6 : x / 16777216 % 2 = (4 + 16 * wide.toNat) / 16 % 2 := f6
  show decodeFor 0 (encC64 0x03 (4 + 16 * wide.toNat) m ++ rest) = .word (.amomin wide m) (encC64 0x03 (4 + 16 * wide.toNat) m).length
  rw [hx]
  exact control_64 x rest f1 f2 hw (by cases wide <;> simp [c64Instr, amoInstr, bit, g6, f3, f4, f5, f6, f7, f8])

theorem amomax (wide : Bool) (m : MemArg) : Statement (.amomax wide m) := by
  intro e he hw rest
  cases he
  have l_wide := bool_le wide
  obtain ⟨x, hx, f1, f2, f3, f4, f5, f6, f7, f8⟩ := c64_fields 0x03 (5 + 16 * wide.toNat) m (by decide) (by omega)
  have g6 : x / 16777216 % 2 = (5 + 16 * wide.toNat) / 16 % 2 := f6
  show decodeFor 0 (encC64 0x03 (5 + 16 * wide.toNat) m ++ rest) = .word (.amomax wide m) (encC64 0x03 (5 + 16 * wide.toNat) m).length
  rw [hx]
  exact control_64 x rest f1 f2 hw (by cases wide <;> simp [c64Instr, amoInstr, bit, g6, f3, f4, f5, f6, f7, f8])

theorem amominu (wide : Bool) (m : MemArg) : Statement (.amominu wide m) := by
  intro e he hw rest
  cases he
  have l_wide := bool_le wide
  obtain ⟨x, hx, f1, f2, f3, f4, f5, f6, f7, f8⟩ := c64_fields 0x03 (6 + 16 * wide.toNat) m (by decide) (by omega)
  have g6 : x / 16777216 % 2 = (6 + 16 * wide.toNat) / 16 % 2 := f6
  show decodeFor 0 (encC64 0x03 (6 + 16 * wide.toNat) m ++ rest) = .word (.amominu wide m) (encC64 0x03 (6 + 16 * wide.toNat) m).length
  rw [hx]
  exact control_64 x rest f1 f2 hw (by cases wide <;> simp [c64Instr, amoInstr, bit, g6, f3, f4, f5, f6, f7, f8])

theorem amomaxu (wide : Bool) (m : MemArg) : Statement (.amomaxu wide m) := by
  intro e he hw rest
  cases he
  have l_wide := bool_le wide
  obtain ⟨x, hx, f1, f2, f3, f4, f5, f6, f7, f8⟩ := c64_fields 0x03 (7 + 16 * wide.toNat) m (by decide) (by omega)
  have g6 : x / 16777216 % 2 = (7 + 16 * wide.toNat) / 16 % 2 := f6
  show decodeFor 0 (encC64 0x03 (7 + 16 * wide.toNat) m ++ rest) = .word (.amomaxu wide m) (encC64 0x03 (7 + 16 * wide.toNat) m).length
  rw [hx]
  exact control_64 x rest f1 f2 hw (by cases wide <;> simp [c64Instr, amoInstr, bit, g6, f3, f4, f5, f6, f7, f8])

theorem amoswp (wide : Bool) (m : MemArg) : Statement (.amoswp wide m) := by
  intro e he hw rest
  cases he
  have l_wide := bool_le wide
  obtain ⟨x, hx, f1, f2, f3, f4, f5, f6, f7, f8⟩ := c64_fields 0x03 (8 + 16 * wide.toNat) m (by decide) (by omega)
  have g6 : x / 16777216 % 2 = (8 + 16 * wide.toNat) / 16 % 2 := f6
  show decodeFor 0 (encC64 0x03 (8 + 16 * wide.toNat) m ++ rest) = .word (.amoswp wide m) (encC64 0x03 (8 + 16 * wide.toNat) m).length
  rw [hx]
  exact control_64 x rest f1 f2 hw (by cases wide <;> simp [c64Instr, amoInstr, bit, g6, f3, f4, f5, f6, f7, f8])

theorem cas (m : MemArg) : Statement (.cas m) := by
  intro e he hw rest
  cases he
  obtain ⟨x, hx, f1, f2, f3, f4, f5, f6, f7, f8⟩ := c64_fields 0x04 0 m (by decide) (by decide)
  show decodeFor 0 (encC64 0x04 0 m ++ rest) = .word (.cas m) (encC64 0x04 0 m).length
  rw [hx]
  exact control_64 x rest f1 f2 hw (by simp [c64Instr, amoInstr, bit, f3, f4, f5, f6, f7, f8])

theorem casp (m : MemArg) : Statement (.casp m) := by
  intro e he hw rest
  cases he
  obtain ⟨x, hx, f1, f2, f3, f4, f5, f6, f7, f8⟩ := c64_fields 0x04 1 m (by decide) (by decide)
  show decodeFor 0 (encC64 0x04 1 m ++ rest) = .word (.casp m) (encC64 0x04 1 m).length
  rw [hx]
  exact control_64 x rest f1 f2 hw (by simp [c64Instr, amoInstr, bit, f3, f4, f5, f6, f7, f8])

theorem acq (m : MemArg) : Statement (.acq m) := by
  intro e he hw rest
  cases he
  obtain ⟨x, hx, f1, f2, f3, f4, f5, f6, f7, f8⟩ := c64_fields 0x05 0 m (by decide) (by decide)
  show decodeFor 0 (encC64 0x05 0 m ++ rest) = .word (.acq m) (encC64 0x05 0 m).length
  rw [hx]
  exact control_64 x rest f1 f2 hw (by simp [c64Instr, amoInstr, bit, f3, f4, f5, f6, f7, f8])

theorem rel (m : MemArg) : Statement (.rel m) := by
  intro e he hw rest
  cases he
  obtain ⟨x, hx, f1, f2, f3, f4, f5, f6, f7, f8⟩ := c64_fields 0x06 0 m (by decide) (by decide)
  show decodeFor 0 (encC64 0x06 0 m ++ rest) = .word (.rel m) (encC64 0x06 0 m).length
  rw [hx]
  exact control_64 x rest f1 f2 hw (by simp [c64Instr, amoInstr, bit, f3, f4, f5, f6, f7, f8])

theorem fence (m : MemArg) : Statement (.fence m) := by
  intro e he hw rest
  cases he
  obtain ⟨x, hx, f1, f2, f3, f4, f5, f6, f7, f8⟩ := c64_fields 0x07 0 m (by decide) (by decide)
  show decodeFor 0 (encC64 0x07 0 m ++ rest) = .word (.fence m) (encC64 0x07 0 m).length
  rw [hx]
  exact control_64 x rest f1 f2 hw (by simp [c64Instr, amoInstr, bit, f3, f4, f5, f6, f7, f8])

theorem beq (a b : BitVec 6) (off : BitVec 12) : Statement (.beq a b off) := by
  intro e he hw rest
  cases he
  have l_off := off.isLt
  obtain ⟨x, hx, f1, f2, f3, f4, f5, f6, f7⟩ := c32I_fields 0x10 a b off.toNat (by decide) (by omega)
  show decodeFor 0 (encC32I 0x10 a b off.toNat ++ rest) = .word (.beq a b off) (encC32I 0x10 a b off.toNat).length
  rw [hx]
  refine control_32 x rest f1 f2 hw ?_
  simp only [c32Instr, f3, f4, f5, f6]
  refine cand_eq ?_ ?_
  · congr 1 <;> first | rfl | exact bf_eq (by omega) | exact bit_eq (by omega)
  · simp [fld] <;> omega

theorem bne (a b : BitVec 6) (off : BitVec 12) : Statement (.bne a b off) := by
  intro e he hw rest
  cases he
  have l_off := off.isLt
  obtain ⟨x, hx, f1, f2, f3, f4, f5, f6, f7⟩ := c32I_fields 0x11 a b off.toNat (by decide) (by omega)
  show decodeFor 0 (encC32I 0x11 a b off.toNat ++ rest) = .word (.bne a b off) (encC32I 0x11 a b off.toNat).length
  rw [hx]
  refine control_32 x rest f1 f2 hw ?_
  simp only [c32Instr, f3, f4, f5, f6]
  refine cand_eq ?_ ?_
  · congr 1 <;> first | rfl | exact bf_eq (by omega) | exact bit_eq (by omega)
  · simp [fld] <;> omega

theorem blt (a b : BitVec 6) (off : BitVec 12) : Statement (.blt a b off) := by
  intro e he hw rest
  cases he
  have l_off := off.isLt
  obtain ⟨x, hx, f1, f2, f3, f4, f5, f6, f7⟩ := c32I_fields 0x12 a b off.toNat (by decide) (by omega)
  show decodeFor 0 (encC32I 0x12 a b off.toNat ++ rest) = .word (.blt a b off) (encC32I 0x12 a b off.toNat).length
  rw [hx]
  refine control_32 x rest f1 f2 hw ?_
  simp only [c32Instr, f3, f4, f5, f6]
  refine cand_eq ?_ ?_
  · congr 1 <;> first | rfl | exact bf_eq (by omega) | exact bit_eq (by omega)
  · simp [fld] <;> omega

theorem bge (a b : BitVec 6) (off : BitVec 12) : Statement (.bge a b off) := by
  intro e he hw rest
  cases he
  have l_off := off.isLt
  obtain ⟨x, hx, f1, f2, f3, f4, f5, f6, f7⟩ := c32I_fields 0x13 a b off.toNat (by decide) (by omega)
  show decodeFor 0 (encC32I 0x13 a b off.toNat ++ rest) = .word (.bge a b off) (encC32I 0x13 a b off.toNat).length
  rw [hx]
  refine control_32 x rest f1 f2 hw ?_
  simp only [c32Instr, f3, f4, f5, f6]
  refine cand_eq ?_ ?_
  · congr 1 <;> first | rfl | exact bf_eq (by omega) | exact bit_eq (by omega)
  · simp [fld] <;> omega

theorem bltu (a b : BitVec 6) (off : BitVec 12) : Statement (.bltu a b off) := by
  intro e he hw rest
  cases he
  have l_off := off.isLt
  obtain ⟨x, hx, f1, f2, f3, f4, f5, f6, f7⟩ := c32I_fields 0x14 a b off.toNat (by decide) (by omega)
  show decodeFor 0 (encC32I 0x14 a b off.toNat ++ rest) = .word (.bltu a b off) (encC32I 0x14 a b off.toNat).length
  rw [hx]
  refine control_32 x rest f1 f2 hw ?_
  simp only [c32Instr, f3, f4, f5, f6]
  refine cand_eq ?_ ?_
  · congr 1 <;> first | rfl | exact bf_eq (by omega) | exact bit_eq (by omega)
  · simp [fld] <;> omega

theorem bgeu (a b : BitVec 6) (off : BitVec 12) : Statement (.bgeu a b off) := by
  intro e he hw rest
  cases he
  have l_off := off.isLt
  obtain ⟨x, hx, f1, f2, f3, f4, f5, f6, f7⟩ := c32I_fields 0x15 a b off.toNat (by decide) (by omega)
  show decodeFor 0 (encC32I 0x15 a b off.toNat ++ rest) = .word (.bgeu a b off) (encC32I 0x15 a b off.toNat).length
  rw [hx]
  refine control_32 x rest f1 f2 hw ?_
  simp only [c32Instr, f3, f4, f5, f6]
  refine cand_eq ?_ ?_
  · congr 1 <;> first | rfl | exact bf_eq (by omega) | exact bit_eq (by omega)
  · simp [fld] <;> omega

theorem jmp (off : BitVec 12) : Statement (.jmp off) := by
  intro e he hw rest
  cases he
  have l_off := off.isLt
  obtain ⟨x, hx, f1, f2, f3, f4, f5, f6, f7⟩ := c32I_fields 0x16 0 0 off.toNat (by decide) (by omega)
  show decodeFor 0 (encC32I 0x16 0 0 off.toNat ++ rest) = .word (.jmp off) (encC32I 0x16 0 0 off.toNat).length
  rw [hx]
  refine control_32 x rest f1 f2 hw ?_
  simp only [c32Instr, f3, f4, f5, f6]
  refine cand_eq ?_ ?_
  · congr 1 <;> first | rfl | exact bf_eq (by omega) | exact bit_eq (by omega)
  · simp [fld] <;> omega

theorem jal (a : BitVec 6) (off : BitVec 12) : Statement (.jal a off) := by
  intro e he hw rest
  cases he
  have l_off := off.isLt
  obtain ⟨x, hx, f1, f2, f3, f4, f5, f6, f7⟩ := c32I_fields 0x17 a 0 off.toNat (by decide) (by omega)
  show decodeFor 0 (encC32I 0x17 a 0 off.toNat ++ rest) = .word (.jal a off) (encC32I 0x17 a 0 off.toNat).length
  rw [hx]
  refine control_32 x rest f1 f2 hw ?_
  simp only [c32Instr, f3, f4, f5, f6]
  refine cand_eq ?_ ?_
  · congr 1 <;> first | rfl | exact bf_eq (by omega) | exact bit_eq (by omega)
  · simp [fld] <;> omega

theorem jr (a : BitVec 6) : Statement (.jr a) := by
  intro e he hw rest
  cases he
  obtain ⟨x, hx, f1, f2, f3, f4, f5, f6, f7, f8, f9, f10, f11⟩ := c32R_fields 0x18 0 a 0 0 (by decide) (by decide)
  show decodeFor 0 (encC32R 0x18 0 a 0 0 ++ rest) = .word (.jr a) (encC32R 0x18 0 a 0 0).length
  rw [hx]
  exact control_32 x rest f1 f2 hw (by simp [c32Instr, aluInstr, f3, f4, f5, f6, f7, f8, f9, f10, f11])

theorem loop (a : BitVec 6) (bodyw : BitVec 14) (stg : BitVec 3) (id : BitVec 8) (max : BitVec 32) : Statement (.loop a bodyw stg id max) := by
  intro e he hw rest
  cases he
  obtain ⟨x, hx, f1, f2, f3, f4, f5, f6, f7, f8, f9, f10, f11, f12⟩ := loop_fields 0x02 a bodyw stg id max (by decide)
  show decodeFor 0 (encLoop 0x02 a bodyw stg id max ++ rest) = .word (.loop a bodyw stg id max) (encLoop 0x02 a bodyw stg id max).length
  rw [hx]
  exact control_96 x rest f1 f2 hw (by simp [c96Instr, f3, f4, f5, f6, f7, f8, f9, f10, f11, f12])

theorem loopw (a : BitVec 6) (bodyw : BitVec 14) (stg : BitVec 3) (id : BitVec 8) (max : BitVec 32) : Statement (.loopw a bodyw stg id max) := by
  intro e he hw rest
  cases he
  obtain ⟨x, hx, f1, f2, f3, f4, f5, f6, f7, f8, f9, f10, f11, f12⟩ := loop_fields 0x03 a bodyw stg id max (by decide)
  show decodeFor 0 (encLoop 0x03 a bodyw stg id max ++ rest) = .word (.loopw a bodyw stg id max) (encLoop 0x03 a bodyw stg id max).length
  rw [hx]
  exact control_96 x rest f1 f2 hw (by simp [c96Instr, f3, f4, f5, f6, f7, f8, f9, f10, f11, f12])

theorem rend (num : BitVec 4) (fin : Bool) : Statement (.rend num fin) := by
  intro e he hw rest
  cases he
  have l_num := num.isLt
  have l_fin := bool_le fin
  obtain ⟨x, hx, f1, f2, f3, f4, f5, f6, f7⟩ := c32I_fields 0x1A 0 0 (num.toNat + 16 * fin.toNat) (by decide) (by omega)
  show decodeFor 0 (encC32I 0x1A 0 0 (num.toNat + 16 * fin.toNat) ++ rest) = .word (.rend num fin) (encC32I 0x1A 0 0 (num.toNat + 16 * fin.toNat)).length
  rw [hx]
  refine control_32 x rest f1 f2 hw ?_
  simp only [c32Instr, f3, f4, f5, f6]
  refine cand_eq ?_ ?_
  · congr 1 <;> first | rfl | exact bf_eq (by omega) | exact bit_eq (by omega)
  · simp [fld] <;> omega

theorem setf (flag : BitVec 5) : Statement (.setf flag) := by
  intro e he hw rest
  cases he
  have l_flag := flag.isLt
  obtain ⟨x, hx, f1, f2, f3, f4, f5, f6, f7⟩ := c32I_fields 0x1B 0 0 (flag.toNat + 32) (by decide) (by omega)
  show decodeFor 0 (encC32I 0x1B 0 0 (flag.toNat + 32) ++ rest) = .word (.setf flag) (encC32I 0x1B 0 0 (flag.toNat + 32)).length
  rw [hx]
  refine control_32 x rest f1 f2 hw ?_
  have f8 : bit x 25 = true := by simp only [bit, beq_iff_eq]; omega
  simp only [c32Instr, f3, f4, f5, f6, f8, Bool.false_eq_true, ↓reduceIte]
  refine cand_eq ?_ ?_
  · congr 1 <;> first | rfl | exact bf_eq (by omega) | exact bit_eq (by omega)
  · simp [fld] <;> omega

theorem clrf (flag : BitVec 5) : Statement (.clrf flag) := by
  intro e he hw rest
  cases he
  have l_flag := flag.isLt
  obtain ⟨x, hx, f1, f2, f3, f4, f5, f6, f7⟩ := c32I_fields 0x1B 0 0 flag.toNat (by decide) (by omega)
  show decodeFor 0 (encC32I 0x1B 0 0 flag.toNat ++ rest) = .word (.clrf flag) (encC32I 0x1B 0 0 flag.toNat).length
  rw [hx]
  refine control_32 x rest f1 f2 hw ?_
  have f8 : bit x 25 = false := by simp only [bit, beq_eq_false_iff_ne]; omega
  simp only [c32Instr, f3, f4, f5, f6, f8, Bool.false_eq_true, ↓reduceIte]
  refine cand_eq ?_ ?_
  · congr 1 <;> first | rfl | exact bf_eq (by omega) | exact bit_eq (by omega)
  · simp [fld] <;> omega

theorem waitf (flag : BitVec 5) (clear : Bool) : Statement (.waitf flag clear) := by
  intro e he hw rest
  cases he
  have l_flag := flag.isLt
  have l_clear := bool_le clear
  obtain ⟨x, hx, f1, f2, f3, f4, f5, f6, f7⟩ := c32I_fields 0x1C 0 0 (flag.toNat + 32 * clear.toNat) (by decide) (by omega)
  show decodeFor 0 (encC32I 0x1C 0 0 (flag.toNat + 32 * clear.toNat) ++ rest) = .word (.waitf flag clear) (encC32I 0x1C 0 0 (flag.toNat + 32 * clear.toNat)).length
  rw [hx]
  refine control_32 x rest f1 f2 hw ?_
  simp only [c32Instr, f3, f4, f5, f6]
  refine cand_eq ?_ ?_
  · congr 1 <;> first | rfl | exact bf_eq (by omega) | exact bit_eq (by omega)
  · simp [fld] <;> omega

theorem tkpost (tok : BitVec 4) (a : BitVec 6) : Statement (.tkpost tok a) := by
  intro e he hw rest
  cases he
  have l_tok := tok.isLt
  obtain ⟨x, hx, f1, f2, f3, f4, f5, f6, f7⟩ := c32I_fields 0x1D 0 a tok.toNat (by decide) (by omega)
  show decodeFor 0 (encC32I 0x1D 0 a tok.toNat ++ rest) = .word (.tkpost tok a) (encC32I 0x1D 0 a tok.toNat).length
  rw [hx]
  refine control_32 x rest f1 f2 hw ?_
  simp only [c32Instr, f3, f4, f5, f6]
  refine cand_eq ?_ ?_
  · congr 1 <;> first | rfl | exact bf_eq (by omega) | exact bit_eq (by omega)
  · simp [fld] <;> omega

theorem tkwait (tok : BitVec 4) (a : BitVec 6) : Statement (.tkwait tok a) := by
  intro e he hw rest
  cases he
  have l_tok := tok.isLt
  obtain ⟨x, hx, f1, f2, f3, f4, f5, f6, f7⟩ := c32I_fields 0x1E 0 a tok.toNat (by decide) (by omega)
  show decodeFor 0 (encC32I 0x1E 0 a tok.toNat ++ rest) = .word (.tkwait tok a) (encC32I 0x1E 0 a tok.toNat).length
  rw [hx]
  refine control_32 x rest f1 f2 hw ?_
  simp only [c32Instr, f3, f4, f5, f6]
  refine cand_eq ?_ ?_
  · congr 1 <;> first | rfl | exact bf_eq (by omega) | exact bit_eq (by omega)
  · simp [fld] <;> omega

theorem yield (num : BitVec 4) : Statement (.yield num) := by
  intro e he hw rest
  cases he
  have l_num := num.isLt
  obtain ⟨x, hx, f1, f2, f3, f4, f5, f6, f7⟩ := c32I_fields 0x1F 0 0 num.toNat (by decide) (by omega)
  show decodeFor 0 (encC32I 0x1F 0 0 num.toNat ++ rest) = .word (.yield num) (encC32I 0x1F 0 0 num.toNat).length
  rw [hx]
  refine control_32 x rest f1 f2 hw ?_
  simp only [c32Instr, f3, f4, f5, f6]
  refine cand_eq ?_ ?_
  · congr 1 <;> first | rfl | exact bf_eq (by omega) | exact bit_eq (by omega)
  · simp [fld] <;> omega

theorem nestw (idx : BitVec 5) (tbl : BitVec 2) (a : BitVec 6) : Statement (.nestw idx tbl a) := by
  intro e he hw rest
  cases he
  have l_idx := idx.isLt
  have l_tbl := tbl.isLt
  obtain ⟨x, hx, f1, f2, f3, f4, f5, f6, f7⟩ := c32I_fields 0x21 0 a (idx.toNat + 32 * tbl.toNat) (by decide) (by omega)
  show decodeFor 0 (encC32I 0x21 0 a (idx.toNat + 32 * tbl.toNat) ++ rest) = .word (.nestw idx tbl a) (encC32I 0x21 0 a (idx.toNat + 32 * tbl.toNat)).length
  rw [hx]
  refine control_32 x rest f1 f2 hw ?_
  simp only [c32Instr, f3, f4, f5, f6]
  refine cand_eq ?_ ?_
  · congr 1 <;> first | rfl | exact bf_eq (by omega) | exact bit_eq (by omega)
  · simp [fld] <;> omega

theorem nestgo (tbl : BitVec 2) : Statement (.nestgo tbl) := by
  intro e he hw rest
  cases he
  have l_tbl := tbl.isLt
  obtain ⟨x, hx, f1, f2, f3, f4, f5, f6, f7⟩ := c32I_fields 0x22 0 0 tbl.toNat (by decide) (by omega)
  show decodeFor 0 (encC32I 0x22 0 0 tbl.toNat ++ rest) = .word (.nestgo tbl) (encC32I 0x22 0 0 tbl.toNat).length
  rw [hx]
  refine control_32 x rest f1 f2 hw ?_
  simp only [c32Instr, f3, f4, f5, f6]
  refine cand_eq ?_ ?_
  · congr 1 <;> first | rfl | exact bf_eq (by omega) | exact bit_eq (by omega)
  · simp [fld] <;> omega

theorem launch (d a : BitVec 6) : Statement (.launch d a) := by
  intro e he hw rest
  cases he
  obtain ⟨x, hx, f1, f2, f3, f4, f5, f6, f7, f8, f9, f10, f11⟩ := c32R_fields 0x23 d a 0 0 (by decide) (by decide)
  show decodeFor 0 (encC32R 0x23 d a 0 0 ++ rest) = .word (.launch d a) (encC32R 0x23 d a 0 0).length
  rw [hx]
  exact control_32 x rest f1 f2 hw (by simp [c32Instr, aluInstr, f3, f4, f5, f6, f7, f8, f9, f10, f11])

theorem launchContinuation (d a : BitVec 6) : Statement (.launchContinuation d a) := by
  intro e he hw rest
  cases he
  obtain ⟨x, hx, f1, f2, f3, f4, f5, f6, f7, f8, f9, f10, f11⟩ := c32R_fields 0x23 d a 0 1 (by decide) (by decide)
  show decodeFor 0 (encC32R 0x23 d a 0 1 ++ rest) = .word (.launchContinuation d a) (encC32R 0x23 d a 0 1).length
  rw [hx]
  exact control_32 x rest f1 f2 hw (by simp [c32Instr, aluInstr, f3, f4, f5, f6, f7, f8, f9, f10, f11])

theorem capgive (d a : BitVec 6) (k : BitVec 5) : Statement (.capgive d a k) := by
  intro e he hw rest
  cases he
  have l_k := k.isLt
  obtain ⟨x, hx, f1, f2, f3, f4, f5, f6, f7⟩ := c32I_fields 0x24 d a k.toNat (by decide) (by omega)
  show decodeFor 0 (encC32I 0x24 d a k.toNat ++ rest) = .word (.capgive d a k) (encC32I 0x24 d a k.toNat).length
  rw [hx]
  refine control_32 x rest f1 f2 hw ?_
  simp only [c32Instr, f3, f4, f5, f6]
  refine cand_eq ?_ ?_
  · congr 1 <;> first | rfl | exact bf_eq (by omega) | exact bit_eq (by omega)
  · simp [fld] <;> omega

theorem capdrop (d : BitVec 6) (k : BitVec 5) : Statement (.capdrop d k) := by
  intro e he hw rest
  cases he
  have l_k := k.isLt
  obtain ⟨x, hx, f1, f2, f3, f4, f5, f6, f7⟩ := c32I_fields 0x25 d 0 k.toNat (by decide) (by omega)
  show decodeFor 0 (encC32I 0x25 d 0 k.toNat ++ rest) = .word (.capdrop d k) (encC32I 0x25 d 0 k.toNat).length
  rw [hx]
  refine control_32 x rest f1 f2 hw ?_
  simp only [c32Instr, f3, f4, f5, f6]
  refine cand_eq ?_ ?_
  · congr 1 <;> first | rfl | exact bf_eq (by omega) | exact bit_eq (by omega)
  · simp [fld] <;> omega

theorem capqry (d : BitVec 6) (k : BitVec 5) (part : Bool) : Statement (.capqry d k part) := by
  intro e he hw rest
  cases he
  have l_k := k.isLt
  have l_part := bool_le part
  obtain ⟨x, hx, f1, f2, f3, f4, f5, f6, f7⟩ := c32I_fields 0x26 d 0 (k.toNat + 32 * part.toNat) (by decide) (by omega)
  show decodeFor 0 (encC32I 0x26 d 0 (k.toNat + 32 * part.toNat) ++ rest) = .word (.capqry d k part) (encC32I 0x26 d 0 (k.toNat + 32 * part.toNat)).length
  rw [hx]
  refine control_32 x rest f1 f2 hw ?_
  simp only [c32Instr, f3, f4, f5, f6]
  refine cand_eq ?_ ?_
  · congr 1 <;> first | rfl | exact bf_eq (by omega) | exact bit_eq (by omega)
  · simp [fld] <;> omega

theorem stg (a : BitVec 6) : Statement (.stg a) := by
  intro e he hw rest
  cases he
  obtain ⟨x, hx, f1, f2, f3, f4, f5, f6, f7, f8, f9, f10, f11⟩ := c32R_fields 0x27 0 a 0 0 (by decide) (by decide)
  show decodeFor 0 (encC32R 0x27 0 a 0 0 ++ rest) = .word (.stg a) (encC32R 0x27 0 a 0 0).length
  rw [hx]
  exact control_32 x rest f1 f2 hw (by simp [c32Instr, aluInstr, f3, f4, f5, f6, f7, f8, f9, f10, f11])

theorem stgdec (a : BitVec 6) : Statement (.stgdec a) := by
  intro e he hw rest
  cases he
  obtain ⟨x, hx, f1, f2, f3, f4, f5, f6, f7, f8, f9, f10, f11⟩ := c32R_fields 0x27 0 a 0 1 (by decide) (by decide)
  show decodeFor 0 (encC32R 0x27 0 a 0 1 ++ rest) = .word (.stgdec a) (encC32R 0x27 0 a 0 1).length
  rw [hx]
  exact control_32 x rest f1 f2 hw (by simp [c32Instr, aluInstr, f3, f4, f5, f6, f7, f8, f9, f10, f11])

theorem trap (code : BitVec 8) : Statement (.trap code) := by
  intro e he hw rest
  cases he
  have l_code := code.isLt
  obtain ⟨x, hx, f1, f2, f3, f4, f5, f6, f7⟩ := c32I_fields 0x28 0 0 code.toNat (by decide) (by omega)
  show decodeFor 0 (encC32I 0x28 0 0 code.toNat ++ rest) = .word (.trap code) (encC32I 0x28 0 0 code.toNat).length
  rw [hx]
  refine control_32 x rest f1 f2 hw ?_
  simp only [c32Instr, f3, f4, f5, f6]
  refine cand_eq ?_ ?_
  · congr 1 <;> first | rfl | exact bf_eq (by omega) | exact bit_eq (by omega)
  · simp [fld] <;> omega

theorem rdsys (d : BitVec 6) (n : BitVec 12) : Statement (.rdsys d n) := by
  intro e he hw rest
  cases he
  have l_n := n.isLt
  obtain ⟨x, hx, f1, f2, f3, f4, f5, f6, f7⟩ := c32I_fields 0x29 d 0 n.toNat (by decide) (by omega)
  show decodeFor 0 (encC32I 0x29 d 0 n.toNat ++ rest) = .word (.rdsys d n) (encC32I 0x29 d 0 n.toNat).length
  rw [hx]
  refine control_32 x rest f1 f2 hw ?_
  simp only [c32Instr, f3, f4, f5, f6]
  refine cand_eq ?_ ?_
  · congr 1 <;> first | rfl | exact bf_eq (by omega) | exact bit_eq (by omega)
  · simp [fld] <;> omega

theorem wrsys (a : BitVec 6) (n : BitVec 12) : Statement (.wrsys a n) := by
  intro e he hw rest
  cases he
  have l_n := n.isLt
  obtain ⟨x, hx, f1, f2, f3, f4, f5, f6, f7⟩ := c32I_fields 0x2A 0 a n.toNat (by decide) (by omega)
  show decodeFor 0 (encC32I 0x2A 0 a n.toNat ++ rest) = .word (.wrsys a n) (encC32I 0x2A 0 a n.toNat).length
  rw [hx]
  refine control_32 x rest f1 f2 hw ?_
  simp only [c32Instr, f3, f4, f5, f6]
  refine cand_eq ?_ ?_
  · congr 1 <;> first | rfl | exact bf_eq (by omega) | exact bit_eq (by omega)
  · simp [fld] <;> omega

theorem rdtime (d : BitVec 6) : Statement (.rdtime d) := by
  intro e he hw rest
  cases he
  obtain ⟨x, hx, f1, f2, f3, f4, f5, f6, f7, f8, f9, f10, f11⟩ := c32R_fields 0x2B d 0 0 0 (by decide) (by decide)
  show decodeFor 0 (encC32R 0x2B d 0 0 0 ++ rest) = .word (.rdtime d) (encC32R 0x2B d 0 0 0).length
  rw [hx]
  exact control_32 x rest f1 f2 hw (by simp [c32Instr, aluInstr, f3, f4, f5, f6, f7, f8, f9, f10, f11])

theorem brk (code : BitVec 8) : Statement (.brk code) := by
  intro e he hw rest
  cases he
  have l_code := code.isLt
  obtain ⟨x, hx, f1, f2, f3, f4, f5, f6, f7⟩ := c32I_fields 0x2C 0 0 code.toNat (by decide) (by omega)
  show decodeFor 0 (encC32I 0x2C 0 0 code.toNat ++ rest) = .word (.brk code) (encC32I 0x2C 0 0 code.toNat).length
  rw [hx]
  refine control_32 x rest f1 f2 hw ?_
  simp only [c32Instr, f3, f4, f5, f6]
  refine cand_eq ?_ ?_
  · congr 1 <;> first | rfl | exact bf_eq (by omega) | exact bit_eq (by omega)
  · simp [fld] <;> omega

theorem vshape (v : BitVec 14) : Statement (.vshape v) := by
  intro e he hw rest
  cases he
  have l_v := v.isLt
  obtain ⟨x, hx, f1, f2, f3, f4, f5⟩ := v32_fields 0x01 v.toNat (by decide) (by omega)
  show decodeFor 1 (encV32 0x01 v.toNat ++ rest) = .word (.vshape v) (encV32 0x01 v.toNat).length
  rw [hx]
  refine vector_32 x rest f1 f2 f3 hw ?_
  simp only [v32Op, f4]
  refine cand_eq ?_ ?_
  · congr 1 <;> first | rfl | exact bf_eq (by omega) | exact bit_eq (by omega)
  · simp [fld] <;> omega

theorem vfmt (n : BitVec 6) : Statement (.vfmt n) := by
  intro e he hw rest
  cases he
  have l_n := n.isLt
  obtain ⟨x, hx, f1, f2, f3, f4, f5⟩ := v32_fields 0x02 n.toNat (by decide) (by omega)
  show decodeFor 1 (encV32 0x02 n.toNat ++ rest) = .word (.vfmt n) (encV32 0x02 n.toNat).length
  rw [hx]
  refine vector_32 x rest f1 f2 f3 hw ?_
  simp only [v32Op, f4]
  refine cand_eq ?_ ?_
  · congr 1 <;> first | rfl | exact bf_eq (by omega) | exact bit_eq (by omega)
  · simp [fld] <;> omega

theorem pand (pd pa pb : BitVec 4) : Statement (.pand pd pa pb) := by
  intro e he hw rest
  cases he
  have l_pd := pd.isLt
  have l_pa := pa.isLt
  have l_pb := pb.isLt
  obtain ⟨x, hx, f1, f2, f3, f4, f5⟩ := v32_fields 0x03 (pd.toNat + pa.toNat * 2 ^ 4 + pb.toNat * 2 ^ 8 + 0 * 2 ^ 12) (by decide) (by simp <;> omega)
  show decodeFor 1 (encV32 0x03 _ ++ rest) = .word (.pand pd pa pb) (encV32 0x03 _).length
  rw [hx]
  refine vector_32 x rest f1 f2 f3 hw ?_
  have f6 : fld x 24 3 = 0 := by simp only [fld]; omega
  simp only [v32Op, f4, predInstr, f6]
  refine cand_eq ?_ ?_
  · congr 1 <;> first | rfl | exact bf_eq (by omega) | exact bit_eq (by omega)
  · simp [fld] <;> omega

theorem por (pd pa pb : BitVec 4) : Statement (.por pd pa pb) := by
  intro e he hw rest
  cases he
  have l_pd := pd.isLt
  have l_pa := pa.isLt
  have l_pb := pb.isLt
  obtain ⟨x, hx, f1, f2, f3, f4, f5⟩ := v32_fields 0x03 (pd.toNat + pa.toNat * 2 ^ 4 + pb.toNat * 2 ^ 8 + 1 * 2 ^ 12) (by decide) (by simp <;> omega)
  show decodeFor 1 (encV32 0x03 _ ++ rest) = .word (.por pd pa pb) (encV32 0x03 _).length
  rw [hx]
  refine vector_32 x rest f1 f2 f3 hw ?_
  have f6 : fld x 24 3 = 1 := by simp only [fld]; omega
  simp only [v32Op, f4, predInstr, f6]
  refine cand_eq ?_ ?_
  · congr 1 <;> first | rfl | exact bf_eq (by omega) | exact bit_eq (by omega)
  · simp [fld] <;> omega

theorem pxor (pd pa pb : BitVec 4) : Statement (.pxor pd pa pb) := by
  intro e he hw rest
  cases he
  have l_pd := pd.isLt
  have l_pa := pa.isLt
  have l_pb := pb.isLt
  obtain ⟨x, hx, f1, f2, f3, f4, f5⟩ := v32_fields 0x03 (pd.toNat + pa.toNat * 2 ^ 4 + pb.toNat * 2 ^ 8 + 2 * 2 ^ 12) (by decide) (by simp <;> omega)
  show decodeFor 1 (encV32 0x03 _ ++ rest) = .word (.pxor pd pa pb) (encV32 0x03 _).length
  rw [hx]
  refine vector_32 x rest f1 f2 f3 hw ?_
  have f6 : fld x 24 3 = 2 := by simp only [fld]; omega
  simp only [v32Op, f4, predInstr, f6]
  refine cand_eq ?_ ?_
  · congr 1 <;> first | rfl | exact bf_eq (by omega) | exact bit_eq (by omega)
  · simp [fld] <;> omega

theorem pandn (pd pa pb : BitVec 4) : Statement (.pandn pd pa pb) := by
  intro e he hw rest
  cases he
  have l_pd := pd.isLt
  have l_pa := pa.isLt
  have l_pb := pb.isLt
  obtain ⟨x, hx, f1, f2, f3, f4, f5⟩ := v32_fields 0x03 (pd.toNat + pa.toNat * 2 ^ 4 + pb.toNat * 2 ^ 8 + 3 * 2 ^ 12) (by decide) (by simp <;> omega)
  show decodeFor 1 (encV32 0x03 _ ++ rest) = .word (.pandn pd pa pb) (encV32 0x03 _).length
  rw [hx]
  refine vector_32 x rest f1 f2 f3 hw ?_
  have f6 : fld x 24 3 = 3 := by simp only [fld]; omega
  simp only [v32Op, f4, predInstr, f6]
  refine cand_eq ?_ ?_
  · congr 1 <;> first | rfl | exact bf_eq (by omega) | exact bit_eq (by omega)
  · simp [fld] <;> omega

theorem pnot (pd pa : BitVec 4) : Statement (.pnot pd pa) := by
  intro e he hw rest
  cases he
  have l_pd := pd.isLt
  have l_pa := pa.isLt
  obtain ⟨x, hx, f1, f2, f3, f4, f5⟩ := v32_fields 0x03 (pd.toNat + pa.toNat * 2 ^ 4 + (0 : BitVec 4).toNat * 2 ^ 8 + 4 * 2 ^ 12) (by decide) (by simp <;> omega)
  show decodeFor 1 (encV32 0x03 _ ++ rest) = .word (.pnot pd pa) (encV32 0x03 _).length
  rw [hx]
  simp only [BitVec.ofNat_eq_ofNat, BitVec.toNat_ofNat, Nat.zero_mod, Nat.zero_mul, Nat.add_zero] at f5
  refine vector_32 x rest f1 f2 f3 hw ?_
  have f6 : fld x 24 3 = 4 := by simp only [fld]; omega
  simp only [v32Op, f4, predInstr, f6]
  refine cand_eq ?_ ?_
  · congr 1 <;> first | rfl | exact bf_eq (by omega) | exact bit_eq (by omega)
  · simp [fld] <;> omega

theorem pmovPredicate (pd pa : BitVec 4) : Statement (.pmovPredicate pd pa) := by
  intro e he hw rest
  cases he
  have l_pd := pd.isLt
  have l_pa := pa.isLt
  obtain ⟨x, hx, f1, f2, f3, f4, f5⟩ := v32_fields 0x03 (pd.toNat + pa.toNat * 2 ^ 4 + (0 : BitVec 4).toNat * 2 ^ 8 + 5 * 2 ^ 12) (by decide) (by simp <;> omega)
  show decodeFor 1 (encV32 0x03 _ ++ rest) = .word (.pmovPredicate pd pa) (encV32 0x03 _).length
  rw [hx]
  simp only [BitVec.ofNat_eq_ofNat, BitVec.toNat_ofNat, Nat.zero_mod, Nat.zero_mul, Nat.add_zero] at f5
  refine vector_32 x rest f1 f2 f3 hw ?_
  have f6 : fld x 24 3 = 5 := by simp only [fld]; omega
  simp only [v32Op, f4, predInstr, f6]
  refine cand_eq ?_ ?_
  · congr 1 <;> first | rfl | exact bf_eq (by omega) | exact bit_eq (by omega)
  · simp [fld] <;> omega

theorem pset (pd : BitVec 4) : Statement (.pset pd) := by
  intro e he hw rest
  cases he
  have l_pd := pd.isLt
  obtain ⟨x, hx, f1, f2, f3, f4, f5⟩ := v32_fields 0x03 (pd.toNat + (0 : BitVec 4).toNat * 2 ^ 4 + (0 : BitVec 4).toNat * 2 ^ 8 + 6 * 2 ^ 12) (by decide) (by simp <;> omega)
  show decodeFor 1 (encV32 0x03 _ ++ rest) = .word (.pset pd) (encV32 0x03 _).length
  rw [hx]
  simp only [BitVec.ofNat_eq_ofNat, BitVec.toNat_ofNat, Nat.zero_mod, Nat.zero_mul, Nat.add_zero] at f5
  refine vector_32 x rest f1 f2 f3 hw ?_
  have f6 : fld x 24 3 = 6 := by simp only [fld]; omega
  simp only [v32Op, f4, predInstr, f6]
  refine cand_eq ?_ ?_
  · congr 1 <;> first | rfl | exact bf_eq (by omega) | exact bit_eq (by omega)
  · simp [fld] <;> omega

theorem pclr (pd : BitVec 4) : Statement (.pclr pd) := by
  intro e he hw rest
  cases he
  have l_pd := pd.isLt
  obtain ⟨x, hx, f1, f2, f3, f4, f5⟩ := v32_fields 0x03 (pd.toNat + (0 : BitVec 4).toNat * 2 ^ 4 + (0 : BitVec 4).toNat * 2 ^ 8 + 7 * 2 ^ 12) (by decide) (by simp <;> omega)
  show decodeFor 1 (encV32 0x03 _ ++ rest) = .word (.pclr pd) (encV32 0x03 _).length
  rw [hx]
  simp only [BitVec.ofNat_eq_ofNat, BitVec.toNat_ofNat, Nat.zero_mod, Nat.zero_mul, Nat.add_zero] at f5
  refine vector_32 x rest f1 f2 f3 hw ?_
  have f6 : fld x 24 3 = 7 := by simp only [fld]; omega
  simp only [v32Op, f4, predInstr, f6]
  refine cand_eq ?_ ?_
  · congr 1 <;> first | rfl | exact bf_eq (by omega) | exact bit_eq (by omega)
  · simp [fld] <;> omega

theorem pcnt (ix : BitVec 3) (pa : BitVec 4) : Statement (.pcnt ix pa) := by
  intro e he hw rest
  cases he
  have l_ix := ix.isLt
  have l_pa := pa.isLt
  obtain ⟨x, hx, f1, f2, f3, f4, f5⟩ := v32_fields 0x04 (ix.toNat + pa.toNat * 2 ^ 4) (by decide) (by omega)
  show decodeFor 1 (encV32 0x04 (ix.toNat + pa.toNat * 2 ^ 4) ++ rest) = .word (.pcnt ix pa) (encV32 0x04 (ix.toNat + pa.toNat * 2 ^ 4)).length
  rw [hx]
  refine vector_32 x rest f1 f2 f3 hw ?_
  simp only [v32Op, f4]
  refine cand_eq ?_ ?_
  · congr 1 <;> first | rfl | exact bf_eq (by omega) | exact bit_eq (by omega)
  · simp [fld] <;> omega

theorem vseq (nm1 : BitVec 6) (tbl : BitVec 1) : Statement (.vseq nm1 tbl) := by
  intro e he hw rest
  cases he
  have l_nm1 := nm1.isLt
  have l_tbl := tbl.isLt
  obtain ⟨x, hx, f1, f2, f3, f4, f5⟩ := v32_fields 0x05 (nm1.toNat + tbl.toNat * 2 ^ 6) (by decide) (by omega)
  show decodeFor 1 (encV32 0x05 (nm1.toNat + tbl.toNat * 2 ^ 6) ++ rest) = .word (.vseq nm1 tbl) (encV32 0x05 (nm1.toNat + tbl.toNat * 2 ^ 6)).length
  rw [hx]
  refine vector_32 x rest f1 f2 f3 hw ?_
  simp only [v32Op, f4]
  refine cand_eq ?_ ?_
  · congr 1 <;> first | rfl | exact bf_eq (by omega) | exact bit_eq (by omega)
  · simp [fld] <;> omega

theorem vSetf (flag : BitVec 5) : Statement (.vSetf flag) := by
  intro e he hw rest
  cases he
  have l_flag := flag.isLt
  obtain ⟨x, hx, f1, f2, f3, f4, f5⟩ := v32_fields 0x06 (flag.toNat + 2 ^ 5) (by decide) (by omega)
  show decodeFor 1 (encV32 0x06 (flag.toNat + 2 ^ 5) ++ rest) = .word (.vSetf flag) (encV32 0x06 (flag.toNat + 2 ^ 5)).length
  rw [hx]
  refine vector_32 x rest f1 f2 f3 hw ?_
  have f8 : bit x 17 = true := by simp only [bit, beq_iff_eq]; omega
  simp only [v32Op, f4, f8, Bool.false_eq_true, ↓reduceIte]
  refine cand_eq ?_ ?_
  · congr 1 <;> first | rfl | exact bf_eq (by omega) | exact bit_eq (by omega)
  · simp [fld] <;> omega

theorem vClrf (flag : BitVec 5) : Statement (.vClrf flag) := by
  intro e he hw rest
  cases he
  have l_flag := flag.isLt
  obtain ⟨x, hx, f1, f2, f3, f4, f5⟩ := v32_fields 0x06 flag.toNat (by decide) (by omega)
  show decodeFor 1 (encV32 0x06 flag.toNat ++ rest) = .word (.vClrf flag) (encV32 0x06 flag.toNat).length
  rw [hx]
  refine vector_32 x rest f1 f2 f3 hw ?_
  have f8 : bit x 17 = false := by simp only [bit, beq_eq_false_iff_ne]; omega
  simp only [v32Op, f4, f8, Bool.false_eq_true, ↓reduceIte]
  refine cand_eq ?_ ?_
  · congr 1 <;> first | rfl | exact bf_eq (by omega) | exact bit_eq (by omega)
  · simp [fld] <;> omega

theorem vWaitf (flag : BitVec 5) (clear : Bool) : Statement (.vWaitf flag clear) := by
  intro e he hw rest
  cases he
  have l_flag := flag.isLt
  have l_clear := bool_le clear
  obtain ⟨x, hx, f1, f2, f3, f4, f5⟩ := v32_fields 0x07 (flag.toNat + clear.toNat * 2 ^ 5) (by decide) (by omega)
  show decodeFor 1 (encV32 0x07 (flag.toNat + clear.toNat * 2 ^ 5) ++ rest) = .word (.vWaitf flag clear) (encV32 0x07 (flag.toNat + clear.toNat * 2 ^ 5)).length
  rw [hx]
  refine vector_32 x rest f1 f2 f3 hw ?_
  simp only [v32Op, f4]
  refine cand_eq ?_ ?_
  · congr 1 <;> first | rfl | exact bf_eq (by omega) | exact bit_eq (by omega)
  · simp [fld] <;> omega

theorem vTkpost (tok : BitVec 4) (n : BitVec 16) : Statement (.vTkpost tok n) := by
  intro e he hw rest
  cases he
  have l_tok := tok.isLt
  have l_n := n.isLt
  obtain ⟨x, hx, f1, f2, f3, f4, f5⟩ := v32_fields 0x08 (tok.toNat + n.toNat * 2 ^ 4) (by decide) (by omega)
  show decodeFor 1 (encV32 0x08 (tok.toNat + n.toNat * 2 ^ 4) ++ rest) = .word (.vTkpost tok n) (encV32 0x08 (tok.toNat + n.toNat * 2 ^ 4)).length
  rw [hx]
  refine vector_32 x rest f1 f2 f3 hw ?_
  simp only [v32Op, f4]
  refine cand_eq ?_ ?_
  · congr 1 <;> first | rfl | exact bf_eq (by omega) | exact bit_eq (by omega)
  · simp [fld] <;> omega

theorem vTkwait (tok : BitVec 4) (n : BitVec 16) : Statement (.vTkwait tok n) := by
  intro e he hw rest
  cases he
  have l_tok := tok.isLt
  have l_n := n.isLt
  obtain ⟨x, hx, f1, f2, f3, f4, f5⟩ := v32_fields 0x09 (tok.toNat + n.toNat * 2 ^ 4) (by decide) (by omega)
  show decodeFor 1 (encV32 0x09 (tok.toNat + n.toNat * 2 ^ 4) ++ rest) = .word (.vTkwait tok n) (encV32 0x09 (tok.toNat + n.toNat * 2 ^ 4)).length
  rw [hx]
  refine vector_32 x rest f1 f2 f3 hw ?_
  simp only [v32Op, f4]
  refine cand_eq ?_ ?_
  · congr 1 <;> first | rfl | exact bf_eq (by omega) | exact bit_eq (by omega)
  · simp [fld] <;> omega

theorem vRend (num : BitVec 4) (fin : Bool) : Statement (.vRend num fin) := by
  intro e he hw rest
  cases he
  have l_num := num.isLt
  have l_fin := bool_le fin
  obtain ⟨x, hx, f1, f2, f3, f4, f5⟩ := v32_fields 0x0A (num.toNat + fin.toNat * 2 ^ 4) (by decide) (by omega)
  show decodeFor 1 (encV32 0x0A (num.toNat + fin.toNat * 2 ^ 4) ++ rest) = .word (.vRend num fin) (encV32 0x0A (num.toNat + fin.toNat * 2 ^ 4)).length
  rw [hx]
  refine vector_32 x rest f1 f2 f3 hw ?_
  simp only [v32Op, f4]
  refine cand_eq ?_ ?_
  · congr 1 <;> first | rfl | exact bf_eq (by omega) | exact bit_eq (by omega)
  · simp [fld] <;> omega

theorem vadd (v : VArg) : Statement (.vadd v) := by
  intro e he hw rest
  cases he
  exact vector_v 0x01 v _ rest (by decide) rfl hw

theorem vsub (v : VArg) : Statement (.vsub v) := by
  intro e he hw rest
  cases he
  exact vector_v 0x02 v _ rest (by decide) rfl hw

theorem vmul (v : VArg) : Statement (.vmul v) := by
  intro e he hw rest
  cases he
  exact vector_v 0x03 v _ rest (by decide) rfl hw

theorem vmad (v : VArg) : Statement (.vmad v) := by
  intro e he hw rest
  cases he
  exact vector_v 0x04 v _ rest (by decide) rfl hw

theorem vmin (v : VArg) : Statement (.vmin v) := by
  intro e he hw rest
  cases he
  exact vector_v 0x05 v _ rest (by decide) rfl hw

theorem vmax (v : VArg) : Statement (.vmax v) := by
  intro e he hw rest
  cases he
  exact vector_v 0x06 v _ rest (by decide) rfl hw

theorem vabs (v : VArg) : Statement (.vabs v) := by
  intro e he hw rest
  cases he
  exact vector_v 0x07 v _ rest (by decide) rfl hw

theorem vneg (v : VArg) : Statement (.vneg v) := by
  intro e he hw rest
  cases he
  exact vector_v 0x08 v _ rest (by decide) rfl hw

theorem vand (v : VArg) : Statement (.vand v) := by
  intro e he hw rest
  cases he
  exact vector_v 0x09 v _ rest (by decide) rfl hw

theorem vor (v : VArg) : Statement (.vor v) := by
  intro e he hw rest
  cases he
  exact vector_v 0x0A v _ rest (by decide) rfl hw

theorem vxor (v : VArg) : Statement (.vxor v) := by
  intro e he hw rest
  cases he
  exact vector_v 0x0B v _ rest (by decide) rfl hw

theorem vshl (v : VArg) : Statement (.vshl v) := by
  intro e he hw rest
  cases he
  exact vector_v 0x0C v _ rest (by decide) rfl hw

theorem vshr (v : VArg) : Statement (.vshr v) := by
  intro e he hw rest
  cases he
  exact vector_v 0x0D v _ rest (by decide) rfl hw

theorem vsra (v : VArg) : Statement (.vsra v) := by
  intro e he hw rest
  cases he
  exact vector_v 0x0E v _ rest (by decide) rfl hw

theorem vrcp (v : VArg) : Statement (.vrcp v) := by
  intro e he hw rest
  cases he
  exact vector_v 0x0F v _ rest (by decide) rfl hw

theorem vrsq (v : VArg) : Statement (.vrsq v) := by
  intro e he hw rest
  cases he
  exact vector_v 0x10 v _ rest (by decide) rfl hw

theorem vexp2 (v : VArg) : Statement (.vexp2 v) := by
  intro e he hw rest
  cases he
  exact vector_v 0x11 v _ rest (by decide) rfl hw

theorem vlog2 (v : VArg) : Statement (.vlog2 v) := by
  intro e he hw rest
  cases he
  exact vector_v 0x12 v _ rest (by decide) rfl hw

theorem vtanh (v : VArg) : Statement (.vtanh v) := by
  intro e he hw rest
  cases he
  exact vector_v 0x13 v _ rest (by decide) rfl hw

theorem vcmp (v : VArg) : Statement (.vcmp v) := by
  intro e he hw rest
  cases he
  exact vector_v 0x14 v _ rest (by decide) rfl hw

theorem vredsum (v : VArg) : Statement (.vredsum v) := by
  intro e he hw rest
  cases he
  exact vector_v 0x15 v _ rest (by decide) rfl hw

theorem vredmax (v : VArg) : Statement (.vredmax v) := by
  intro e he hw rest
  cases he
  exact vector_v 0x16 v _ rest (by decide) rfl hw

theorem vredmin (v : VArg) : Statement (.vredmin v) := by
  intro e he hw rest
  cases he
  exact vector_v 0x17 v _ rest (by decide) rfl hw

theorem vperm (v : VArg) : Statement (.vperm v) := by
  intro e he hw rest
  cases he
  exact vector_v 0x18 v _ rest (by decide) rfl hw

theorem vxpose (v : VArg) : Statement (.vxpose v) := by
  intro e he hw rest
  cases he
  exact vector_v 0x19 v _ rest (by decide) rfl hw

theorem vbcast (v : VArg) : Statement (.vbcast v) := by
  intro e he hw rest
  cases he
  exact vector_v 0x1A v _ rest (by decide) rfl hw

theorem vmovs (v : VArg) : Statement (.vmovs v) := by
  intro e he hw rest
  cases he
  exact vector_v 0x1B v _ rest (by decide) rfl hw

theorem vpart (v : VArg) : Statement (.vpart v) := by
  intro e he hw rest
  cases he
  exact vector_v 0x1C v _ rest (by decide) rfl hw

theorem vcompact (v : VArg) : Statement (.vcompact v) := by
  intro e he hw rest
  cases he
  exact vector_v 0x1D v _ rest (by decide) rfl hw

theorem vgath (v : VArg) : Statement (.vgath v) := by
  intro e he hw rest
  cases he
  exact vector_v 0x1E v _ rest (by decide) rfl hw

theorem vscat (v : VArg) : Statement (.vscat v) := by
  intro e he hw rest
  cases he
  exact vector_v 0x1F v _ rest (by decide) rfl hw

theorem vpop (v : VArg) : Statement (.vpop v) := by
  intro e he hw rest
  cases he
  exact vector_v 0x20 v _ rest (by decide) rfl hw

theorem vpush (v : VArg) : Statement (.vpush v) := by
  intro e he hw rest
  cases he
  exact vector_v 0x21 v _ rest (by decide) rfl hw

theorem vcvt (v : VArg) : Statement (.vcvt v) := by
  intro e he hw rest
  cases he
  exact vector_v 0x22 v _ rest (by decide) rfl hw

theorem vqnt (v : VArg) : Statement (.vqnt v) := by
  intro e he hw rest
  cases he
  exact vector_v 0x23 v _ rest (by decide) rfl hw

theorem vdqnt (v : VArg) : Statement (.vdqnt v) := by
  intro e he hw rest
  cases he
  exact vector_v 0x24 v _ rest (by decide) rfl hw

theorem unpk3 (v : VArg) : Statement (.unpk3 v) := by
  intro e he hw rest
  cases he
  exact vector_v 0x25 v _ rest (by decide) rfl hw

theorem vdot4 (v : VArg) : Statement (.vdot4 v) := by
  intro e he hw rest
  cases he
  exact vector_v 0x26 v _ rest (by decide) rfl hw

theorem vpack (v : VArg) : Statement (.vpack v) := by
  intro e he hw rest
  cases he
  exact vector_v 0x27 v _ rest (by decide) rfl hw

theorem vunpk (v : VArg) : Statement (.vunpk v) := by
  intro e he hw rest
  cases he
  exact vector_v 0x28 v _ rest (by decide) rfl hw

theorem vlds (v : VImm) : Statement (.vlds v) := by
  intro e he hw rest
  cases he
  exact vector_imm 0x30 v _ rest (by decide) rfl (fun _ => rfl) hw

theorem vsts (v : VImm) : Statement (.vsts v) := by
  intro e he hw rest
  cases he
  exact vector_imm 0x31 v _ rest (by decide) rfl (fun _ => rfl) hw

theorem vfill (v : VImm) : Statement (.vfill v) := by
  intro e he hw rest
  cases he
  exact vector_imm 0x32 v _ rest (by decide) rfl (fun _ => rfl) hw

theorem vrng (v : VImm) : Statement (.vrng v) := by
  intro e he hw rest
  cases he
  exact vector_imm 0x33 v _ rest (by decide) rfl (fun _ => rfl) hw

theorem vpatx (v : VImm) : Statement (.vpatx v) := by
  intro e he hw rest
  cases he
  exact vector_imm 0x34 v _ rest (by decide) rfl (fun _ => rfl) hw

theorem mseq (tbl : BitVec 1) : Statement (.mseq tbl) := by
  intro e he hw rest
  cases he
  have l_tbl := tbl.isLt
  obtain ⟨x, hx⟩ : ∃ x, x = 0x01 + tbl.toNat * 2 ^ 32 := ⟨_, rfl⟩
  show decodeFor 2 (leBytes 24 (0x01 + tbl.toNat * 2 ^ 32) ++ rest) = .word (.mseq tbl) (leBytes 24 _).length
  rw [← hx]
  refine matrix_word x rest (by omega) hw ?_
  have f2 : fld x 0 6 = 0x01 := by simp only [fld]; omega
  simp only [mInstr, f2]
  refine cand_eq ?_ ?_
  · congr 1 <;> first | rfl | exact bf_eq (by omega) | exact bit_eq (by omega)
  · simp [fld] <;> omega

theorem mstep (h : MHead) (a b : MOpd) (t : MScale) : Statement (.mstep h a b t) := by
  intro e he hw rest
  cases he
  obtain ⟨x, hx, f1, f2, f3, f4, f5, f6, f7⟩ := step_fields 0x02 h a b t (by decide)
  show decodeFor 2 (encStep 0x02 h a b t ++ rest) = .word (.mstep h a b t) (encStep 0x02 h a b t).length
  rw [hx]
  exact matrix_word x rest f1 hw (by simp [mInstr, f2, f3, f4, f5, f6, f7])

theorem mspz (h : MHead) (a b : MOpd) (t : MScale) : Statement (.mspz h a b t) := by
  intro e he hw rest
  cases he
  obtain ⟨x, hx, f1, f2, f3, f4, f5, f6, f7⟩ := step_fields 0x03 h a b t (by decide)
  show decodeFor 2 (encStep 0x03 h a b t ++ rest) = .word (.mspz h a b t) (encStep 0x03 h a b t).length
  rw [hx]
  exact matrix_word x rest f1 hw (by simp [mInstr, f2, f3, f4, f5, f6, f7])

theorem mbsp (h : MHead) (a b : MOpd) (t : MScale) : Statement (.mbsp h a b t) := by
  intro e he hw rest
  cases he
  obtain ⟨x, hx, f1, f2, f3, f4, f5, f6, f7⟩ := step_fields 0x04 h a b t (by decide)
  show decodeFor 2 (encStep 0x04 h a b t ++ rest) = .word (.mbsp h a b t) (encStep 0x04 h a b t).length
  rw [hx]
  exact matrix_word x rest f1 hw (by simp [mInstr, f2, f3, f4, f5, f6, f7])

theorem mzero (acc : BitVec 2) (lvlen : Bool) (lvl : BitVec 3) (iter : BitVec 2) : Statement (.mzero acc lvlen lvl iter) := by
  intro e he hw rest
  cases he
  have l_acc := acc.isLt
  have l_lvlen := bool_le lvlen
  have l_lvl := lvl.isLt
  have l_iter := iter.isLt
  obtain ⟨x, hx⟩ : ∃ x, x = 0x05 + acc.toNat * 2 ^ 6 + iter.toNat * 2 ^ 8 + lvl.toNat * 2 ^ 10 + lvlen.toNat * 2 ^ 13 := ⟨_, rfl⟩
  show decodeFor 2 (leBytes 24 (0x05 + acc.toNat * 2 ^ 6 + iter.toNat * 2 ^ 8 + lvl.toNat * 2 ^ 10 + lvlen.toNat * 2 ^ 13) ++ rest) = .word (.mzero acc lvlen lvl iter) (leBytes 24 _).length
  rw [← hx]
  refine matrix_word x rest (by omega) hw ?_
  have f2 : fld x 0 6 = 0x05 := by simp only [fld]; omega
  simp only [mInstr, f2]
  refine cand_eq ?_ ?_
  · congr 1 <;> first | rfl | exact bf_eq (by omega) | exact bit_eq (by omega)
  · simp [fld] <;> omega

theorem mscl (acc : BitVec 2) (a : MOpd) : Statement (.mscl acc a) := by
  intro e he hw rest
  cases he
  have l_acc := acc.isLt
  obtain ⟨x, hx⟩ : ∃ x, x = 0x06 + acc.toNat * 2 ^ 6 + mOpdWord a * 2 ^ 32 := ⟨_, rfl⟩
  show decodeFor 2 (leBytes 24 (0x06 + acc.toNat * 2 ^ 6 + mOpdWord a * 2 ^ 32) ++ rest) = .word (.mscl acc a) (leBytes 24 _).length
  rw [← hx]
  have l_a := mOpd_lt a
  have f8 := mOpdOf_eq x 32 a (by omega)
  refine matrix_word x rest (by omega) hw ?_
  have f2 : fld x 0 6 = 0x06 := by simp only [fld]; omega
  simp only [mInstr, f2, f8]
  refine cand_eq ?_ ?_
  · congr 1 <;> first | rfl | exact bf_eq (by omega) | exact bit_eq (by omega)
  · simp [fld] <;> omega

theorem mdtab (addr : BitVec 20) (tslot : BitVec 3) : Statement (.mdtab addr tslot) := by
  intro e he hw rest
  cases he
  have l_addr := addr.isLt
  have l_tslot := tslot.isLt
  obtain ⟨x, hx⟩ : ∃ x, x = 0x07 + addr.toNat * 2 ^ 32 + tslot.toNat * 2 ^ 108 := ⟨_, rfl⟩
  show decodeFor 2 (leBytes 24 (0x07 + addr.toNat * 2 ^ 32 + tslot.toNat * 2 ^ 108) ++ rest) = .word (.mdtab addr tslot) (leBytes 24 _).length
  rw [← hx]
  refine matrix_word x rest (by omega) hw ?_
  have f2 : fld x 0 6 = 0x07 := by simp only [fld]; omega
  simp only [mInstr, f2]
  refine cand_eq ?_ ?_
  · congr 1 <;> first | rfl | exact bf_eq (by omega) | exact bit_eq (by omega)
  · simp [fld] <;> omega

theorem mdrain (o : MOut) : Statement (.mdrain o) := by
  intro e he hw rest
  cases he
  obtain ⟨x, hx, f1, f2, f3, f4, f5, f6, f7, f8⟩ := drain_fields o
  show decodeFor 2 (encDrain o ++ rest) = .word (.mdrain o) (encDrain o).length
  rw [hx]
  exact matrix_word x rest f1 hw (by simp [mInstr, f2, f3, f4, f5, f6, f7, f8])

theorem mSetf (flag : BitVec 5) : Statement (.mSetf flag) := by
  intro e he hw rest
  cases he
  have l_flag := flag.isLt
  obtain ⟨x, hx, f1, f2, f3, f4, f5⟩ := msync_fields 0 flag.toNat 0 0 (by omega) (by omega) (by omega) (by omega)
  show decodeFor 2 (encMsync 0 flag.toNat 0 0 ++ rest) = .word (.mSetf flag) (encMsync 0 flag.toNat 0 0).length
  rw [hx]
  refine matrix_word x rest f1 hw ?_
  obtain ⟨y, hy⟩ : ∃ y, fld x 32 32 = y := ⟨_, rfl⟩
  rw [hy] at f5
  have f6 : fld y 6 3 = 0 := by simp only [fld]; omega
  simp only [mInstr, f2, hy, mSyncInstr, f6, Option.map_some, f3, f4]
  refine cand_eq ?_ ?_
  · congr 1 <;> first | rfl | exact bf_eq (by omega) | exact bit_eq (by omega)
  · simp [fld] <;> omega

theorem mClrf (flag : BitVec 5) : Statement (.mClrf flag) := by
  intro e he hw rest
  cases he
  have l_flag := flag.isLt
  obtain ⟨x, hx, f1, f2, f3, f4, f5⟩ := msync_fields 1 flag.toNat 0 0 (by omega) (by omega) (by omega) (by omega)
  show decodeFor 2 (encMsync 1 flag.toNat 0 0 ++ rest) = .word (.mClrf flag) (encMsync 1 flag.toNat 0 0).length
  rw [hx]
  refine matrix_word x rest f1 hw ?_
  obtain ⟨y, hy⟩ : ∃ y, fld x 32 32 = y := ⟨_, rfl⟩
  rw [hy] at f5
  have f6 : fld y 6 3 = 1 := by simp only [fld]; omega
  simp only [mInstr, f2, hy, mSyncInstr, f6, Option.map_some, f3, f4]
  refine cand_eq ?_ ?_
  · congr 1 <;> first | rfl | exact bf_eq (by omega) | exact bit_eq (by omega)
  · simp [fld] <;> omega

theorem mWaitf (flag : BitVec 5) (clear : Bool) : Statement (.mWaitf flag clear) := by
  intro e he hw rest
  cases he
  have l_flag := flag.isLt
  have l_clear := bool_le clear
  obtain ⟨x, hx, f1, f2, f3, f4, f5⟩ := msync_fields (2 + clear.toNat) flag.toNat 0 0 (by omega) (by omega) (by omega) (by omega)
  show decodeFor 2 (encMsync (2 + clear.toNat) flag.toNat 0 0 ++ rest) = .word (.mWaitf flag clear) (encMsync (2 + clear.toNat) flag.toNat 0 0).length
  rw [hx]
  refine matrix_word x rest f1 hw ?_
  obtain ⟨y, hy⟩ : ∃ y, fld x 32 32 = y := ⟨_, rfl⟩
  rw [hy] at f5
  cases clear
  · have f6 : fld y 6 3 = 2 := by simp only [fld]; simp at f5; omega
    simp only [mInstr, f2, hy, mSyncInstr, f6, Option.map_some, f3, f4]
    refine cand_eq ?_ ?_
    · congr 1; exact bf_eq (by simp at f5 ⊢; omega)
    · simp [fld] at f5 ⊢ <;> omega
  · have f6 : fld y 6 3 = 3 := by simp only [fld]; simp at f5; omega
    simp only [mInstr, f2, hy, mSyncInstr, f6, Option.map_some, f3, f4]
    refine cand_eq ?_ ?_
    · congr 1; exact bf_eq (by simp at f5 ⊢; omega)
    · simp [fld] at f5 ⊢ <;> omega

theorem mTkpost (tok : BitVec 4) (n : BitVec 16) : Statement (.mTkpost tok n) := by
  intro e he hw rest
  cases he
  have l_tok := tok.isLt
  have l_n := n.isLt
  obtain ⟨x, hx, f1, f2, f3, f4, f5⟩ := msync_fields 4 tok.toNat 0 n.toNat (by omega) (by omega) (by omega) (by omega)
  show decodeFor 2 (encMsync 4 tok.toNat 0 n.toNat ++ rest) = .word (.mTkpost tok n) (encMsync 4 tok.toNat 0 n.toNat).length
  rw [hx]
  refine matrix_word x rest f1 hw ?_
  obtain ⟨y, hy⟩ : ∃ y, fld x 32 32 = y := ⟨_, rfl⟩
  rw [hy] at f5
  have f6 : fld y 6 3 = 4 := by simp only [fld]; omega
  simp only [mInstr, f2, hy, mSyncInstr, f6, Option.map_some, f3, f4]
  refine cand_eq ?_ ?_
  · congr 1 <;> first | rfl | exact bf_eq (by omega) | exact bit_eq (by omega)
  · simp [fld] <;> omega

theorem mTkwait (tok : BitVec 4) (n : BitVec 16) : Statement (.mTkwait tok n) := by
  intro e he hw rest
  cases he
  have l_tok := tok.isLt
  have l_n := n.isLt
  obtain ⟨x, hx, f1, f2, f3, f4, f5⟩ := msync_fields 5 tok.toNat 0 n.toNat (by omega) (by omega) (by omega) (by omega)
  show decodeFor 2 (encMsync 5 tok.toNat 0 n.toNat ++ rest) = .word (.mTkwait tok n) (encMsync 5 tok.toNat 0 n.toNat).length
  rw [hx]
  refine matrix_word x rest f1 hw ?_
  obtain ⟨y, hy⟩ : ∃ y, fld x 32 32 = y := ⟨_, rfl⟩
  rw [hy] at f5
  have f6 : fld y 6 3 = 5 := by simp only [fld]; omega
  simp only [mInstr, f2, hy, mSyncInstr, f6, Option.map_some, f3, f4]
  refine cand_eq ?_ ?_
  · congr 1 <;> first | rfl | exact bf_eq (by omega) | exact bit_eq (by omega)
  · simp [fld] <;> omega

theorem mRend (num : BitVec 4) (fin : Bool) : Statement (.mRend num fin) := by
  intro e he hw rest
  cases he
  have l_num := num.isLt
  have l_fin := bool_le fin
  obtain ⟨x, hx, f1, f2, f3, f4, f5⟩ := msync_fields 6 num.toNat fin.toNat 0 (by omega) (by omega) (by omega) (by omega)
  show decodeFor 2 (encMsync 6 num.toNat fin.toNat 0 ++ rest) = .word (.mRend num fin) (encMsync 6 num.toNat fin.toNat 0).length
  rw [hx]
  refine matrix_word x rest f1 hw ?_
  obtain ⟨y, hy⟩ : ∃ y, fld x 32 32 = y := ⟨_, rfl⟩
  rw [hy] at f5
  have f6 : fld y 6 3 = 6 := by simp only [fld]; omega
  simp only [mInstr, f2, hy, mSyncInstr, f6, Option.map_some, f3, f4]
  refine cand_eq ?_ ?_
  · congr 1 <;> first | rfl | exact bf_eq (by omega) | exact bit_eq (by omega)
  · simp [fld] <;> omega

theorem ksort (k : SArg) : Statement (.ksort k) := by
  intro e he hw rest
  cases he
  obtain ⟨x, hx, f1, f2, f3⟩ := sort_fields 1 k (by decide)
  show decodeFor 7 (encSort 1 k ++ rest) = .word (.ksort k) (encSort 1 k).length
  rw [hx]
  exact sort_word x rest f1 hw (by simp [kInstr, f2, f3])

theorem kmerge (k : SArg) : Statement (.kmerge k) := by
  intro e he hw rest
  cases he
  obtain ⟨x, hx, f1, f2, f3⟩ := sort_fields 2 k (by decide)
  show decodeFor 7 (encSort 2 k ++ rest) = .word (.kmerge k) (encSort 2 k).length
  rw [hx]
  exact sort_word x rest f1 hw (by simp [kInstr, f2, f3])

theorem ktopk (k : SArg) : Statement (.ktopk k) := by
  intro e he hw rest
  cases he
  obtain ⟨x, hx, f1, f2, f3⟩ := sort_fields 3 k (by decide)
  show decodeFor 7 (encSort 3 k ++ rest) = .word (.ktopk k) (encSort 3 k).length
  rw [hx]
  exact sort_word x rest f1 hw (by simp [kInstr, f2, f3])

theorem khist (k : SArg) : Statement (.khist k) := by
  intro e he hw rest
  cases he
  obtain ⟨x, hx, f1, f2, f3⟩ := sort_fields 4 k (by decide)
  show decodeFor 7 (encSort 4 k ++ rest) = .word (.khist k) (encSort 4 k).length
  rw [hx]
  exact sort_word x rest f1 hw (by simp [kInstr, f2, f3])

theorem kroute (k : SArg) : Statement (.kroute k) := by
  intro e he hw rest
  cases he
  obtain ⟨x, hx, f1, f2, f3⟩ := sort_fields 5 k (by decide)
  show decodeFor 7 (encSort 5 k ++ rest) = .word (.kroute k) (encSort 5 k).length
  rw [hx]
  exact sort_word x rest f1 hw (by simp [kInstr, f2, f3])

theorem kSetf (flag : BitVec 5) : Statement (.kSetf flag) := by
  intro e he hw rest
  cases he
  have l_flag := flag.isLt
  obtain ⟨x, hx, f1, f2, f3, f4, f5, f6, f7, f8⟩ := kend_fields 0 flag.toNat 0 0 (by omega) (by omega) (by omega) (by omega)
  show decodeFor 7 (encKend 0 flag.toNat 0 0 ++ rest) = .word (.kSetf flag) (encKend 0 flag.toNat 0 0).length
  rw [hx]
  refine sort_word x rest f1 hw ?_
  simp only [kInstr, f2, kEndInstr, f3, f4, f5, f6]
  refine cand_eq ?_ ?_
  · congr 1 <;> first | rfl | exact bf_eq (by omega) | exact bit_eq (by omega)
  · simp [fld] <;> omega

theorem kClrf (flag : BitVec 5) : Statement (.kClrf flag) := by
  intro e he hw rest
  cases he
  have l_flag := flag.isLt
  obtain ⟨x, hx, f1, f2, f3, f4, f5, f6, f7, f8⟩ := kend_fields 1 flag.toNat 0 0 (by omega) (by omega) (by omega) (by omega)
  show decodeFor 7 (encKend 1 flag.toNat 0 0 ++ rest) = .word (.kClrf flag) (encKend 1 flag.toNat 0 0).length
  rw [hx]
  refine sort_word x rest f1 hw ?_
  simp only [kInstr, f2, kEndInstr, f3, f4, f5, f6]
  refine cand_eq ?_ ?_
  · congr 1 <;> first | rfl | exact bf_eq (by omega) | exact bit_eq (by omega)
  · simp [fld] <;> omega

theorem kWaitf (flag : BitVec 5) (clear : Bool) : Statement (.kWaitf flag clear) := by
  intro e he hw rest
  cases he
  have l_flag := flag.isLt
  have l_clear := bool_le clear
  obtain ⟨x, hx, f1, f2, f3, f4, f5, f6, f7, f8⟩ := kend_fields (2 + clear.toNat) flag.toNat 0 0 (by omega) (by omega) (by omega) (by omega)
  show decodeFor 7 (encKend (2 + clear.toNat) flag.toNat 0 0 ++ rest) = .word (.kWaitf flag clear) (encKend (2 + clear.toNat) flag.toNat 0 0).length
  rw [hx]
  refine sort_word x rest f1 hw ?_
  cases clear
  · have f9 : fld x 55 3 = 2 := f3
    simp only [kInstr, f2, kEndInstr, f9, f4, f5, f6]
    refine cand_eq ?_ ?_
    · congr 1; exact bf_eq (by omega)
    · simp [fld] <;> omega
  · have f9 : fld x 55 3 = 3 := f3
    simp only [kInstr, f2, kEndInstr, f9, f4, f5, f6]
    refine cand_eq ?_ ?_
    · congr 1; exact bf_eq (by omega)
    · simp [fld] <;> omega

theorem kTkpost (tok : BitVec 4) (n : BitVec 16) : Statement (.kTkpost tok n) := by
  intro e he hw rest
  cases he
  have l_tok := tok.isLt
  have l_n := n.isLt
  obtain ⟨x, hx, f1, f2, f3, f4, f5, f6, f7, f8⟩ := kend_fields 4 tok.toNat 0 n.toNat (by omega) (by omega) (by omega) (by omega)
  show decodeFor 7 (encKend 4 tok.toNat 0 n.toNat ++ rest) = .word (.kTkpost tok n) (encKend 4 tok.toNat 0 n.toNat).length
  rw [hx]
  refine sort_word x rest f1 hw ?_
  simp only [kInstr, f2, kEndInstr, f3, f4, f5, f6]
  refine cand_eq ?_ ?_
  · congr 1 <;> first | rfl | exact bf_eq (by omega) | exact bit_eq (by omega)
  · simp [fld] <;> omega

theorem kTkwait (tok : BitVec 4) (n : BitVec 16) : Statement (.kTkwait tok n) := by
  intro e he hw rest
  cases he
  have l_tok := tok.isLt
  have l_n := n.isLt
  obtain ⟨x, hx, f1, f2, f3, f4, f5, f6, f7, f8⟩ := kend_fields 5 tok.toNat 0 n.toNat (by omega) (by omega) (by omega) (by omega)
  show decodeFor 7 (encKend 5 tok.toNat 0 n.toNat ++ rest) = .word (.kTkwait tok n) (encKend 5 tok.toNat 0 n.toNat).length
  rw [hx]
  refine sort_word x rest f1 hw ?_
  simp only [kInstr, f2, kEndInstr, f3, f4, f5, f6]
  refine cand_eq ?_ ?_
  · congr 1 <;> first | rfl | exact bf_eq (by omega) | exact bit_eq (by omega)
  · simp [fld] <;> omega

theorem kRend (num : BitVec 4) (fin : Bool) : Statement (.kRend num fin) := by
  intro e he hw rest
  cases he
  have l_num := num.isLt
  have l_fin := bool_le fin
  obtain ⟨x, hx, f1, f2, f3, f4, f5, f6, f7, f8⟩ := kend_fields 6 num.toNat fin.toNat 0 (by omega) (by omega) (by omega) (by omega)
  show decodeFor 7 (encKend 6 num.toNat fin.toNat 0 ++ rest) = .word (.kRend num fin) (encKend 6 num.toNat fin.toNat 0).length
  rw [hx]
  refine sort_word x rest f1 hw ?_
  simp only [kInstr, f2, kEndInstr, f3, f4, f5, f6]
  refine cand_eq ?_ ?_
  · congr 1 <;> first | rfl | exact bf_eq (by omega) | exact bit_eq (by omega)
  · simp [fld] <;> omega

theorem aqPush (rs1 : BitVec 5) : Statement (.aqPush rs1) := by
  intro e he hw rest
  cases he
  have l_rs1 := rs1.isLt
  obtain ⟨x, hx, f1, f2, f3, f4, f5, f6, f7, f8, f9, f10, f11⟩ := encR_fields 0x0B 0 0 rs1.toNat 0 0 (by decide) (by decide) (by omega) (by omega) (by omega) (by decide)
  show decodeFor 4 (encR 0x0B 0 0 rs1.toNat 0 0 ++ rest) = .word (.aqPush rs1) (encR 0x0B 0 0 rs1.toNat 0 0).length
  rw [hx]
  have f12 : sideExt x = some ((.aqPush rs1), 0) := by
    simp only [sideExt, f3, f4]
    refine cand_eq ?_ ?_
    · congr 1 <;> first | rfl | exact bf_eq (by omega) | exact bit_eq (by omega)
    · simp only [fld, bf, BitVec.toNat_ofNat]; omega
  rw [side_word x rest f1 (by omega), side32, if_pos (by rw [f3]; decide), f12, judge_ok (i := (.aqPush rs1)) hw]

theorem aqStat (rd rs1 : BitVec 5) : Statement (.aqStat rd rs1) := by
  intro e he hw rest
  cases he
  have l_rd := rd.isLt
  have l_rs1 := rs1.isLt
  obtain ⟨x, hx, f1, f2, f3, f4, f5, f6, f7, f8, f9, f10, f11⟩ := encR_fields 0x0B 1 rd.toNat rs1.toNat 0 0 (by decide) (by decide) (by omega) (by omega) (by omega) (by decide)
  show decodeFor 4 (encR 0x0B 1 rd.toNat rs1.toNat 0 0 ++ rest) = .word (.aqStat rd rs1) (encR 0x0B 1 rd.toNat rs1.toNat 0 0).length
  rw [hx]
  have f12 : sideExt x = some ((.aqStat rd rs1), 0) := by
    simp only [sideExt, f3, f4]
    refine cand_eq ?_ ?_
    · congr 1 <;> first | rfl | exact bf_eq (by omega) | exact bit_eq (by omega)
    · simp only [fld, bf, BitVec.toNat_ofNat]; omega
  rw [side_word x rest f1 (by omega), side32, if_pos (by rw [f3]; decide), f12, judge_ok (i := (.aqStat rd rs1)) hw]

theorem tkPost (tok : BitVec 4) (rs1 : BitVec 5) : Statement (.tkPost tok rs1) := by
  intro e he hw rest
  cases he
  have l_tok := tok.isLt
  have l_rs1 := rs1.isLt
  obtain ⟨x, hx, f1, f2, f3, f4, f5, f6, f7, f8, f9, f10, f11⟩ := encR_fields 0x0B 2 0 rs1.toNat tok.toNat 0 (by decide) (by decide) (by omega) (by omega) (by omega) (by decide)
  show decodeFor 4 (encR 0x0B 2 0 rs1.toNat tok.toNat 0 ++ rest) = .word (.tkPost tok rs1) (encR 0x0B 2 0 rs1.toNat tok.toNat 0).length
  rw [hx]
  have f12 : sideExt x = some ((.tkPost tok rs1), 0) := by
    simp only [sideExt, f3, f4]
    refine cand_eq ?_ ?_
    · congr 1 <;> first | rfl | exact bf_eq (by omega) | exact bit_eq (by omega)
    · simp only [fld, bf, BitVec.toNat_ofNat]; omega
  rw [side_word x rest f1 (by omega), side32, if_pos (by rw [f3]; decide), f12, judge_ok (i := (.tkPost tok rs1)) hw]

theorem tkWait (tok : BitVec 4) (rs1 : BitVec 5) : Statement (.tkWait tok rs1) := by
  intro e he hw rest
  cases he
  have l_tok := tok.isLt
  have l_rs1 := rs1.isLt
  obtain ⟨x, hx, f1, f2, f3, f4, f5, f6, f7, f8, f9, f10, f11⟩ := encR_fields 0x0B 3 0 rs1.toNat tok.toNat 0 (by decide) (by decide) (by omega) (by omega) (by omega) (by decide)
  show decodeFor 4 (encR 0x0B 3 0 rs1.toNat tok.toNat 0 ++ rest) = .word (.tkWait tok rs1) (encR 0x0B 3 0 rs1.toNat tok.toNat 0).length
  rw [hx]
  have f12 : sideExt x = some ((.tkWait tok rs1), 0) := by
    simp only [sideExt, f3, f4]
    refine cand_eq ?_ ?_
    · congr 1 <;> first | rfl | exact bf_eq (by omega) | exact bit_eq (by omega)
    · simp only [fld, bf, BitVec.toNat_ofNat]; omega
  rw [side_word x rest f1 (by omega), side32, if_pos (by rw [f3]; decide), f12, judge_ok (i := (.tkWait tok rs1)) hw]

theorem cycRd (rd : BitVec 5) (hi : Bool) : Statement (.cycRd rd hi) := by
  intro e he hw rest
  cases he
  have l_rd := rd.isLt
  have l_hi := bool_le hi
  obtain ⟨x, hx, f1, f2, f3, f4, f5, f6, f7, f8, f9, f10, f11⟩ := encR_fields 0x0B 4 rd.toNat 0 hi.toNat 0 (by decide) (by decide) (by omega) (by omega) (by omega) (by decide)
  show decodeFor 4 (encR 0x0B 4 rd.toNat 0 hi.toNat 0 ++ rest) = .word (.cycRd rd hi) (encR 0x0B 4 rd.toNat 0 hi.toNat 0).length
  rw [hx]
  have f12 : sideExt x = some ((.cycRd rd hi), 0) := by
    simp only [sideExt, f3, f4]
    rw [if_pos (by rw [f6]; omega)]
    refine cand_eq ?_ ?_
    · congr 1 <;> first | rfl | exact bf_eq (by omega) | exact bit_eq (by omega)
    · simp only [fld, bf, BitVec.toNat_ofNat]; omega
  rw [side_word x rest f1 (by omega), side32, if_pos (by rw [f3]; decide), f12, judge_ok (i := (.cycRd rd hi)) hw]

theorem lqCfg (q : BitVec 2) (rs1 : BitVec 5) : Statement (.lqCfg q rs1) := by
  intro e he hw rest
  cases he
  have l_q := q.isLt
  have l_rs1 := rs1.isLt
  obtain ⟨x, hx, f1, f2, f3, f4, f5, f6, f7, f8, f9, f10, f11⟩ := encR_fields 0x0B 5 0 rs1.toNat q.toNat 0 (by decide) (by decide) (by omega) (by omega) (by omega) (by decide)
  show decodeFor 4 (encR 0x0B 5 0 rs1.toNat q.toNat 0 ++ rest) = .word (.lqCfg q rs1) (encR 0x0B 5 0 rs1.toNat q.toNat 0).length
  rw [hx]
  have f12 : sideExt x = some ((.lqCfg q rs1), 0) := by
    simp only [sideExt, f3, f4]
    refine cand_eq ?_ ?_
    · congr 1 <;> first | rfl | exact bf_eq (by omega) | exact bit_eq (by omega)
    · simp only [fld, bf, BitVec.toNat_ofNat]; omega
  rw [side_word x rest f1 (by omega), side32, if_pos (by rw [f3]; decide), f12, judge_ok (i := (.lqCfg q rs1)) hw]

theorem stgIssue (rs1 : BitVec 5) : Statement (.stgIssue rs1) := by
  intro e he hw rest
  cases he
  have l_rs1 := rs1.isLt
  obtain ⟨x, hx, f1, f2, f3, f4, f5, f6, f7, f8, f9, f10, f11⟩ := encR_fields 0x2B 0 0 rs1.toNat 0 0 (by decide) (by decide) (by omega) (by omega) (by omega) (by decide)
  show decodeFor 4 (encR 0x2B 0 0 rs1.toNat 0 0 ++ rest) = .word (.stgIssue rs1) (encR 0x2B 0 0 rs1.toNat 0 0).length
  rw [hx]
  have f12 : sideExt x = some ((.stgIssue rs1), 0) := by
    simp only [sideExt, f3, f4]
    refine cand_eq ?_ ?_
    · congr 1 <;> first | rfl | exact bf_eq (by omega) | exact bit_eq (by omega)
    · simp only [fld, bf, BitVec.toNat_ofNat]; omega
  rw [side_word x rest f1 (by omega), side32, if_pos (by rw [f3]; decide), f12, judge_ok (i := (.stgIssue rs1)) hw]

theorem stgDec (rs1 : BitVec 5) : Statement (.stgDec rs1) := by
  intro e he hw rest
  cases he
  have l_rs1 := rs1.isLt
  obtain ⟨x, hx, f1, f2, f3, f4, f5, f6, f7, f8, f9, f10, f11⟩ := encR_fields 0x2B 1 0 rs1.toNat 0 0 (by decide) (by decide) (by omega) (by omega) (by omega) (by decide)
  show decodeFor 4 (encR 0x2B 1 0 rs1.toNat 0 0 ++ rest) = .word (.stgDec rs1) (encR 0x2B 1 0 rs1.toNat 0 0).length
  rw [hx]
  have f12 : sideExt x = some ((.stgDec rs1), 0) := by
    simp only [sideExt, f3, f4]
    refine cand_eq ?_ ?_
    · congr 1 <;> first | rfl | exact bf_eq (by omega) | exact bit_eq (by omega)
    · simp only [fld, bf, BitVec.toNat_ofNat]; omega
  rw [side_word x rest f1 (by omega), side32, if_pos (by rw [f3]; decide), f12, judge_ok (i := (.stgDec rs1)) hw]

theorem ebreak (compressed : Bool) : Statement (.ebreak compressed) := by
  intro e he hw rest
  cases he
  exact side_word 0x100073 rest (by decide) (by decide)

theorem illegalEncoding (sub : BitVec 8) : Statement (.illegalEncoding sub) := by
  intro e he
  cases he

theorem rv32imcBaseInstruction (compressed : Bool) (op : RvOp) : Statement (.rv32imcBaseInstruction compressed op) := by
  intro e he hw rest
  cases he
  exact side_rv op rest hw

theorem coldReset (straps : Nat) : Statement (.coldReset straps) := by
  intro e he
  cases he

theorem warmReset (straps : Nat) : Statement (.warmReset straps) := by
  intro e he
  cases he

theorem packageReset (value : Nat) : Statement (.packageReset value) := by
  intro e he
  cases he

theorem bootReady (images : List FlashImage) (key : List Byte) (found : BootTest) : Statement (.bootReady images key found) := by
  intro e he
  cases he

theorem peerStageAccess (buf off len : Nat) (data : Option (List Byte)) : Statement (.peerStageAccess buf off len data) := by
  intro e he
  cases he

theorem peerRemoteAtomic (buf off n op arg expect : Nat) : Statement (.peerRemoteAtomic buf off n op arg expect) := by
  intro e he
  cases he

theorem peerGrantRequest (part slot rights size attr : Nat) (big : Bool) : Statement (.peerGrantRequest part slot rights size attr big) := by
  intro e he
  cases he

theorem peerGrantResponse (ok : Bool) : Statement (.peerGrantResponse ok) := by
  intro e he
  cases he

theorem coolantConditionChange (rate : Nat) : Statement (.coolantConditionChange rate) := by
  intro e he
  cases he

theorem hostLinkTraining (up cxl : Bool) (width rate : Nat) : Statement (.hostLinkTraining up cxl width rate) := by
  intro e he
  cases he

theorem hostIsoWrite (v : Nat) : Statement (.hostIsoWrite v) := by
  intro e he
  cases he

theorem vfBindWrite (v : Nat) : Statement (.vfBindWrite v) := by
  intro e he
  cases he

theorem queueEnable (cfg : Nat) : Statement (.queueEnable cfg) := by
  intro e he
  cases he

theorem queueNotify (v : Nat) : Statement (.queueNotify v) := by
  intro e he
  cases he

theorem queueResume (v : Nat) : Statement (.queueResume v) := by
  intro e he
  cases he

theorem extAdd (cmd : Nat) : Statement (.extAdd cmd) := by
  intro e he
  cases he

theorem extRelease (cmd : Nat) : Statement (.extRelease cmd) := by
  intro e he
  cases he

theorem hostReadShared (addr : Nat) : Statement (.hostReadShared addr) := by
  intro e he
  cases he

theorem hostReadOwnership (addr : Nat) : Statement (.hostReadOwnership addr) := by
  intro e he
  cases he

theorem hostWriteback (addr : Nat) (data : List Byte) (keep : Bool) : Statement (.hostWriteback addr data keep) := by
  intro e he
  cases he

theorem hostMemWrite (addr : Nat) (data : List Byte) : Statement (.hostMemWrite addr data) := by
  intro e he
  cases he

theorem bisnpResponse (data : List Byte) : Statement (.bisnpResponse data) := by
  intro e he
  cases he

theorem gSlicedWrite (v : Nat) : Statement (.gSlicedWrite v) := by
  intro e he
  cases he

theorem pGroupWrite (v : Nat) : Statement (.pGroupWrite v) := by
  intro e he
  cases he

theorem gSitesWrite (v : Nat) : Statement (.gSitesWrite v) := by
  intro e he
  cases he

theorem pPluginWrite (v : Nat) : Statement (.pPluginWrite v) := by
  intro e he
  cases he

theorem fdescWrite (v : Nat) : Statement (.fdescWrite v) := by
  intro e he
  cases he

theorem attemptFailure (att cause tcause eng : Nat) : Statement (.attemptFailure att cause tcause eng) := by
  intro e he
  cases he

theorem patrolScrub (found : List (ErrAt × Nat)) : Statement (.patrolScrub found) := by
  intro e he
  cases he

theorem firmwareRetest (kind : Nat) (recurs : Bool) : Statement (.firmwareRetest kind recurs) := by
  intro e he
  cases he

theorem cselWrite (v : Nat) : Statement (.cselWrite v) := by
  intro e he
  cases he

theorem profCtlWrite (v : Nat) : Statement (.profCtlWrite v) := by
  intro e he
  cases he

theorem ringConfigWrite (ring off v : Nat) : Statement (.ringConfigWrite ring off v) := by
  intro e he
  cases he

theorem debugAttachWrite (v : Nat) : Statement (.debugAttachWrite v) := by
  intro e he
  cases he

theorem registerWrite (space fn off size v : Nat) : Statement (.registerWrite space fn off size v) := by
  intro e he
  cases he

theorem ucieRetrainComplete (lanes rate : Nat) : Statement (.ucieRetrainComplete lanes rate) := by
  intro e he
  cases he

theorem peerLinkTraining (lanes : Nat) : Statement (.peerLinkTraining lanes) := by
  intro e he
  cases he

theorem scalarLoadArrival : Statement .scalarLoadArrival := by
  intro e he
  cases he

theorem stageLoad : Statement .stageLoad := by
  intro e he
  cases he

theorem stageStore : Statement .stageStore := by
  intro e he
  cases he

theorem stageQnt : Statement .stageQnt := by
  intro e he
  cases he

theorem stageHash : Statement .stageHash := by
  intro e he
  cases he

theorem stageScl : Statement .stageScl := by
  intro e he
  cases he

theorem stageDecode : Statement .stageDecode := by
  intro e he
  cases he

theorem pDbgenWrite (v : Nat) : Statement (.pDbgenWrite v) := by
  intro e he
  cases he

theorem bar : Statement .bar := by
  intro e he hw rest
  cases he
  obtain ⟨x, hx, f1, f2, f3, f4, f5, f6, f7, f8, f9, f10, f11⟩ := c32R_fields 0x19 0 0 0 0 (by decide) (by decide)
  show decodeFor 0 (encC32R 0x19 0 0 0 0 ++ rest) = .word .bar (encC32R 0x19 0 0 0 0).length
  rw [hx]
  exact control_32 x rest f1 f2 hw (by simp [c32Instr, aluInstr, f3, f4, f5, f6, f7, f8, f9, f10, f11])

theorem halt : Statement .halt := by
  intro e he hw rest
  cases he
  obtain ⟨x, hx, f1, f2, f3, f4, f5, f6, f7, f8, f9, f10, f11⟩ := c32R_fields 0x20 0 0 0 0 (by decide) (by decide)
  show decodeFor 0 (encC32R 0x20 0 0 0 0 ++ rest) = .word .halt (encC32R 0x20 0 0 0 0).length
  rw [hx]
  exact control_32 x rest f1 f2 hw (by simp [c32Instr, aluInstr, f3, f4, f5, f6, f7, f8, f9, f10, f11])

theorem nop : Statement .nop := by
  intro e he hw rest
  cases he
  obtain ⟨x, hx, f1, f2, f3, f4, f5, f6, f7, f8, f9, f10, f11⟩ := c32R_fields 0x2D 0 0 0 0 (by decide) (by decide)
  show decodeFor 0 (encC32R 0x2D 0 0 0 0 ++ rest) = .word .nop (encC32R 0x2D 0 0 0 0).length
  rw [hx]
  exact control_32 x rest f1 f2 hw (by simp [c32Instr, aluInstr, f3, f4, f5, f6, f7, f8, f9, f10, f11])

theorem vHalt : Statement .vHalt := by
  intro e he hw rest
  cases he
  obtain ⟨x, hx, f1, f2, f3, f4, f5⟩ := v32_fields 0x0B 0 (by decide) (by omega)
  show decodeFor 1 (encV32 0x0B 0 ++ rest) = .word .vHalt (encV32 0x0B 0).length
  rw [hx]
  refine vector_32 x rest f1 f2 f3 hw ?_
  simp only [v32Op, f4]
  refine cand_eq ?_ ?_
  · congr 1 <;> first | rfl | exact bf_eq (by omega) | exact bit_eq (by omega)
  · simp [fld] <;> omega

theorem vNop : Statement .vNop := by
  intro e he hw rest
  cases he
  obtain ⟨x, hx, f1, f2, f3, f4, f5⟩ := v32_fields 0x0C 0 (by decide) (by omega)
  show decodeFor 1 (encV32 0x0C 0 ++ rest) = .word .vNop (encV32 0x0C 0).length
  rw [hx]
  refine vector_32 x rest f1 f2 f3 hw ?_
  simp only [v32Op, f4]
  refine cand_eq ?_ ?_
  · congr 1 <;> first | rfl | exact bf_eq (by omega) | exact bit_eq (by omega)
  · simp [fld] <;> omega

theorem mend : Statement .mend := by
  intro e he hw rest
  cases he
  obtain ⟨x, hx⟩ : ∃ x, x = 0x0A := ⟨_, rfl⟩
  show decodeFor 2 (leBytes 24 (0x0A) ++ rest) = .word .mend (leBytes 24 _).length
  rw [← hx]
  refine matrix_word x rest (by omega) hw ?_
  have f2 : fld x 0 6 = 0x0A := by simp only [fld]; omega
  simp only [mInstr, f2]
  refine cand_eq ?_ ?_
  · congr 1 <;> first | rfl | exact bf_eq (by omega) | exact bit_eq (by omega)
  · simp [fld] <;> omega

theorem mHalt : Statement .mHalt := by
  intro e he hw rest
  cases he
  obtain ⟨x, hx, f1, f2, f3, f4, f5⟩ := msync_fields 7 0 0 0 (by omega) (by omega) (by omega) (by omega)
  show decodeFor 2 (encMsync 7 0 0 0 ++ rest) = .word .mHalt (encMsync 7 0 0 0).length
  rw [hx]
  refine matrix_word x rest f1 hw ?_
  obtain ⟨y, hy⟩ : ∃ y, fld x 32 32 = y := ⟨_, rfl⟩
  rw [hy] at f5
  have f6 : fld y 6 3 = 7 := by simp only [fld]; omega
  simp only [mInstr, f2, hy, mSyncInstr, f6, Option.map_some, f3, f4]
  refine cand_eq ?_ ?_
  · congr 1 <;> first | rfl | exact bf_eq (by omega) | exact bit_eq (by omega)
  · simp [fld] <;> omega

theorem mnop : Statement .mnop := by
  intro e he hw rest
  cases he
  obtain ⟨x, hx⟩ : ∃ x, x = 0x0B := ⟨_, rfl⟩
  show decodeFor 2 (leBytes 24 (0x0B) ++ rest) = .word .mnop (leBytes 24 _).length
  rw [← hx]
  refine matrix_word x rest (by omega) hw ?_
  have f2 : fld x 0 6 = 0x0B := by simp only [fld]; omega
  simp only [mInstr, f2]
  refine cand_eq ?_ ?_
  · congr 1 <;> first | rfl | exact bf_eq (by omega) | exact bit_eq (by omega)
  · simp [fld] <;> omega

theorem kHalt : Statement .kHalt := by
  intro e he hw rest
  cases he
  obtain ⟨x, hx, f1, f2, f3, f4, f5, f6, f7, f8⟩ := kend_fields 7 0 0 0 (by omega) (by omega) (by omega) (by omega)
  show decodeFor 7 (encKend 7 0 0 0 ++ rest) = .word .kHalt (encKend 7 0 0 0).length
  rw [hx]
  refine sort_word x rest f1 hw ?_
  simp only [kInstr, f2, kEndInstr, f3, f4, f5, f6]
  refine cand_eq ?_ ?_
  · congr 1 <;> first | rfl | exact bf_eq (by omega) | exact bit_eq (by omega)
  · simp [fld] <;> omega

theorem ecall : Statement .ecall := by
  intro e he hw rest
  cases he
  exact side_word 0x73 rest (by decide) (by decide)

theorem pfFunctionLevelReset : Statement .pfFunctionLevelReset := by
  intro e he
  cases he

theorem configRequestRetry : Statement .configRequestRetry := by
  intro e he
  cases he

theorem clusterRetire : Statement .clusterRetire := by
  intro e he
  cases he

theorem chipletSharedLogicFailure : Statement .chipletSharedLogicFailure := by
  intro e he
  cases he

theorem memChipletFailure : Statement .memChipletFailure := by
  intro e he
  cases he

theorem allUcieModulesDown : Statement .allUcieModulesDown := by
  intro e he
  cases he

theorem schFailure : Statement .schFailure := by
  intro e he
  cases he

theorem ucieLaneFailure : Statement .ucieLaneFailure := by
  intro e he
  cases he

theorem ucieRetrain : Statement .ucieRetrain := by
  intro e he
  cases he

theorem ucieRetrainTimeout (lost : Nat) : Statement (.ucieRetrainTimeout lost) := by
  intro e he
  cases he

theorem peerLinkLoss : Statement .peerLinkLoss := by
  intro e he
  cases he

theorem hostLinkDown : Statement .hostLinkDown := by
  intro e he
  cases he

theorem vfEnableSet : Statement .vfEnableSet := by
  intro e he
  cases he

theorem vfEnableClear : Statement .vfEnableClear := by
  intro e he
  cases he

theorem functionLevelReset : Statement .functionLevelReset := by
  intro e he
  cases he

theorem linkFunctionReset : Statement .linkFunctionReset := by
  intro e he
  cases he

theorem flrCompletion : Statement .flrCompletion := by
  intro e he
  cases he

theorem migTrackStart : Statement .migTrackStart := by
  intro e he
  cases he

theorem migTrackStop : Statement .migTrackStop := by
  intro e he
  cases he

theorem migQuiesce : Statement .migQuiesce := by
  intro e he
  cases he

theorem queueQuiesced : Statement .queueQuiesced := by
  intro e he
  cases he

theorem migExport : Statement .migExport := by
  intro e he
  cases he

theorem migImport : Statement .migImport := by
  intro e he
  cases he

theorem migResume : Statement .migResume := by
  intro e he
  cases he

theorem migHarvest : Statement .migHarvest := by
  intro e he
  cases he

theorem queueDisable : Statement .queueDisable := by
  intro e he
  cases he

theorem writeIndexWordRead : Statement .writeIndexWordRead := by
  intro e he
  cases he

theorem nopPacket : Statement .nopPacket := by
  intro e he
  cases he

theorem graphLaunch : Statement .graphLaunch := by
  intro e he
  cases he

theorem nodeLaunch : Statement .nodeLaunch := by
  intro e he
  cases he

theorem bufCreate : Statement .bufCreate := by
  intro e he
  cases he

theorem bufRelease : Statement .bufRelease := by
  intro e he
  cases he

theorem capGrant : Statement .capGrant := by
  intro e he
  cases he

theorem signal : Statement .signal := by
  intro e he
  cases he

theorem waitPacket : Statement .waitPacket := by
  intro e he
  cases he

theorem waitTest : Statement .waitTest := by
  intro e he
  cases he

theorem measureOpen : Statement .measureOpen := by
  intro e he
  cases he

theorem receipt : Statement .receipt := by
  intro e he
  cases he

theorem receiptSnapshot : Statement .receiptSnapshot := by
  intro e he
  cases he

theorem receiptWritten : Statement .receiptWritten := by
  intro e he
  cases he

theorem receiptTokenRefill : Statement .receiptTokenRefill := by
  intro e he
  cases he

theorem energySet : Statement .energySet := by
  intro e he
  cases he

theorem reservedPacketType : Statement .reservedPacketType := by
  intro e he
  cases he

theorem packetCompletion : Statement .packetCompletion := by
  intro e he
  cases he

theorem extAddComplete : Statement .extAddComplete := by
  intro e he
  cases he

theorem extReleaseComplete : Statement .extReleaseComplete := by
  intro e he
  cases he

theorem recallTimeout : Statement .recallTimeout := by
  intro e he
  cases he

theorem graphAdmission : Statement .graphAdmission := by
  intro e he
  cases he

theorem dispatchDecision : Statement .dispatchDecision := by
  intro e he
  cases he

theorem pluginTimeout : Statement .pluginTimeout := by
  intro e he
  cases he

theorem pluginFault : Statement .pluginFault := by
  intro e he
  cases he

theorem coreReadyReport : Statement .coreReadyReport := by
  intro e he
  cases he

theorem streamStart : Statement .streamStart := by
  intro e he
  cases he

theorem slipFault : Statement .slipFault := by
  intro e he
  cases he

theorem stretchLevelApply : Statement .stretchLevelApply := by
  intro e he
  cases he

theorem energyRefillTick : Statement .energyRefillTick := by
  intro e he
  cases he

theorem sliceExpiry : Statement .sliceExpiry := by
  intro e he
  cases he

theorem graceExpiry : Statement .graceExpiry := by
  intro e he
  cases he

theorem tenantSwitchSaveComplete : Statement .tenantSwitchSaveComplete := by
  intro e he
  cases he

theorem attemptRetirement : Statement .attemptRetirement := by
  intro e he
  cases he

theorem launchedDescriptorCheck : Statement .launchedDescriptorCheck := by
  intro e he
  cases he

theorem deadlineFault : Statement .deadlineFault := by
  intro e he
  cases he

theorem tahrTakeTrap : Statement .tahrTakeTrap := by
  intro e he
  cases he

theorem trapResolved : Statement .trapResolved := by
  intro e he
  cases he

theorem loaderDescriptorIssue : Statement .loaderDescriptorIssue := by
  intro e he
  cases he

theorem lqRowArrival : Statement .lqRowArrival := by
  intro e he
  cases he

theorem storerDescriptorIssue : Statement .storerDescriptorIssue := by
  intro e he
  cases he

theorem sideCoreHeldRelease : Statement .sideCoreHeldRelease := by
  intro e he
  cases he

theorem stageTransferComplete : Statement .stageTransferComplete := by
  intro e he
  cases he

theorem cdataRead : Statement .cdataRead := by
  intro e he
  cases he

theorem profCtlClr : Statement .profCtlClr := by
  intro e he
  cases he

theorem pcSample : Statement .pcSample := by
  intro e he
  cases he

theorem counterFlush : Statement .counterFlush := by
  intro e he
  cases he

theorem reuseRegisterExpiry : Statement .reuseRegisterExpiry := by
  intro e he
  cases he

theorem debugHalt : Statement .debugHalt := by
  intro e he
  cases he

theorem debugResume : Statement .debugResume := by
  intro e he
  cases he

theorem debugStep : Statement .debugStep := by
  intro e he
  cases he

theorem debugRead : Statement .debugRead := by
  intro e he
  cases he

theorem debugWrite : Statement .debugWrite := by
  intro e he
  cases he

theorem watchpointImpreciseStop : Statement .watchpointImpreciseStop := by
  intro e he
  cases he

theorem flitCrcError : Statement .flitCrcError := by
  intro e he
  cases he

end Sys2Proof.Laws.Roundtrip
end

