-- ==== Sys2Proof/Laws/Round.lean ====
section
/-! SUPPORT. What rounding to FP32 can do: the result lies within half a unit of its last place (R252, R258, R259). -/

namespace Sys2Proof.Machine

/-- Rounding to nearest even is off by at most half. -/
theorem roundFrac_near (rand : Nat) (odd : Nat → Bool) (p q : Nat) (hq : 0 < q) :
    2 * (roundFrac .rne rand odd p q * q) ≤ 2 * p + q ∧ 2 * p ≤ 2 * (roundFrac .rne rand odd p q * q) + q := by
  have h := Nat.div_add_mod p q
  have hr := Nat.mod_lt p hq
  have hc : p / q * q = q * (p / q) := Nat.mul_comm _ _
  have hs : (p / q + 1) * q = q * (p / q) + q := by rw [Nat.add_mul, hc]; omega
  simp only [roundFrac]
  split
  · next h0 => have : p % q = 0 := by simpa using h0
               omega
  · split
    · omega
    · split
      · omega
      · split <;> omega

/-- Powers of two move between the two sides of an order. -/
theorem shift_le {a b : Nat} (n : Nat) (h : a ≤ b) : a * 2 ^ n ≤ b * 2 ^ n := Nat.mul_le_mul_right _ h
theorem shift_lt {a b : Nat} (n : Nat) (h : a < b) : a * 2 ^ n < b * 2 ^ n := Nat.mul_lt_mul_of_pos_right h (by exact Nat.two_pow_pos n)

theorem scale_le {p q a b c : Nat} (h : q * 2 ^ a ≤ p * 2 ^ c) (hab : b + c ≤ a) : q * 2 ^ b ≤ p := by
  obtain ⟨d, rfl⟩ : ∃ d, a = b + c + d := ⟨a - (b + c), by omega⟩
  refine Nat.le_of_mul_le_mul_right (Nat.le_trans ?_ h) (Nat.two_pow_pos c)
  rw [Nat.mul_assoc, ← Nat.pow_add]
  exact Nat.mul_le_mul_left _ (Nat.pow_le_pow_right (by decide) (by omega))

theorem scale_lt {p q a b c : Nat} (h : p * 2 ^ c < q * 2 ^ a) (hab : a ≤ b + c) : p < q * 2 ^ b := by
  refine Nat.lt_of_mul_lt_mul_right (a := 2 ^ c) (Nat.lt_of_lt_of_le h ?_)
  rw [Nat.mul_assoc, ← Nat.pow_add]
  exact Nat.mul_le_mul_left _ (Nat.pow_le_pow_right (by decide) hab)

/-- p / q lies in [2^(l-k), 2^(l-k+1)) where log2Frac p q is l - k. -/
theorem log2Frac_spec (p q k l : Nat) (hp : 0 < p) (hq : 0 < q) (hl : log2Frac p q = (l : Int) - k) :
    q * 2 ^ l ≤ p * 2 ^ k ∧ p * 2 ^ k < q * 2 ^ (l + 1) := by
  have p1 := Nat.log2_self_le (Nat.pos_iff_ne_zero.mp hp)
  have p2 := Nat.lt_log2_self (n := p)
  have q1 := Nat.log2_self_le (Nat.pos_iff_ne_zero.mp hq)
  have q2 := Nat.lt_log2_self (n := q)
  simp only [log2Frac] at hl
  split at hl
  · obtain ⟨d, hd⟩ : ∃ d, Nat.log2 p = Nat.log2 q + d := ⟨Nat.log2 p - Nat.log2 q, by omega⟩
    rw [show ((Nat.log2 p : Int) - Nat.log2 q).toNat = d by omega] at hl
    rw [hd, Nat.pow_add] at p1
    rw [hd] at p2
    split at hl
    · next h =>
      obtain rfl : l = d + k := by omega
      constructor
      · have := shift_le k h
        rwa [Nat.mul_assoc, ← Nat.pow_add] at this
      · have a := shift_lt k p2
        have b := shift_le (d + 1 + k) q1
        rw [← Nat.pow_add] at a b
        rw [show d + k + 1 = d + 1 + k by omega]
        rw [show Nat.log2 q + d + 1 + k = Nat.log2 q + (d + 1 + k) by omega] at a
        omega
    · next h =>
      constructor
      · have a := shift_lt l q2
        have b := shift_le k p1
        rw [← Nat.pow_add] at a b
        rw [← Nat.pow_add, show Nat.log2 q + d + k = Nat.log2 q + 1 + l by omega] at b
        omega
      · have := shift_lt k (Nat.lt_of_not_le h)
        rwa [Nat.mul_assoc, ← Nat.pow_add, show d + k = l + 1 by omega] at this
  · obtain ⟨d, hd⟩ : ∃ d, Nat.log2 q = Nat.log2 p + d := ⟨Nat.log2 q - Nat.log2 p, by omega⟩
    rw [show (-((Nat.log2 p : Int) - Nat.log2 q)).toNat = d by omega] at hl
    rw [hd, Nat.pow_add] at q1
    rw [hd] at q2
    split at hl
    · next h =>
      obtain rfl : k = d + l := by omega
      constructor
      · have := shift_le l h
        rwa [Nat.mul_assoc, ← Nat.pow_add] at this
      · have a := shift_lt (d + l) p2
        have b := shift_le (l + 1) q1
        rw [← Nat.pow_add] at a b
        rw [← Nat.pow_add, show Nat.log2 p + d + (l + 1) = Nat.log2 p + 1 + (d + l) by omega] at b
        omega
    · next h =>
      obtain rfl : k = d + l + 1 := by omega
      constructor
      · have a := shift_lt l q2
        have b := shift_le (d + l + 1) p1
        rw [← Nat.pow_add] at a b
        rw [show Nat.log2 p + d + 1 + l = Nat.log2 p + (d + l + 1) by omega] at a
        omega
      · have := shift_lt (l + 1) (Nat.lt_of_not_le h)
        rwa [Nat.mul_assoc, ← Nat.pow_add] at this

/-- A fraction scaled by 2^(149-t), over the common scale 2^149. -/
theorem scaleFrac_spec (p q t : Nat) : ∃ s, 0 < s ∧ (scaleFrac p q ((t : Int) - 149)).1 * s = p * 2 ^ 149 ∧
    (scaleFrac p q ((t : Int) - 149)).2 * s = q * 2 ^ t := by
  simp only [scaleFrac]
  split
  · refine ⟨2 ^ 149, Nat.two_pow_pos _, rfl, ?_⟩
    rw [Nat.mul_assoc, ← Nat.pow_add]; congr 2; omega
  · refine ⟨2 ^ t, Nat.two_pow_pos _, ?_, rfl⟩
    rw [Nat.mul_assoc, ← Nat.pow_add]; congr 2; omega

/-- The value of an FP32 magnitude code up to the largest finite one. -/
theorem fp32_magVal_fin (neg : Bool) (c : Nat) (hc : c ≤ fp32F.maxCode) :
    fp32F.magVal neg c = if c < 2 ^ 23 then Val.fin ⟨neg, c, -149⟩
      else .fin ⟨neg, 2 ^ 23 + c % 2 ^ 23, -149 + ((c / 2 ^ 23 : Nat) : Int) - 1⟩ := by
  have hc' : c ≤ 2139095039 := hc
  unfold FloatFmt.magVal
  rw [if_neg (by simp [fp32F]; omega), if_neg (by simp [fp32F]; omega), if_neg (by simp [fp32F]; omega)]
  rfl

/-- The value of an FP32 magnitude code n + t 2^23, for n the rounded mantissa at the exponent t - 149. -/
theorem fp32_magVal (neg : Bool) (n t : Nat) (hn : n ≤ 2 ^ 24) (ht : 0 < t → 2 ^ 23 ≤ n) (hc : n + t * 2 ^ 23 ≤ fp32F.maxCode) :
    ∃ m t' : Nat, fp32F.magVal neg (n + t * 2 ^ 23) = .fin ⟨neg, m, (t' : Int) - 149⟩ ∧ m * 2 ^ t' = n * 2 ^ t ∧ t ≤ t' ∧ t' ≤ t + 1 := by
  rw [fp32_magVal_fin neg _ hc]
  have hK : (2 : Nat) ^ 24 = 2 ^ 23 * 2 := rfl
  have hK0 : 0 < (2 : Nat) ^ 23 := by decide
  rw [hK] at hn
  generalize (2 : Nat) ^ 23 = K at *
  rcases Nat.lt_or_ge n K with h0 | h0
  · obtain rfl : t = 0 := by omega
    refine ⟨n, 0, ?_, rfl, Nat.le_refl _, Nat.le_succ _⟩
    rw [if_pos (by omega)]; simp
  · rw [if_neg (by have := Nat.zero_le (t * K); omega)]
    rcases Nat.lt_or_ge n (K * 2) with h1 | h1
    · refine ⟨n, t, ?_, rfl, Nat.le_refl _, Nat.le_succ _⟩
      have a : (n + t * K) % K = n - K := by
        rw [Nat.add_mul_mod_self_right, Nat.mod_eq_sub_mod h0, Nat.mod_eq_of_lt (by omega)]
      have b : (n + t * K) / K = t + 1 := by
        rw [Nat.add_mul_div_right _ _ hK0, Nat.div_eq_of_lt_le (k := 1) (by omega) (by omega)]; omega
      rw [a, b]
      congr 2 <;> omega
    · obtain rfl : n = K * 2 := by omega
      refine ⟨K, t + 1, ?_, ?_, by omega, Nat.le_refl _⟩
      · rw [show K * 2 + t * K = (t + 2) * K by rw [Nat.add_mul, Nat.mul_comm K 2, Nat.add_comm], Nat.mul_mod_left,
          Nat.mul_div_cancel _ hK0]
        congr 2; omega
      · rw [Nat.pow_succ]; ac_rfl

/-- What rounding p / q > 0 to an FP32 magnitude code does: the mantissa n at the exponent t - 149 (R258, R259). -/
theorem fp32_roundMag (rand p q : Nat) (hp : 0 < p) (hq : 0 < q) :
    ∃ n t : Nat, (fp32F.roundMag .rne rand p q).1 = n + t * 2 ^ 23 ∧ n ≤ 2 ^ 24 ∧ (0 < t → 2 ^ 23 ≤ n) ∧
      (0 < t → q * 2 ^ (t + 23) ≤ p * 2 ^ 149) ∧ p * 2 ^ 149 < q * 2 ^ (t + 24) ∧
      2 * (n * (q * 2 ^ t)) ≤ 2 * (p * 2 ^ 149) + q * 2 ^ t ∧ 2 * (p * 2 ^ 149) ≤ 2 * (n * (q * 2 ^ t)) + q * 2 ^ t := by
  obtain ⟨t, ht, hlo, hhi⟩ : ∃ t : Nat, (if log2Frac p q - (23 : Nat) ≤ -149 then -149 else log2Frac p q - (23 : Nat)) = (t : Int) - 149 ∧
      (0 < t → q * 2 ^ (t + 23) ≤ p * 2 ^ 149) ∧ p * 2 ^ 149 < q * 2 ^ (t + 24) := by
    split
    · next h =>
      refine ⟨0, rfl, by omega, ?_⟩
      obtain ⟨k, hk⟩ : ∃ k : Nat, log2Frac p q = 149 - ((149 + (126 + k) : Nat) : Int) := ⟨(-126 - log2Frac p q).toNat, by omega⟩
      have := (log2Frac_spec p q _ 149 hp hq hk).2
      have e : p * 2 ^ (149 + (126 + k)) = p * 2 ^ 149 * 2 ^ (126 + k) := by rw [Nat.mul_assoc, ← Nat.pow_add]
      exact scale_lt (c := 126 + k) (a := 150) (by rw [← e]; exact this) (by omega)
    · next h =>
      refine ⟨(log2Frac p q + 126).toNat, by omega, ?_⟩
      have := log2Frac_spec p q 149 ((log2Frac p q + 126).toNat + 23) hp hq (by omega)
      exact ⟨fun _ => this.1, this.2⟩
  have hr : (fp32F.roundMag .rne rand p q).1 = roundFrac .rne rand (fun n => (n + t * 2 ^ 23) % 2 == 1)
      (scaleFrac p q ((t : Int) - 149)).1 (scaleFrac p q ((t : Int) - 149)).2 + t * 2 ^ 23 := by
    simp only [FloatFmt.roundMag, show fp32F.mbits = 23 from rfl, show fp32F.qmin = -149 from rfl, ht,
      show ((t : Int) - 149 - -149).toNat = t by omega]
  rw [hr]
  clear hr ht
  obtain ⟨s, hs, s1, s2⟩ := scaleFrac_spec p q t
  have hx2 : 0 < (scaleFrac p q ((t : Int) - 149)).2 := by
    rcases Nat.eq_zero_or_pos (scaleFrac p q ((t : Int) - 149)).2 with h | h
    · rw [h] at s2
      have := Nat.mul_pos hq (Nat.two_pow_pos t)
      omega
    · exact h
  have near := roundFrac_near rand (fun n => (n + t * 2 ^ 23) % 2 == 1) (scaleFrac p q ((t : Int) - 149)).1 _ hx2
  generalize roundFrac .rne rand (fun n => (n + t * 2 ^ 23) % 2 == 1) (scaleFrac p q ((t : Int) - 149)).1 (scaleFrac p q ((t : Int) - 149)).2 = n at *
  have n1 := Nat.mul_le_mul_right s near.1
  have n2 := Nat.mul_le_mul_right s near.2
  simp only [Nat.add_mul, Nat.mul_assoc, s1, s2] at n1 n2
  have q2 : q * 2 ^ (t + 23) = 2 ^ 23 * (q * 2 ^ t) := by rw [Nat.pow_add]; ac_rfl
  have q3 : q * 2 ^ (t + 24) = 2 ^ 24 * (q * 2 ^ t) := by rw [Nat.pow_add]; ac_rfl
  rw [q2] at hlo
  rw [q3] at hhi
  have hQ : 0 < q * 2 ^ t := Nat.mul_pos hq (Nat.two_pow_pos t)
  obtain ⟨P, hP⟩ : ∃ P, P = p * 2 ^ 149 := ⟨_, rfl⟩
  rw [← hP] at hlo hhi n1 n2 ⊢
  clear hP s1
  have n3 : n ≤ 2 ^ 24 := by
    refine Nat.le_of_not_lt fun h => ?_
    have := Nat.mul_le_mul_right (q * 2 ^ t) (show 2 ^ 24 + 1 ≤ n from h)
    generalize q * 2 ^ t = Q at *
    omega
  have n4 : 0 < t → 2 ^ 23 ≤ n := by
    intro h0
    have := hlo h0
    refine Nat.le_of_not_lt fun h => ?_
    have := Nat.mul_le_mul_right (q * 2 ^ t) (show n + 1 ≤ 2 ^ 23 from h)
    rw [Nat.add_mul] at this
    generalize q * 2 ^ t = Q at *
    generalize n * Q = nQ at *
    omega
  refine ⟨n, t, rfl, n3, n4, ?_, ?_, ?_, ?_⟩
  · rwa [q2]
  · rwa [q3]
  · omega
  · omega


/-- The pattern of an FP32 magnitude code with its sign. -/
theorem fp32_signed (neg : Bool) (c : Nat) (hc : c < 2 ^ 31) :
    let y : Word := BitVec.ofNat 32 (fp32F.signed neg c)
    ofFp32 y = fp32F.magVal neg c ∧ y.getLsbD 31 = neg := by
  intro y
  have hw : y.toNat = if neg then c + 2 ^ 31 else c := by
    simp only [y, BitVec.toNat_ofNat]
    rw [Nat.mod_eq_of_lt]
    · rfl
    · cases neg <;> simp [FloatFmt.signed, fp32F] <;> omega
  have hb : (y.toNat / 2 ^ 31 % 2 == 1) = neg := by rw [hw]; cases neg <;> simp <;> omega
  refine ⟨?_, ?_⟩
  · have hm : y.toNat % 2 ^ 31 = c := by rw [hw]; cases neg <;> simp <;> omega
    show fp32F.magVal (y.toNat / 2 ^ 31 % 2 == 1) (y.toNat % 2 ^ 31) = _
    rw [hb, hm]
  · rw [BitVec.getLsbD, Nat.testBit_eq_decide_div_mod_eq, ← hb]
    rfl

/-- Narrowing p / q > 0 to FP32 to nearest even: the infinity where p / q is 2^128 - 2^103 or more, else a finite value
m 2^(t-149) at most half a unit 2^(t-149) off. -/
theorem fp32_narrowFrac (neg : Bool) (p q : Nat) (hp : 0 < p) (hq : 0 < q) :
    let y : Word := BitVec.ofNat 32 (fp32F.narrowFrac .rne 0 neg p q).code
    (y = fpInf neg ∧ q * ((2 ^ 25 - 1) * 2 ^ 103) ≤ p) ∨
    (∃ m t : Nat, ofFp32 y = .fin ⟨neg, m, (t : Int) - 149⟩ ∧ p < q * 2 ^ 128 ∧ y.getLsbD 31 = neg ∧
      (1 < t → q * 2 ^ (t + 22) ≤ p * 2 ^ 149) ∧
      2 * (m * (q * 2 ^ t)) ≤ 2 * (p * 2 ^ 149) + q * 2 ^ t ∧ 2 * (p * 2 ^ 149) ≤ 2 * (m * (q * 2 ^ t)) + q * 2 ^ t) := by
  intro y
  obtain ⟨n, t, hc, hn, hn0, hlo, hhi, n1, n2⟩ := fp32_roundMag 0 p q hp hq
  have hy : y = BitVec.ofNat 32 (fp32F.signed neg (if n + t * 2 ^ 23 ≤ fp32F.maxCode then n + t * 2 ^ 23 else 0x7F800000)) := by
    simp only [y, FloatFmt.narrowFrac, hc]
    split
    · next h => simp [fp32F] at h
    · split <;> simp [fp32F]
  clear_value y
  subst hy
  by_cases h : n + t * 2 ^ 23 ≤ fp32F.maxCode
  · rw [if_pos h]
    have h' : n + t * 8388608 ≤ 2139095039 := h
    have ht : t ≤ 253 := by
      refine Nat.le_of_not_lt fun h1 => ?_
      have := hn0 (by omega)
      omega
    obtain ⟨m, t', hm, he, h1, h2⟩ := fp32_magVal neg n t hn hn0 h
    have hc31 : n + t * 2 ^ 23 < 2 ^ 31 := by omega
    have hT : q * 2 ^ t ≤ q * 2 ^ t' := Nat.mul_le_mul_left _ (Nat.pow_le_pow_right (by decide) h1)
    have hmn : m * (q * 2 ^ t') = n * (q * 2 ^ t) := by
      rw [Nat.mul_left_comm, he, Nat.mul_left_comm]
    refine .inr ⟨m, t', ?_, ?_, ?_, ?_, ?_, ?_⟩
    · rw [← hm]; exact (fp32_signed neg _ hc31).1
    · exact scale_lt hhi (by omega)
    · exact (fp32_signed neg _ hc31).2
    · intro h3
      exact Nat.le_trans (Nat.mul_le_mul_left q (Nat.pow_le_pow_right (by decide) (by omega))) (hlo (by omega))
    · rw [hmn]; omega
    · rw [hmn]; omega
  · rw [if_neg h]
    refine .inl ⟨by cases neg <;> rfl, ?_⟩
    have h' : ¬ n + t * 8388608 ≤ 2139095039 := h
    rcases Nat.lt_or_ge t 254 with h1 | h1
    · obtain rfl : t = 253 := by omega
      obtain rfl : n = 2 ^ 24 := by omega
      refine Nat.le_of_mul_le_mul_right (c := 2 ^ 150) ?_ (Nat.two_pow_pos _)
      generalize p = P at *
      omega
    · exact Nat.le_trans (Nat.mul_le_mul_left q (by decide)) (scale_le (b := 128) (hlo (by omega)) (by omega))

theorem unscale {a b c d : Nat} (h : 2 * (a * d) ≤ 2 * (b * d) + c * d) (hd : 0 < d) : 2 * a ≤ 2 * b + c := by
  refine Nat.le_of_mul_le_mul_right (c := d) ?_ hd
  rw [Nat.add_mul, Nat.mul_assoc, Nat.mul_assoc]; exact h

/-- The integer square root. -/
theorem isqrtFix_spec (n k r : Nat) (h1 : r * r ≤ n) (h2 : n < (r + 2 ^ k) * (r + 2 ^ k)) :
    isqrtFix n k r * isqrtFix n k r ≤ n ∧ n < (isqrtFix n k r + 1) * (isqrtFix n k r + 1) := by
  induction k generalizing r with
  | zero => exact ⟨h1, h2⟩
  | succ k ih =>
    rw [isqrtFix]
    split
    · next h => exact ih _ h (by rwa [Nat.pow_succ, Nat.mul_two, ← Nat.add_assoc] at h2)
    · next h => exact ih _ h1 (Nat.lt_of_not_le h)

/-- A fixed-point magnitude v at the scale 2^320, short of overflow, rounded to FP32: a finite value at most half a unit off. -/
theorem fixed_near (neg : Bool) (v : Nat) (hv : v < fixOne * ((2 ^ 25 - 1) * 2 ^ 103)) :
    let y : Word := BitVec.ofNat 32 (fp32F.narrowFrac .rne 0 neg v fixOne).code
    ∃ m t : Nat, ofFp32 y = .fin ⟨neg, m, (t : Int) - 149⟩ ∧ y.getLsbD 31 = neg ∧ (1 < t → 2 ^ (t + 193) ≤ v) ∧
      2 * (m * 2 ^ (t + 171)) ≤ 2 * v + 2 ^ (t + 171) ∧ 2 * v ≤ 2 * (m * 2 ^ (t + 171)) + 2 ^ (t + 171) := by
  intro y
  rcases Nat.eq_zero_or_pos v with rfl | hp
  · have hy : y = if neg then 0x80000000 else 0 := by cases neg <;> decide
    rw [hy]
    refine ⟨0, 0, ?_, ?_, by omega, by omega, by omega⟩ <;> cases neg <;> rfl
  · rcases fp32_narrowFrac neg v fixOne hp (Nat.two_pow_pos 320) with ⟨_, h⟩ | ⟨m, t, h1, -, h2, h3, h4, h5⟩
    · exact absurd hv (Nat.not_lt.mpr h)
    · have e : fixOne * 2 ^ t = 2 ^ (t + 171) * 2 ^ 149 := by
        rw [fixOne, ← Nat.pow_add, ← Nat.pow_add]; congr 1; omega
      rw [e, ← Nat.mul_assoc m] at h4 h5
      refine ⟨m, t, h1, h2, ?_, ?_, ?_⟩
      · intro h
        have := h3 h
        rw [fixOne, ← Nat.pow_add, show 320 + (t + 22) = t + 193 + 149 by omega, Nat.pow_add] at this
        exact Nat.le_of_mul_le_mul_right this (Nat.two_pow_pos _)
      · exact unscale h4 (Nat.two_pow_pos _)
      · exact unscale h5 (Nat.two_pow_pos _)

/-- A special function's value is acceptable where its fallback is. -/
theorem specialOr_ok (k : Nat) (w : Word) (ok : Word → Bool) (f : Word) (h : ok f = true) : ok (specialOr k w ok f) = true := by
  unfold specialOr; split <;> assumption

/-- What a special function given by a fixed-point value can answer: a finite value within its bound (R272). -/
theorem specialNear_near (k : Nat) (w : Word) (ulps tol : Nat) (neg : Bool) (v : Nat)
    (hv : v < fixOne * ((2 ^ 25 - 1) * 2 ^ 103)) (h : 1 ≤ ulps ∨ v ≤ fixOne ∧ 2 ^ 298 ≤ tol) :
    nearFix ulps tol (if neg then -(v : Int) else v) (specialNear k w ulps tol neg v) = true := by
  have key := specialOr_ok k w
    (fun y => nearFix ulps tol (if neg then -(v : Int) else v) y && (y.getLsbD 31 == neg || tol != 0))
    (BitVec.ofNat 32 (fp32F.narrowFrac .rne 0 neg v fixOne).code) ?_
  · exact (Bool.and_eq_true _ _ ▸ key : _ ∧ _).1
  · obtain ⟨m, t, h1, h2, h3, h4, h5⟩ := fixed_near neg v hv
    simp only [h2, beq_self_eq_true, Bool.true_or, Bool.and_true, nearFix, h1, Bool.or_eq_true, decide_eq_true_eq, magFix,
      show ((t : Int) - 149 + 320).toNat = t + 171 by omega, Nat.one_mul]
    have hd : 2 * ((if neg = true then -((m * 2 ^ (t + 171) : Nat) : Int) else (m * 2 ^ (t + 171) : Nat)) -
        if neg = true then -(v : Int) else v).natAbs ≤ 2 ^ (t + 171) := by
      generalize m * 2 ^ (t + 171) = a at *
      generalize 2 ^ (t + 171) = u at *
      cases neg <;> simp <;> omega
    generalize ((if neg = true then -((m * 2 ^ (t + 171) : Nat) : Int) else (m * 2 ^ (t + 171) : Nat)) -
        if neg = true then -(v : Int) else v).natAbs = d at *
    rcases h with h | ⟨ha, hb⟩
    · left
      have := Nat.mul_le_mul_right (2 ^ (t + 171)) h
      omega
    · right
      have ht : t ≤ 127 := by
        refine Nat.le_of_not_lt fun hc => ?_
        have := Nat.le_trans (h3 (by omega)) ha
        have := (Nat.pow_le_pow_iff_right (a := 2) (by decide)).mp this
        omega
      have := Nat.pow_le_pow_right (n := 2) (by decide) (show t + 171 ≤ 298 by omega)
      omega

end Sys2Proof.Machine
end

