-- ==== Sys2Proof/Laws/Rows.lean ====
section
/-! SUPPORT. What a row of a vector instruction leaves on its way: the lanes of a held row write, and what issuing an
instruction does when its first row is read without a trap. -/

namespace Sys2Proof.Machine

set_option Elab.async false

/-! Lanes of a row built lane by lane -/

theorem laneN_ofNat (r l : Nat) (hr : r < 2 ^ 2048) : laneN (BitVec.ofNat 2048 r) l = r / 2 ^ (32 * l) % 2 ^ 32 := by
  unfold laneN
  rw [BitVec.extractLsb'_toNat, BitVec.toNat_ofNat, Nat.mod_eq_of_lt hr, Nat.shiftRight_eq_div_pow]

/-- A number built of digits below its base has those digits. -/
theorem digits_fold (B : Nat) (hB : 0 < B) (g : Nat → Nat) (hg : ∀ l, g l < B) (m : Nat) :
    (List.range m).foldl (fun a l => a + g l * B ^ l) 0 < B ^ m ∧
      ∀ l < m, (List.range m).foldl (fun a l => a + g l * B ^ l) 0 / B ^ l % B = g l := by
  induction m with
  | zero => simp
  | succ m ih =>
    simp only [List.range_succ, List.foldl_append, List.foldl_cons, List.foldl_nil]
    generalize (List.range m).foldl (fun a l => a + g l * B ^ l) 0 = R at ih
    obtain ⟨h1, h2⟩ := ih
    have hgm := hg m
    constructor
    · have : (g m + 1) * B ^ m ≤ B * B ^ m := Nat.mul_le_mul_right _ hgm
      rw [Nat.add_mul, Nat.one_mul] at this
      rw [Nat.pow_succ, Nat.mul_comm (B ^ m)]
      omega
    · intro l hl
      rcases Nat.lt_or_ge l m with h | h
      · have e : B ^ m = B ^ l * (B * B ^ (m - l - 1)) := by
          rw [← Nat.pow_succ', ← Nat.pow_add]; congr 1; omega
        rw [e, ← Nat.mul_assoc, Nat.mul_comm (g m), Nat.mul_assoc, Nat.add_mul_div_left _ _ (Nat.pow_pos hB),
          Nat.mul_left_comm, Nat.add_mul_mod_self_left]
        exact h2 l h
      · have e : l = m := by omega
        subst e
        rw [Nat.mul_comm (g l), Nat.add_mul_div_left _ _ (Nat.pow_pos hB), Nat.div_eq_of_lt h1, Nat.zero_add,
          Nat.mod_eq_of_lt hgm]

theorem rowMV_eq (f : Nat → Option Nat) :
    rowMV f = (BitVec.ofNat 2048 ((List.range 64).foldl (fun a l => a + (if (f l).isSome then 0xFFFFFFFF else 0) * 2 ^ (32 * l)) 0),
      BitVec.ofNat 2048 ((List.range 64).foldl (fun a l => a + ((f l).getD 0 % 2 ^ 32) * 2 ^ (32 * l)) 0)) := by
  have h : ∀ (ls : List Nat) (a b : Nat),
      ls.foldl (fun (acc : Nat × Nat) l =>
        match f l with
        | none => acc
        | some v => (acc.1 + 0xFFFFFFFF * 2 ^ (32 * l), acc.2 + v % 2 ^ 32 * 2 ^ (32 * l))) (a, b) =
      (ls.foldl (fun a l => a + (if (f l).isSome then 0xFFFFFFFF else 0) * 2 ^ (32 * l)) a,
        ls.foldl (fun a l => a + ((f l).getD 0 % 2 ^ 32) * 2 ^ (32 * l)) b) := by
    intro ls
    induction ls with
    | nil => intros; rfl
    | cons l ls ih =>
      intro a b
      simp only [List.foldl_cons]
      cases h : f l with
      | none =>
        have := ih a b
        simpa only [Option.isSome_none, Option.getD_none, Bool.false_eq_true, if_false, Nat.zero_mul, Nat.zero_mod,
          Nat.add_zero] using this
      | some v => exact ih _ _
  unfold rowMV
  generalize List.range 64 = ls
  exact congrArg (fun r : Nat × Nat => (BitVec.ofNat 2048 r.1, BitVec.ofNat 2048 r.2)) (h ls 0 0)

/-- A held row write takes exactly the lanes that have a value. -/
theorem write_isRow (op : VOp) (n row : Nat) (f : Nat → Option Nat) : (op.write n row f).IsRow (op.t + n) row f := by
  refine ⟨(rowMV f).1, (rowMV f).2, rfl, ?_⟩
  intro l hl
  rw [rowMV_eq]
  have e (l : Nat) : (2 : Nat) ^ (32 * l) = (2 ^ 32) ^ l := Nat.pow_mul 2 32 l
  have d1 := digits_fold (2 ^ 32) (by decide) (fun l => if (f l).isSome then 0xFFFFFFFF else 0)
    (by intro l; split <;> decide) 64
  have d2 := digits_fold (2 ^ 32) (by decide) (fun l => (f l).getD 0 % 2 ^ 32) (fun l => Nat.mod_lt _ (by decide)) 64
  have e64 : ((2 : Nat) ^ 32) ^ 64 = 2 ^ 2048 := (Nat.pow_mul 2 32 64).symm
  simp only [e64] at d1 d2
  simp only [e]
  rw [laneN_ofNat _ _ d1.1, laneN_ofNat _ _ d2.1, e, d1.2 l hl, d2.2 l hl]
  exact ⟨fun h => by simp [h], fun v h => by simp [h]⟩

/-- The ordinary row write goes to the active and guarded lanes. -/
theorem put_isRow (op : VOp) (n k : Nat) (x : VIn) (v : Nat → Nat) :
    (op.put n k x.g v).IsRow (op.t + (n + k)) (op.drow k) (op.guarded x v) := by
  have := write_isRow op (n + k) (op.drow k) (fun l => if op.on x.g l then some (v l) else none)
  have e : op.guarded x v = fun l => if op.on x.g l then some (v l) else none := by
    funext l
    simp [VOp.guarded, VOp.on]
  rw [e]
  exact this

/-! Reading a row and issuing -/

/-- A row that does not trap leaves its effects and the next row on their way. -/
theorem vrowStep_ok (s : State) (op : VOp) (ps : List Pend)
    (h : op.result s (op.got ++ [s.vrowIn op]) (s.vrowIn op) op.got.length = .ok ps) :
    s.vrowStep op = s.rowDone op ps := by
  unfold State.vrowStep State.rowDone State.withDue
  simp only [State.vrowIn, VOp.drow] at h ⊢
  rw [h]
  rfl

@[simp] theorem flagTernary_cur (s : State) (cause : Nat) : (s.flagTernary cause).cur = s.cur := by
  unfold State.flagTernary; split <;> rfl

/-- A row that traps does so precisely, with its number in the status and nothing else changed but VSTAT.T3BAD by the
ternary-code trap. -/
theorem vrowStep_trap (s : State) (op : VOp) (cause addr : Nat)
    (h : op.result s (op.got ++ [s.vrowIn op]) (s.vrowIn op) op.got.length = .trap cause addr) :
    s.vrowStep op =
      (s.flagTernary cause).takeTrap ⟨cause, 0, 1, op.pc, 0, BitVec.ofNat 32 op.got.length, addr, none, op.replay⟩ := by
  unfold State.vrowStep
  simp only [State.vrowIn, VOp.drow] at h ⊢
  rw [h]

@[simp] theorem rowDone_frozen (s : State) (op : VOp) (ps : List Pend) :
    (s.rowDone op ps).core.frozen = s.core.frozen := by
  simp [State.rowDone, State.withDue]

@[simp] theorem rowDone_trapped (s : State) (op : VOp) (ps : List Pend) : (s.rowDone op ps).trapped = s.trapped := by
  unfold State.rowDone State.withDue
  exact State.trapped_setCore s _ rfl

/-- A vector instruction whose first row does not trap issues. -/
theorem vstart_ok (s : State) (op : VOp) (len : Nat) (hf : s.trapped = false) (ps : List Pend)
    (h : op.result s (op.got ++ [s.vrowIn op]) (s.vrowIn op) op.got.length = .ok ps) :
    s.vstart op len = (s.vrowStep op).nextWord len op.rows := by
  unfold State.vstart
  simp [vrowStep_ok s op ps h, hf]

/-- One whose first row traps does nothing but take its trap. -/
theorem vstart_trap (s : State) (op : VOp) (len : Nat) (cause addr : Nat) (he : s.cur.eng = 1)
    (h : op.result s (op.got ++ [s.vrowIn op]) (s.vrowIn op) op.got.length = .trap cause addr) :
    s.vstart op len =
      (s.flagTernary cause).takeTrap ⟨cause, 0, 1, op.pc, 0, BitVec.ofNat 32 op.got.length, addr, none, op.replay⟩ := by
  unfold State.vstart
  have ht := (s.flagTernary cause).takeTrap_trapped ⟨cause, 0, 1, op.pc, 0, BitVec.ofNat 32 op.got.length, addr, none, op.replay⟩
    (by simp [streamOf, he])
  simp [vrowStep_trap s op cause addr h, ht]

end Sys2Proof.Machine
end

