-- ==== Sys2Proof/Tests/Slice0.lean ====
section
/-! SUPPORT. Tests: ill-formed instructions that each check refuses, words written out from the encoding tables of
chapter 15, states that meet the hypotheses of the statements, and single steps on small states.  What a test expects
is computed by hand from the rule that its comment names. -/

namespace Sys2Proof.Tests

set_option Elab.async false

open Sys2Proof.Machine

/-! Well-formedness: one ill-formed term for each check (15 R337) -/

def aMem : MemArg := ⟨0, 0, 0, 0, 2, 4⟩
def aVec : VArg := ⟨12, 0, 0, 0, 0, 0, 0, 0, .v64 0⟩
def aImm : VImm := ⟨12, 0, 0, 0, 0, 0, 0, 0⟩
def aHead : MHead := ⟨false, 0, false, 0, 0, false, 0, 0, 0⟩
def aOpd : MOpd := ⟨0, 0, 0⟩
def aScale : MScale := ⟨0, 0, false, 0, 0⟩
def aOut : MOut := ⟨0, 0, false, 0, 0, 0, false, false, 0, 0, false, false, 0, 0, 0, 0⟩
def aSort : SArg := ⟨0, 0, 0, 0, false, false, 0⟩

/-- The terms that the ill-formed ones differ from by one field are well formed. -/
theorem test_wellformed_terms : [Instr.ldW aMem, .stW aMem, .cas aMem, .casp aMem, .acq aMem, .rel aMem, .fence ⟨0, 0, 0, 0, 0, 0⟩,
    .vadd aVec, .vcmp aVec, .vpop aVec, .vfill aImm, .vlds aImm, .mstep aHead aOpd aOpd aScale, .mdrain aOut, .ksort aSort,
    .pand 11 11 11, .loop 1 1 0 0 0, .padd 0 2 4, .capqry 2 0 false, .stg 4].all Instr.WellFormed = true := by decide

/-- Reserved operands that are not zero (SUB 2). -/
theorem test_illformed_reserved : [Instr.ldW { aMem with aux := 1 }, .stW { aMem with aux := 1 }, .acq { aMem with order := 1 },
    .rel { aMem with aux := 1 }, .rel { aMem with order := 1 }, .fence aMem, .mstep { aHead with int := true, round := 1 } aOpd aOpd aScale,
    .mstep { aHead with int := true, scaled := true } aOpd aOpd aScale, .mstep aHead aOpd aOpd { aScale with sca := 1 },
    .mbsp aHead aOpd aOpd { aScale with scb := 1 }, .mspz aHead aOpd aOpd { aScale with coded := true }, .ksort { aSort with param := 1 },
    .kmerge { aSort with param := 128 }, .ktopk { aSort with param := 320 }, .khist { aSort with desc := true },
    .kroute { aSort with desc := true, kfmt := 1 }, .vabs { aVec with ty := 0, vb := 1 }, .vpop { aVec with va := 4 },
    .vcmp { aVec with vd := 128 }, .vbcast { aVec with vb := 64 }, .vredsum { aVec with ext := .v96 1 0 0 0 0 },
    .vsts { aImm with va := 1 }, .vlds { aImm with imm := 1 }].any Instr.WellFormed = false := by decide

/-- Reserved values of defined fields (SUB 3). -/
theorem test_illformed_values : [Instr.ldW { aMem with scope := 6 }, .ldW { aMem with order := 2 }, .stW { aMem with order := 1 },
    .amoadd false { aMem with order := 4 }, .cas { aMem with order := 8 }, .acq { aMem with scope := 6 }, .loop 1 0 0 0 0, .loopw 1 0 0 0 0,
    .pand 12 0 0, .por 0 12 0, .pxor 0 0 12, .pnot 12 0, .pmovPredicate 0 12, .pset 12, .pclr 13, .pcnt 0 12,
    .mstep { aHead with round := 3 } aOpd aOpd aScale, .mstep { aHead with lvl := 6 } aOpd aOpd aScale,
    .mstep { aHead with iter := 3 } aOpd aOpd aScale, .mspz aHead { aOpd with agen := 2 } aOpd aScale,
    .mbsp aHead aOpd { aOpd with agen := 3 } aScale, .mstep { aHead with scaled := true } aOpd aOpd { aScale with sca := 3 },
    .mstep aHead aOpd aOpd { aScale with coded := true, segf := 3, segnm1 := 1 }, .mzero 0 false 7 0, .mscl 0 { aOpd with agen := 2 },
    .mdrain { aOut with round := 3 }, .mdrain { aOut with pack := 4 }, .mdrain { aOut with dstsel := 1 }, .mdrain { aOut with lvl := 6 },
    .ksort { aSort with kfmt := 4 }, .kroute aSort, .vadd { aVec with guard := 13 }, .vadd { aVec with ty := 6 },
    .vabs { aVec with ty := 1 }, .vadd { aVec with ext := .v64 3 }, .vadd { aVec with ext := .v96 0 0 0 6 0 }, .vcmp { aVec with vd := 0x70 },
    .vcmp { aVec with vd := 12 }, .vfill { aImm with ty := 3 }, .vfill { aImm with iter := 3 }, .vrng { aImm with guard := 14 }].any
    Instr.WellFormed = false := by decide

/-- Odd registers in pair fields and register groups (SUB 4), reserved side-core forms, and the illegal word itself. -/
theorem test_illformed_registers : [Instr.padd 1 0 0, .psub 0 1 0, .padd 0 0 1, .paddw 1 0 0, .pmov 0 1, .paddi 1 0 0, .ldD { aMem with d := 1 },
    .ldW { aMem with base := 1 }, .stD { aMem with d := 3 }, .acq { aMem with d := 1 }, .amoadd true { aMem with aux := 1 },
    .cas { aMem with base := 3 }, .casp { aMem with aux := 1 }, .launch 0 1, .launchContinuation 0 3, .capqry 1 0 false, .rdtime 1,
    .stg 2, .stgdec 1, .vcmp { aVec with vd := 1 }, .rv32imcBaseInstruction false (.branch 2 0 0 0),
    .rv32imcBaseInstruction false (.load 3 0 0 0), .rv32imcBaseInstruction false (.store 3 0 0 0),
    .rv32imcBaseInstruction true (.opImm 5 0 0 0), .illegalEncoding 1].any Instr.WellFormed = false := by decide

/-! Decoding: words written field by field from the tables (15 R338 to R353) -/

/-- `sub s3, s4, s5`: C32R, op 1, fn 1 (R338, R342). -/
theorem test_decode_sub : decodeFor 0 (leBytes 4 (1 * 2 ^ 2 + 3 * 2 ^ 8 + 4 * 2 ^ 14 + 5 * 2 ^ 20 + 1 * 2 ^ 26)) = .word (.sub 3 4 5) 4 := by
  decide

/-- `slti s3, s4, -1`: C32I, op 9 (R341). -/
theorem test_decode_slti : decodeFor 0 (leBytes 4 (9 * 2 ^ 2 + 3 * 2 ^ 8 + 4 * 2 ^ 14 + 0xFFF * 2 ^ 20)) = .word (.slti 3 4 0xFFF) 4 := by
  decide

/-- `blt s1, s2, -2`: C32B, op 0x12, a in [13:8] and b in [19:14] (R338, R341). -/
theorem test_decode_blt : decodeFor 0 (leBytes 4 (0x12 * 2 ^ 2 + 1 * 2 ^ 8 + 2 * 2 ^ 14 + 0xFFE * 2 ^ 20)) = .word (.blt 1 2 0xFFE) 4 := by
  decide

/-- `ld.d` of pair s10 at pair s12 + 16, scope 2, acquire: C64 op 1, size 5 (R339, R343). -/
theorem test_decode_ld : decodeFor 0 (leBytes 8 (1 + 1 * 2 ^ 2 + 10 * 2 ^ 8 + 12 * 2 ^ 14 + 5 * 2 ^ 20 + 16 * 2 ^ 32 + 1 * 2 ^ 56 + 2 * 2 ^ 60)) =
    .word (.ldD ⟨2, 1, 16, 0, 12, 10⟩) 8 := by decide

/-- `amomaxu` of a word: C64 op 3, fn 7 (R343). -/
theorem test_decode_amo : decodeFor 0 (leBytes 8 (1 + 3 * 2 ^ 2 + 1 * 2 ^ 8 + 2 * 2 ^ 14 + 7 * 2 ^ 20 + 9 * 2 ^ 26 + 4 * 2 ^ 32)) =
    .word (.amomaxu false ⟨0, 0, 4, 9, 2, 1⟩) 8 := by decide

/-- `loopw`: C96 op 3, BODYW, stages, identifier and the limit (R344). -/
theorem test_decode_loopw : decodeFor 0 (leBytes 12 (2 + 3 * 2 ^ 2 + 6 * 2 ^ 14 + (5 + 1 * 2 ^ 16 + 0x21 * 2 ^ 24) * 2 ^ 32 + 100 * 2 ^ 64)) =
    .word (.loopw 6 5 1 0x21 100) 12 := by decide

/-- An odd base pair is SUB 4, a reserved scope SUB 3, a reserved size SUB 1: the lowest is reported (R337). -/
theorem test_decode_illegal : decodeFor 0 (leBytes 8 (1 + 1 * 2 ^ 2 + 13 * 2 ^ 14 + 4 * 2 ^ 20)) = .word (.illegalEncoding 4) 8 ∧
    decodeFor 0 (leBytes 8 (1 + 1 * 2 ^ 2 + 13 * 2 ^ 14 + 4 * 2 ^ 20 + 6 * 2 ^ 60)) = .word (.illegalEncoding 3) 8 ∧
    decodeFor 0 (leBytes 8 (1 + 1 * 2 ^ 2 + 13 * 2 ^ 14 + 6 * 2 ^ 20 + 6 * 2 ^ 60)) = .word (.illegalEncoding 1) 8 := by decide

/-- `vshape 0x123` and `pxor p4, p2, p1`: V32, guard 12 (R345). -/
theorem test_decode_v32 : decodeFor 1 (leBytes 4 (1 * 2 ^ 2 + 12 * 2 ^ 8 + 0x123 * 2 ^ 12)) = .word (.vshape 0x123) 4 ∧
    decodeFor 1 (leBytes 4 (3 * 2 ^ 2 + 12 * 2 ^ 8 + 4 * 2 ^ 12 + 2 * 2 ^ 16 + 1 * 2 ^ 20 + 2 * 2 ^ 24)) = .word (.pxor 4 2 1) 4 := by
  decide

/-- `vmad.f32`: V64 op 4, type 2 (R346, R347). -/
theorem test_decode_v64 : decodeFor 1 (leBytes 8 (1 + 4 * 2 ^ 2 + 12 * 2 ^ 8 + 2 * 2 ^ 12 + 16 * 2 ^ 16 + 32 * 2 ^ 28 + 48 * 2 ^ 40 + 1 * 2 ^ 52 +
    2 * 2 ^ 55 + 3 * 2 ^ 58 + 1 * 2 ^ 61)) = .word (.vmad ⟨12, 2, 16, 32, 48, 1, 2, 3, .v64 1⟩) 8 := by decide

/-- `vadd` with strides, level and flag, and `vfill` with its value: the two V96 forms (R348, R349). -/
theorem test_decode_v96 : decodeFor 1 (leBytes 12 (2 + 1 * 2 ^ 2 + 12 * 2 ^ 8 + 16 * 2 ^ 16 + 32 * 2 ^ 28 + 48 * 2 ^ 40 +
      (2 + 3 * 2 ^ 8 + 4 * 2 ^ 16 + 5 * 2 ^ 24 + 1 * 2 ^ 27) * 2 ^ 64)) =
      .word (.vadd ⟨12, 0, 16, 32, 48, 0, 0, 0, .v96 2 3 4 5 1⟩) 12 ∧
    decodeFor 1 (leBytes 12 (2 + 0x32 * 2 ^ 2 + 12 * 2 ^ 8 + 8 * 2 ^ 16 + 0x12345678 * 2 ^ 64)) =
      .word (.vfill ⟨12, 0, 8, 0, 0, 0, 0, 0x12345678⟩) 12 := by decide

/-- `mstep` of a scaled step, and `mdrain` to `sq1` (R350, R351). -/
theorem test_decode_matrix : decodeFor 2 (leBytes 24 (2 + 1 * 2 ^ 6 + 5 * 2 ^ 14 + 6 * 2 ^ 20 + 1 * 2 ^ 29 + (0x100 + 1 * 2 ^ 20) * 2 ^ 32 +
      (0x200 + 3 * 2 ^ 22) * 2 ^ 64 + (1 + 2 * 2 ^ 2) * 2 ^ 96)) =
      .word (.mstep ⟨true, 0, false, 6, 5, false, 0, 0, 1⟩ ⟨0, 1, 0x100⟩ ⟨3, 0, 0x200⟩ ⟨0, 0, false, 2, 1⟩) 24 ∧
    decodeFor 2 (leBytes 24 (8 + 2 * 2 ^ 6 + 1 * 2 ^ 27 + (0x30 + 1 * 2 ^ 24) * 2 ^ 128 + (0x40 + 5 * 2 ^ 28) * 2 ^ 160)) =
      .word (.mdrain ⟨1, 0, false, 0, 0, 2, false, false, 1, 0, false, false, 0x30, 5, 0, 0x40⟩) 24 := by decide

/-- `msync` of KIND 5, a token wait (R351). -/
theorem test_decode_msync : decodeFor 2 (leBytes 24 (9 + (3 + 5 * 2 ^ 6 + 17 * 2 ^ 16) * 2 ^ 32)) = .word (.mTkwait 3 17) 24 := by decide

/-- `ksort` with values, descending, and the padding word of R352. -/
theorem test_decode_sort : decodeFor 7 (leBytes 8 (1 + 1 * 2 ^ 6 + 1 * 2 ^ 10 + 1 * 2 ^ 11 + 4 * 2 ^ 12 + 7 * 2 ^ 19 + 9 * 2 ^ 37)) =
      .word (.ksort ⟨0, 9, 7, 4, true, true, 1⟩) 8 ∧ decodeFor 7 (leBytes 8 0x0200000000000006) = .word (.kTkpost 0 0) 8 := by decide

/-- `aq.push x5` and `tk.post` of token 9 (R353); `mul x1, x2, x3` and `c.addi x8, 1` of RISC-V (R196). -/
theorem test_decode_side : decodeFor 4 (leBytes 4 (0x0B + 5 * 2 ^ 15)) = .word (.aqPush 5) 4 ∧
    decodeFor 5 (leBytes 4 (0x0B + 2 * 2 ^ 12 + 6 * 2 ^ 15 + 9 * 2 ^ 20)) = .word (.tkPost 9 6) 4 ∧
    decodeFor 4 (leBytes 4 (0x33 + 1 * 2 ^ 7 + 2 * 2 ^ 15 + 3 * 2 ^ 20 + 1 * 2 ^ 25)) =
      .word (.rv32imcBaseInstruction false (.mulDiv 0 1 2 3)) 4 ∧
    decodeFor 4 (leBytes 2 (0x0001 + 8 * 2 ^ 7 + 1 * 2 ^ 2)) = .word (.rv32imcBaseInstruction true (.opImm 0 8 8 1)) 2 := by decide

/-- The encoder writes the same words (R339, R348). -/
theorem test_encode : encode (.ldD ⟨2, 1, 16, 0, 12, 10⟩) =
      leBytes 8 (1 + 1 * 2 ^ 2 + 10 * 2 ^ 8 + 12 * 2 ^ 14 + 5 * 2 ^ 20 + 16 * 2 ^ 32 + 1 * 2 ^ 56 + 2 * 2 ^ 60) ∧
    encode (.vfill ⟨12, 0, 8, 0, 0, 0, 0, 0x12345678⟩) =
      leBytes 12 (2 + 0x32 * 2 ^ 2 + 12 * 2 ^ 8 + 8 * 2 ^ 16 + 0x12345678 * 2 ^ 64) := by decide

/-! Small states: a job of one core at site 9, its attempt, and a buffer of 64 KiB bound to its first slot -/

def aBuf : Buffer := { Buffer.none with size := 65536, refs := 1, chunks := [(0, 0)] }

def aBind : Bind := ⟨4, true, true, false, 0, false, false, none, none⟩

def aInst : Inst := { Inst.empty with site := 9, clusters := [0], t0 := some 0, gclk := 5 }

/-- A control section: a word, a loop with a body of one word, and room. -/
def aCode : List Byte :=
  encode (.add 1 2 3) ++ encode (.loop 1 2 0 7 9) ++ encode (.addi 4 4 1) ++ encode (.jmp 0x3FF) ++ encode .halt

def aAtt : Attempt :=
  { Attempt.empty with
    gang := 1, limit := 65536, insts := [aInst], binds := [aBind], args := [1, 2, 3, 4, 5, 6, 7, 8]
    code := [(0, aCode), (1, encode (.vSetf 3)), (2, encode .mnop), (4, [0x73, 0, 0, 0])] }

def aStm : Stream := { Stream.absent with present := true, started := true, stall := 0 }

def aCore : Core :=
  { Core.idle with job := some ⟨0, 0, 0⟩, streams := [(0, aStm), (1, aStm), (2, aStm), (4, { aStm with pc := 0x80000000 }), (7, aStm)] }

def aState : State :=
  { State.reset with
    cur := ⟨9, 0, 0⟩, atts := [(0, aAtt)], cores := [(1152, aCore)], bufs := [(0, aBuf)]
    nodes := [(0, { Node.empty with phase := .running 0 })], graphs := [(0, Graph.empty)] }

/-- The state with another core at its focus, and with another stream in focus. -/
def core_ (c : Core) : State := aState.setCore c
def eng_ (e : Nat) : State := { aState with cur := ⟨9, 0, e⟩ }

/-- Registers s1 on set. -/
def regs_ (xs : List Word) : State := core_ { aCore with s := xs.zipIdx.map fun x => (x.2 + 1, x.1) }

/-- The pair s2, s3 names the bound buffer at an offset. -/
def at_ (off : Word) : State := core_ { aCore with s := [(2, off), (3, 0xFFE00000)] }

def bufs_ (b : Buffer) : State := { at_ 0 with bufs := [(0, b)] }
def att_ (t : Attempt) : State := { at_ 0 with atts := [(0, t)] }

/-- The core's cluster translates the buffer's first chunk. -/
def seen (s : State) : State := { s with tlb := [(288, [⟨0, 0, 0, 0, 0⟩])] }

/-! Hypotheses: decoding, stepping, invariants -/

theorem wit_roundtrip : Instr.family (.add 1 2 3) = some 0 ∧ (Instr.add 1 2 3).WellFormed = true := by decide

/-- A state in which the control stream's word is next. -/
def stepping : State := { aState with turns := [.stream 1152 0, .fin 1152] }

theorem wit_step : let f : State := { stepping with cur := { coreAt 1152 with eng := 0 }, turns := [.fin 1152] }
    stepping.stopped = false ∧ stepping.turns = .stream 1152 0 :: [.fin 1152] ∧ f.stm.present = true ∧ f.stm.ended = false ∧
    f.stm.started = true ∧ f.stm.turn = false ∧ f.stm.meet = .away ∧ f.stm.latch = none ∧ f.stm.replay = none ∧ f.stm.free ≤ f.core.clk ∧
    f.core.load = none ∧ f.core.blocked = none ∧ f.trapped = false ∧ f.issues (iterOf (.add 1 2 3)).1 (iterOf (.add 1 2 3)).2 = true ∧
    decodeFor 0 ((f.section_ 0).drop (sectOff 0 f.stm.pc)) = .word (.add 1 2 3) 4 := by decide

theorem wit_step_side : let f : State := { aState with cur := { coreAt 1152 with eng := 4 } }
    0x80000000 ≤ f.stm.pc ∧ f.stm.pc ≤ 0x80007FFF ∧ decodeFor 4 ((f.section_ 4).drop (sectOff 4 f.stm.pc)) = .word .ecall 4 := by
  decide +kernel

theorem wit_stopped : let s : State := { aState with stopped := true }
    s.stopped = true ∧ nextReset s.inputs = none := by decide

theorem wit_invariant : stepping.MemoriesWf ∧ ∃ t, step stepping = .next t := by
  refine ⟨⟨by decide, by decide, by decide, by decide⟩, _, rfl⟩

/-- The machine steps: the word's sum is on its way, and the PC has moved (R174, R367). -/
theorem test_step_issues : (match step stepping with
    | .next t => (t.core.pend, t.stm.pc)
    | _ => ([], 0)) = ([⟨1, .sreg 1 0⟩], 4) := by decide

/-- The first instruction after reset (R341). -/
theorem test_fetch_word : (match step (State.reset.withFetchWord 32 (8 + 5 * 2 ^ 8 + 7 * 2 ^ 20)) with
    | .next t => t.core.pend
    | _ => []) = [⟨1, .sreg 5 7⟩] := by decide

/-! Hypotheses: arithmetic and control flow -/

theorem wit_frame_computing : (∃ t, exec (.add 1 2 3) aState = .next t) ∧ ∃ u, exec (.rdtime 2) aState = .next u :=
  ⟨⟨_, rfl⟩, _, rfl⟩

theorem wit_due : let c : Core := { aCore with pend := [⟨1, .sreg 5 9⟩] }
    (5 : BitVec 6) ≠ 0 ∧ (core_ c).core.pend = [⟨1, .sreg (5 : BitVec 6).toNat 9⟩] ∧ (core_ c).core.sqWait = [] ∧
    1 ≤ (core_ { c with clk := 1 }).core.clk ∧ (core_ c).core.clk < 1 := by decide

/-- Targets: the section's words, one byte short of it, its end, and the mapped body of a loop that is not active (R381, R385). -/
theorem wit_branch_targets : aState.canLand 0 = true ∧ aState.canLand 4 = true ∧ aState.canLand 24 = true ∧ aState.canLand (-4) = false ∧
    ((aState.section_ 0).length : Int) = 28 ∧ aState.canLand 28 = false ∧ aState.canLand 16 = false ∧ aState.canLand 20 = false ∧
    (core_ { aCore with loops := [⟨false, 7, 1, 0, 9, 16, 20, 3, 1⟩], streams := [(0, { aStm with pc := 16 })] }).canLand 20 = true := by decide

theorem wit_branch_conditions : let s := regs_ [1, 2, 1, 0xFFFFFFFF]
    s.sreg 1 = s.sreg 3 ∧ s.sreg 1 ≠ s.sreg 2 ∧ (s.sreg 4).toInt < (s.sreg 1).toInt ∧ (s.sreg 1).toInt ≤ (s.sreg 2).toInt ∧
    (s.sreg 1).toNat < (s.sreg 4).toNat ∧ (s.sreg 1).toNat ≤ (s.sreg 3).toNat := by decide

def aLoop (stop : Nat) : LoopRec := ⟨false, 7, 1, 0, 9, 16, stop, 3, 1⟩

theorem wit_loops : (core_ { aCore with loops := List.replicate 4 (aLoop 16) }).core.loops.length = 4 ∧
    (core_ { aCore with loops := List.replicate 3 (aLoop 16) }).core.loops.length < 4 ∧
    ¬ (aState.stm.pc + 12 + 4 * (1 : BitVec 14).toNat - 4 ≤ (aLoop 8).stop) ∧ aState.stm.pc + 12 + 4 * (1 : BitVec 14).toNat - 4 ≤ (aLoop 12).stop ∧
    ((regs_ [10]).sreg 1).toNat > (9 : Word).toNat ∧ ((regs_ [9]).sreg 1).toNat = (9 : Word).toNat ∧ ((regs_ [0]).sreg 1).toNat = 0 := by decide

theorem wit_loop_turns : (aLoop 16).iter + 1 < (aLoop 16).trips ∧ { aLoop 16 with iter := 2 }.trips ≤ { aLoop 16 with iter := 2 }.iter + 1 ∧
    (let s := core_ { aCore with s := [(1, 5)], loops := [{ aLoop 16 with cond := true }] }
     s.core.loops = { aLoop 16 with cond := true } :: [] ∧ s.sreg (BitVec.ofNat 6 1) ≠ 0 ∧ (aLoop 16).iter + 1 < (aLoop 16).limit) ∧
    { aLoop 16 with iter := 8 }.limit ≤ { aLoop 16 with iter := 8 }.iter + 1 ∧ aState.sreg (BitVec.ofNat 6 1) = 0 := by decide

theorem wit_loops_nested : Instr.family (.loop 1 1 0 7 9) = some 0 ∧ (∃ t, exec (.loop 1 1 0 7 9) (regs_ [3]) = .next t) ∧
    (regs_ [3]).core.LoopsOk := by
  refine ⟨rfl, ⟨_, rfl⟩, by decide, List.Pairwise.nil⟩

/-! Hypotheses: flags, tokens, rendezvous -/

theorem wit_flags : aState.cur.eng = 0 ∧ (eng_ 1).cur.eng = 1 ∧ (eng_ 2).cur.eng = 2 ∧ (eng_ 7).cur.eng = 7 ∧
    (core_ { aCore with ef := 8 }).core.ef.getLsbD 3 = true ∧ aState.core.ef.getLsbD 3 = false ∧ aState.core.efClaim.getLsbD 3 = false ∧
    (core_ { aCore with ef := 8, efClaim := 8 }).core.efClaim.getLsbD 3 = true := by decide

theorem wit_tokens : let s := core_ { aCore with s := [(1, 3)], tk := [(4, 3)] }
    (s.sreg 1).toNat % 65536 ≠ 0 ∧ (s.sreg 2).toNat % 65536 = 0 ∧ s.stm.latch.getD 3 ≤ Tab.get 0 s.core.tk 4 ∧ Tab.get 0 s.core.tk 4 < s.stm.latch.getD 4 ∧
    (core_ { aCore with posts := [⟨0, 0, 0, 4, 0xFFFF, none⟩] }).core.posts = [⟨0, 0, 0, 4, 0xFFFF, none⟩] ∧
    Tab.get 0 aState.core.tk 4 + 0xFFFF ≤ 0xFFFF ∧ 0xFFFF < Tab.get 0 s.core.tk 4 + 0xFFFF := by decide

theorem wit_bar : aState.job.inst < aState.att.insts.length ∧
    ({ aState with atts := [(0, { aAtt with insts := [{ aInst with gclk := 20, bars := [(1, (1, 8))] }] })] } : State).barOpen 1 = true := by decide

/-! Hypotheses: memory -/

/-- Every outcome of R205, in its order. -/
theorem wit_access : let a := 0xFFE0 * 2 ^ 48
    aState.access (a + 2) 4 4 true false true = .trap 0x03 0 none ∧ aState.access (0xFFFF * 2 ^ 48) 8 8 false true true = .trap 0x04 4 none ∧
    aState.access (0xFFFF * 2 ^ 48 + 1) 8 0 true false true = .trap 0x04 5 none ∧ aState.access (0xFFFF * 2 ^ 48) 8 8 true false true = .args 0 ∧
    aState.access 0 4 4 true false true = .trap 0x04 1 none ∧ aState.access (a + 2 ^ 48) 4 4 true false true = .trap 0x04 1 none ∧
    (att_ { aAtt with binds := [{ aBind with empty := true }] }).access a 4 4 true false true = .trap 0x04 2 none ∧
    (bufs_ { aBuf with revoked := true }).access a 4 4 true false true = .trap 0x04 3 none ∧
    (att_ { aAtt with binds := [{ aBind with r := false }] }).access a 4 4 true false true = .trap 0x04 4 none ∧
    (bufs_ { aBuf with attr := 1 }).access a 4 4 false true true = .trap 0x04 6 none ∧
    aState.access (a + 65536) 4 4 true false true = .trap 0x04 5 none ∧ aState.access (a + 65532) 4 4 true false true = .buf 0 65532 ∧
    (bufs_ { aBuf with peer := some 1 }).access a 4 4 true false true = .trap 0x05 0 none ∧
    (bufs_ { aBuf with peer := some 1 }).access a 4 4 true false false = .buf 0 0 ∧
    (bufs_ { aBuf with chunks := [] }).access a 4 4 true false true = .trap 0x06 1 (some (0, 0)) := by decide

theorem wit_address : let off (s : State) (m : MemArg) : Int := ((s.pair m.base).toNat % 2 ^ 48 : Nat) + m.imm.toInt
    off (at_ 0) { aMem with imm := 0xFFFFFF } < 0 ∧ 0 ≤ off (at_ 8) aMem ∧ off (at_ 8) aMem < 2 ^ 48 ∧
    2 ^ 48 ≤ off (core_ { aCore with s := [(2, 0xFFFFFFFF), (3, 0xFFE0FFFF)] }) { aMem with imm := 1 } := by decide

theorem wit_loads : (at_ 8).memAccess aMem 4 4 true false true = .buf 0 8 ∧ (at_ 8).watchTrap 0 8 4 false = none ∧ (at_ 8).lostAt 0 8 4 = false ∧
    (core_ { aCore with s := [(2, 0), (3, 0xFFFF0000)] }).memAccess aMem 4 4 true false true = .args 0 ∧
    (at_ 9).memAccess aMem 4 4 true false true = .trap 0x03 0 none := by decide

/-- A buffer whose chunk lies on a site that is out of service is lost, and a watched byte stops an access. -/
theorem wit_loads_stop : let watched : State := { at_ 8 with
      parts := [(0, { Partition.reset with attach := true, dbgen := true })], atts := [(0, { aAtt with watches := [⟨1, 0, 0, 0x100, true, true⟩] })] }
    watched.watchTrap 0 8 4 false = some 1 ∧
    ({ bufs_ { aBuf with chunks := [(0, 1 * 2 ^ 40)] } with sites := [(1, Site.reset 0)] } : State).lostAt 0 8 4 = true := by decide

def aLoad : LoadRec := ⟨4, false, .buf 0 8, 4, true, .add, 5, 0, 0, 0, none, false, 0, false⟩

theorem wit_arrival : (core_ { aCore with load := some aLoad }).core.load = some aLoad ∧ aLoad.arrived = false ∧ aLoad.at_ = .buf 0 8 ∧
    (aState.buf 0).peer = none ∧ Memory.wf (aState.buf 0).mem = true ∧ aState.fencedCore 1152 = false ∧ aState.homeLate = false ∧
    aState.translated 288 0 0 8 4 = false ∧ (seen aState).translated 288 0 0 8 4 = true ∧ aState.cached 0 = true ∧
    aState.homeBusy 0 8 4 true = false ∧ (aState.buf 0).badAt 8 4 = false ∧ aState.bad1 288 0 8 4 = false ∧
    aState.bad2 9 0 8 4 = false ∧ aState.lostAt 0 8 4 = false ∧ ((bufs_ { aBuf with bad := [0] }).buf 0).badAt 8 4 = true ∧
    (bufs_ { aBuf with bad := [0] }).bad1 288 0 8 4 = true ∧ (Tab.find aState.bufs 0).isSome = true ∧
    AmoOp.add.new 4 7 5 0 = some 12 ∧ AmoOp.cas.new 4 7 5 6 = none ∧ aLoad.d = (4 : BitVec 6).toNat := by decide

/-- An atomic on a peer's buffer, its port up and down, before it is sent and after. -/
theorem wit_arrival_peer : let b : Buffer := { aBuf with peer := some 2 }
    ((bufs_ b).buf 0).peer = some 2 ∧ ((bufs_ b).port 2).state = 0 ∧
    (({ bufs_ b with ports := [(2, { PeerPort.reset with state := 2 })] } : State).port 2).state = 2 ∧
    { aLoad with asked := true }.asked = true ∧ aLoad.asked = false ∧ { aLoad with order := 2, op := .add }.op ≠ .read := by decide

/-- A line that a host holds exclusively makes the access wait for its recall. -/
def lent : State :=
  { bufs_ { aBuf with ext := some 0, size := 2 ^ 28, chunks := [(0, 0)] } with
    exts := [(0, { Extent.pool with st := 2, buf := 0, links := 1 })], lines := [(0, ⟨1, true, 0⟩)] }

theorem wit_arrival_waits : lent.homeBusy 0 8 4 true = true ∧ lent.cached 0 = false ∧
    lent.homeTurn (· == { lent.cur with eng := 0 }) true [(0, 8, 4)] = false ∧
    aState.homeTurn (· == { aState.cur with eng := 0 }) true [(0, 8, 4)] = true ∧
    (bufs_ { aBuf with peer := some 2 }).homeLate = false ∧
    (({ bufs_ aBuf with ports := [(2, { PeerPort.reset with state := 4 })] } : State).port 2).state = 4 ∧
    ({ at_ 8 with homeq := [.devFence 1152] } : State).fencedCore 1152 = true := by decide

theorem wit_stores : (at_ 8).memAccess aMem 4 4 false true true = .buf 0 8 ∧ (at_ 8).watchTrap 0 8 4 true = none ∧ (at_ 8).lostAt 0 8 4 = false ∧
    (at_ 8).homeLate = false ∧ ({ at_ 8 with homeq := [.devWrite 0 0 [] false none] } : State).homeLate = true ∧
    (at_ 8).cached 0 = true ∧ (at_ 8).queuedOver 0 8 4 = false ∧ (at_ 8).homeBusy 0 8 4 true = false ∧
    ({ aMem with scope := 4, order := 2 } : MemArg).order.toNat % 4 = 2 := by decide

/-- A store to a line that an earlier write waits for at its home, and one to a lent line, are queued there (04 R88, R89). -/
theorem wit_stores_queued : ({ at_ 8 with homeq := [.devWrite 0 12 [1] false none] } : State).queuedOver 0 8 4 = true ∧
    ({ at_ 8 with homeq := [.devWrite 0 12 [1] false none] } : State).homeBusy 0 8 4 true = true ∧
    lent.homeBusy 0 8 4 true = true ∧ lent.cached 0 = false ∧ (bufs_ { aBuf with ext := some 0 }).cached 0 = false ∧
    (bufs_ { aBuf with ext := some 0 }).homeBusy 0 8 4 true = false := by decide +kernel

/-- A store writes its register's low half, little-endian, into its cluster's L1 and not the memory (R203, R207, R374); an
atomic at package scope adds to the word at its home (R208, R376). -/
theorem test_store : (match exec (.stH ⟨0, 0, 2, 0, 2, 4⟩) (core_ { aCore with s := [(2, 4), (3, 0xFFE00000), (4, 0x11223344)] }) with
    | .next t => (t.bytes1 288 0 5 4, (t.buf 0).mem)
    | _ => ([], [])) = ([0, 0x44, 0x33, 0], []) := by decide +kernel

theorem test_atomic : (match exec .scalarLoadArrival
      (seen { core_ { aCore with load := some { aLoad with scope := 4 } } with bufs := [(0, { aBuf with mem := [(8, 0xFF)] })] }) with
    | .next t => ((t.buf 0).mem, t.core.load.map (·.v))
    | _ => ([], none)) = ([(8, 4), (9, 1)], some 0xFF) := by decide +kernel

/-! Hypotheses: nest tables, launches, capabilities, stage commands, system registers, traps -/

theorem wit_nest : (24 : BitVec 5).toNat < 25 ∧ 25 ≤ (25 : BitVec 5).toNat ∧ (decide (aState.att.cls ≤ 2) && decide (aState.att.codeCls ≤ 2)) = true ∧
    (let s := att_ { aAtt with cls := 3, codeCls := 3 }; (decide (s.att.cls ≤ 2) && decide (s.att.codeCls ≤ 2)) = false) ∧
    aState.core.nestOk 0 = false ∧ (core_ { aCore with nest := (List.range 6).map fun i => (i, 1) }).core.nestOk 0 = true ∧
    aState.core.go.getLsbD 0 = false ∧ aState.core.goPend.getLsbD 0 = false ∧ (core_ { aCore with goPend := 1 }).core.goPend.getLsbD 0 = true := by
  decide

theorem wit_launch : (∃ o, (at_ 0).launchAt ((at_ 0).pair 2).toNat = .buf 0 o) ∧ (at_ 0).poolEntry 0 ≠ none ∧ (at_ 0).att.posted < 255 ∧
    (at_ 0).att.cont = false ∧ 255 ≤ (att_ { aAtt with posted := 255 }).att.posted ∧ (att_ { aAtt with cont := true }).att.cont = true ∧
    (∃ c sub ch, aState.launchAt 0 = .trap c sub ch) ∧
    ({ at_ 0 with nodes := (List.range 4160).map fun k => (k, { Node.empty with pool := if k < 64 then 1 else 2 }) } : State).poolEntry 0 = none := by
  refine ⟨⟨0, ?_⟩, ?_, ?_, ?_, ?_, ?_, ⟨_, _, _, rfl⟩, ?_⟩ <;> decide +kernel

theorem wit_caps : aState.att.binds[(0 : BitVec 5).toNat]? = some aBind ∧ aBind.empty = false ∧ aState.att.binds.length ≤ (1 : BitVec 5).toNat ∧
    aBind.kind < 8 ∧ (aState.sreg 1).toNat % 65536 ≤ 0xFFDF ∧ aState.cap aState.att.part 0 = none ∧ 0xFFDF < ((regs_ [0xFFE0]).sreg 1).toNat % 65536 ∧
    ({ aState with caps := [(5, .reserved)] } : State).cap 0 5 = some .reserved := by decide

/-- A fence, a LOAD of 64 bytes, an address that is not aligned, and a decode command whose block is all zero (R486, R494). -/
theorem wit_stage : stageBad 0 = none ∧ stageBad (BitVec.ofNat 128 (64 * 2 ^ 96)) = none ∧ stageBad 1 ≠ none ∧
    decodeBad 0 = none ∧ decodeBad (BitVec.ofNat 128 (2 ^ 127)) ≠ none ∧ blockBad (aState.decodeBlock 0) = true ∧
    decide (16 ≤ aState.core.stgq.items.length + aState.core.stgq.popped + aState.core.stgq.inc.length) = false ∧
    (let s := core_ { aCore with stgq := ⟨List.replicate 16 ⟨0, false, 0, []⟩, [], 0⟩ }
     decide (16 ≤ s.core.stgq.items.length + s.core.stgq.popped + s.core.stgq.inc.length) = true) := by decide

theorem wit_sysregs : (0x107 : BitVec 12).toNat = 0x107 ∧ 8 ≤ ((regs_ [8]).sreg 1).toNat ∧ ((regs_ [3]).sreg 1).toNat % 4 = 3 ∧
    ((regs_ [6]).sreg 1).toNat < 8 ∧ ((regs_ [6]).sreg 1).toNat % 4 ≠ 3 := by decide

/-! Hypotheses: vector and matrix words -/

/-- A replay of one word whose innermost counter runs twice, at its last word. -/
def aReplay : Replay := ⟨0, 0, 4, [0, 0, 0, 0, 0, 0]⟩
def replaying : State :=
  { core_ { aCore with
      streams := [(1, { aStm with replay := some aReplay })]
      nest := [(64, 1), (65, 1)] } with cur := ⟨9, 0, 1⟩ }

theorem wit_replay : replaying.stm.replay = some aReplay ∧ replaying.stm.pc + 4 = aReplay.after ∧ replaying.stm.pc + 8 ≠ aReplay.after ∧
    aReplay.j.length = 6 ∧ aReplay.j.getD 0 0 + 1 < replaying.core.trips 0 0 ∧ (eng_ 1).stm.replay = none ∧
    (∀ k < 6, replaying.core.trips 0 k ≤ [1, 0, 0, 0, 0, 0].getD k 0 + 1) := by decide

theorem wit_vseq : let s (c : List Byte) : State := { eng_ 1 with atts := [(0, { aAtt with code := [(1, encode (.vseq 0 0) ++ c)] })] }
    codeWords 1 1 4 (((s []).section_ 1).drop 4) = none ∧
    codeWords 1 1 4 (((s (encode (.vSetf 3))).section_ 1).drop 4) = some (8, [.vSetf 3]) ∧
    codeWords 1 1 4 (((s (encode .vHalt)).section_ 1).drop 4) = some (8, [.vHalt]) ∧ (s []).core.go.getLsbD 0 = false ∧
    (core_ { aCore with go := 1 }).core.go.getLsbD 0 = true := by decide

theorem wit_mseq : let s (c : List Byte) : State := { eng_ 2 with atts := [(0, { aAtt with code := [(2, encode (.mseq 0) ++ c)] })] }
    codeWords 2 1 24 (((s (encode .mnop ++ encode .mend)).section_ 2).drop 24) = some (48, [.mnop]) ∧
    codeWords 2 2 24 (((s (encode .mnop ++ encode .mend)).section_ 2).drop 24) = some (72, [.mnop, .mend]) ∧
    codeWords 2 1 24 (((s (encode .mHalt)).section_ 2).drop 24) = some (48, [.mHalt]) ∧
    codeWords 2 1 24 (((s []).section_ 2).drop 24) = none := by decide

/-- After no word but the section's end there is no body. -/
theorem wit_mseq_endless : let s : State := { eng_ 2 with atts := [(0, { aAtt with code := [(2, encode (.mseq 0))] })] }
    ∀ n after is, codeWords 2 n 24 ((s.section_ 2).drop 24) = some (after, is) → .mend ∉ is := by
  intro s n after is h
  cases n with
  | zero => simp only [codeWords, Option.some.injEq, Prod.mk.injEq] at h; simp [← h.2]
  | succ n =>
    have : (s.section_ 2).drop 24 = [] := by decide
    rw [this] at h
    simp [codeWords, show decodeFor 2 [] = .overrun from rfl] at h

theorem wit_shapes : (0x3000 : BitVec 14).toNat / 4096 = 3 ∧ (0x400 : BitVec 14).toNat / 1024 % 4 ≠ 0 ∧ (0x23FF : BitVec 14).toNat / 4096 ≠ 3 ∧
    (0x23FF : BitVec 14).toNat / 1024 % 4 = 0 := by decide

theorem wit_vector_issue : aState.trapped = false ∧ (eng_ 1).trapped = false ∧ (eng_ 1).cur.eng = 1 ∧ Instr.vadd aVec ∈ ([.vadd aVec, .vsub aVec] : List Instr) ∧
    aState.core.vshape.toNat / 4096 % 4 ≤ 2 ∧ (aState.vop (.vadd aVec) aVec).i = .vadd aVec ∧ aVec.ext = .v64 0 ∧
    ({ aVec with ext := .v96 1 2 3 0 0 } : VArg).ext = .v96 1 2 3 0 0 := by decide

theorem wit_reduce : (3 : Nat) < 2 ^ eltW 0 ∧ 0xFFFF < 2 ^ eltW 5 ∧ ∀ z ∈ [1, 2], z < 2 ^ eltW 1 := by decide

/-- What a vector row step does with a vector operation of an instruction, on a state with two queue entries. -/
def queued : State :=
  core_ { aCore with lq := [(0, ⟨[5, 6], [], 0⟩)], vshape := 0x2000 }

theorem wit_queues : (Tab.get Fifo.empty queued.core.lq 0).items.length = 2 ∧ queued.core.queueEntries ≤ 2 ∧
    (Tab.get Fifo.empty aState.core.lq 0).items.length < aState.core.queueEntries ∧ aState.core.sqTaken 0 + aState.core.queueEntries ≤ 16 ∧
    (let s := core_ { aCore with sq := [(0, ⟨List.replicate 16 0, [], 0⟩)] }; 16 < s.core.sqTaken 0 + s.core.queueEntries) := by decide

theorem wit_windows : aState.widthOk 3 = true ∧ (core_ { aCore with vshape := 0x2000 }).widthOk 2 = false ∧ (core_ { aCore with vshape := 0x2000, vfmt := 5 }).widthOk 2 = true ∧
    firstBeyond aState.att.limit 0 256 = none ∧ firstBeyond aState.att.limit 0xFF00 256 = none ∧
    firstBeyond aState.att.limit 0xFF01 256 = some 0x10000 ∧ aState.windowFault [0, 4] 4 = none ∧ aState.windowFault [65536] 4 ≠ none := by decide

theorem wit_conversions : q2lTarget (aState.desc 0) = false ∧ (∃ n, q2lTarget (aState.desc n) = true) ∧ cvtSource (aState.desc 0) 0 = false ∧
    (∃ n, cvtSource (aState.desc n) 2 = true) := by
  refine ⟨by decide, ⟨5, by decide⟩, by decide, ⟨2, by decide⟩⟩

/-! Hypotheses: matrix and sort streams, side cores -/

def aMx : MHead := { aHead with fmta := 2, fmtb := 2 }

/-- Every clause of a step's checks: a format, the shape, the window of each operand, the level, and the scale queue. -/
theorem wit_matrix : let s := eng_ 2
    let sel : MScale := { aScale with sca := 1, scb := 1 }
    s.cur.eng = 2 ∧ s.att.cls ≠ 2 ∧ (att_ { aAtt with cls := 2 }).att.cls = 2 ∧
    (s.stm.replay.isSome = true ∨ (aHead.lvlen = false ∧ aHead.lvl = 0)) ∧ ¬ (s.stm.replay.isSome = true ∨ (false = false ∧ (1 : BitVec 3) = 0)) ∧
    (s.inst.tag (64 * s.unitAddr 0 false 0)).getLsbD 15 = false ∧
    (match s.stepCheck 0 aMx aOpd aOpd aScale with | .ok op => decide (s.core.scaleTest op.sc = .pop) | .error _ => false) = true ∧
    (match s.stepCheck 0 aHead aOpd aOpd aScale with | .ok _ => false | .error f => f.cause == 8) = true ∧
    mShape (s.desc 2) (s.desc 2) false ≠ none ∧ mShape (s.desc 2) (s.desc 2) true = none ∧
    s.core.scaleTest sel = .fault 0 ∧ (core_ { aCore with scaleOut := 2 }).core.scaleTest sel = .wait ∧
    firstBeyond s.att.limit (64 * 0x3FF) 8192 = some 65536 := by decide +kernel

/-- A coded step whose operand B starts at the window's end (R211, R285). -/
theorem wit_coded_window : (match (eng_ 2).stepCheck 0 aMx aOpd { aOpd with addr := 0x400 } { aScale with coded := true } with
    | .ok _ => false
    | .error f => f.cause == 0x07 && f.opnd == 2) = true := by decide +kernel

/-- A blocked row's list entry: an empty one that is the last, and one that is not. -/
theorem wit_bsp : let s : State := { att_ { aAtt with cls := 2, insts := [{ aInst with sram := cellsAt 0 (bytesOf 4 0xC0000000) }] } with cur := ⟨9, 0, 2⟩ }
    s.cur.eng = 2 ∧ s.trapped = false ∧ s.att.cls = 2 ∧ s.stm.replay = none ∧ s.core.scaleTest aScale = .pop ∧ (s.bspEntry 0 0).2 = none := by
  decide +kernel

theorem wit_accumulate : ∃ sh, mShape (aState.desc 2) (aState.desc 2) false = some sh :=
  ⟨_, Option.some_get (show (mShape (aState.desc 2) (aState.desc 2) false).isSome = true by decide) |>.symm⟩

/-- A drain of an accumulator's rows to the window: none of its formats in play, and its checks pass. -/
theorem wit_drain : let s := eng_ 2
    (aOut.pack = 0 ∧ aOut.fmta = 0 ∧ aOut.dual = false ∧ aOut.zs = false ∧ aOut.resen = false ∧ aOut.dstsel = 0 ∧ aOut.dropen = false) ∧
    s.unitAddr aOut.dst false 2 % 64 = 0 ∧ 64 * s.unitAddr aOut.dst false 2 + 65536 ≤ s.att.limit ∧
    (match s.drainCheck aOut with | .ok _ => true | .error _ => false) = true ∧
    (match s.drainCheck { aOut with dst := 64 } with | .ok _ => false | .error f => f.cause == 0x07) = true := by decide +kernel

/-- A zero-suppressed tile at the window's last 64 bytes. -/
theorem wit_drain_beyond : let s := eng_ 2
    let op : DOp := ⟨{ aOut with zs := true }, 0, 0, 0, 0, 0, s.desc 2, s.desc 2, 1023, 0, 0, 0, false, none⟩
    op.o.zs = true ∧ op.o.dstsel = 0 ∧ (firstBeyond s.att.limit (64 * op.dst) (op.zsTile s (s.rowsAhead op 0 false)).1.length).isSome = true := by
  decide +kernel

theorem wit_mloads : firstBeyond aState.att.limit 0 1024 = none ∧ firstBeyond aState.att.limit 65024 1024 = some 65536 ∧
    firstBeyond aState.att.limit 65024 512 = none ∧ firstBeyond aState.att.limit 65088 512 ≠ none ∧
    loadTable (List.replicate 512 0) = none := by decide +kernel

/-- Sort words of each outcome, at a row group that just fits and one that just does not. -/
theorem wit_sort : (eng_ 7).cur.eng = 7 ∧ aState.att.limit = 65536 ∧ 256 * ((255 : BitVec 18).toNat + 1) ≤ 65536 ∧ ¬ 256 * ((256 : BitVec 18).toNat + 1) ≤ 65536 ∧
    (1 : Nat) ≤ (0 : BitVec 9).toNat % 128 + 1 ∧ ¬ (2 : Nat) ≤ (0 : BitVec 9).toNat % 128 + 1 ∧
    ((255 : BitVec 9).toNat < 256 ∧ 64 * 1 < (255 : BitVec 9).toNat + 1) ∧ 12 < (511 : BitVec 9).toNat / 32 ∧ ¬ 12 < (0 : BitVec 9).toNat / 32 := by
  decide

theorem wit_sorted_runs : List.Pairwise (fun a b : KItem => before false b.o a.o = false) [⟨1, 5, 0⟩, ⟨2, 6, 0⟩] ∧
    (fp32F.widen 0x3F800000).isNan = false ∧ (fp32F.widen 0x3F800000).lt (fp32F.widen 0x40000000) = true ∧
    (fp32F.widen 0x7FC00000).isNan = true := by
  refine ⟨?_, ?_⟩ <;> decide +kernel

/-- Equal keys keep their order (R472). -/
theorem test_sort_stable : (sortItems false [⟨2, 7, 1⟩, ⟨1, 8, 2⟩, ⟨2, 9, 3⟩]).map (·.o) = [1, 2, 2] := by decide +kernel

/-- A signed loaded byte of the data store, the argument block behind it, the map's edges and an unaligned word (R196). -/
theorem wit_side : let s : State := { core_ { aCore with x := [((4 * 32 + 1), 0x3F00)] } with cur := ⟨9, 0, 4⟩ }
    s.cur.eng = 4 ∧ (s.xr 0).toNat = 0 ∧ sideAccess 0 16 false = none ∧ sideAccess 0x3FF8 16 false = some 1 ∧ sideAccess 0x3F00 4 true = some 2 ∧
    sideAccess 0x80000000 4 false = some 3 ∧ sideAccess 2 4 false = some 4 := by decide

theorem wit_side_queue : let s := eng_ 4
    descBad false 0 = none ∧ descBad false (2 ^ 127) ≠ none ∧ s.core.laq.taken < 64 ∧
    64 ≤ (core_ { aCore with laq := ⟨List.replicate 64 ⟨0, 0⟩, [], 0⟩ }).core.laq.taken ∧
    Tab.get 0 s.core.pushedN 4 = Tab.get 0 s.core.doneN 4 ∧ Tab.get 0 ({ aCore with pushedN := [(4, 1)] } : Core).pushedN 4 = 1 ∧
    s.stm.latch.getD 0 ≤ Tab.get 0 s.core.tk 0 ∧ Tab.get 0 s.core.tk 0 < s.stm.latch.getD 1 := by decide +kernel

/-! Hypotheses: events of a running core -/

def inst_ (i : Inst) : State := att_ { aAtt with insts := [i] }

/-- Before and at T0, before and past a budget, and a level change that waits. -/
theorem wit_arming : (inst_ { aInst with t0 := none }).inst.ready.length + 1 = aAtt.gang ∧ aInst.ready.length ≠ 0 + 1 ∧
    (eng_ 1).inst.t0 = some (eng_ 1).time ∧ (eng_ 1).core.job.isSome = true ∧ (eng_ 1).cur.eng = 1 ∧
    ({ aStm with started := false, start := 5 } : Stream).ended = false ∧ aState.core.clk < 5 ∧
    (att_ { aAtt with nobudget := false }).core.budget ≤ aState.inst.gclk ∧ aState.inst.gclk < ({ aCore with budget := 9 } : Core).budget ∧
    (inst_ { aInst with change := some (7, 3) }).inst.change = some (7, 3) ∧ aState.time < 7 := by decide

def aDesc : Desc := ⟨0, 0⟩
def path (s : State) (d : Desc) (wr : Bool) : Bool :=
  match s.pathCheck false d.slot d.off 256 wr with | .ok x => x == .buf 0 0 | .error _ => false

def paths_ (c : Core) : State := { core_ c with cur := ⟨9, 0, 4⟩ }

/-- A one-row descriptor at the head of each queue over the bound buffer: it passes, it finds no row, and its slot is empty. -/
theorem wit_paths : let s := seen <| paths_ { aCore with laq := ⟨[⟨0xFFE0 * 2 ^ 48, 0⟩], [], 0⟩, saq := ⟨[⟨0xFFE0 * 2 ^ 48, 0⟩], [], 0⟩ }
    let d : Desc := ⟨0xFFE0 * 2 ^ 48, 0⟩
    s.core.job.isSome = true ∧ s.core.frozen = false ∧ s.core.laq.items = [d] ∧ s.headWaits 4 = false ∧ descRows d.w = 1 ∧
    descScale d.w = false ∧ d.dec = false ∧ path s d false = true ∧ s.headWaits 5 = false ∧
    path s d true = true ∧ (Tab.get Fifo.empty s.core.sq d.q).items.length < descRows d.w ∧
    Memory.wf (s.buf 0).mem = true ∧ (match s.loaderRows aDesc with | .ok _ => false | .error _ => true) = true := by decide +kernel

/-- A row on its way, of each kind. -/
theorem wit_row_arrival : ∃ x rest, (paths_ { aCore with lflight := [⟨false, 1, 5, true⟩, ⟨true, 0, 6, false⟩] }).core.lflight = x :: rest ∧ x.scale = false :=
  ⟨_, _, rfl, rfl⟩

theorem wit_held : let s := paths_ { aCore with held := [⟨4, 1, .post 3 2 0⟩] }
    s.core.job.isSome = true ∧ s.core.frozen = false ∧ s.core.held.find? (fun x => x.eng == s.cur.eng) = some ⟨4, 1, .post 3 2 0⟩ ∧
    Tab.get 0 s.core.doneN 4 < 1 ∧ 1 ≤ Tab.get 0 (paths_ { s.core with doneN := [(4, 1)] }).core.doneN 4 := by decide

/-- A trap that nothing resolves, a breakpoint, and a translation fault. -/
def aTrap (cause : Nat) (chunk : Option (Nat × Nat)) : TrapRec :=
  ⟨cause, if cause = 6 then 1 else 0, 0, true, false, false, 9, 0, 0, 0, [], 0, 0, none, [], 0, 0, 0, chunk⟩

def tahr_ (r : TrapRec) (taken : Bool) : State :=
  { core_ { aCore with frozen := true, traps := [r] } with tahr := [(9 * 32, [⟨1152, r, taken⟩])] }

theorem wit_tahr : let s := tahr_ (aTrap 1 none) false
    let c := tahr_ (aTrap 6 (some (0, 0))) true
    s.tahrQ = [⟨1152, aTrap 1 none, false⟩] ∧ { s with cur := coreAt 1152 : State }.core.job.isSome = true ∧
    [aTrap 1 none].find? (fun r => !s.resolvable aAtt r) = some (aTrap 1 none) ∧
    c.resolvable aAtt (aTrap 6 (some (0, 0))) = true ∧ (c.mapChunk 0 0).isSome = true ∧ c.core.halted = false ∧
    { c with cur := coreAt 1152 : State }.core.traps = [aTrap 6 (some (0, 0))] := by decide +kernel

/-- A LOAD of 64 bytes, a fence behind a transfer that is not done, and a range that leaves the window. -/
def aStage (w : BitVec 128) : StgCmd := ⟨w, false, 0, []⟩

theorem wit_admission : let s := core_ { aCore with stgq := ⟨[aStage 0], [], 0⟩ }
    s.core.stgq.items = [aStage 0] ∧ s.core.job.isSome = true ∧ s.core.frozen = false ∧ s.cur.eng = 0 ∧ (aStage 0).op ≤ 5 ∧ (aStage 0).len = 0 ∧
    s.admitFault (aStage 0) = none ∧ (s.admitFault (aStage (BitVec.ofNat 128 (64 * 2 ^ 96)))).isSome = true := by decide +kernel

/-- A transfer of each command that has something to do, and one that is done. -/
def xfer_ (op : Nat) (d : Nat) : State :=
  { core_ aCore with
    cur := ⟨9, 0, 1⟩
    stage := [(9, [⟨0, 0, 0, aStage (BitVec.ofNat 128 (op * 2 ^ 88 + 512 * 2 ^ 96 + 0xFFE0 * 2 ^ 48)), d, false, [], false, false, none, []⟩])] }

theorem wit_transfers : let x (op d : Nat) : Xfer := (xfer_ op d).xfers.getD 0 ⟨0, 0, 0, aStage 0, 0, false, [], false, false, none, []⟩
    (xfer_ 0 0).cur.eng = 0 + 1 ∧ (xfer_ 0 0).xfers[0]? = some (x 0 0) ∧ (x 0 0).core = (xfer_ 0 0).cur.core ∧ (x 0 0).doneB < (x 0 0).cmd.total ∧
    (xfer_ 0 0).xferWaits (x 0 0) = false ∧ (xfer_ 0 0).job.inst < (xfer_ 0 0).att.insts.length ∧ Memory.wf (xfer_ 0 0).inst.sram = true ∧
    (x 0 0).got = [] ∧ (xfer_ 0 0).cur.core < 128 ∧ (xfer_ 0 0).xferDone (x 0 0) = false ∧ (xfer_ 0 512).xferDone (x 0 512) = true ∧ Tab.get 0 (xfer_ 0 512).core.tk (x 0 512).cmd.token ≠ 0xFFFF := by
  decide +kernel

/-- Answers of a peer package: bytes and a refusal for the control stream and for a transfer, whose source is the
peer's; none that comes later. -/
theorem wit_peer_answers : let q : State := { xfer_ 0 0 with replies := [⟨9, 9, 0, none, none⟩, ⟨0, 9, 0, none, some [1]⟩, ⟨0, 9, 0, some 5, none⟩] }
    let far : State := { xfer_ 0 0 with bufs := [(0, { aBuf with peer := some 2 })] }
    let x : Xfer := ⟨0, 0, 0, aStage 0, 0, false, [], false, false, some (2, 5), []⟩
    q.time = 0 ∧ q.reply none = some (some [1]) ∧ q.reply (some 5) = some none ∧ q.reply (some 6) = none ∧ aState.reply none = none ∧
    (q.tookReply none).reply none = none ∧ x.asked = some (2, 5) ∧
    (match far.sourceCheck (0xFFE0 * 2 ^ 48) 128 with | .error f => decide (f = .peer 2 (0xFFE0 * 2 ^ 48) 0 0 128) | .ok _ => false) = true := by
  decide +kernel

/-! Hypotheses: profiler and debugger -/

def vf_ (p : Partition) (c : Core) : State :=
  { core_ c with
    cur := ⟨0, 9 * 2 ^ 24, 0⟩, vfs := [(0, { Vf.reset with valid := true, enabled := true })], parts := [(0, p)]
    links := [(0, { HostLink.reset with trained := true })], pkg := { State.reset.pkg with phase := 3 } }

theorem wit_profiler : let tag (d : Nat) : State := { aState with sites := [(9, { Site.reset 1 with tags := [(0, ⟨0, 7, d⟩)] })] }
    Tab.find ((tag 5).site 9).tags 0 = some ⟨0, 7, 5⟩ ∧ (5 : Nat) < 2 ^ 20 ∧ (vf_ Partition.reset aCore).vf 0 = { Vf.reset with valid := true, enabled := true } ∧
    (vf_ Partition.reset aCore).vfTakes 0 = true ∧ aState.vfTakes 0 = false ∧
    ((vf_ Partition.reset aCore).partn 0).prof.getLsbD 0 = false ∧
    ((vf_ { Partition.reset with prof := 1 } aCore).partn 0).prof.getLsbD 0 = true := by decide +kernel

theorem wit_debugger : let at_ := { Partition.reset with attach := true, dbgen := true }
    let s := vf_ at_ { aCore with halted := true }
    (s.vf s.cur.site).valid = true ∧ s.vfTakes s.cur.site = true ∧ (s.link 0).trained = true ∧ s.pkg.phase = 3 ∧ s.attached 0 = true ∧ (vf_ Partition.reset aCore).attached 0 = false ∧
    (Tab.get Core.idle s.cores (fld s.cur.core 24 8 * 128)).halted = true ∧ (Tab.get Core.idle (vf_ at_ aCore).cores (9 * 128)).halted = false ∧
    (s.attempt 0).part = 0 ∧ s.att.meas = none ∧ (att_ { aAtt with meas := some ⟨0, 0, [], []⟩ }).att.meas.isSome = true ∧
    aCore.writeItem 5 7 ≠ none ∧ aCore.writeItem 0x60000000 7 = none ∧ s.dbgBusy 0 = false ∧
    (vf_ { at_ with dbgcmd := BitVec.ofNat 64 (9 * 2 ^ 24 + 3) } { aCore with halted := true, step := true }).dbgBusy 0 = true := by decide +kernel

theorem wit_imprecise : let s : State := { core_ { aCore with hits := [⟨1, 2, 64, 1⟩] } with parts := [(0, { Partition.reset with attach := true, dbgen := true })] }
    s.core.hits = [⟨1, 2, 64, 1⟩] ∧ s.core.job.isSome = true ∧ (Tab.get Stream.absent s.core.streams 0).ended = false ∧
    s.attached s.att.part = true ∧ s.core.frozen = false := by decide

theorem wit_items : (63 : Nat) < 64 ∧ (191 : Nat) < 192 ∧ (2 ^ 18 - 1 < 2 ^ 28) ∧ (7 : Nat) ∈ [0, 1, 2, 4, 5, 7] ∧ (33 : Nat) % 32 ≠ 0 ∧
    aCore.writeItem (0x70000000 + 33) 5 ≠ none := by decide +kernel

/-! Hypotheses: queues, packets, graphs, dispatch -/

/-- A ring of host memory whose first slot is a packet: its header, and words of its body. -/
def pkt_ (hdr : Nat) (body : List (Nat × Nat)) : State :=
  { aState with
    cur := ⟨0, 0, 0⟩
    vfs := [(0, { Vf.reset with valid := true, enabled := true, queues := [(0, { Queue.reset with st := 2, base := 4096, widx := 1 })] })]
    links := [(0, { HostLink.reset with trained := true })]
    host := ((0, hdr) :: body).foldl (fun m x => Memory.putBytes m (4096 + x.1) (leBytes 8 x.2)) []
    caps := [(0, .cap 0 true true), (5, .cap 0 true true)], nextBuf := 1 }

/-- The packet at the head of the ring. -/
def headOf (s : State) : Option Pkt :=
  match (s.fetchPacket 0 0).1 with | .ok k => some k | _ => none

def fetched (s : State) : Option Nat :=
  match (s.parse 0 0).1 with | .ok k => some k.typ | _ => none

/-- A packet of each type that passes its checks. -/
theorem wit_packets : [pkt_ 0 [], pkt_ 1 [], pkt_ 2 [], pkt_ (3 + 9 * 2 ^ 32) [(8, 4096)], pkt_ (4 + 5 * 2 ^ 32) [],
      pkt_ 5 [(8, 2 ^ 32 + 9 * 2 ^ 16), (16, 0xFFFF)], pkt_ 6 [(8, 64)], pkt_ (7 + 8 * 2 ^ 32) [(8, 64)], pkt_ 8 [], pkt_ 9 [], pkt_ 10 [(8, 7)]].map
      fetched = [0, 1, 2, 3, 4, 5, 6, 7, 8, 9, 10].map some := by decide +kernel

/-- A packet that fails a check, one of a reserved type, and one that waits for an earlier one behind its fence. -/
theorem wit_packet_checks : (match ((pkt_ 3 []).parse 0 0).1 with | .fail 2 => true | _ => false) = true ∧
    (match ((pkt_ 11 []).parse 0 0).1 with | .fail 1 => true | _ => false) = true ∧
    (match (((pkt_ 0x400 []).setQueue 0 0 { (pkt_ 0 []).queue 0 0 with packets := [⟨0, 0, false, 0, false, false, none⟩] }).parse 0 0).1 with
      | .hold _ => true | _ => false) = true ∧
    (match (aState.parse 0 0).1 with | .wait => true | _ => false) = true := by decide +kernel

theorem wit_queues_enabled : let s (q : Queue) : State := (pkt_ 0 []).setQueue 0 0 q
    ((s Queue.reset).queue 0 0).st = 0 ∧ (1 + 4 * 2 ^ 16 : Nat).testBit 0 = true ∧ (1 + 4 * 2 ^ 16) / 2 ^ 16 % 32 = 4 ∧ ((s Queue.reset).vf 0).valid = true ∧
    ((s { Queue.reset with st := 6 }).queue 0 0).st = 6 ∧ ((s { Queue.reset with st := 1, widxOn := true }).queue 0 0).widxOn = true ∧
    (s Queue.reset).vfTakes 0 = true ∧ aState.vfTakes 0 = false ∧ (s Queue.reset).resident 0 = true ∧ (match (s Queue.reset).capRead 0 0 4 with | .ok _ => true | .error _ => false) = true ∧
    (match (s Queue.reset).capRead 0 (2 ^ 48) 4 with | .ok _ => false | .error _ => true) = true ∧
    ([⟨0, 0, false, 0, false, false, some 0⟩] : List Packet).find? (fun y => y.num == 0) = some ⟨0, 0, false, 0, false, false, some 0⟩ := by decide +kernel

/-- A buffer that a partition's slot 0 names, in an extent whose first line a host holds exclusively. -/
def lentCap (s : State) : State :=
  { s with
    bufs := [(0, { aBuf with ext := some 0, size := 2 ^ 28 })], exts := [(0, { Extent.pool with st := 2, buf := 0, links := 1 })]
    lines := [(0, ⟨1, true, 0⟩)] }

/-- A read through a capability address that waits for a host's line; a partition of a sliced group that is not resident; what a
WAIT on such a line answers. -/
theorem wit_queues_wait : let s := lentCap (pkt_ 0 [])
    (match s.capRead 0 0 4 with | .error (.wait 0 0 4) => true | _ => false) = true ∧
    ({ pkt_ 0 [] with groups := [(0, { Group.reset 0 with sliced := true, resident := some 1 })] } : State).resident 0 = false ∧
    (match (s.fetchPacket 0 0).1 with | .ok k => (match s.waitTest 0 0 { k with spec := 8 } with | .ok (none, _) => true | _ => false) | _ => false) = true ∧
    (match (s.fetchPacket 0 0).1 with
      | .ok k => (match (pkt_ 0 []).waitTest 0 0 { k with spec := 8, bytes := List.replicate 14 0 ++ [9, 0] } with | .error _ => true | _ => false)
      | _ => false) = true := by decide +kernel

/-- The premises of a packet that is fetched and checked, a grant to a peer's port, and a SIGNAL's target in device memory. -/
theorem wit_packet_fetched : let s := pkt_ 0 []
    s.fetching 0 0 = true ∧ (s.queue 0 0).head = none ∧ (match (s.fetchPacket 0 0).1 with
      | .ok k => k.sizeOk && k.fieldsOk && s.capsOk (s.partOf 0) k
      | _ => false) = true ∧
    fetched (pkt_ 5 [(8, 2 ^ 32 + 9 * 2 ^ 16), (16, 3)]) = some 5 ∧ (s.signalTarget 0 0 64).isSome = true ∧ (s.signalTarget 0 0 (2 ^ 48)) = none ∧
    s.homeBusy 0 64 8 true = false ∧ s.homeLate = false ∧ (lentCap s).homeBusy 0 64 8 true = true := by decide +kernel

/-- A WAIT for 0 at a host word that is 0, and one for 1. -/
theorem wit_waiting : let s (v : Nat) : State := (pkt_ 7 [(8, 64), (16, v), (24, 1)]).setQueue 0 0 { Queue.reset with st := 3, base := 4096, widx := 1, head := headOf (pkt_ 7 [(8, 64), (16, v), (24, 1)]) }
    ((s 0).queue 0 0).st = 3 ∧ (s 0).resident 0 = true ∧ (s 0).time < 0 + 4096 ∧ (s 0).hostFails 64 8 = false ∧
    ((s 0).vf 0).flrbusy = false ∧ ((s 0).queue 0 0).head.isSome = true ∧
    ((s 0).queue 0 0).head.any (fun k => match (s 0).waitTest 0 0 k with | .ok x => x.1 == some true | _ => false) = true ∧
    ((s 1).queue 0 0).head.any (fun k => match (s 1).waitTest 0 0 k with | .ok x => x.1 == some false | _ => false) = true := by decide +kernel

/-- Bytes at offset 0 of the bound buffer hold a graph descriptor of one node, and its code: a good and a malformed launch. -/
theorem wit_launches : let s := pkt_ 1 []
    fetched s = some 1 ∧ (match (s.readGraph 0 0) with | .error (.code _) => true | _ => false) = true ∧ s.nodes.length + 1 ≤ 65536 ∧
    s.waitingTurns = [] ∧ (s.queue 0 0).turn = none ∧ (match s.readNode 0 0 with | .error (.code _) => true | _ => false) = true ∧
    fetched (pkt_ 2 []) = some 2 := by decide +kernel

/-- A graph of one node at offset 0, its descriptor at 512 and its code object of one control word at 4096 (R98 to R100, 15 R358). -/
def graph_ : State :=
  let put (m : Memory) (x : Nat × Nat × Nat) : Memory := Memory.putBytes m x.1 (leBytes x.2.1 x.2.2)
  { pkt_ 1 [] with
    bufs := [(0, { aBuf with mem := [(0, 4, 0x44475A4F), (4, 2, 1), (6, 2, 1), (8, 2, 0xFFFF), (64, 8, 512), (512, 4, 0x444E5A4F), (516, 1, 1),
      (518, 2, 1), (520, 4, 1), (528, 8, 4096), (4096, 4, 0x4F435A4F), (4100, 2, 1), (4102, 1, 1), (4103, 1, 1), (4104, 4, 260), (4108, 2, 1),
      (4112, 4, 1), (4144, 4, 0x100), (4148, 4, 4)].foldl put [] })] }

theorem wit_launch_good : (match graph_.readGraph 0 0 with | .ok x => x.1.entries.length == 1 && x.2.1.length == 1 | _ => false) = true ∧
    (match graph_.readNode 0 512 with | .ok x => x.1.binds == [] && x.2.1 == [1, 0, 0, 0] | _ => false) = true ∧
    (match (lentCap graph_).readGraph 0 0 with | .error (.wait 0 0 64) => true | _ => false) = true ∧
    (match (lentCap graph_).readNode 0 0 with | .error (.wait 0 0 64) => true | _ => false) = true := by decide +kernel

/-- A ready node of a group that no site suits, and a suspended one. -/
def ready_ (ph : NodePhase) : State := { aState with nodes := [(0, { Node.empty with phase := ph })], runq := [0] }

theorem wit_dispatch : aState.time < 16 ∧ aState.runq = [] ∧ (ready_ .ready).nextDisp ≤ (ready_ .ready).time ∧ (ready_ .ready).runq ≠ [] ∧
    { ready_ .ready with nextDisp := 16 : State }.lostSuspended = none ∧ ((ready_ (.suspended 0)).node 0).phase = .suspended 0 ∧
    (∃ n rest, (ready_ .ready).candidates 0 0 = n :: rest) := by
  refine ⟨by decide, by decide, by decide, by decide, by decide +kernel, by decide, 0, [], by decide +kernel⟩

theorem wit_retire : let s (d : Bool) : State := { core_ { aCore with done := d } with cur := ⟨0, 0, 0⟩ }
    (s false).jobsDone 0 = false ∧ (s true).jobsDone 0 = true ∧ (s true).writesOpen 0 = false ∧ (Tab.find (s true).atts 0).isSome = true ∧
    (s true).children 0 = [] ∧ Tab.find (s true).atts 7 = none ∧ ((s true).graph 0).used = ((s true).graph 0).retry ∧
    (0 : Nat) < { Graph.empty with retry := 1 }.retry ∧ 0xFFFFFFFF ≤ { aBuf with refs := 0xFFFFFFFF }.refs ∧
    { aBuf with bad := [3] }.badAt 0 65536 = true := by decide +kernel

/-- A trap at whose handling the attempt fails, and one that nothing handles. -/
theorem wit_handler : let s : State := tahr_ (aTrap 6 (some (0, 0))) true
    (s.handled 0).isSome = true ∧ aState.handled 0 = none ∧ (Tab.find s.atts 0).isSome = true := by decide +kernel

theorem wit_launched : let s : State := { aState with
      nodes := [(0, { Node.empty with phase := .running 0 }), (1, { Node.empty with phase := .posted, parent := some (0, 0) })], cur := ⟨1, 0, 0⟩ }
    (s.node 1).phase = .posted ∧ (s.node 1).parent = some (0, 0) ∧ (∀ c ∈ s.children 0, c = 1) := by decide +kernel

theorem wit_receipts : let r : Receipt := ⟨0, 0, 0, 0, 0, false, 0, 0, [], [], false, [], [], none⟩
    let s (x : Receipt) (n : Nat) : State := { pkt_ 0 [] with receipts := [x], pkg := { State.reset.pkg with tokens := n } }
    (s r 16).receipts.find? (fun r => !r.taken) = some r ∧ (s r 0).pkg.tokens = 0 ∧ (s r 16).pkg.tokens ≠ 0 ∧
    (s { r with taken := true } 0).receipts = [{ r with taken := true }] ∧ ({ r with status := some 0 } : Receipt).status = some 0 ∧
    (s r 16).receiptStatus r 0 = some 2 ∧ ((s r 16).receiptStatus { r with dest := 2 ^ 48 } 0) = none ∧
    (vf_ Partition.reset aCore |>.link 0).trained = true ∧ (vf_ Partition.reset aCore).pkg.phase = 3 ∧ (s r 0).time % 625000 = 0 ∧ (1 : Nat) % 625000 ≠ 0 := by decide

/-! Hypotheses: the package, its links and functions, lent memory, tenants -/

theorem wit_resets : State.reset.pkg.phase ≠ 3 ∧ State.reset.pkg.cause = 0 ∧ 0x1D5 % 256 = 0xD5 ∧ 0xD4 % 256 ≠ 0xD5 ∧ (vf_ Partition.reset aCore).pfTakes = true ∧ aState.pfTakes = false ∧
    imageCause ⟨false, 0, [], []⟩ [] 0 = 3 ∧ (Site.reset 1).booted 9 [] false ≠ Site.reset 1 ∧
    ({ State.reset.pkg with phase := 3 } : Pkg).phase = 3 := by decide

def site_ (x : Site) : State := { aState with sites := [(9, x)] }

theorem wit_health : let s := { State.reset with cur := ⟨9, 2, 0⟩ }
    (s.site 9).inService = true ∧ (s.site 9).clmask.testBit 2 = true ∧ ((s.site 1).cls = 5 ∧ (s.site 0).cls = 6 ∧ 1 ≤ (s.site 9).cls ∧ (s.site 9).cls ≤ 4) ∧
    ((site_ { Site.reset 1 with mods := [(0, { UcieModule.reset with state := 0 })] }).site 9).mods ≠ [] ∧
    (s.site 9).mods.any (fun m => m.2.state ≠ 0) = true ∧ (site_ { Site.reset 1 with st := 2 }).site 9 ≠ s.site 9 ∧
    (Tab.find aState.bufs 0).isSome = true ∧ 1023 * 64 < (aState.buf 0).size ∧ s.runq = [] := by decide +kernel

/-- A dirty line of each cache, and an attempt that runs on a cluster that is lost. -/
theorem wit_cache_errors : let l : CLine := ⟨0, 0, 1, 1, 0, 0⟩
    ({ aState with l2 := [(9, [(0, l)])] } : State).line2 9 0 = some l ∧ ({ aState with l1 := [(288, [(0, l)])] } : State).line1 288 0 = some l ∧
    l.dirty ≠ 0 ∧ aState.atts = [(0, aAtt)] ∧ aInst ∈ aAtt.insts ∧ aInst.site = 9 ∧ 0 ∈ aInst.clusters := by decide +kernel

/-- A module that trains, works, retrains and is past its time; a port up and down; a link; a grant on its way. -/
theorem wit_links : let m (st since : Nat) : State := site_ { Site.reset 1 with mods := [(0, ⟨st, 64, 4, 32, 0, 0, 0, since⟩)] }
    (m 2 0).hasModule = true ∧ (m 2 0).module_.state = 2 ∧ (m 4 0).time ≤ (m 4 0).module_.since + 1250000 ∧ (m 4 0).hasModule = true ∧ (∃ y ∈ ({ Site.reset 1 with mods := [(0, ⟨4, 64, 4, 32, 0, 0, 0, 0⟩), (1, ⟨2, 64, 4, 32, 0, 0, 0, 0⟩)] } : Site).mods, y.1 ≠ 0 ∧ y.2.state ≠ 0) ∧
    { m 4 0 with time := 1250000 : State }.time ≥ (m 4 0).module_.since + 1250000 ∧
    ({ aState with cur := ⟨3, 0, 0⟩, ports := [(3, ⟨2, 8, 0, 0, 0⟩)] } : State).ports ≠ [] ∧
    aState.peerReach 0 0 65536 true = true ∧ aState.peerReach 0 1 65536 false = false ∧ (aState.mapRange 0 0 128).isSome = true ∧
    aState.homeBusy 0 0 128 true = false ∧ (aState.buf 0).readOnly = false ∧ aBuf.badAt 0 128 = false ∧
    (pkt_ 0 []).bound 0 = true ∧ (pkt_ 0 []).cap 0 7 = none ∧
    ({ aState with grants := [⟨0, 0, 0, 0, 9, 0, false⟩] } : State).grants[0]? = some ⟨0, 0, 0, 0, 9, 0, false⟩ ∧
    aState.resident 0 = true ∧ aState.homeTurn (· == { aState.cur with eng := 9 }) true [(0, 0, 128)] = true ∧
    lent.homeTurn (· == { lent.cur with eng := 9 }) true [(0, 0, 128)] = false ∧ lent.peerReach 0 0 128 true = true ∧
    (lent.mapRange 0 0 128).isSome = true := by decide +kernel

theorem wit_functions : let s (f : Vf) : State := { aState with cur := ⟨0, 3, 0⟩, vfs := [(0, f)] }
    let on : Vf := { Vf.reset with valid := true, enabled := true }
    ((s on).vf 0).enabled = true ∧ ((s Vf.reset).vf 0).enabled = false ∧ ((s { on with flrbusy := true }).vf 0).flrbusy = true ∧
    (vf_ Partition.reset aCore).pfTakes = true ∧ (s on).pfTakes = false ∧ ((vf_ Partition.reset aCore).link 0).vfEnable = false ∧
    ({ s on with links := [(0, { HostLink.reset with trained := true, vfEnable := true })], pkg := { State.reset.pkg with phase := 3 } } : State).pkg.phase = 3 ∧
    (s on).homeq.any HomeReq.dev = false ∧ ((s on).vf 0).mig.busy = false ∧ ((s { on with mig := { Mig.reset with busy := true } }).vf 0).mig.busy = true ∧
    ((s { on with queues := [(0, { Queue.reset with st := 1 })] }).queue 0 0).st ∉ [0, 5, 6] ∧ ((s on).queue 0 0).st ∈ [0, 5, 6] ∧ (3 : Nat).testBit 0 = true ∧
    ({ s on with links := [(0, { HostLink.reset with trained := true })] } : State).link 0 = { HostLink.reset with trained := true } := by
  decide +kernel

theorem wit_register_widths : (4 : Nat) % 4 = 0 ∧ (6 : Nat) % 4 ≠ 0 ∧ startsAt 1 0x1000 = true ∧ startsAt 0 0 = false := by
  decide +kernel

/-- A link with its range and an extent in each state, its line held exclusively, and a recall on its way. -/
def home_ (st : Nat) : State :=
  { State.reset with
    links := [(1, { HostLink.reset with trained := true, cxl := true, memEnable := true })]
    exts := [(0, { Extent.pool with st := st, links := 2 })], cur := ⟨1, 0, 0⟩, lines := [(0, ⟨2, true, 0⟩)], recalls := [⟨0, 1, true, 0⟩] }

theorem wit_home : (home_ 2).dpaOf 1 64 = some 64 ∧ (home_ 2).dpaOf 0 64 = none ∧ extOf 64 = 0 ∧ (home_ 2).isolated 1 = false ∧
    (home_ 2).lentTo 0 1 = true ∧ (home_ 4).lentTo 0 1 = false ∧ ((home_ 4).ext 0).st = 4 ∧ ((home_ 2).line 0).excl = true ∧
    { home_ 2 with pkg := { (home_ 2).pkg with iso := 2 } : State }.isolated 1 = true ∧ (home_ 2).recallOf 0 1 = some ⟨0, 1, true, 0⟩ ∧
    (home_ 2).time < 0 + 12500000 ∧ (home_ 0).pkg.extBusy = false ∧ (home_ 0).extUsed 0 = false ∧ (pkt_ 0 []).bound 0 = true ∧
    ((pkt_ 0 []).cap 0 7).isSome = false ∧ (home_ 2).extQuiet 1 = true ∧ (home_ 2).extQuiet 0 = false ∧ (home_ 3).extQuiet 0 = false ∧
    (vf_ Partition.reset aCore).pfTakes = true ∧ ((home_ 3).ext 0).st = 3 ∧
    ({ home_ 1 with pkg := { State.reset.pkg with extBusy := true } } : State).pkg.cmdExt = 0 ∧ (home_ 1).cap 0 0 = none ∧
    ({ home_ 1 with caps := [(0, .reserved)] } : State).cap 0 0 ≠ none := by decide +kernel

theorem wit_tenants : let s (g : Group) : State := { aState with cur := ⟨0, 0, 0⟩, groups := [(0, g)], parts := [(0, { Partition.reset with plugin := 3 })] }
    let on : Group := { Group.reset 0 with sliced := true }
    (s on).time % 1250 = 0 ∧ (1 : Nat) % 1250 ≠ 0 ∧ ((s on).group 0).sliced = true ∧ ((s on).group 0).switch = none ∧
    ((s { on with resident := some 0, slice := 0 }).group 0).resident = some 0 ∧ (s on).nextWanting ((s on).partsOf 0) 0 = none ∧
    ((s { on with switch := some ⟨0, [0], 1, true⟩ }).group 0).switch = some ⟨0, [0], 1, true⟩ ∧
    ((s { on with switch := some ⟨0, [0], 1, false⟩ }).group 0).switch = some ⟨0, [0], 1, false⟩ ∧ ((s on).partn 0).plugin ≠ 0 ∧
    ((vf_ Partition.reset aCore).link 0).trained = true ∧ (vf_ Partition.reset aCore).pkg.phase = 3 ∧ ((s on).link 0).trained = false ∧
    (s on).pkg.fsel < 16 ∧ 16 ≤ ({ (s on).pkg with fsel := 20 } : Pkg).fsel ∧ fdescOk 1 = true ∧ fdescOk 15 = false := by decide +kernel

/-! Hypotheses of single clauses: numbers, vector rows, matrix operands, data paths, the stage, the scheduler, homes -/

/-- Operands of the special functions: a finite one, an integer one, NaN, a power of two and one that is none. -/
theorem wit_special : ofFp32 0x3FC00000 = .fin ⟨false, 0xC00000, -23⟩ ∧ (⟨false, 0xC00000, -23⟩ : Machine.Num).asInt = none ∧
    ofFp32 0x3F800000 = .fin ⟨false, 0x800000, -23⟩ ∧ ((0x800000 * 2 ^ 126 : Nat) : Int) = 1 * 2 ^ 149 ∧ ofFp32 0x7FC00000 = .nan ∧
    0x80000000 < (0xBF800000 : Word).toNat ∧ (0xBF800000 : Word).toNat ≤ 0xFF800000 ∧ (0x3FC00000 : Word).toNat < 0x43000000 ∧
    ∀ k < 277, (0x3FC00000 : Word) ≠ BitVec.ofNat 32 (if 23 ≤ k then (k - 22) * 2 ^ 23 else 2 ^ k) := by decide +kernel

/-- Rows of five-trit bytes and of ternary codes: a bad one, with the trap on and off, and good ones. -/
theorem wit_ternary : let s (v ctl : Nat) : State := { core_ { aCore with v := [(16, BitVec.ofNat 2048 v)], vctlV := BitVec.ofNat 32 ctl, vfmt := 8 } with cur := ⟨9, 0, 1⟩ }
    let a : VArg := { aVec with va := 16, guard := 15 }
    let byte (v ctl : Nat) (i : Instr) : Nat := laneN ((s v ctl).vrowIn ((s v ctl).vop i a)).a 0
    243 ≤ byte 243 4 (.unpk3 a) ∧ byte 242 0 (.unpk3 a) < 243 ∧ byte 3 4 (.vdqnt a) = 3 ∧ descKind ((s 3 4).vop (.vdqnt a) a).fmt = 8 ∧
    ((s 3 4).vop (.vdqnt a) a).t3 = true ∧ ((s 3 0).vop (.vdqnt a) a).t3 = false ∧ q2lTarget ((s 3 4).vfmtDesc) = true := by decide +kernel

def mx_ (cls : Nat) (m : List (Nat × List Byte)) (tags : List (Nat × BitVec 16)) : State :=
  { att_ { aAtt with cls := cls, insts := [{ aInst with sram := m.flatMap fun x => cellsAt x.1 x.2, tags := tags }] } with cur := ⟨9, 0, 2⟩ }

def h5 : MHead := { aHead with fmta := 5, fmtb := 5 }
def unit_ (n : Nat) : MOpd := { aOpd with addr := BitVec.ofNat 20 n }

/-- What the checks of a step answer: the A slab of one that passes, or the cause and subcode. -/
def stepOf (s : State) (k : Nat) (h : MHead) (a b : Nat) (t : MScale) : Option (Option Nat) × Nat × Nat :=
  match s.stepCheck k h (unit_ a) (unit_ b) t with
  | .ok op => (some op.slab, 0, 0)
  | .error f => (none, f.cause, f.sub)

/-- `mspz` with a good and a bad header, a zero-suppressed A whose last slab just fits and one that does not, formats from tags,
and a coded B. -/
theorem wit_step_operands : let zs := mx_ 2 [] [(0, 0x9000)]
    stepOf (mx_ 2 [(64, [0x2B])] []) 1 h5 0 1 aScale = (some none, 0, 0) ∧ stepOf (mx_ 2 [(64, [0x2A])] []) 1 h5 0 1 aScale = (none, 2, 0x12) ∧
    stepOf zs 0 h5 0 64 aScale = (some (some 0), 0, 0) ∧ stepOf zs 0 h5 3 64 aScale = (some (some 3), 0, 0) ∧
    stepOf zs 0 { h5 with fmta := 7, fmtb := 7 } 2 64 aScale = (some (some 2), 0, 0) ∧
    stepOf zs 0 { h5 with fmta := 7, fmtb := 7 } 3 64 aScale = (none, 2, 0x15) ∧
    stepOf (mx_ 2 [] [(0, 0x8005)]) 0 aHead 0 1 aScale = (some none, 0, 0) ∧
    stepOf (mx_ 2 [] []) 0 h5 0 1 { aScale with coded := true } = (some none, 0, 0) := by decide +kernel

/-- What an entry answers: nothing, a step on a dense or a zero-suppressed slab, or the cause and the operand. -/
def bsp_ (w0 w1 : Nat) (tags : List (Nat × BitVec 16)) (h : MHead) (prev : Option Nat) : List Nat :=
  match (mx_ 2 [] tags).bspStep ⟨h, aScale, 0, 0, 0, 0, 0, 0, [2 ^ 31 + w0, w1, 0, 0, 0, 0, 0, 0].flatMap (bytesOf 4), none, prev, none⟩ with
  | .ok op => [match op with | none => 0 | some op => if op.slab = none then 1 else 2]
  | .error f => [f.cause, f.opnd]

/-- List entries: empty, malformed, on a slab, a zero-suppressed one, and each that a tag, a format or the window stops. -/
theorem wit_bsp_entries : [bsp_ 0 0 [] h5 none, bsp_ 0 1 [] h5 none, bsp_ 4 0 [] h5 (some 4), bsp_ (2 ^ 16) 64 [] h5 none,
      bsp_ (2 ^ 16) 64 [(0, 0x9000)] h5 none, bsp_ (2 ^ 16) 64 [] aHead none, bsp_ (2 ^ 16) 64 [] { h5 with fmtb := 0 } none,
      bsp_ (2 ^ 16) 64 [] { h5 with fmtb := 2 } none, bsp_ (2 ^ 16 + 17) 64 [] h5 none, bsp_ (2 ^ 16) 1023 [] h5 none] =
    [[0], [2, 5], [2, 5], [1], [2], [8, 1], [8, 2], [9, 2], [7, 1], [7, 2]] := by decide +kernel

/-- Formats and rows of a drain's output, a tile's rows, and the key rows that a sort command has read. -/
theorem wit_drained_rows : (descFmt (aState.desc 5)).isSome = true ∧ 0 < (127 : Nat) ∧ (List.replicate 127 (0, false) ++ [((0 : AccRow), true)]).length = 128 ∧
    (List.replicate 128 (List.replicate 128 0)).length = 128 ∧ (∀ r ∈ List.replicate 128 (List.replicate 128 0), r.length = 128) ∧
    [(0 : Row)].length = (0 : BitVec 9).toNat + 1 := by
  refine ⟨by decide, by decide, by rw [List.length_append, List.length_replicate]; rfl, List.length_replicate, fun r h => ?_, by decide⟩
  rw [List.eq_of_mem_replicate h, List.length_replicate]

/-- A zero-suppressed tile of zeros in 8 bits: 18 sectors. -/
def zsHead : List Byte := [0xE5, 5, 1, 0] ++ bytesOf 4 2304 ++ bytesOf 2 (lchk 2304 0) ++ List.replicate 6 0
def zsTile : List Byte := zsHead ++ List.replicate 2288 0

theorem zsTile_data : zsData zsTile = zsHead ++ List.replicate 2144 0 := by decide +kernel

theorem zsTile_present : zsPresent (zsData zsTile) = List.replicate 16384 false := by
  rw [zsTile_data, zsPresent, List.eq_replicate_iff]
  refine ⟨by rw [List.length_map, List.length_range], fun b hb => ?_⟩
  obtain ⟨i, -, rfl⟩ := List.mem_map.1 hb
  have h : numAt (zsHead ++ List.replicate 2144 0) (16 + i / 8) 1 = 0 := by
    rw [numAt, List.drop_append, List.drop_eq_nil_of_le (by rw [show zsHead.length = 16 from by decide]; omega), List.nil_append,
      List.drop_replicate, List.take_replicate]
    rcases Nat.le_one_iff_eq_zero_or_eq_one.1 (Nat.min_le_left 1 (2144 - (16 + i / 8 - zsHead.length))) with h | h <;> rw [h] <;> decide
  rw [h]; simp

/-- The tile is read in its own format, and refused in another. -/
theorem wit_zs_tile : (zsDecode 5 1 zsTile).isSome = true ∧ zsDecode 6 1 zsTile = none := by
  have n : ((List.replicate 16384 false).filter id).length = 0 := by rw [List.filter_replicate]; rfl
  simp only [zsDecode, zsTile_present, n]
  exact ⟨by rw [if_pos (by decide +kernel)]; rfl, if_neg (by decide +kernel)⟩

theorem wit_mbsp_accumulate : mShape (aState.desc 5) (aState.desc 5) false = some ⟨128, 1, 8, 8⟩ ∧
    ((List.range 4).filter fun c => 9 / 2 ^ c % 2 == 1) = [0, 3] := by decide +kernel

/-- A decode-on head descriptor over the bound buffer with these attributes, which starts with a zero-suppressed tile. -/
def coded_ (attr : BitVec 13) : State :=
  { seen (paths_ { aCore with laq := ⟨[⟨BitVec.ofNat 128 (0xFFE0 * 2 ^ 48 + 2 ^ 107), 0⟩], [], 0⟩ }) with
    bufs := [(0, { aBuf with attr := attr, mem := (cellsAt 0 zsHead).filter fun x => x.2 != 0 })] }

/-- Decode-on descriptors: of 8-bit codes, of a coded buffer, of a zero-suppressed one, whose tile is read whole; and one behind its own fault. -/
theorem wit_decoded_rows : let d : Desc := ⟨BitVec.ofNat 128 (0xFFE0 * 2 ^ 48 + 2 ^ 107), 0⟩
    let f := aState.desc 5
    let ok (s : State) (n : Nat) : Bool := match s.pathCheck false d.slot d.off n false with | .ok x => x == .buf 0 0 | .error _ => false
    (coded_ 0x14).core.laq.items = [d] ∧ descScale d.w = false ∧ d.dec = true ∧ (coded_ 0x14).slotBuf d.slot = some ((coded_ 0x14).buf 0) ∧
    attrZs 0x14 = false ∧ attrFmt 0x14 = 5 ∧ descSlot f = 8 ∧ d.formatBad 0x14 5 f = false ∧ d.formatBad 0x814 5 f = true ∧ ok (coded_ 0x14) 64 = true ∧
    attrZs 0x1014 = true ∧ d.formatBad 0x1014 5 f = false ∧ ok (coded_ 0x1014) 128 = true ∧ ok (coded_ 0x1014) 2304 = true ∧
    leNat ((((coded_ 0x1014).seenAt false (.buf 0 0) 128).drop 4).take 4) = 2304 ∧ 2304 % 128 = 0 ∧ 2304 ≤ 128 * zsSectors 4 16384 ∧
    (∃ i ∈ Tab.get [] ({ paths_ aCore with tahr := [(288, [⟨1152, ⟨6, 1, 4, true, false, true, 9, 0, 0, 0, [], 0, 0, none, [], 0, 0, 0, none⟩, false⟩])] } : State).tahr (paths_ aCore).cur.cluster,
      i.core = (paths_ aCore).cur.id ∧ i.rec_.qhead = true ∧ i.rec_.engine = 4) := by decide +kernel

theorem wit_decoded_tile : (coded_ 0x1014).seenAt false (.buf 0 0) 2304 = zsTile := by decide +kernel

/-- The site's stage engine translates the bound buffer's first chunk; the buffer lies in a lent extent. -/
def staged (op : Nat) : State := { xfer_ op 0 with tlb := [(319, [⟨0, 0, 0, 0, 0⟩])], l2 := [(9, [(0, ⟨0, 0, 3, 0, 0, 0⟩)])] }
def stagedLent (op : Nat) : State := { staged op with bufs := lent.bufs, exts := lent.exts, lines := lent.lines }

theorem wit_stage_acts : let ok (s : State) (n : Nat) : Bool := match s.sourceCheck (0xFFE0 * 2 ^ 48) n with | .ok x => x == .buf 0 0 | .error _ => false
    let st (s : State) : Bool := match s.pathCheck true 0xFFE0 0 128 true with | .ok x => x == .buf 0 0 | .error _ => false
    ok (staged 0) 128 = true ∧ ok (staged 2) 512 = true ∧ ok (staged 4) 512 = true ∧ ok (xfer_ 0 0) 128 = false ∧ st (staged 1) = true ∧
    (staged 1).homeBusy 0 0 128 true = false ∧
    (match (stagedLent 1).pathCheck true 0xFFE0 0 128 true with | .error f => decide (f = .wait [(0, 0, 128)]) | .ok _ => false) = true ∧
    (staged 3).access (0xFFE0 * 2 ^ 48) 0 0 true false false = .buf 0 0 ∧ (staged 3).lostAt 0 0 512 = false ∧
    (staged 3).homeTurn (· == { (staged 3).cur with eng := 6 }) false [(0, 0, 512)] = true ∧ (xfer_ 0 0).reply (some 5) = none := by decide +kernel

/-- An index entry of zeros: a tile of zeros, which is written whole. -/
theorem wit_stage_decode : let x : Xfer := ⟨0, 0, 0, ⟨BitVec.ofNat 128 (5 * 2 ^ 88 + 0xFFE0 * 2 ^ 48), true, 0,
      bytesOf 8 (0xFFE0 * 2 ^ 48) ++ List.replicate 8 0 ++ bytesOf 4 1⟩, 0, false, [], false, false, none, []⟩
    x.doneB < x.cmd.total ∧ (match (staged 5).stageTile x 0 with | .ok y => y.1.length == 4096 && y.2 == [(.buf 0 0, 8)] | .error _ => false) = true ∧
    (match ((staged 5).fillReads [(.buf 0 0, 8)]).pathCheck true 0xFFE0 0 1024 true with | .ok y => y == .buf 0 0 | .error _ => false) = true ∧
    ((staged 5).fillReads [(.buf 0 0, 8)]).homeBusy 0 0 1024 true = false := by decide +kernel

/-- A core whose job has stopped at a yield, and one that is frozen but about to run a step. -/
theorem wit_debug_stands : let stands (c : Core) : Bool := c.frozen && !(c.halted && c.step && c.traps.isEmpty)
    ({ aCore with done := true } : Core).done = true ∧ ({ aCore with done := true } : Core).live ≠ [] ∧ aCore.done = false ∧
    stands { aCore with frozen := true } = true ∧ stands { aCore with frozen := true, halted := true, step := true } = false := by decide +kernel

/-- What a dispatch step takes: yes, a fault for the last time, a failure or a wait. -/
def takenCode {α : Type} : Taken α → Nat
  | .ok _ _ => 0 | .last c => 256 + c | .fails c _ _ => 512 + c | .wait _ => 1024

/-- Each outcome of taking bindings, arguments, code and the measured inputs at a first dispatch. -/
theorem wit_first_dispatch : let s := graph_
    let b (kind rights ref : Nat) (exp : Bool) : BindSpec × Nat := (⟨kind, rights, ref, 0, exp, false, 0, 64⟩, 0)
    let bind (t : State) (x : BindSpec × Nat) : Nat := takenCode (t.takeBind 0 0 x)
    [bind s (b 1 1 0 false), bind s (b 2 3 7 false), bind s (b 2 3 7 true), bind s (b 2 3 5 true), bind s (b 3 3 0xFFE0 true), bind s (b 0 1 5 false),
      bind s (b 0 1 6 false), bind s (b 4 3 5 false), bind (s.setBuf 0 { s.buf 0 with refs := 0xFFFFFFFF }) (b 4 3 5 false)] =
      [0, 0, 0, 256 + 6, 256 + 6, 0, 256 + 6, 0, 256 + 6] ∧
    takenCode (s.takeArgs { Node.empty with inl := some [1] } 0) = 0 ∧ takenCode (s.takeArgs Node.empty 0) = 0 ∧
    takenCode (s.takeArgs { Node.empty with arg := 64, arglen := 8 } 0) = 0 ∧ takenCode ((lentCap s).takeArgs { Node.empty with arg := 64, arglen := 8 } 0) = 1024 ∧
    takenCode (s.takeCode 0 4096 1) = 0 ∧ takenCode (s.takeCode 0 0 1) = 256 + 5 := by decide +kernel
def launched : State := match exec .graphLaunch graph_ with | .next t => t | _ => graph_

/-- A good graph of one node enters the table, and its node is dispatched. -/
theorem wit_dispatched : launched.runq = [0] ∧ (match launched.dispatch 0 [9] with | .ok t => t.nextAtt == 1 | .error _ => false) = true := by
  decide +kernel
/-- A node below a running one, and one that is not; a binding that names a producer. -/
theorem wit_retire_below : let s : State := { aState with
      nodes := [(0, { Node.empty with phase := .running 0 }), (1, { Node.empty with phase := .waiting, parent := some (0, 0), binds := [⟨1, 1, 0, 2, false, false, 0, 0⟩] })] }
    (Tab.find s.nodes 1).isSome = true ∧ (s.node 1).phase ≠ .posted ∧ (s.node 1).binds[0]? = some ⟨1, 1, 0, 2, false, false, 0, 0⟩ ∧
    Tab.find (s.node 1).refs 0 = none ∧ (s.node 0).parent = none ∧ (s.node 1).parent = some (0, 0) ∧ (Tab.find s.nodes 0).isSome = true ∧
    s.dispatchClass (s.node 1) = none ∧ (launched.dispatchClass (launched.node 0)).isSome = true := by decide +kernel

/-- A link that trains, a grant that a partition which is not resident has out, a peer's accesses in and out of reach. -/
theorem wit_link_events : let s : State := { pkt_ 0 [] with cur := ⟨0, 0, 9⟩, ports := [(0, ⟨2, 8, 0, 0, 0⟩)], grants := [⟨0, 0, 0, 0, 0, 0, false⟩] }
    let away : State := { s with groups := [(0, { Group.reset 0 with sliced := true, resident := some 1 })] }
    s.grants[s.cur.core]? = some ⟨0, 0, 0, 0, 0, 0, false⟩ ∧ s.resident (s.partOf 0) = true ∧ away.resident (away.partOf 0) = false ∧
    (s.port 0).state = 2 ∧ s.bound 0 = true ∧ s.cap 0 7 = none ∧ (State.reset.port 0).state = 0 ∧ State.reset.grants = [] ∧
    (0 : Nat) < (if State.reset.pkg.straps = 1 then 2 else if State.reset.pkg.straps = 2 then 4 else 1) ∧ 32 ∈ [64, 32] := by decide +kernel

/-- Requests at homes: none, one that may perform, one of a device, a message that follows writes; and a line that a link holds. -/
theorem wit_home_queue : let s := home_ 2
    let r : HomeReq := .hostRead 1 0 false
    s.homeq = [] ∧ [r] = [] ++ [r] ∧ s.leftPlace r = false ∧ s.reqIds r = [0] ∧ r.last = false ∧ (HomeReq.after (.pfIrq 4)).last = true ∧
    (HomeReq.devWrite 0 0 [1] false none).dev = true ∧ (s.line 0).mask = 2 ∧ (if Nat.testBit 2 1 then 2 - 2 ^ 1 else 2) = 0 ∧
    (if Nat.testBit 2 2 then 2 - 2 ^ 2 else 2) ≠ 0 ∧ (s.line 9).mask = 0 := by decide +kernel

theorem wit_full_set : let s : State := { home_ 2 with lines := List.replicate 16 (0, ⟨0, false, 0⟩) }
    (s.line 0).mask = 0 ∧ 16 ≤ (s.setMates 0).length := by
  refine ⟨by decide +kernel, ?_⟩
  simp [State.setMates]

/-- The energy tick at a multiple of 1,250 cycles: a bound partition, an attempt that runs, and a list of attempts without repeats. -/
theorem wit_energy_tick : let s := pkt_ 0 []
    s.time % 1250 = 0 ∧ (Tab.keys s.atts).Nodup ∧ s.bound 0 = true ∧ s.bound 1 = false ∧ 0 ∈ s.running := by decide +kernel

end Sys2Proof.Tests
end

section
/-! The dispatch class of a node (01 R22 to R24): what a class falls back to, what its chain reaches, and the order in
which the listed classes and then their chains are tried. -/

namespace Sys2Proof.Machine

/-! The code object of a class, and the fallback rules (R22, R23) -/

theorem codeClassOn_of_code {code : List Nat} {c : Nat} (h : codeOf code c ≠ 0) : codeClassOn code c = some c := by
  simp [codeClassOn, h]

theorem codeClassOn_dns_of_vec {code : List Nat} (h1 : codeOf code 1 = 0) (h3 : codeOf code 3 ≠ 0) :
    codeClassOn code 1 = some 3 := by
  simp [codeClassOn, h1, h3]

theorem codeClassOn_eq_none {code : List Nat} {c : Nat} (h : codeOf code c = 0) (hc : c ≠ 1) : codeClassOn code c = none := by
  simp [codeClassOn, h, hc]

theorem fallback_spr_iff {code : List Nat} {f : Nat} : fallback code 2 = some f ↔ f = 1 ∧ codeOf code 1 ≠ 0 := by
  simp [fallback, and_comm, eq_comm]

theorem fallback_srt_iff {code : List Nat} {f : Nat} : fallback code 4 = some f ↔ f = 3 ∧ codeOf code 3 ≠ 0 := by
  simp [fallback, and_comm, eq_comm]

theorem fallback_vec_iff {code : List Nat} {f : Nat} :
    fallback code 3 = some f ↔ f = 1 ∧ (codeOf code 1 ≠ 0 ∨ codeOf code 3 ≠ 0) := by
  rw [fallback, Option.ite_none_right_eq_some, Option.some.injEq, and_comm, eq_comm]

/-- Only SPR, VEC and SRT fall back. -/
theorem class_of_fallback {code : List Nat} {c f : Nat} (h : fallback code c = some f) : c = 2 ∨ c = 3 ∨ c = 4 := by
  unfold fallback at h
  split at h
  · exact .inl rfl
  · exact .inr (.inr rfl)
  · exact .inr (.inl rfl)
  · exact absurd h nofun

/-! Availability (R22) -/

theorem State.available_iff {s : State} {nd : Node} {c : Nat} :
    s.available nd c = true ↔ ∃ k, codeClassOn nd.code c = some k ∧
      nd.width ≤ (s.sitesOf c).countP fun x => decide (nd.gangs.getD (k - 1) 0 ≤ (s.site x).cores) := by
  unfold State.available
  cases codeClassOn nd.code c with
  | none => simp
  | some k => simp [List.countP_eq_length_filter]

/-! What a fallback chain reaches (R23, R24) -/

/-- The first available class on the fallback chain of a class: what rule (b) of R24 takes from one listed class. -/
def State.reachedFrom (s : State) (nd : Node) (c : Nat) : Option Nat := (chainOf nd.code c).find? fun f => s.available nd f

section
variable {s : State} {nd : Node} {c f g : Nat}

theorem State.reachedFrom_of_no_fallback (h : fallback nd.code c = none) : s.reachedFrom nd c = none := by
  simp [State.reachedFrom, chainOf, h]

theorem State.reachedFrom_of_available (h : fallback nd.code c = some f) (ha : s.available nd f = true) :
    s.reachedFrom nd c = some f := by
  simp [State.reachedFrom, chainOf, h, ha]

theorem State.reachedFrom_of_chain_ends (h : fallback nd.code c = some f) (ha : s.available nd f = false)
    (hf : fallback nd.code f = none) : s.reachedFrom nd c = none := by
  simp [State.reachedFrom, chainOf, h, ha, hf]

theorem State.reachedFrom_of_second (h : fallback nd.code c = some f) (ha : s.available nd f = false)
    (hf : fallback nd.code f = some g) : s.reachedFrom nd c = if s.available nd g then some g else none := by
  cases hg : s.available nd g <;> simp [State.reachedFrom, chainOf, h, ha, hf, hg]

end

/-! The two rules of R24 -/

section
variable {s : State} {nd : Node} {pre post : List Nat} {c f : Nat}

/-- Rule (a): the first available class of the list. -/
theorem State.dispatchClass_of_listed (hl : nd.classes = pre ++ c :: post) (hpre : ∀ p ∈ pre, s.available nd p = false)
    (hc : s.available nd c = true) : s.dispatchClass nd = some c := by
  have hfind : (nd.classes.find? fun c => s.available nd c) = some c :=
    List.find?_eq_some_iff_append.mpr ⟨hc, pre, post, hl, by simpa using hpre⟩
  simp [State.dispatchClass, hfind]

/-- Where no listed class is available, the chains of the listed classes are tried in list order. -/
theorem State.dispatchClass_of_none_listed (h : ∀ c ∈ nd.classes, s.available nd c = false) :
    s.dispatchClass nd = nd.classes.findSome? (s.reachedFrom nd) := by
  have hfind : (nd.classes.find? fun c => s.available nd c) = none := List.find?_eq_none.mpr (by simpa using h)
  simp only [State.dispatchClass, hfind]
  rfl

/-- Rule (b): the first class that a chain reaches. -/
theorem State.dispatchClass_of_fallback (h : ∀ c ∈ nd.classes, s.available nd c = false) (hl : nd.classes = pre ++ c :: post)
    (hpre : ∀ p ∈ pre, s.reachedFrom nd p = none) (hc : s.reachedFrom nd c = some f) : s.dispatchClass nd = some f :=
  (State.dispatchClass_of_none_listed h).trans (List.findSome?_eq_some_iff.mpr ⟨pre, c, post, hl, hc, hpre⟩)

/-- Neither rule gives a class: NO_CLASS. -/
theorem State.dispatchClass_eq_none (h : ∀ c ∈ nd.classes, s.available nd c = false)
    (hr : ∀ c ∈ nd.classes, s.reachedFrom nd c = none) : s.dispatchClass nd = none :=
  (State.dispatchClass_of_none_listed h).trans (List.findSome?_eq_none_iff.mpr hr)

end

/-- Settles O54: the two rules of R24 over what each chain reaches, the chain followed link by link as R23 gives it. -/
theorem dispatchClassIsTheFirstAvailable : Obligations.DispatchClassIsTheFirstAvailable := by
  unfold Obligations.DispatchClassIsTheFirstAvailable
  refine ⟨?_, fun code => ⟨fun _ => fallback_spr_iff, fun _ => fallback_srt_iff, fun _ => fallback_vec_iff,
    fun _ _ => class_of_fallback, codeClassOn_of_code, fun h1 => codeClassOn_dns_of_vec (Decidable.not_not.mp h1),
    fun _ => codeClassOn_of_code, fun _ h hc => codeClassOn_eq_none (Decidable.not_not.mp h) hc⟩⟩
  intro s nd av next reach
  have hreach (c : Nat) : reach c = s.reachedFrom nd c := by
    cases h : fallback nd.code c with
    | none => simp [reach, next, h, State.reachedFrom_of_no_fallback h]
    | some f =>
      cases ha : s.available nd f with
      | true => simp [reach, next, av, h, ha, State.reachedFrom_of_available h ha]
      | false =>
        cases hf : fallback nd.code f with
        | none => simp [reach, next, av, h, ha, hf, State.reachedFrom_of_chain_ends h ha hf]
        | some g => simp [reach, next, av, h, ha, hf, State.reachedFrom_of_second h ha hf]
  refine ⟨fun _ _ _ hl hpre hc => State.dispatchClass_of_listed hl hpre hc, fun h => ⟨?_, ?_⟩,
    fun c => State.available_iff⟩
  · intro pre c post f hl hpre hc
    exact State.dispatchClass_of_fallback h hl (fun p hp => hreach p ▸ hpre p hp) (hreach c ▸ hc)
  · intro hr
    exact State.dispatchClass_eq_none h fun c hc => hreach c ▸ hr c hc

/-! Its hypotheses are met: the worked example of chapter 01 (after R26), on a healthy DX-OZ8-A -/

/-- A node with the class list, CODE entries, gang sizes and width given. -/
def classNode (classes code gangs : List Nat) (width : Nat) : Node :=
  { Node.empty with classes := classes, code := code, gangs := gangs, width := width }

/-- Node A of the example, with a sort class before it: rule (a) passes over SRT, which has no object, to SPR. -/
theorem wit_dispatch_listed : State.reset.dispatchClass (classNode [4, 2] [64, 64, 0, 0] [32, 32, 0, 0] 1) = some 2 :=
  State.dispatchClass_of_listed (pre := [4]) (post := []) rfl (by decide +kernel) (by decide +kernel)

/-- Node B of the example, listed after a class without an object: one SRT instance cannot take two gangs, and VEC can. -/
theorem wit_dispatch_fallback : State.reset.dispatchClass (classNode [2, 4] [0, 0, 64, 64] [0, 0, 24, 24] 2) = some 3 :=
  State.dispatchClass_of_fallback (pre := [2]) (c := 4) (post := []) (by decide +kernel) rfl (by decide +kernel)
    (State.reachedFrom_of_available (by decide +kernel) (by decide +kernel))

/-- As node B with three gangs: the chain goes on from VEC, which has two instances, to DNS with the VEC object. -/
theorem wit_dispatch_second_fallback :
    State.reset.dispatchClass (classNode [4] [0, 0, 64, 64] [0, 0, 24, 24] 3) = some 1 :=
  State.dispatchClass_of_fallback (pre := []) (c := 4) (post := []) (by decide +kernel) rfl (by decide +kernel)
    ((State.reachedFrom_of_second (f := 3) (g := 1) (by decide +kernel) (by decide +kernel) (by decide +kernel)).trans
      (if_pos (by decide +kernel)))

/-- Node C of the example: no VEC object, so the chain of SRT ends at once. -/
theorem wit_dispatch_no_class : State.reset.dispatchClass (classNode [4] [0, 0, 0, 64] [0, 0, 0, 24] 2) = none :=
  State.dispatchClass_eq_none (by decide +kernel) (by decide +kernel)

end Sys2Proof.Machine
end

section
/-! Branches and jumps of the control stream (16 R380, R381, R385): where a taken one lands, where it traps, and which
condition each conditional branch tests. -/

namespace Sys2Proof.Machine

/-! Targets (R381, R385 step 4) -/

section
variable {s : State} {tgt : Int} {link : Option (BitVec 6)}

/-- The held write of a jump's link register: PC + 4, with latency 1 (R380). -/
def State.linkDue (s : State) : Option (BitVec 6) → List Pend
  | none => []
  | some a => sregDue (s.core.clk + 1) a (BitVec.ofNat 32 (s.stm.pc + 4))

theorem State.goto_jumpDone (s : State) (tgt : Nat) (ps : List Pend) :
    ((s.setCore { s.core with loops := branchLoops s.core.loops s.stm.pc tgt }).withDue ps).goto tgt 2 = s.jumpDone tgt ps := by
  simp [State.withDue, State.goto_eq, State.jumpDone, State.stm]

theorem State.withDue_nil_setCore (s : State) (c : Core) : (s.setCore c).withDue [] = s.setCore c := by
  simp [State.withDue]

/-- A write of a register that follows a change of the core is held, and none where the register is `s0`. -/
theorem State.wr_setCore (s : State) (c : Core) (lat : Nat) (d : BitVec 6) (v : Word) :
    (s.setCore c).wr lat d v = (s.setCore c).withDue (sregDue (c.clk + lat) d v) := by
  rw [State.wr_withDue, State.core_setCore]
  split
  · next h => rw [h, sregDue_zero, State.withDue_nil_setCore]
  · rfl

theorem State.jump_of_outside (link : Option (BitVec 6)) (h : tgt < 0 ∨ ((s.section_ 0).length : Int) ≤ tgt) :
    s.jump tgt link = s.trap 0x12 0 := if_pos h

theorem State.inside_of_canLand (h : s.canLand tgt = true) : 0 ≤ tgt ∧ tgt < ((s.section_ 0).length : Int) := by
  simp only [State.canLand, Bool.and_eq_true, decide_eq_true_eq] at h
  exact h.1

/-- Inside the section, what is left of `canLand` is the loop map's check: a jump traps there or goes on. -/
theorem State.jump_of_inside (link : Option (BitVec 6)) (h0 : 0 ≤ tgt) (hlen : tgt < ((s.section_ 0).length : Int)) :
    s.jump tgt link = if s.canLand tgt then s.jumpDone tgt.toNat (s.linkDue link) else s.trap 0x10 0 := by
  have hin : ¬(tgt < 0 ∨ ((s.section_ 0).length : Int) ≤ tgt) := by omega
  simp only [State.jump, if_neg hin, State.canLand, h0, hlen, decide_true, Bool.true_and, Bool.not_eq_true']
  split
  · next hbody => rw [if_neg (by rw [hbody]; decide)]
  · next hbody =>
    rw [if_pos (by simpa using hbody)]
    cases link with
    | none => exact (congrArg (State.goto · _ 2) (State.withDue_nil_setCore ..).symm).trans (State.goto_jumpDone ..)
    | some a => exact (congrArg (State.goto · _ 2) (State.wr_setCore ..)).trans (State.goto_jumpDone ..)

theorem State.jump_of_canLand (link : Option (BitVec 6)) (h : s.canLand tgt = true) :
    s.jump tgt link = s.jumpDone tgt.toNat (s.linkDue link) := by
  obtain ⟨h0, hlen⟩ := State.inside_of_canLand h
  rw [State.jump_of_inside link h0 hlen, if_pos h]

theorem State.jump_of_inactive_body (link : Option (BitVec 6)) (h0 : 0 ≤ tgt) (hlen : tgt < ((s.section_ 0).length : Int))
    (h : s.canLand tgt = false) : s.jump tgt link = s.trap 0x10 0 := by
  rw [State.jump_of_inside link h0 hlen, if_neg (by rw [h]; decide)]

end

/-! Conditions (R380) -/

theorem not_slt_iff_toInt_le {A B : Word} : (!A.slt B) = true ↔ B.toInt ≤ A.toInt := by
  rw [← BitVec.sle_eq_not_slt, BitVec.sle_iff_toInt_le]

theorem not_ult_iff_toNat_le {A B : Word} : (!A.ult B) = true ↔ B.toNat ≤ A.toNat := by
  rw [← BitVec.ule_eq_not_ult, BitVec.ule_iff_toNat_le]

section
variable {s : State} {a b : BitVec 6} {off : BitVec 12} {c : Word → Word → Bool} {P : Prop}

theorem State.branch_taken (h : c (s.sreg a) (s.sreg b) = true) : s.branch a b off c = s.jump (s.target off) none := if_pos h

theorem State.branch_not_taken (h : ¬c (s.sreg a) (s.sreg b) = true) : s.branch a b off c = s.ctlDone 4 [] :=
  (if_neg h).trans (s.nextCtl_ctlDone 4)

/-- A conditional branch under its condition as a proposition: on where it fails, to the target where it holds. -/
theorem State.branch_lands (hc : c (s.sreg a) (s.sreg b) = true ↔ P) :
    (¬P → (.next (s.branch a b off c) : Host.Outcome State Fault Refusal) = .next (s.ctlDone 4 [])) ∧
    (P → s.canLand (s.target off) = true →
      (.next (s.branch a b off c) : Host.Outcome State Fault Refusal) = .next (s.jumpDone (s.target off).toNat [])) :=
  ⟨fun h => congrArg _ (State.branch_not_taken (h ∘ hc.mp)),
    fun h hl => congrArg _ ((State.branch_taken (hc.mpr h)).trans (State.jump_of_canLand none hl))⟩

end

/-! A taken branch or a jump is one resolved jump -/

/-- The word i branches or jumps from s to tgt: a jump, or a branch whose condition holds (R380). -/
def State.Takes (s : State) (a b : BitVec 6) (off : BitVec 12) (i : Instr) (tgt : Int) : Prop :=
  (tgt = s.target off ∧
    (i = .jmp off ∨ i = .jal a off ∨ (i = .beq a b off ∧ s.sreg a = s.sreg b) ∨ (i = .bne a b off ∧ s.sreg a ≠ s.sreg b) ∨
      (i = .blt a b off ∧ (s.sreg a).toInt < (s.sreg b).toInt) ∨ (i = .bge a b off ∧ (s.sreg b).toInt ≤ (s.sreg a).toInt) ∨
      (i = .bltu a b off ∧ (s.sreg a).toNat < (s.sreg b).toNat) ∨ (i = .bgeu a b off ∧ (s.sreg b).toNat ≤ (s.sreg a).toNat))) ∨
  (tgt = ((s.sreg a).toNat / 4 * 4 : Nat) ∧ i = .jr a)

theorem exec_of_takes {s : State} {a b : BitVec 6} {off : BitVec 12} {i : Instr} {tgt : Int}
    (h : s.Takes a b off i tgt) : ∃ link, exec i s = .next (s.jump tgt link) := by
  have taken {c : Word → Word → Bool} (hc : c (s.sreg a) (s.sreg b) = true) :
      ∃ link, (.next (s.branch a b off c) : Host.Outcome State Fault Refusal) = .next (s.jump (s.target off) link) :=
    ⟨none, congrArg _ (State.branch_taken hc)⟩
  obtain ⟨rfl, h⟩ | ⟨rfl, rfl⟩ := h
  · obtain rfl | rfl | ⟨rfl, hc⟩ | ⟨rfl, hc⟩ | ⟨rfl, hc⟩ | ⟨rfl, hc⟩ | ⟨rfl, hc⟩ | ⟨rfl, hc⟩ := h
    · exact ⟨none, rfl⟩
    · exact ⟨some a, rfl⟩
    · exact taken (beq_iff_eq.mpr hc)
    · exact taken (bne_iff_ne.mpr hc)
    · exact taken (BitVec.slt_iff_toInt_lt.mpr hc)
    · exact taken (not_slt_iff_toInt_le.mpr hc)
    · exact taken (BitVec.ult_iff_toNat_lt.mpr hc)
    · exact taken (not_ult_iff_toNat_le.mpr hc)
  · exact ⟨none, rfl⟩

/-- Settles O12: every taken branch and every jump is one jump to a resolved target, whose two checks `canLand` holds. -/
theorem branchesAndJumpsGoToTheirTarget : Obligations.BranchesAndJumpsGoToTheirTarget := by
  unfold Obligations.BranchesAndJumpsGoToTheirTarget
  refine ⟨fun s a b off => ?_, fun s a b off i tgt ht => ?_⟩
  · exact ⟨State.branch_lands beq_iff_eq, State.branch_lands bne_iff_ne, State.branch_lands BitVec.slt_iff_toInt_lt,
      State.branch_lands not_slt_iff_toInt_le, State.branch_lands BitVec.ult_iff_toNat_lt, State.branch_lands not_ult_iff_toNat_le,
      fun h => congrArg _ (State.jump_of_canLand none h), fun h => congrArg _ (State.jump_of_canLand (some a) h),
      fun h => congrArg _ (State.jump_of_canLand none h)⟩
  · obtain ⟨link, hexec⟩ := exec_of_takes ht
    exact ⟨fun hout => hexec.trans (congrArg _ (State.jump_of_outside link hout)),
      fun h0 hlen hbody => hexec.trans (congrArg _ (State.jump_of_inactive_body link h0 hlen hbody))⟩

/-! Its hypotheses are met: the section of seven words with one loop, whose body is the word at 16 -/

/-- A branch and a linking jump to the section's last word. -/
theorem wit_jump_lands : exec (.beq 0 0 6) Tests.aState = .next (Tests.aState.jumpDone 24 []) ∧
    exec (.jal 1 6) Tests.aState = .next (Tests.aState.jumpDone 24 [⟨1, .sreg 1 4⟩]) := by
  obtain ⟨-, -, -, -, -, -, -, hjal, -⟩ := branchesAndJumpsGoToTheirTarget.1 Tests.aState 1 0 6
  obtain ⟨⟨-, hbeq⟩, -⟩ := branchesAndJumpsGoToTheirTarget.1 Tests.aState 0 0 6
  exact ⟨hbeq rfl (by decide), hjal (by decide)⟩

/-- A branch to the section's end, and a `jmp` into the body of the loop that is not active. -/
theorem wit_jump_traps : exec (.bge 0 0 7) Tests.aState = .next (Tests.aState.trap 0x12 0) ∧
    exec (.jmp 4) Tests.aState = .next (Tests.aState.trap 0x10 0) := by
  obtain ⟨hout, -⟩ := branchesAndJumpsGoToTheirTarget.2 Tests.aState 0 0 7 (.bge 0 0 7) 28
    (.inl ⟨by decide, .inr (.inr (.inr (.inr (.inr (.inl ⟨rfl, Int.le_refl _⟩)))))⟩)
  obtain ⟨-, hbody⟩ := branchesAndJumpsGoToTheirTarget.2 Tests.aState 0 0 4 (.jmp 4) 16 (.inl ⟨by decide, .inl rfl⟩)
  exact ⟨hout (by decide), hbody (by decide) (by decide) (by decide)⟩

end Sys2Proof.Machine
end
